-- ==== Sys2Proof/Word.lean ====
section
/-! DEFINITION. The word types of color_codec and the four channels of a pixel (00_scope R10, R15). -/

namespace Sys2Proof

/-- One byte of memory (20_memory R60). -/
abbrev Byte := BitVec 8

/-- A 32-bit word: a packed value, a format identifier, a command word, a narrow register. -/
abbrev Word := BitVec 32

/-- The 64-bit slot of one register in the block's window (10_state R21). -/
abbrev Slot := BitVec 64

/-- The four 8-bit channels of a pixel (00_scope R15). -/
structure Channels where
  /-- red -/
  r : Byte
  /-- green -/
  g : Byte
  /-- blue -/
  b : Byte
  /-- alpha -/
  a : Byte
  deriving DecidableEq, Repr

end Sys2Proof
end

