-- ==== Sys2Proof/Config.lean ====
section
/-! DEFINITION. What one build of color_codec fixes (00_scope R7, 20_memory R84), and the pixels no rule
fixes, as a constant without a body. -/

namespace Sys2Proof

/-- How a 6-bit channel is widened to 8 bits (41_color_codec R152). -/
inductive Expand6 where
  /-- the low bits are filled with the top bits of the same value -/
  | replicate
  /-- a sum clamped to 255 -/
  | sumClamp
  deriving DecidableEq, Repr

/-- How an 8-bit alpha is narrowed to the 1-bit alpha of ARGB15 and ABGR15 (41_color_codec R154). -/
inductive Alpha1Pack where
  /-- the most significant bit -/
  | msb
  /-- one for every nonzero alpha -/
  | nonzero
  deriving DecidableEq, Repr

/-- The implementation parameters of 00_scope R7, and the addresses the platform's memory port rejects
(20_memory R84, 93 U21). They are arguments of the model: the state carries them and nothing changes them. -/
structure Params where
  /-- `ADDR_W`, the width of a memory address in bits -/
  addrW : Nat
  /-- `MAX_DIM`, the size above which the copy commands reject a width or height -/
  maxDim : Nat
  /-- `BACKEND_COPY_PRESENT` -/
  backendCopyPresent : Bool
  /-- `RESAMPLER_PRESENT` -/
  resamplerPresent : Bool
  /-- `EXPAND6` -/
  expand6 : Expand6
  /-- `ALPHA1_PACK` -/
  alpha1Pack : Alpha1Pack
  /-- the rejected addresses, as half-open ranges (first, one past the last) -/
  rejects : List (Nat × Nat)
  deriving DecidableEq, Repr

/-- The values 00_scope R7 chooses; no address is rejected (20_memory R84). -/
def Params.standard : Params where
  addrW := 64
  maxDim := 2 ^ 31 - 1
  backendCopyPresent := true
  resamplerPresent := false
  expand6 := .replicate
  alpha1Pack := .msb
  rejects := []

/-- FREE VALUE. Byte `index` of the pixels the resampling oracle delivers at its draw number `draw`
(42_blit_engine R232: "values chosen by an oracle (a draw, under no law)"). Log entry 5. -/
opaque Config.resampledByte (draw index : Nat) : Byte

end Sys2Proof
end

