-- ==== Sys2Proof/Syntax.lean ====
section
/-! DEFINITION. The commands, the pixel formats, the operand registers, and what a host does to the block. -/

namespace Sys2Proof

/-- The 21 commands of 30_encoding R91. A command carries no operands: each is implicit in the operand
registers that 10_state R22 names for it. -/
inductive Instr where
  /-- NOP, 60_exceptions R340 -/
  | nop
  /-- FMT_BPP, 40_format_metadata R130 -/
  | fmtBpp
  /-- FMT_BYTES, 40_format_metadata R131 -/
  | fmtBytes
  /-- FMT_HASALPHA, 40_format_metadata R132 -/
  | fmtHasAlpha
  /-- FMT_EQNA, 40_format_metadata R133 -/
  | fmtEqna
  /-- FMT_NAME, 40_format_metadata R134 -/
  | fmtName
  /-- GETCOLOR, 41_color_codec R160 -/
  | getColor
  /-- SPLITCOLOR, 41_color_codec R165 -/
  | splitColor
  /-- READCOLOR, 41_color_codec R170 -/
  | readColor
  /-- WRITECOLOR, 41_color_codec R174 -/
  | writeColor
  /-- WRITECOLOR_IA, 41_color_codec R176 -/
  | writeColorIa
  /-- CONVERTCOLOR, 41_color_codec R180 -/
  | convertColor
  /-- COPY, 42_blit_engine R200 -/
  | copy
  /-- COPY_OVL, 42_blit_engine R205 -/
  | copyOvl
  /-- COPY_NOVL, 42_blit_engine R214 -/
  | copyNovl
  /-- FILL, 42_blit_engine R225 -/
  | fill
  /-- SCALE, 42_blit_engine R230 -/
  | scale
  /-- GLYPH, 43_bitmap_decoders R262 -/
  | glyph
  /-- MONO, 43_bitmap_decoders R270 -/
  | mono
  /-- ICON, 43_bitmap_decoders R280 -/
  | icon
  /-- CURSOR, 43_bitmap_decoders R290 -/
  | cursor
  deriving DecidableEq, Repr

/-- The 21 enumerated pixel formats of 30_encoding R100. A format word that is not one of their
identifiers is `Invalid`, written `none` (30_encoding R101). -/
inductive Fmt where
  | argb32 | xrgb32 | abgr32 | xbgr32 | bgra32 | bgrx32 | rgba32 | rgbx32
  | bgrx32Depth30 | rgbx32Depth30
  | rgb24 | bgr24
  | rgb16 | bgr16 | argb15 | rgb15 | abgr15 | bgr15
  | rgb8 | a4 | mono
  deriving DecidableEq, Repr

/-- The 25 operand registers of 10_state R21, in the order of their numbers. -/
inductive OperandReg where
  | dst | src | pal | msk | tbl
  | dfmt | sfmt | dstride | sstride
  | dx | dy | sx | sy | w | h | sw | sh
  | flags | color0 | color1 | chan
  | srclen | msklen | tbllen | bpp
  deriving DecidableEq, Repr

/-- One thing the host does between commands (00_scope R8, 30_encoding R110, 20_memory R80, 70 R360).
Bus accesses are whole 64-bit slots at a byte offset of the block's register window. -/
inductive HostEvent where
  /-- a bus write of a slot: `set`, or `go` when the offset is CMD's -/
  | write (offset : Nat) (value : Slot)
  /-- a bus read of a slot: `get` -/
  | read (offset : Nat)
  /-- the host's own write of a byte of memory -/
  | memWrite (addr : Nat) (value : Byte)
  /-- the host's own read of a byte of memory -/
  | memRead (addr : Nat)
  /-- the external reset, between commands -/
  | reset
  deriving DecidableEq, Repr

end Sys2Proof
end

