-- ==== Sys2Proof/WellFormed.lean ====
section
/-! DEFINITION. When a command, a build's parameters and a host event are well formed. -/

namespace Sys2Proof

/-- Every command is well formed: a command word carries no register numbers and no immediates
(30_encoding R90), so there is nothing a term of `Instr` could hold that an encoding does not. -/
def Instr.wf (i : Instr) : Bool :=
  match i with
  | .nop | .fmtBpp | .fmtBytes | .fmtHasAlpha | .fmtEqna | .fmtName
  | .getColor | .splitColor | .readColor | .writeColor | .writeColorIa | .convertColor
  | .copy | .copyOvl | .copyNovl | .fill | .scale
  | .glyph | .mono | .icon | .cursor => true

/-- `ADDR_W` is "any width of at least 32" (00_scope R7), and an address register sits in a 64-bit slot
(10_state R21), which bounds it by 64. -/
def Params.wf (p : Params) : Bool :=
  decide (32 ≤ p.addrW ∧ p.addrW ≤ 64)

/-- A bus access is one whole register slot (10_state R21, R37); the host's memory accesses lie inside
the address space of 2^`ADDR_W` bytes (20_memory R60). -/
def HostEvent.wf (p : Params) (e : HostEvent) : Bool :=
  match e with
  | .write offset _ => decide (offset % 8 = 0)
  | .read offset => decide (offset % 8 = 0)
  | .memWrite addr _ => decide (addr < 2 ^ p.addrW)
  | .memRead addr => decide (addr < 2 ^ p.addrW)
  | .reset => true

end Sys2Proof
end

