-- ==== Sys2Proof/Decode.lean ====
section
/-! DEFINITION. The decoder of command words and, after it, the encoder (30_encoding R90 to R95). -/

namespace Sys2Proof

/-- Why a command word is refused by the decoder. -/
inductive DecodeError where
  /-- the word matches no row of 30_encoding R91: a reserved encoding (R95) -/
  | reserved (w : Word)
  deriving DecidableEq, Repr

/-- The opcode map of 30_encoding R91: an exact match on all 32 bits (R92), total, every other word
reserved (R95). -/
def decode (w : Word) : Except DecodeError Instr :=
  match w.toNat with
  | 0x00 => .ok .nop
  | 0x01 => .ok .fmtBpp
  | 0x02 => .ok .fmtBytes
  | 0x03 => .ok .fmtHasAlpha
  | 0x04 => .ok .fmtEqna
  | 0x05 => .ok .fmtName
  | 0x10 => .ok .getColor
  | 0x11 => .ok .splitColor
  | 0x12 => .ok .readColor
  | 0x13 => .ok .writeColor
  | 0x14 => .ok .writeColorIa
  | 0x15 => .ok .convertColor
  | 0x20 => .ok .copy
  | 0x21 => .ok .copyOvl
  | 0x22 => .ok .copyNovl
  | 0x23 => .ok .fill
  | 0x24 => .ok .scale
  | 0x30 => .ok .glyph
  | 0x31 => .ok .mono
  | 0x32 => .ok .icon
  | 0x33 => .ok .cursor
  | _ => .error (.reserved w)

/-- The word of a command: `op` in bits 7:0, bits 31:8 zero (30_encoding R90, R91). -/
def encode (i : Instr) : Word :=
  match i with
  | .nop => 0x00000000#32
  | .fmtBpp => 0x00000001#32
  | .fmtBytes => 0x00000002#32
  | .fmtHasAlpha => 0x00000003#32
  | .fmtEqna => 0x00000004#32
  | .fmtName => 0x00000005#32
  | .getColor => 0x00000010#32
  | .splitColor => 0x00000011#32
  | .readColor => 0x00000012#32
  | .writeColor => 0x00000013#32
  | .writeColorIa => 0x00000014#32
  | .convertColor => 0x00000015#32
  | .copy => 0x00000020#32
  | .copyOvl => 0x00000021#32
  | .copyNovl => 0x00000022#32
  | .fill => 0x00000023#32
  | .scale => 0x00000024#32
  | .glyph => 0x00000030#32
  | .mono => 0x00000031#32
  | .icon => 0x00000032#32
  | .cursor => 0x00000033#32

/-- What the decoder reads from the low `nbits` bits of `w`, every higher bit of the command word 0. -/
def decodeTableWord (nbits w : Nat) : Option Instr :=
  (decode (BitVec.ofNat 32 (w % 2 ^ nbits))).toOption

end Sys2Proof
end

