-- ==== Sys2Proof/Machine/State.lean ====
section
/-! DEFINITION. The state of color_codec (10_state R20), the ways a command and a step can end, and the
state after reset (10_state R45, 70 R361). -/

namespace Sys2Proof.Machine

/-- The 25 operand registers of 10_state R21. The five address registers hold the low `ADDR_W` bits of
what was written, in a 64-bit slot; all others are 32 bits wide. -/
structure OperandRegs where
  dst : Slot
  src : Slot
  pal : Slot
  msk : Slot
  tbl : Slot
  dfmt : Word
  sfmt : Word
  dstride : Word
  sstride : Word
  dx : Word
  dy : Word
  sx : Word
  sy : Word
  w : Word
  h : Word
  sw : Word
  sh : Word
  flags : Word
  color0 : Word
  color1 : Word
  chan : Word
  srclen : Word
  msklen : Word
  tbllen : Word
  bpp : Word
  deriving DecidableEq, Repr

/-- STATUS, register 27 (10_state R32). The reserved bits read 0 and hold nothing. -/
structure Status where
  /-- ERR, the outcome code of the most recent command -/
  err : BitVec 4
  /-- FAULT, sticky until reset -/
  fault : Bool
  /-- BINIT, the backend handle has been initialised (10_state R38), sticky until reset -/
  binit : Bool
  deriving DecidableEq, Repr

/-- Memory as a list of (address, byte) pairs in one canonical form (`Memory.wf`). -/
abbrev Memory := List Host.Cell

/-- How a command can end other than with success (60_exceptions R321). -/
inductive Err where
  /-- code 1, failure: null buffer, oversized dimensions, malformed sizes -/
  | invalidArg
  /-- code 2, failure: unsupported format or depth combination -/
  | unsupported
  /-- code 3, failure: missing required context -/
  | missingContext
  /-- code 4, failure: backend unavailable -/
  | backend
  /-- code 5, failure: a reserved command word -/
  | illegalCmd
  /-- code 6, fault: the memory port rejected an access -/
  | bus
  /-- code 7, fault: ranges overlap on the non-overlapping path -/
  | assertion
  deriving DecidableEq, Repr

/-- The part of the state a command changes while it runs: memory, the backend handle's bit, and the
model's count of oracle draws. -/
structure Work where
  mem : Memory
  binit : Bool
  draws : Nat
  deriving DecidableEq, Repr

/-- The architectural state (10_state R20), the parameters of the build, and the model's own fields. -/
structure State where
  /-- operand registers 0 to 24 -/
  regs : OperandRegs
  /-- RES, register 25 (10_state R30) -/
  res : Word
  /-- RCHAN, register 26 (10_state R30) -/
  rchan : Word
  /-- STATUS, register 27 (10_state R32) -/
  status : Status
  /-- the memory reached through the memory port (20_memory R60) -/
  mem : Memory
  /-- the implementation parameters (00_scope R7); CAP is computed from them -/
  params : Params
  /-- MODEL: the number of oracle draws so far (log entry 5) -/
  draws : Nat
  /-- MODEL: what the host does next, in order (log entry 3) -/
  script : List HostEvent
  /-- MODEL: what the host's last read returned (log entry 4) -/
  readData : Slot
  deriving DecidableEq, Repr

/-- Why the model stops with a fault. No command does: a fault of the block (60_exceptions R330) is a next
state with STATUS.FAULT set. -/
inductive Fault where
  /-- Raised by a host event that reads or writes memory at an address outside the 2^`ADDR_W` bytes of
  20_memory R60, which do not contain it. Safe: the machine stops. -/
  | noSuchAddress (addr : Nat)
  deriving DecidableEq, Repr

/-- Why the model has no meaning for a step. -/
inductive Refusal where
  /-- Raised by an arm of `exec` whose command has no meaning yet; no arm is left so. Safe. -/
  | notModelled (mnemonic : String)
  /-- Raised by a host bus access whose offset is not that of a whole register slot, which "are not
  defined by this spec" (10_state R37). Safe: the machine stops. -/
  | partialSlot (offset : Nat)
  deriving DecidableEq, Repr

/-- Every operand register at 0 (10_state R45). -/
def OperandRegs.reset : OperandRegs where
  dst := 0
  src := 0
  pal := 0
  msk := 0
  tbl := 0
  dfmt := 0
  sfmt := 0
  dstride := 0
  sstride := 0
  dx := 0
  dy := 0
  sx := 0
  sy := 0
  w := 0
  h := 0
  sw := 0
  sh := 0
  flags := 0
  color0 := 0
  color1 := 0
  chan := 0
  srclen := 0
  msklen := 0
  tbllen := 0
  bpp := 0

/-- The state right after reset (10_state R45, 70 R361), with the parameter values of 00_scope R7. Memory
lists nothing (log entry 1) and the host has nothing pending (log entry 3). -/
def State.reset : State where
  regs := OperandRegs.reset
  res := 0
  rchan := 0
  status := ⟨0, false, false⟩
  mem := []
  params := Params.standard
  draws := 0
  script := []
  readData := 0

end Sys2Proof.Machine
end

