-- ==== Sys2Proof/Machine/Formats.lean ====
section
/-! DEFINITION. The format table and the metadata of a format (30_encoding R100, R101, 40_format_metadata
R120 to R129). -/

namespace Sys2Proof

/-- The identifier of a format (30_encoding R100). -/
def Fmt.ident (f : Fmt) : Word :=
  match f with
  | .argb32 => 0x20018888#32
  | .xrgb32 => 0x20010888#32
  | .abgr32 => 0x20028888#32
  | .xbgr32 => 0x20020888#32
  | .bgra32 => 0x20048888#32
  | .bgrx32 => 0x20040888#32
  | .rgba32 => 0x20038888#32
  | .rgbx32 => 0x20030888#32
  | .bgrx32Depth30 => 0x20040AAA#32
  | .rgbx32Depth30 => 0x20030AAA#32
  | .rgb24 => 0x18010888#32
  | .bgr24 => 0x18020888#32
  | .rgb16 => 0x10010565#32
  | .bgr16 => 0x10020565#32
  | .argb15 => 0x10011555#32
  | .rgb15 => 0x0F010555#32
  | .abgr15 => 0x10021555#32
  | .bgr15 => 0x0F020555#32
  | .rgb8 => 0x08008000#32
  | .a4 => 0x04004000#32
  | .mono => 0x01001000#32

/-- The closed enumeration, in the order of 30_encoding R100's table. -/
def Fmt.all : List Fmt :=
  [.argb32, .xrgb32, .abgr32, .xbgr32, .bgra32, .bgrx32, .rgba32, .rgbx32,
   .bgrx32Depth30, .rgbx32Depth30, .rgb24, .bgr24, .rgb16, .bgr16, .argb15, .rgb15, .abgr15, .bgr15,
   .rgb8, .a4, .mono]

/-- `decode_fmt` (30_encoding R101): the format whose identifier the word is, `none` for `Invalid`. -/
def decodeFmt (w : Word) : Option Fmt :=
  Fmt.all.find? fun f => f.ident == w

/-- `bpp(F)`, bits per pixel (40_format_metadata R123). -/
def Fmt.bpp (f : Fmt) : Nat :=
  match f with
  | .argb32 | .xrgb32 | .abgr32 | .xbgr32 | .bgra32 | .bgrx32 | .rgba32 | .rgbx32
  | .bgrx32Depth30 | .rgbx32Depth30 => 32
  | .rgb24 | .bgr24 => 24
  | .rgb16 | .bgr16 | .argb15 | .abgr15 => 16
  | .rgb15 | .bgr15 => 15
  | .rgb8 => 8
  | .a4 => 4
  | .mono => 1

/-- `ceil_div` (00_scope R12). -/
def ceilDiv (a b : Nat) : Nat :=
  (a + b - 1) / b

/-- `round_up` (00_scope R12). -/
def roundUp (a m : Nat) : Nat :=
  ceilDiv a m * m

/-- `bytes(F)`, bytes per pixel (40_format_metadata R124). -/
def Fmt.bytes (f : Fmt) : Nat :=
  ceilDiv f.bpp 8

/-- `has_alpha(F)` (40_format_metadata R125). -/
def Fmt.hasAlpha (f : Fmt) : Bool :=
  match f with
  | .argb32 | .abgr32 | .rgba32 | .bgra32 | .argb15 | .abgr15 | .rgb8 | .a4 | .mono => true
  | .xrgb32 | .xbgr32 | .rgbx32 | .bgrx32 | .bgrx32Depth30 | .rgbx32Depth30
  | .rgb24 | .bgr24 | .rgb16 | .bgr16 | .rgb15 | .bgr15 => false

/-- The four pairs of formats that differ only in whether a byte is alpha or padding
(40_format_metadata R126). -/
def alphaTwins : List (Fmt × Fmt) :=
  [(.argb32, .xrgb32), (.abgr32, .xbgr32), (.rgba32, .rgbx32), (.bgra32, .bgrx32)]

/-- `eqna(A, B)`, equal ignoring alpha (40_format_metadata R126). -/
def eqna (a b : Fmt) : Bool :=
  a == b || alphaTwins.contains (a, b) || alphaTwins.contains (b, a)

/-- `packable(F)` (40_format_metadata R127): every format but RGB8, A4, MONO. -/
def Fmt.packable (f : Fmt) : Bool :=
  match f with
  | .rgb8 | .a4 | .mono => false
  | .argb32 | .xrgb32 | .abgr32 | .xbgr32 | .bgra32 | .bgrx32 | .rgba32 | .rgbx32
  | .bgrx32Depth30 | .rgbx32Depth30 | .rgb24 | .bgr24
  | .rgb16 | .bgr16 | .argb15 | .rgb15 | .abgr15 | .bgr15 => true

/-- `unpackable(F)`, SPLITCOLOR can take a value (40_format_metadata R127): not A4, not depth-30. -/
def Fmt.unpackable (f : Fmt) : Bool :=
  match f with
  | .a4 | .bgrx32Depth30 | .rgbx32Depth30 => false
  | .argb32 | .xrgb32 | .abgr32 | .xbgr32 | .bgra32 | .bgrx32 | .rgba32 | .rgbx32
  | .rgb24 | .bgr24 | .rgb16 | .bgr16 | .argb15 | .rgb15 | .abgr15 | .bgr15
  | .rgb8 | .mono => true

/-- `writable(F)` (40_format_metadata R127): all but A4 and MONO. Every format is readable. -/
def Fmt.writable (f : Fmt) : Bool :=
  match f with
  | .a4 | .mono => false
  | .argb32 | .xrgb32 | .abgr32 | .xbgr32 | .bgra32 | .bgrx32 | .rgba32 | .rgbx32
  | .bgrx32Depth30 | .rgbx32Depth30 | .rgb24 | .bgr24
  | .rgb16 | .bgr16 | .argb15 | .rgb15 | .abgr15 | .bgr15 | .rgb8 => true

/-- The 32-bit formats of 8-bit channels whose alpha or pad byte is byte 0 (41_color_codec R175). -/
def Fmt.alphaFirst (f : Fmt) : Bool :=
  f == .argb32 || f == .xrgb32 || f == .abgr32 || f == .xbgr32

/-- The 32-bit formats of 8-bit channels whose alpha or pad byte is byte 3 (41_color_codec R175). -/
def Fmt.alphaLast (f : Fmt) : Bool :=
  f == .rgba32 || f == .rgbx32 || f == .bgra32 || f == .bgrx32

/-- The name of a format after `PIXEL_FORMAT_` (40_format_metadata R120, R129). -/
def Fmt.shortName (f : Fmt) : String :=
  match f with
  | .argb32 => "ARGB32"
  | .xrgb32 => "XRGB32"
  | .abgr32 => "ABGR32"
  | .xbgr32 => "XBGR32"
  | .bgra32 => "BGRA32"
  | .bgrx32 => "BGRX32"
  | .rgba32 => "RGBA32"
  | .rgbx32 => "RGBX32"
  | .bgrx32Depth30 => "BGRX32_DEPTH30"
  | .rgbx32Depth30 => "RGBX32_DEPTH30"
  | .rgb24 => "RGB24"
  | .bgr24 => "BGR24"
  | .rgb16 => "RGB16"
  | .bgr16 => "BGR16"
  | .argb15 => "ARGB15"
  | .rgb15 => "RGB15"
  | .abgr15 => "ABGR15"
  | .bgr15 => "BGR15"
  | .rgb8 => "RGB8"
  | .a4 => "A4"
  | .mono => "MONO"

/-- The bytes of an ASCII string. -/
def ascii (s : String) : List Byte :=
  s.toList.map fun c => BitVec.ofNat 8 c.toNat

/-- `name(F)`, in ASCII bytes; `none` is `Invalid` (40_format_metadata R129). -/
def fmtName (f : Option Fmt) : List Byte :=
  match f with
  | some g => ascii "PIXEL_FORMAT_" ++ ascii g.shortName
  | none => ascii "UNKNOWN"

end Sys2Proof
end

