-- ==== Sys2Proof/Machine/Bits.lean ====
section
/-! DEFINITION. Bit fields of a word (00_scope R10). -/

namespace Sys2Proof.Machine

/-- A field placed in a 32-bit word: the field's value shifted left, zeros elsewhere (00_scope R10). -/
def place {n : Nat} (v : BitVec n) (shift : Nat) : Word :=
  v.setWidth 32 <<< shift

end Sys2Proof.Machine
end

