-- ==== Sys2Proof/Machine/Flags.lean ====
section
/-! DEFINITION. STATUS and CAP: the outcome codes, what ending a command does to STATUS, and the words a
host reads (10_state R32, R33, R36, 60_exceptions R321, R330). ERR is the only flag the block has. -/

namespace Sys2Proof.Machine

/-- The code of STATUS.ERR (60_exceptions R321). -/
def Err.code (e : Err) : BitVec 4 :=
  match e with
  | .invalidArg => 1
  | .unsupported => 2
  | .missingContext => 3
  | .backend => 4
  | .illegalCmd => 5
  | .bus => 6
  | .assertion => 7

/-- BUS and ASSERT are faults, the other codes failures (60_exceptions R321, R330). -/
def Err.isFault (e : Err) : Bool :=
  match e with
  | .bus | .assertion => true
  | .invalidArg | .unsupported | .missingContext | .backend | .illegalCmd => false

/-- STATUS after a command that ended with `outcome` (`none` for success) and left the backend handle's
bit at `binit`: ERR is overwritten (10_state R33), FAULT is sticky (60_exceptions R330). -/
def Status.conclude (st : Status) (binit : Bool) (outcome : Option Err) : Status :=
  match outcome with
  | none => ⟨0, st.fault, binit⟩
  | some e => ⟨e.code, st.fault || e.isFault, binit⟩

/-- STATUS as a host reads it (10_state R32): ERR in bits 3:0, FAULT bit 8, BINIT bit 9, the rest 0. -/
def Status.word (st : Status) : Word :=
  place (BitVec.ofBool st.binit) 9 ||| place (BitVec.ofBool st.fault) 8 ||| place st.err 0

/-- CAP as a host reads it (10_state R36): the two presence parameters in bits 0 and 1, the command set
version 7 (00_scope R2) in bits 15:8, the rest 0. -/
def capWord (p : Params) : Word :=
  place 7#8 8 ||| place (BitVec.ofBool p.resamplerPresent) 1 ||| place (BitVec.ofBool p.backendCopyPresent) 0

/-- FLAGS bit 0, FLIP_VERTICAL (30_encoding R105). -/
def flipVertical (flags : Word) : Bool :=
  flags.getLsbD 0

/-- FLAGS bit 2, KEEP_DST_ALPHA (30_encoding R105). Every other bit of FLAGS is ignored. -/
def keepDstAlpha (flags : Word) : Bool :=
  flags.getLsbD 2

end Sys2Proof.Machine
end

