-- ==== Sys2Proof/Machine/Ops.lean ====
section
/-! DEFINITION. The shared operations: reading and writing memory, the memory port, the order of a
command's steps, and the ending of a command (the block's only form of taking an exception, 60 R320, R328:
nothing is saved and control goes nowhere, so there is no return from one either). -/

namespace Sys2Proof.Machine

/-! ### Memory as a list of cells -/

/-- What an address that memory does not list reads as. The spec leaves memory's contents at reset to the
platform (70 R361): DESIGN CHOICE, log entry 1. -/
def Memory.unlisted : Byte := 0

/-- The byte at an address. -/
def Memory.read (m : Memory) (a : Nat) : Byte :=
  match m with
  | [] => Memory.unlisted
  | c :: rest => if c.1 = a then c.2 else Memory.read rest a

/-- Memory without an entry for an address. -/
def Memory.erase (m : Memory) (a : Nat) : Memory :=
  m.filter fun c => c.1 ≠ a

/-- An entry put before the first greater address. -/
def Memory.insert (m : Memory) (a : Nat) (b : Byte) : Memory :=
  match m with
  | [] => [(a, b)]
  | c :: rest => if a < c.1 then (a, b) :: c :: rest else c :: Memory.insert rest a b

/-- Memory with one byte stored. Storing what an unlisted address reads as removes the entry. -/
def Memory.write (m : Memory) (a : Nat) (b : Byte) : Memory :=
  if b = Memory.unlisted then m.erase a else (m.erase a).insert a b

/-- The canonical form: addresses strictly rising, no entry equal to what an unlisted address reads as. -/
abbrev Memory.wf (m : Memory) : Prop :=
  m.Pairwise (fun c d => c.1 < d.1) ∧ ∀ c ∈ m, c.2 ≠ Memory.unlisted

/-! ### Commands in progress -/

/-- A command, or a piece of one, while it runs: from the working state it yields a value and a working
state, or ends the command at once with `raise` (00_scope R12), keeping what was written before. -/
abbrev Cmd (α : Type) := EStateM Err Work α

/-- A value, or a raise, that needs no memory. -/
def ofExcept {α : Type} (x : Except Err α) : Cmd α :=
  match x with
  | .ok a => pure a
  | .error e => throw e

/-- A check of a rule's list: it raises when the condition holds (60_exceptions R324). -/
def failIf (cond : Bool) (e : Err) : Cmd Unit :=
  if cond then throw e else pure ()

/-- A piece of a rule that is done only where the condition holds. -/
def onlyIf (cond : Bool) (c : Cmd Unit) : Cmd Unit :=
  if cond then c else pure ()

/-- The body once for each number of the list, in the list's order. -/
def forEach (ns : List Nat) (body : Nat → Cmd Unit) : Cmd Unit :=
  match ns with
  | [] => pure ()
  | n :: rest => do
    body n
    forEach rest body

/-! ### The memory port -/

/-- The address the memory port is given: the sum reduced modulo 2^`ADDR_W` (00_scope R11, 20_memory R62). -/
def portAddr (p : Params) (a : Nat) : Nat :=
  a % 2 ^ p.addrW

/-- Whether the platform rejects an access to the address (20_memory R84). -/
def rejected (p : Params) (a : Nat) : Bool :=
  p.rejects.any fun r => decide (r.1 ≤ a) && decide (a < r.2)

/-- One byte read through the port; a rejected access ends the command with BUS (20_memory R84). -/
def readByte (p : Params) (a : Nat) : Cmd Byte := fun w =>
  if rejected p (portAddr p a) then .error .bus w else .ok (w.mem.read (portAddr p a)) w

/-- One byte written through the port; a rejected access ends the command with BUS (20_memory R84). -/
def writeByte (p : Params) (a : Nat) (b : Byte) : Cmd Unit := fun w =>
  if rejected p (portAddr p a) then .error .bus w
  else .ok () ⟨w.mem.write (portAddr p a) b, w.binit, w.draws⟩

/-- `MemRead(addr, n)` (00_scope R12), byte by byte, lowest address first (20_memory R65). -/
def memRead (p : Params) (a n : Nat) : Cmd (List Byte) :=
  match n with
  | 0 => pure []
  | k + 1 => do
    let b ← readByte p a
    let bs ← memRead p (a + 1) k
    pure (b :: bs)

/-- `MemWrite(addr, n, m)` (00_scope R12), byte by byte, lowest address first (20_memory R65). -/
def memWrite (p : Params) (a : Nat) (bs : List Byte) : Cmd Unit :=
  match bs with
  | [] => pure ()
  | b :: rest => do
    writeByte p a b
    memWrite p (a + 1) rest

/-- STATUS.BINIT set: the backend handle is initialised (10_state R38). -/
def setBinit : Cmd Unit := fun w =>
  .ok () ⟨w.mem, true, w.draws⟩

/-- A fresh draw of the oracle: its number (42_blit_engine R232, log entry 5). -/
def takeDraw : Cmd Nat := fun w =>
  .ok w.draws ⟨w.mem, w.binit, w.draws + 1⟩

/-! ### Ending a command -/

/-- The working state a command starts with. -/
def State.work (s : State) : Work :=
  ⟨s.mem, s.status.binit, s.draws⟩

/-- The end of a command, whatever its outcome (60_exceptions R320): memory as far as it was written, and
the outcome in STATUS. Nothing else is saved or changed. -/
def State.endCommand (s : State) (w : Work) (outcome : Option Err) : State :=
  { s with
    mem := w.mem
    draws := w.draws
    status := s.status.conclude w.binit outcome }

/-- A command that produces neither RES nor RCHAN, run to its end (10_state R31). -/
def State.runPlain (s : State) (c : Cmd Unit) : State :=
  match c s.work with
  | .ok _ w => s.endCommand w none
  | .error e w => s.endCommand w (some e)

/-- A command that produces RES, run to its end (10_state R30, R31): one that does not succeed leaves 0 there
(60_exceptions R325). That a BUS fault does so too is DEDUCED, log entry 6. -/
def State.runRes (s : State) (c : Cmd Word) : State :=
  match c s.work with
  | .ok v w => { s.endCommand w none with res := v }
  | .error e w => { s.endCommand w (some e) with res := 0 }

/-- A command that produces RCHAN, run to its end (10_state R30, R31): one that does not succeed leaves 0 there
(60_exceptions R325, 41_color_codec R164). That a BUS fault does so too is DEDUCED, log entry 6. -/
def State.runRchan (s : State) (c : Cmd Word) : State :=
  match c s.work with
  | .ok v w => { s.endCommand w none with rchan := v }
  | .error e w => { s.endCommand w (some e) with rchan := 0 }

end Sys2Proof.Machine
end

