-- ==== Sys2Proof/Machine/Operands.lean ====
section
/-! DEFINITION. The operand forms: the operand registers by name, channels in a register, strides, pixel
addresses, rectangles, bits of a bit-packed input (10_state R21, R23, 20_memory R68, R69, 00_scope R13). -/

namespace Sys2Proof

/-- The number of an operand register (10_state R21). -/
def OperandReg.number (r : OperandReg) : Nat :=
  match r with
  | .dst => 0
  | .src => 1
  | .pal => 2
  | .msk => 3
  | .tbl => 4
  | .dfmt => 5
  | .sfmt => 6
  | .dstride => 7
  | .sstride => 8
  | .dx => 9
  | .dy => 10
  | .sx => 11
  | .sy => 12
  | .w => 13
  | .h => 14
  | .sw => 15
  | .sh => 16
  | .flags => 17
  | .color0 => 18
  | .color1 => 19
  | .chan => 20
  | .srclen => 21
  | .msklen => 22
  | .tbllen => 23
  | .bpp => 24

/-- The operand registers in the order of their numbers. -/
def OperandReg.all : List OperandReg :=
  [.dst, .src, .pal, .msk, .tbl, .dfmt, .sfmt, .dstride, .sstride, .dx, .dy, .sx, .sy, .w, .h, .sw, .sh,
   .flags, .color0, .color1, .chan, .srclen, .msklen, .tbllen, .bpp]

/-- The operand register of a number, if the number is one's (10_state R21). -/
def operandReg (n : Nat) : Option OperandReg :=
  OperandReg.all[n]?

end Sys2Proof

namespace Sys2Proof.Machine

/-- An operand register's value, zero-extended to 64 bits (10_state R21). -/
def OperandRegs.get (rs : OperandRegs) (r : OperandReg) : Slot :=
  match r with
  | .dst => rs.dst
  | .src => rs.src
  | .pal => rs.pal
  | .msk => rs.msk
  | .tbl => rs.tbl
  | .dfmt => rs.dfmt.setWidth 64
  | .sfmt => rs.sfmt.setWidth 64
  | .dstride => rs.dstride.setWidth 64
  | .sstride => rs.sstride.setWidth 64
  | .dx => rs.dx.setWidth 64
  | .dy => rs.dy.setWidth 64
  | .sx => rs.sx.setWidth 64
  | .sy => rs.sy.setWidth 64
  | .w => rs.w.setWidth 64
  | .h => rs.h.setWidth 64
  | .sw => rs.sw.setWidth 64
  | .sh => rs.sh.setWidth 64
  | .flags => rs.flags.setWidth 64
  | .color0 => rs.color0.setWidth 64
  | .color1 => rs.color1.setWidth 64
  | .chan => rs.chan.setWidth 64
  | .srclen => rs.srclen.setWidth 64
  | .msklen => rs.msklen.setWidth 64
  | .tbllen => rs.tbllen.setWidth 64
  | .bpp => rs.bpp.setWidth 64

/-- The low `ADDR_W` bits of a slot: what an address register stores (10_state R21). -/
def addressBits (p : Params) (v : Slot) : Slot :=
  BitVec.ofNat 64 (portAddr p v.toNat)

/-- A write of a slot to an operand register: the low bits are stored, the rest discarded (10_state R21). -/
def OperandRegs.set (p : Params) (rs : OperandRegs) (r : OperandReg) (v : Slot) : OperandRegs :=
  match r with
  | .dst => { rs with dst := addressBits p v }
  | .src => { rs with src := addressBits p v }
  | .pal => { rs with pal := addressBits p v }
  | .msk => { rs with msk := addressBits p v }
  | .tbl => { rs with tbl := addressBits p v }
  | .dfmt => { rs with dfmt := v.setWidth 32 }
  | .sfmt => { rs with sfmt := v.setWidth 32 }
  | .dstride => { rs with dstride := v.setWidth 32 }
  | .sstride => { rs with sstride := v.setWidth 32 }
  | .dx => { rs with dx := v.setWidth 32 }
  | .dy => { rs with dy := v.setWidth 32 }
  | .sx => { rs with sx := v.setWidth 32 }
  | .sy => { rs with sy := v.setWidth 32 }
  | .w => { rs with w := v.setWidth 32 }
  | .h => { rs with h := v.setWidth 32 }
  | .sw => { rs with sw := v.setWidth 32 }
  | .sh => { rs with sh := v.setWidth 32 }
  | .flags => { rs with flags := v.setWidth 32 }
  | .color0 => { rs with color0 := v.setWidth 32 }
  | .color1 => { rs with color1 := v.setWidth 32 }
  | .chan => { rs with chan := v.setWidth 32 }
  | .srclen => { rs with srclen := v.setWidth 32 }
  | .msklen => { rs with msklen := v.setWidth 32 }
  | .tbllen => { rs with tbllen := v.setWidth 32 }
  | .bpp => { rs with bpp := v.setWidth 32 }

/-- The channels of a register laid out as CHAN: r, g, b, a from the low byte up (10_state R23). -/
def unpackChan (v : Word) : Channels where
  r := v.extractLsb' 0 8
  g := v.extractLsb' 8 8
  b := v.extractLsb' 16 8
  a := v.extractLsb' 24 8

/-- Channels laid out as RCHAN (10_state R30). -/
def packChan (c : Channels) : Word :=
  place c.a 24 ||| place c.b 16 ||| place c.g 8 ||| place c.r 0

/-- Effective stride (20_memory R68): the stride operand, or the tight value where it is 0. -/
def effStride (stride w : Nat) (f : Fmt) : Nat :=
  if stride ≠ 0 then stride else w * f.bytes

/-- Pixel address (20_memory R69). -/
def pxAddr (base stride : Nat) (f : Fmt) (x y : Nat) : Nat :=
  base + y * stride + x * f.bytes

/-- A destination rectangle: `w` pixels by `h` rows at column `x`, row `y` of a buffer. -/
structure Rect where
  base : Nat
  stride : Nat
  fmt : Fmt
  x : Nat
  y : Nat
  w : Nat
  h : Nat
  deriving DecidableEq, Repr

/-- The address of pixel (`x`, `y`) of a rectangle, counted from its top left. -/
def Rect.pixel (t : Rect) (x y : Nat) : Nat :=
  pxAddr t.base t.stride t.fmt (t.x + x) (t.y + y)

/-- The number of bytes of one row of a rectangle. -/
def Rect.rowBytes (t : Rect) : Nat :=
  t.w * t.fmt.bytes

/-- The destination rectangle of the operand registers: DST, DSTRIDE made effective, DX, DY, W, H. -/
def destRect (r : OperandRegs) (f : Fmt) : Rect where
  base := r.dst.toNat
  stride := effStride r.dstride.toNat r.w.toNat f
  fmt := f
  x := r.dx.toNat
  y := r.dy.toNat
  w := r.w.toNat
  h := r.h.toNat

/-- `bit(base, stride, row, x)` (00_scope R13, 43_bitmap_decoders R260): most significant bit first. -/
def readBit (p : Params) (base stride row x : Nat) : Cmd Bool := do
  let b ← readByte p (base + stride * row + x / 8)
  pure (b.getLsbD (7 - x % 8))

end Sys2Proof.Machine
end

