-- ==== Sys2Proof/Machine/Pixels.lean ====
section
/-! DEFINITION. A pixel in memory: its byte order, the alpha-ignoring store, and the words of a palette
(20_memory R66, R67, R72, 41_color_codec R175). -/

namespace Sys2Proof.Machine

/-- Byte `i` of a sequence read by `MemRead`. -/
def byteAt (m : List Byte) (i : Nat) : Byte :=
  m.getD i 0

/-- The packed value that the bytes of one pixel hold (20_memory R66). -/
def pixelValue (f : Fmt) (m : List Byte) : Word :=
  match f.bpp with
  | 32 => place (byteAt m 0) 24 ||| place (byteAt m 1) 16 ||| place (byteAt m 2) 8 ||| place (byteAt m 3) 0
  | 24 => place (byteAt m 0) 16 ||| place (byteAt m 1) 8 ||| place (byteAt m 2) 0
  | 16 => place (byteAt m 1) 8 ||| place (byteAt m 0) 0
  | 15 => (place (byteAt m 1) 8 ||| place (byteAt m 0) 0) &&& 0x7FFF#32
  | _ => place (byteAt m 0) 0

/-- `load_px(addr, F)` (20_memory R66). -/
def loadPx (p : Params) (a : Nat) (f : Fmt) : Cmd Word := do
  let m ← memRead p a f.bytes
  pure (pixelValue f m)

/-- `px_bytes(F, v)`, the bytes `store_px` writes (20_memory R67). A4 and MONO are not writable: no command
stores a pixel of theirs. -/
def pxBytes (f : Fmt) (v : Word) : List Byte :=
  match f.bpp with
  | 32 => [v.extractLsb' 24 8, v.extractLsb' 16 8, v.extractLsb' 8 8, v.extractLsb' 0 8]
  | 24 => [v.extractLsb' 16 8, v.extractLsb' 8 8, v.extractLsb' 0 8]
  | 16 => [v.extractLsb' 0 8, v.extractLsb' 8 8]
  | 15 => [v.extractLsb' 0 8, v.extractLsb' 8 8 &&& 0x7F#8]
  | 8 => [v.extractLsb' 0 8]
  | _ => []

/-- `store_px(addr, F, v)` (20_memory R67). -/
def storePx (p : Params) (a : Nat) (f : Fmt) (v : Word) : Cmd Unit :=
  memWrite p a (pxBytes f v)

/-- `store_px_ia(addr, F, v)`, the alpha-ignoring store (41_color_codec R175). -/
def storePxIa (p : Params) (a : Nat) (f : Fmt) (v : Word) : Cmd Unit := do
  if f.alphaFirst then
    let old ← readByte p a
    storePx p a f (place old 24 ||| place (v.extractLsb' 0 24) 0)
  else if f.alphaLast then
    let old ← readByte p (a + 3)
    storePx p a f (place (v.extractLsb' 8 24) 8 ||| place old 0)
  else
    storePx p a f v

/-- `word(a)`, a 32-bit number stored least significant byte first (20_memory R72). -/
def readWordLe (p : Params) (a : Nat) : Cmd Word := do
  let m ← memRead p a 4
  pure (place (byteAt m 3) 24 ||| place (byteAt m 2) 16 ||| place (byteAt m 1) 8 ||| place (byteAt m 0) 0)

end Sys2Proof.Machine
end

