-- ==== Sys2Proof/Machine/Color.lean ====
section
/-! DEFINITION. The color codec: channel-depth scaler, pack, palette lookup, split, conversion
(41_color_codec R150 to R164, R179). -/

namespace Sys2Proof.Machine

/-! ### The channel-depth scaler -/

/-- `narrow_5` (41_color_codec R150). -/
def narrow5 (c : Byte) : BitVec 5 :=
  c.extractLsb' 3 5

/-- `narrow_6` (41_color_codec R150). -/
def narrow6 (c : Byte) : BitVec 6 :=
  c.extractLsb' 2 6

/-- `narrow_1`, chosen by `ALPHA1_PACK` (41_color_codec R154). -/
def narrow1 (p : Params) (a : Byte) : BitVec 1 :=
  match p.alpha1Pack with
  | .msb => a.extractLsb' 7 1
  | .nonzero => BitVec.ofBool (a != 0)

/-- `expand_5` (41_color_codec R151). -/
def expand5 (c : BitVec 5) : Byte :=
  (c.setWidth 8 <<< 3) ||| (c.setWidth 8 >>> 2)

/-- `expand_6`, chosen by `EXPAND6` (41_color_codec R152). -/
def expand6 (p : Params) (c : BitVec 6) : Byte :=
  match p.expand6 with
  | .replicate => (c.setWidth 8 <<< 2) ||| (c.setWidth 8 >>> 4)
  | .sumClamp => BitVec.ofNat 8 (min 255 (c.toNat * 4 + c.toNat / 8))

/-- `expand_1` (41_color_codec R153). -/
def expand1 (c : BitVec 1) : Byte :=
  if c = 1 then 255 else 0

/-- `widen_10` (41_color_codec R155). -/
def widen10 (c : Byte) : BitVec 10 :=
  c.setWidth 10 <<< 2

/-! ### Pack -/

/-- The depth-30 packed value (41_color_codec R156): the 30-bit field `t`, its four bytes reversed. The two
depth-30 formats pack alike; alpha is ignored. -/
def packDepth30 (c : Channels) : Word :=
  let t : Word := place (widen10 c.r) 20 ||| place (widen10 c.g) 10 ||| place (widen10 c.b) 0
  place (t.extractLsb' 0 8) 24 ||| place (t.extractLsb' 8 8) 16 ||| place (t.extractLsb' 16 8) 8 |||
    place (t.extractLsb' 24 8) 0

/-- `pack(F, r, g, b, a)` (41_color_codec R158, R159). -/
def pack (p : Params) (f : Fmt) (c : Channels) : Except Err Word :=
  match f with
  | .argb32 => .ok (place c.a 24 ||| place c.r 16 ||| place c.g 8 ||| place c.b 0)
  | .xrgb32 => .ok (place c.r 16 ||| place c.g 8 ||| place c.b 0)
  | .abgr32 => .ok (place c.a 24 ||| place c.b 16 ||| place c.g 8 ||| place c.r 0)
  | .xbgr32 => .ok (place c.b 16 ||| place c.g 8 ||| place c.r 0)
  | .rgba32 => .ok (place c.r 24 ||| place c.g 16 ||| place c.b 8 ||| place c.a 0)
  | .rgbx32 => .ok (place c.r 24 ||| place c.g 16 ||| place c.b 8 ||| place c.a 0)
  | .bgra32 => .ok (place c.b 24 ||| place c.g 16 ||| place c.r 8 ||| place c.a 0)
  | .bgrx32 => .ok (place c.b 24 ||| place c.g 16 ||| place c.r 8 ||| place c.a 0)
  | .rgbx32Depth30 => .ok (packDepth30 c)
  | .bgrx32Depth30 => .ok (packDepth30 c)
  | .rgb24 => .ok (place c.r 16 ||| place c.g 8 ||| place c.b 0)
  | .bgr24 => .ok (place c.b 16 ||| place c.g 8 ||| place c.r 0)
  | .rgb16 => .ok (place (narrow5 c.r) 11 ||| place (narrow6 c.g) 5 ||| place (narrow5 c.b) 0)
  | .bgr16 => .ok (place (narrow5 c.b) 11 ||| place (narrow6 c.g) 5 ||| place (narrow5 c.r) 0)
  | .argb15 => .ok (place (narrow1 p c.a) 15 ||| place (narrow5 c.r) 10 ||| place (narrow5 c.g) 5 ||| place (narrow5 c.b) 0)
  | .rgb15 => .ok (place (narrow5 c.r) 10 ||| place (narrow5 c.g) 5 ||| place (narrow5 c.b) 0)
  | .abgr15 => .ok (place (narrow1 p c.a) 15 ||| place (narrow5 c.b) 10 ||| place (narrow5 c.g) 5 ||| place (narrow5 c.r) 0)
  | .bgr15 => .ok (place (narrow5 c.b) 10 ||| place (narrow5 c.g) 5 ||| place (narrow5 c.r) 0)
  | .rgb8 => .error .unsupported
  | .a4 => .error .unsupported
  | .mono => .error .unsupported

/-! ### Split without a palette -/

/-- The 8-bit field of a packed value whose lowest bit is `lo`. -/
def field8 (v : Word) (lo : Nat) : Byte :=
  v.extractLsb' lo 8

/-- The 5-bit field whose lowest bit is `lo`, widened. -/
def field5 (v : Word) (lo : Nat) : Byte :=
  expand5 (v.extractLsb' lo 5)

/-- The 6-bit green of a 16-bit format, widened. -/
def green6 (p : Params) (v : Word) : Byte :=
  expand6 p (v.extractLsb' 5 6)

/-- The 1-bit alpha of ARGB15 and ABGR15, widened. -/
def alpha1 (v : Word) : Byte :=
  expand1 (v.extractLsb' 15 1)

/-- `split(v, F, absent)`: a direct-color format (41_color_codec R161), RGB8 with no palette (R162), MONO
(R163), and the formats without an unpack (R164). -/
def splitBare (p : Params) (f : Fmt) (v : Word) : Except Err Channels :=
  match f with
  | .argb32 => .ok ⟨field8 v 16, field8 v 8, field8 v 0, field8 v 24⟩
  | .xrgb32 => .ok ⟨field8 v 16, field8 v 8, field8 v 0, 255⟩
  | .abgr32 => .ok ⟨field8 v 0, field8 v 8, field8 v 16, field8 v 24⟩
  | .xbgr32 => .ok ⟨field8 v 0, field8 v 8, field8 v 16, 255⟩
  | .rgba32 => .ok ⟨field8 v 24, field8 v 16, field8 v 8, field8 v 0⟩
  | .rgbx32 => .ok ⟨field8 v 24, field8 v 16, field8 v 8, 255⟩
  | .bgra32 => .ok ⟨field8 v 8, field8 v 16, field8 v 24, field8 v 0⟩
  | .bgrx32 => .ok ⟨field8 v 8, field8 v 16, field8 v 24, 255⟩
  | .rgb24 => .ok ⟨field8 v 16, field8 v 8, field8 v 0, 255⟩
  | .bgr24 => .ok ⟨field8 v 0, field8 v 8, field8 v 16, 255⟩
  | .rgb16 => .ok ⟨field5 v 11, green6 p v, field5 v 0, 255⟩
  | .bgr16 => .ok ⟨field5 v 0, green6 p v, field5 v 11, 255⟩
  | .argb15 => .ok ⟨field5 v 10, field5 v 5, field5 v 0, alpha1 v⟩
  | .rgb15 => .ok ⟨field5 v 10, field5 v 5, field5 v 0, 255⟩
  | .abgr15 => .ok ⟨field5 v 0, field5 v 5, field5 v 10, alpha1 v⟩
  | .bgr15 => .ok ⟨field5 v 0, field5 v 5, field5 v 10, 255⟩
  | .mono => .ok (if v = 0 then ⟨0, 0, 0, 255⟩ else ⟨255, 255, 255, 255⟩)
  | .rgb8 => .error .missingContext
  | .a4 => .error .unsupported
  | .bgrx32Depth30 => .error .unsupported
  | .rgbx32Depth30 => .error .unsupported

/-! ### Palettes -/

/-- Where a palette comes from (41_color_codec R162). -/
inductive Palette where
  /-- no palette -/
  | absent
  /-- the structure in memory at an address (20_memory R72) -/
  | inMemory (addr : Nat)
  /-- the palette ICON builds inside the block, tagged BGRX32 (43_bitmap_decoders R282) -/
  | built (entries : List Word)
  deriving DecidableEq, Repr

/-- The palette at PAL, absent when PAL is 0 (41_color_codec R162). -/
def paletteAt (pal : Slot) : Palette :=
  if pal = 0 then .absent else .inMemory pal.toNat

/-- The format of a palette's entries: `decode_fmt` of its tag (20_memory R72, 43_bitmap_decoders R282). -/
def paletteFmt (p : Params) (pal : Palette) : Cmd (Option Fmt) :=
  match pal with
  | .absent => pure none
  | .inMemory a => do
    let tag ← readWordLe p a
    pure (decodeFmt tag)
  | .built _ => pure (some .bgrx32)

/-- `pal_entry(PAL, i)` (20_memory R72), or entry `i` of the built palette (43_bitmap_decoders R282). -/
def paletteEntry (p : Params) (pal : Palette) (i : Nat) : Cmd Word :=
  match pal with
  | .absent => pure 0
  | .inMemory a => readWordLe p (a + 4 + 4 * i)
  | .built entries => pure (entries.getD i 0)

/-- Palette lookup (41_color_codec R162): the entry, split in the palette's own format with no palette. -/
def splitIndexed (p : Params) (v : Word) (pal : Palette) : Cmd Channels := do
  failIf (pal == .absent) .missingContext
  failIf (decide (0xFF < v.toNat)) .invalidArg
  let e ← paletteEntry p pal v.toNat
  let pf ← paletteFmt p pal
  match pf with
  | none => throw .unsupported
  | some f => ofExcept (splitBare p f e)

/-- `split(v, F, P)` (41_color_codec R161 to R164). -/
def split (p : Params) (v : Word) (f : Fmt) (pal : Palette) : Cmd Channels :=
  if f = .rgb8 then splitIndexed p v pal else ofExcept (splitBare p f v)

/-- `convert(v, S, D, P)` (41_color_codec R179): split, then pack. -/
def convert (p : Params) (v : Word) (sf df : Fmt) (pal : Palette) : Cmd Word := do
  let c ← split p v sf pal
  ofExcept (pack p df c)

/-- The inverted color of pixel (`x`, `y`) of a cursor (43_bitmap_decoders R292): opaque black where the sum of
the coordinates is odd, opaque white where it is even. -/
def invertedColor (p : Params) (f : Fmt) (x y : Nat) : Except Err Word :=
  if (x + y) % 2 = 1 then pack p f ⟨0, 0, 0, 255⟩ else pack p f ⟨255, 255, 255, 255⟩

/-- The lines of `conv_checks` for an RGB8 source (42_blit_engine R207). -/
def paletteChecks (p : Params) (pal : Palette) : Cmd Unit := do
  failIf (pal == .absent) .missingContext
  let pf ← paletteFmt p pal
  match pf with
  | none => throw .unsupported
  | some f => do
    failIf (f == .rgb8) .missingContext
    failIf (!f.unpackable) .unsupported

/-- `conv_checks` (42_blit_engine R207): every condition that could make a pixel's conversion fail. -/
def convChecks (p : Params) (sf df : Fmt) (pal : Palette) : Cmd Unit := do
  failIf (!sf.unpackable) .unsupported
  onlyIf (sf == .rgb8) (paletteChecks p pal)
  failIf (!df.packable) .unsupported

end Sys2Proof.Machine
end

