-- ==== Sys2Proof/Machine/CopyEngine.lean ====
section
/-! DEFINITION. What the copy commands share: checks, overlap, direction, modes, and the two paths
(42_blit_engine R201 to R215). -/

namespace Sys2Proof.Machine

/-- The operands of a copy, formats decoded (42_blit_engine R200). -/
structure CopyReq where
  dfmt : Option Fmt
  sfmt : Option Fmt
  dst : Nat
  src : Nat
  dstride : Nat
  sstride : Nat
  dx : Nat
  dy : Nat
  sx : Nat
  sy : Nat
  w : Nat
  h : Nat
  pal : Palette
  flip : Bool
  keep : Bool
  deriving DecidableEq, Repr

/-- A copy whose checks have passed: the formats are enumerated and the strides effective. -/
structure CopyJob where
  df : Fmt
  sf : Fmt
  dst : Nat
  src : Nat
  ds : Nat
  ss : Nat
  dx : Nat
  dy : Nat
  sx : Nat
  sy : Nat
  w : Nat
  h : Nat
  pal : Palette
  flip : Bool
  keep : Bool
  deriving DecidableEq, Repr

/-- The copy a request of two enumerated formats asks for, its strides made effective (20_memory R68). -/
def CopyReq.job (q : CopyReq) (df sf : Fmt) : CopyJob where
  df := df
  sf := sf
  dst := q.dst
  src := q.src
  ds := effStride q.dstride q.w df
  ss := effStride q.sstride q.w sf
  dx := q.dx
  dy := q.dy
  sx := q.sx
  sy := q.sy
  w := q.w
  h := q.h
  pal := q.pal
  flip := q.flip
  keep := q.keep

/-- `copy_checks` (42_blit_engine R202), in its order; `none` ends the command with success, nothing read or
written. -/
def copyChecks (p : Params) (q : CopyReq) : Except Err (Option CopyJob) :=
  match q.dfmt, q.sfmt with
  | some df, some sf =>
    if p.maxDim < q.w ∨ p.maxDim < q.h then .error .invalidArg
    else if q.dst = 0 ∨ q.src = 0 then .error .invalidArg
    else if q.w = 0 ∨ q.h = 0 then .ok none
    else .ok (some (q.job df sf))
  | _, _ => .error .unsupported

/-- The destination rectangle of a copy. -/
def CopyJob.rect (j : CopyJob) : Rect where
  base := j.dst
  stride := j.ds
  fmt := j.df
  x := j.dx
  y := j.dy
  w := j.w
  h := j.h

/-- First byte of the first source scanline touched (42_blit_engine R201). -/
def CopyJob.srcStart (j : CopyJob) : Nat :=
  j.src + j.ss * j.sy

/-- First byte after the last source scanline touched (42_blit_engine R201). -/
def CopyJob.srcEnd (j : CopyJob) : Nat :=
  j.srcStart + j.ss * j.h

/-- First byte of the first destination scanline touched (42_blit_engine R201). -/
def CopyJob.dstStart (j : CopyJob) : Nat :=
  j.dst + j.ds * j.dy

/-- First byte after the last destination scanline touched (42_blit_engine R201). -/
def CopyJob.dstEnd (j : CopyJob) : Nat :=
  j.dstStart + j.ds * j.h

/-- The overlap predicate (42_blit_engine R201): the symmetric closed-interval test, columns ignored. -/
def CopyJob.overlap (j : CopyJob) : Bool :=
  decide (j.dstStart ≤ j.srcEnd) && decide (j.srcStart ≤ j.dstEnd)

/-- The row order of the direction function (42_blit_engine R203). -/
def CopyJob.rowOrder (j : CopyJob) : List Nat :=
  if j.sy < j.dy then (List.range j.h).reverse else List.range j.h

/-- The column order of the direction function (42_blit_engine R203). -/
def CopyJob.colOrder (j : CopyJob) : List Nat :=
  if j.dy = j.sy ∧ j.sx < j.dx then (List.range j.w).reverse else List.range j.w

/-- `coincide` (42_blit_engine R203): the two rectangles are the same bytes. -/
def CopyJob.coincide (j : CopyJob) : Bool :=
  decide (j.dy = j.sy ∧ j.dx = j.sx ∧ j.dst = j.src ∧ j.ds = j.ss)

/-- The three modes of a copy (42_blit_engine R204). -/
inductive CopyMode where
  | alpha
  | raw
  | conv
  deriving DecidableEq, Repr

/-- Mode selection (42_blit_engine R204). -/
def CopyJob.mode (j : CopyJob) : CopyMode :=
  if j.keep && j.df.hasAlpha then .alpha
  else if eqna j.sf j.df then .raw
  else .conv

/-- `srow(y)`, the source row read for destination row `y` (42_blit_engine R206). -/
def CopyJob.srow (j : CopyJob) (y : Nat) : Nat :=
  j.sy + (if j.flip then j.h - 1 - y else y)

/-- The address of the source pixel of destination pixel (`x`, `y`) (42_blit_engine R206, R208). -/
def CopyJob.srcPixel (j : CopyJob) (x y : Nat) : Nat :=
  pxAddr j.src j.ss j.sf (j.sx + x) (j.srow y)

/-- RAW mode (42_blit_engine R206): each row read whole, then written. -/
def rawCopy (p : Params) (j : CopyJob) : Cmd Unit :=
  if j.coincide then pure ()
  else forEach j.rowOrder fun y => do
    let buf ← memRead p (j.srcPixel 0 y) j.rect.rowBytes
    memWrite p (j.rect.pixel 0 y) buf

/-- The per-pixel loop of CONV and ALPHA modes (42_blit_engine R208, R209): `conv_checks`, then each pixel
read, converted and stored with the mode's store before the next is read. -/
def pixelCopy (p : Params) (j : CopyJob) (store : Nat → Word → Cmd Unit) : Cmd Unit := do
  convChecks p j.sf j.df j.pal
  forEach j.rowOrder fun y =>
    forEach j.colOrder fun x => do
      let v ← loadPx p (j.srcPixel x y) j.sf
      let c ← convert p v j.sf j.df j.pal
      store (j.rect.pixel x y) c

/-- The overlap-safe path, step 2 of COPY_OVL (42_blit_engine R205); also the contract of the accelerated
backend (R215). -/
def overlapSafe (p : Params) (j : CopyJob) : Cmd Unit :=
  match j.mode with
  | .raw => rawCopy p j
  | .conv => pixelCopy p j fun a v => storePx p a j.df v
  | .alpha => pixelCopy p j fun a v => storePxIa p a j.df v

/-- The non-overlapping path, COPY_NOVL from its step 2 (42_blit_engine R214). -/
def nonOverlapping (p : Params) (j : CopyJob) : Cmd Unit := do
  setBinit
  failIf (!p.backendCopyPresent) .backend
  failIf j.overlap .assertion
  overlapSafe p j

/-- The dispatch of COPY (42_blit_engine R200). -/
def dispatchCopy (p : Params) (j : CopyJob) : Cmd Unit :=
  if j.overlap then overlapSafe p j else nonOverlapping p j

/-- `copy_checks`, then a path. -/
def copyWith (p : Params) (q : CopyReq) (path : CopyJob → Cmd Unit) : Cmd Unit :=
  match copyChecks p q with
  | .error e => throw e
  | .ok none => pure ()
  | .ok (some j) => path j

/-- The request the operand registers of a copy command make (10_state R22, 42_blit_engine R200). -/
def copyReq (r : OperandRegs) : CopyReq where
  dfmt := decodeFmt r.dfmt
  sfmt := decodeFmt r.sfmt
  dst := r.dst.toNat
  src := r.src.toNat
  dstride := r.dstride.toNat
  sstride := r.sstride.toNat
  dx := r.dx.toNat
  dy := r.dy.toNat
  sx := r.sx.toNat
  sy := r.sy.toNat
  w := r.w.toNat
  h := r.h.toNat
  pal := paletteAt r.pal
  flip := flipVertical r.flags
  keep := keepDstAlpha r.flags

end Sys2Proof.Machine
end

