-- ==== Sys2Proof/Machine/Blit.lean ====
section
/-! DEFINITION. The blit engine's commands: COPY, COPY_OVL, COPY_NOVL, FILL, SCALE (42_blit_engine). -/

namespace Sys2Proof.Machine

/-- COPY (42_blit_engine R200): overlapping ranges take the overlap-safe path, others the non-overlapping. -/
def execCopy (s : State) : Host.Outcome State Fault Refusal :=
  .next (s.runPlain (copyWith s.params (copyReq s.regs) (dispatchCopy s.params)))

/-- COPY_OVL (42_blit_engine R205). -/
def execCopyOvl (s : State) : Host.Outcome State Fault Refusal :=
  .next (s.runPlain (copyWith s.params (copyReq s.regs) (overlapSafe s.params)))

/-- COPY_NOVL (42_blit_engine R214). -/
def execCopyNovl (s : State) : Host.Outcome State Fault Refusal :=
  .next (s.runPlain (copyWith s.params (copyReq s.regs) (nonOverlapping s.params)))

/-- Steps 4 and 5 of FILL (42_blit_engine R225): the first scanline pixel by pixel, then that scanline read
back and written to each remaining row. -/
def fillRect (p : Params) (t : Rect) (color : Word) : Cmd Unit := do
  forEach (List.range t.w) fun x => storePx p (t.pixel x 0) t.fmt color
  forEach (List.range' 1 (t.h - 1)) fun y => do
    let row ← memRead p (t.pixel 0 0) t.rowBytes
    memWrite p (t.pixel 0 y) row

/-- The body of FILL (42_blit_engine R225). -/
def fillCmd (s : State) : Cmd Unit :=
  match decodeFmt s.regs.dfmt with
  | none => throw .unsupported
  | some f => do
    failIf (!f.writable) .unsupported
    if s.regs.w = 0 ∨ s.regs.h = 0 then pure ()
    else do
      failIf (s.regs.dst == 0) .invalidArg
      fillRect s.params (destRect s.regs f) s.regs.color0

/-- FILL (42_blit_engine R225). -/
def execFill (s : State) : Host.Outcome State Fault Refusal :=
  .next (s.runPlain (fillCmd s))

/-- The bytes the resampling oracle delivers for row `y` of a rectangle (42_blit_engine R232). -/
def resampledRow (draw rowBytes y : Nat) : List Byte :=
  (List.range rowBytes).map fun k => Config.resampledByte draw (y * rowBytes + k)

/-- The resampling path (42_blit_engine R232): the eight 32-bit formats of 8-bit channels only; every byte of
the destination rectangle is the oracle's. R232 gives no order of the writes and no reads of the source: that the
rows are written in ascending order and no source byte is read is a DESIGN CHOICE of the model, log entry 14. -/
def resample (s : State) (df sf : Fmt) : Cmd Unit := do
  failIf (!(df.alphaFirst || df.alphaLast) || !(sf.alphaFirst || sf.alphaLast)) .unsupported
  failIf (s.regs.dst == 0 || s.regs.src == 0) .invalidArg
  let draw ← takeDraw
  let t := destRect s.regs df
  forEach (List.range t.h) fun y => memWrite s.params (t.pixel 0 y) (resampledRow draw t.rowBytes y)

/-- The copy an equal-size SCALE runs: no palette, no flags (42_blit_engine R230 step 2). -/
def scaleReq (r : OperandRegs) : CopyReq :=
  { copyReq r with pal := .absent, flip := false, keep := false }

/-- The body of SCALE (42_blit_engine R230). -/
def scaleCmd (s : State) : Cmd Unit :=
  match decodeFmt s.regs.dfmt, decodeFmt s.regs.sfmt with
  | some df, some sf =>
    if s.regs.w = s.regs.sw ∧ s.regs.h = s.regs.sh then
      copyWith s.params (scaleReq s.regs) (nonOverlapping s.params)
    else do
      failIf (!s.params.resamplerPresent) .backend
      resample s df sf
  | _, _ => throw .unsupported

/-- SCALE (42_blit_engine R230). -/
def execScale (s : State) : Host.Outcome State Fault Refusal :=
  .next (s.runPlain (scaleCmd s))

end Sys2Proof.Machine
end

