-- ==== Sys2Proof/Machine/Codec.lean ====
section
/-! DEFINITION. The color codec commands: GETCOLOR, SPLITCOLOR, READCOLOR, WRITECOLOR, WRITECOLOR_IA,
CONVERTCOLOR (41_color_codec R160 to R180). -/

namespace Sys2Proof.Machine

/-- The body of GETCOLOR (41_color_codec R160). -/
def getColorCmd (s : State) : Cmd Word :=
  match decodeFmt s.regs.dfmt with
  | none => throw .unsupported
  | some f => do
    failIf (!f.packable) .unsupported
    ofExcept (pack s.params f (unpackChan s.regs.chan))

/-- GETCOLOR (41_color_codec R160). -/
def execGetColor (s : State) : Host.Outcome State Fault Refusal :=
  .next (s.runRes (getColorCmd s))

/-- The body of SPLITCOLOR (41_color_codec R165). -/
def splitColorCmd (s : State) : Cmd Word :=
  match decodeFmt s.regs.sfmt with
  | none => throw .unsupported
  | some f => do
    let c ← split s.params s.regs.color0 f (paletteAt s.regs.pal)
    pure (packChan c)

/-- SPLITCOLOR (41_color_codec R165). -/
def execSplitColor (s : State) : Host.Outcome State Fault Refusal :=
  .next (s.runRchan (splitColorCmd s))

/-- The body of READCOLOR (41_color_codec R170). -/
def readColorCmd (s : State) : Cmd Word :=
  match decodeFmt s.regs.sfmt with
  | none => throw .unsupported
  | some f => do
    failIf (s.regs.src == 0) .invalidArg
    loadPx s.params s.regs.src.toNat f

/-- READCOLOR (41_color_codec R170). -/
def execReadColor (s : State) : Host.Outcome State Fault Refusal :=
  .next (s.runRes (readColorCmd s))

/-- The checks of WRITECOLOR (41_color_codec R174), then a store of COLOR0 at DST. -/
def writeColorWith (s : State) (store : Params → Nat → Fmt → Word → Cmd Unit) : Cmd Unit :=
  match decodeFmt s.regs.dfmt with
  | none => throw .unsupported
  | some f => do
    failIf (!f.writable) .unsupported
    failIf (s.regs.dst == 0) .invalidArg
    store s.params s.regs.dst.toNat f s.regs.color0

/-- WRITECOLOR (41_color_codec R174). -/
def execWriteColor (s : State) : Host.Outcome State Fault Refusal :=
  .next (s.runPlain (writeColorWith s storePx))

/-- WRITECOLOR_IA (41_color_codec R176). -/
def execWriteColorIa (s : State) : Host.Outcome State Fault Refusal :=
  .next (s.runPlain (writeColorWith s storePxIa))

/-- The body of CONVERTCOLOR (41_color_codec R180). -/
def convertColorCmd (s : State) : Cmd Word :=
  match decodeFmt s.regs.sfmt, decodeFmt s.regs.dfmt with
  | some sf, some df => convert s.params s.regs.color0 sf df (paletteAt s.regs.pal)
  | _, _ => throw .unsupported

/-- CONVERTCOLOR (41_color_codec R180). -/
def execConvertColor (s : State) : Host.Outcome State Fault Refusal :=
  .next (s.runRes (convertColorCmd s))

end Sys2Proof.Machine
end

