-- ==== Sys2Proof/Machine/Control.lean ====
section
/-! DEFINITION. NOP (60_exceptions R340), and a reserved command word (30_encoding R95). -/

namespace Sys2Proof.Machine

/-- NOP (60_exceptions R340): ERR is cleared, nothing else happens. -/
def execNop (s : State) : Host.Outcome State Fault Refusal :=
  .next (s.runPlain (pure ()))

/-- A reserved command word (30_encoding R95): failure ILLEGAL_CMD, no memory access, nothing else changes. -/
def reservedWord (s : State) : Host.Outcome State Fault Refusal :=
  .next (s.runPlain (throw .illegalCmd))

end Sys2Proof.Machine
end

