-- ==== Sys2Proof/Machine/Decoders.lean ====
section
/-! DEFINITION. The bit-packed decoders: GLYPH, MONO, ICON, CURSOR (43_bitmap_decoders). -/

namespace Sys2Proof.Machine

/-- The body once for each pixel of a rectangle, rows ascending and columns ascending in each. -/
def forPixels (w h : Nat) (body : Nat → Nat → Cmd Unit) : Cmd Unit :=
  forEach (List.range h) fun y => forEach (List.range w) fun x => body x y

/-! ### GLYPH -/

/-- The body of GLYPH (43_bitmap_decoders R262): a set bit becomes 0xFF, a clear bit 0x00, tightly packed. -/
def glyphCmd (s : State) : Cmd Unit := do
  failIf (s.regs.dst == 0 || s.regs.src == 0) .invalidArg
  let w := s.regs.w.toNat
  forPixels w s.regs.h.toNat fun x y => do
    let b ← readBit s.params s.regs.src.toNat (ceilDiv w 8) y x
    memWrite s.params (s.regs.dst.toNat + y * w + x) [if b then 0xFF else 0x00]

/-- GLYPH (43_bitmap_decoders R262). -/
def execGlyph (s : State) : Host.Outcome State Fault Refusal :=
  .next (s.runPlain (glyphCmd s))

/-! ### MONO -/

/-- The body of MONO (43_bitmap_decoders R270): a set bit selects COLOR0, a clear bit COLOR1. -/
def monoCmd (s : State) : Cmd Unit :=
  match decodeFmt s.regs.dfmt with
  | none => throw .unsupported
  | some f => do
    failIf (!f.writable) .unsupported
    failIf (s.regs.dst == 0 || s.regs.src == 0) .invalidArg
    let t := destRect s.regs f
    forPixels t.w t.h fun x y => do
      let b ← readBit s.params s.regs.src.toNat (ceilDiv t.w 8) y x
      storePx s.params (t.pixel x y) f (if b then s.regs.color0 else s.regs.color1)

/-- MONO (43_bitmap_decoders R270). -/
def execMono (s : State) : Host.Outcome State Fault Refusal :=
  .next (s.runPlain (monoCmd s))

/-! ### ICON -/

/-- The format `IF` of an icon's color bitmap (43_bitmap_decoders R281). -/
def iconFmt (bpp : Word) : Option Fmt :=
  if bpp = 8 then some .rgb8
  else if bpp = 16 then some .rgb15
  else if bpp = 24 then some .rgb24
  else if bpp = 32 then some .bgra32
  else none

/-- The icon's AND mask stride (43_bitmap_decoders R261). -/
def iconMaskStride (w : Nat) : Nat :=
  roundUp (ceilDiv w 8) 4

/-- The first `n` entries of a color table (43_bitmap_decoders R282). -/
def readTable (p : Params) (tbl n : Nat) : Cmd (List Word) :=
  match n with
  | 0 => pure []
  | k + 1 => do
    let e ← loadPx p tbl .bgrx32
    let es ← readTable p (tbl + 4) k
    pure (e :: es)

/-- The icon palette (43_bitmap_decoders R282): a malformed length leaves every entry 0. -/
def iconPalette (p : Params) (tbl len : Nat) : Cmd Palette :=
  if len ≠ 0 ∧ len % 4 = 0 ∧ len / 4 ≤ 256 then do
    let es ← readTable p tbl (len / 4)
    pure (.built es)
  else pure (.built [])

/-- The copy step of ICON (43_bitmap_decoders R280 step 8). -/
def iconReq (r : OperandRegs) (sf : Fmt) (pal : Palette) : CopyReq :=
  { copyReq r with
    sfmt := some sf
    sstride := 0
    sx := 0
    sy := 0
    pal := pal
    flip := true
    keep := false }

/-- The mask pass of ICON (43_bitmap_decoders R280 step 9): alpha 0 where the mask bit is set, 255 elsewhere. -/
def iconMaskPass (p : Params) (t : Rect) (msk : Nat) : Cmd Unit :=
  forPixels t.w t.h fun x y => do
    let m ← readBit p msk (iconMaskStride t.w) (t.h - 1 - y) x
    let v ← loadPx p (t.pixel x y) t.fmt
    let c ← split p v t.fmt .absent
    let v' ← ofExcept (pack p t.fmt ⟨c.r, c.g, c.b, if m then 0 else 255⟩)
    storePx p (t.pixel x y) t.fmt v'

/-- `usemask` (43_bitmap_decoders R280 step 7). -/
def iconUsesMask (r : OperandRegs) (f : Fmt) : Bool :=
  f.hasAlpha && r.msk != 0 && r.msklen != 0

/-- The body of ICON (43_bitmap_decoders R280). -/
def iconCmd (s : State) : Cmd Unit :=
  match decodeFmt s.regs.dfmt with
  | none => throw .unsupported
  | some f => do
    failIf (s.regs.dst == 0 || s.regs.src == 0) .invalidArg
    match iconFmt s.regs.bpp with
    | none => throw .unsupported
    | some sf => do
      let t := destRect s.regs f
      failIf (decide (s.regs.srclen.toNat < t.w * t.h * sf.bytes)) .invalidArg
      failIf (s.regs.tbl == 0 && s.regs.tbllen != 0) .invalidArg
      let pal ← iconPalette s.params s.regs.tbl.toNat s.regs.tbllen.toNat
      failIf (iconUsesMask s.regs f && !f.packable) .unsupported
      failIf (iconUsesMask s.regs f && decide (s.regs.msklen.toNat < iconMaskStride t.w * t.h)) .invalidArg
      copyWith s.params (iconReq s.regs sf pal) (dispatchCopy s.params)
      onlyIf (iconUsesMask s.regs f) (iconMaskPass s.params t s.regs.msk.toNat)

/-- ICON (43_bitmap_decoders R280). -/
def execIcon (s : State) : Host.Outcome State Fault Refusal :=
  .next (s.runPlain (iconCmd s))

/-! ### CURSOR -/

/-- The format `XF` of a cursor's color XOR pixels (43_bitmap_decoders R296); `none` for the 1-bit variant and
for an unsupported depth. -/
def cursorFmt (bpp : Word) : Option Fmt :=
  if bpp = 8 then some .rgb8
  else if bpp = 16 then some .rgb15
  else if bpp = 24 then some .bgr24
  else if bpp = 32 then some .bgra32
  else none

/-- The stride of a cursor's 1-bit masks (43_bitmap_decoders R261). -/
def cursorMaskStride (w : Nat) : Nat :=
  roundUp (ceilDiv w 8) 2

/-- The stride of a cursor's color XOR mask (43_bitmap_decoders R261). -/
def cursorXorStride (w xorBytes : Nat) : Nat :=
  roundUp (w * xorBytes) 2

/-- The zero fill of the destination rectangle (43_bitmap_decoders R290 step 3). -/
def zeroFill (p : Params) (t : Rect) : Cmd Unit :=
  forEach (List.range t.h) fun y => memWrite p (t.pixel 0 y) (List.replicate t.rowBytes 0)

/-- The combination table of the 1-bit variant (43_bitmap_decoders R294). -/
def combine (p : Params) (f : Fmt) (andBit xorBit : Bool) (x y : Nat) : Except Err Word :=
  match andBit, xorBit with
  | false, false => pack p f ⟨0, 0, 0, 255⟩
  | false, true => pack p f ⟨255, 255, 255, 255⟩
  | true, false => pack p f ⟨0, 0, 0, 0⟩
  | true, true => invertedColor p f x y

/-- The 1-bit variant of CURSOR (43_bitmap_decoders R293). -/
def cursorMonoCmd (s : State) (t : Rect) : Cmd Unit := do
  failIf (s.regs.src == 0 || s.regs.srclen == 0 || s.regs.msk == 0 || s.regs.msklen == 0) .invalidArg
  let st := cursorMaskStride t.w
  failIf (decide (s.regs.srclen.toNat < st * t.h) || decide (s.regs.msklen.toNat < st * t.h)) .invalidArg
  forPixels t.w t.h fun x y => do
    let xb ← readBit s.params s.regs.src.toNat st y x
    let ab ← readBit s.params s.regs.msk.toNat st y x
    let c ← ofExcept (combine s.params t.fmt ab xb x y)
    storePx s.params (t.pixel x y) t.fmt c

/-- What a set AND bit makes of a canonical ARGB32 pixel (43_bitmap_decoders R295): opaque black becomes
transparent, opaque white the inverted color, any other value stays. -/
def applyAndBit (p : Params) (v : Word) (x y : Nat) : Except Err Word :=
  if v = 0xFF000000#32 then .ok 0
  else if v = 0xFFFFFFFF#32 then invertedColor p .argb32 x y
  else .ok v

/-- The AND bit of a pixel of the color variant; with no AND mask no bit is set (43_bitmap_decoders R295). -/
def cursorAndBit (s : State) (t : Rect) (row x : Nat) : Cmd Bool :=
  if s.regs.msk = 0 then pure false
  else readBit s.params s.regs.msk.toNat (cursorMaskStride t.w) row x

/-- The color variant of CURSOR, whose XOR pixels have the format `xf` (43_bitmap_decoders R295). -/
def cursorColorCmd (s : State) (t : Rect) (xf : Fmt) : Cmd Unit := do
  failIf (s.regs.src == 0 || s.regs.srclen == 0) .invalidArg
  let xorBytes := s.regs.bpp.toNat / 8
  convChecks s.params xf .argb32 (paletteAt s.regs.pal)
  let xst := cursorXorStride t.w xorBytes
  failIf (decide (s.regs.srclen.toNat < xst * t.h)) .invalidArg
  failIf (s.regs.msk != 0 && decide (s.regs.msklen.toNat < cursorMaskStride t.w * t.h)) .invalidArg
  forPixels t.w t.h fun x y => do
    let row := t.h - 1 - y
    let v ← loadPx s.params (s.regs.src.toNat + xst * row + x * xorBytes) xf
    let c ← convert s.params v xf .argb32 (paletteAt s.regs.pal)
    let ab ← cursorAndBit s t row x
    let c' ← ofExcept (if ab then applyAndBit s.params c x y else .ok c)
    let out ← convert s.params c' .argb32 t.fmt .absent
    storePx s.params (t.pixel x y) t.fmt out

/-- The body of CURSOR (43_bitmap_decoders R290): the rectangle is zeroed before the depth is looked at. -/
def cursorCmd (s : State) : Cmd Unit :=
  match decodeFmt s.regs.dfmt with
  | none => throw .unsupported
  | some f => do
    failIf (!f.packable) .unsupported
    failIf (s.regs.dst == 0) .invalidArg
    let t := destRect s.regs f
    zeroFill s.params t
    if s.regs.bpp = 1 then cursorMonoCmd s t
    else
      match cursorFmt s.regs.bpp with
      | some xf => cursorColorCmd s t xf
      | none => throw .unsupported

/-- CURSOR (43_bitmap_decoders R290). -/
def execCursor (s : State) : Host.Outcome State Fault Refusal :=
  .next (s.runPlain (cursorCmd s))

end Sys2Proof.Machine
end

