-- ==== Sys2Proof/Machine/Metadata.lean ====
section
/-! DEFINITION. The format metadata queries: FMT_BPP, FMT_BYTES, FMT_HASALPHA, FMT_EQNA, FMT_NAME
(40_format_metadata R130 to R134). -/

namespace Sys2Proof.Machine

/-- A query of one enumerated format; `Invalid` is UNSUPPORTED (40_format_metadata R128, R130). -/
def queryFmt (w : Word) (answer : Fmt → Nat) : Cmd Word :=
  match decodeFmt w with
  | none => throw .unsupported
  | some f => pure (BitVec.ofNat 32 (answer f))

/-- FMT_BPP (40_format_metadata R130). -/
def execFmtBpp (s : State) : Host.Outcome State Fault Refusal :=
  .next (s.runRes (queryFmt s.regs.sfmt Fmt.bpp))

/-- FMT_BYTES (40_format_metadata R131). -/
def execFmtBytes (s : State) : Host.Outcome State Fault Refusal :=
  .next (s.runRes (queryFmt s.regs.sfmt Fmt.bytes))

/-- FMT_HASALPHA (40_format_metadata R132). -/
def execFmtHasAlpha (s : State) : Host.Outcome State Fault Refusal :=
  .next (s.runRes (queryFmt s.regs.sfmt fun f => f.hasAlpha.toNat))

/-- The body of FMT_EQNA (40_format_metadata R133). -/
def fmtEqnaCmd (s : State) : Cmd Word :=
  match decodeFmt s.regs.sfmt, decodeFmt s.regs.dfmt with
  | some a, some b => pure (BitVec.ofNat 32 (eqna a b).toNat)
  | _, _ => throw .unsupported

/-- FMT_EQNA (40_format_metadata R133). -/
def execFmtEqna (s : State) : Host.Outcome State Fault Refusal :=
  .next (s.runRes (fmtEqnaCmd s))

/-- The body of FMT_NAME (40_format_metadata R134): the name and a zero byte at DST, its length in RES. -/
def fmtNameCmd (s : State) : Cmd Word := do
  failIf (s.regs.dst == 0) .invalidArg
  let name := fmtName (decodeFmt s.regs.sfmt)
  memWrite s.params s.regs.dst.toNat (name ++ [0])
  pure (BitVec.ofNat 32 name.length)

/-- FMT_NAME (40_format_metadata R134). -/
def execFmtName (s : State) : Host.Outcome State Fault Refusal :=
  .next (s.runRes (fmtNameCmd s))

end Sys2Proof.Machine
end

