-- ==== Sys2Proof/Machine/Dispatch.lean ====
section
/-! DEFINITION. One arm per command, each one call of the command's meaning. -/

namespace Sys2Proof.Machine

def exec (i : Instr) (s : State) : Host.Outcome State Fault Refusal :=
  match i with
  | .nop => Sys2Proof.Machine.execNop s
  | .fmtBpp => Sys2Proof.Machine.execFmtBpp s
  | .fmtBytes => Sys2Proof.Machine.execFmtBytes s
  | .fmtHasAlpha => Sys2Proof.Machine.execFmtHasAlpha s
  | .fmtEqna => Sys2Proof.Machine.execFmtEqna s
  | .fmtName => Sys2Proof.Machine.execFmtName s
  | .getColor => Sys2Proof.Machine.execGetColor s
  | .splitColor => Sys2Proof.Machine.execSplitColor s
  | .readColor => Sys2Proof.Machine.execReadColor s
  | .writeColor => Sys2Proof.Machine.execWriteColor s
  | .writeColorIa => Sys2Proof.Machine.execWriteColorIa s
  | .convertColor => Sys2Proof.Machine.execConvertColor s
  | .copy => Sys2Proof.Machine.execCopy s
  | .copyOvl => Sys2Proof.Machine.execCopyOvl s
  | .copyNovl => Sys2Proof.Machine.execCopyNovl s
  | .fill => Sys2Proof.Machine.execFill s
  | .scale => Sys2Proof.Machine.execScale s
  | .glyph => Sys2Proof.Machine.execGlyph s
  | .mono => Sys2Proof.Machine.execMono s
  | .icon => Sys2Proof.Machine.execIcon s
  | .cursor => Sys2Proof.Machine.execCursor s

end Sys2Proof.Machine
end

