-- ==== Sys2Proof/Machine/HostPort.lean ====
section
/-! DEFINITION. The block's register window as the host sees it, the CMD doorbell, the host's own memory
accesses and the external reset (10_state R21, R30 to R37, 20_memory R80, 70 R360). -/

namespace Sys2Proof.Machine

/-- The byte offset of CMD, register 28 (10_state R34). -/
def cmdOffset : Nat := 0xE0

/-- A word written to CMD (10_state R34): the command it encodes runs to completion; a word that encodes none
is reserved (30_encoding R95). -/
def command (c : Word) (s : State) : Host.Outcome State Fault Refusal :=
  match decode c with
  | .ok i => exec i s
  | .error (.reserved _) => reservedWord s

/-- What a host read of a register returns (10_state R21, R30, R32, R34, R36, R37): operand and result
registers zero-extended, STATUS, 0 from CMD, CAP, 0 from offset 0xF0 on. -/
def registerValue (s : State) (n : Nat) : Slot :=
  match operandReg n with
  | some r => s.regs.get r
  | none =>
    if n = 25 then s.res.setWidth 64
    else if n = 26 then s.rchan.setWidth 64
    else if n = 27 then s.status.word.setWidth 64
    else if n = 29 then (capWord s.params).setWidth 64
    else 0

/-- A host write of a slot (10_state R21, R30, R32, R34, R36, R37): operand registers store it, CMD runs its
low 32 bits as a command (30_encoding R90), writes to every other register are ignored. -/
def writeRegister (s : State) (n : Nat) (v : Slot) : Host.Outcome State Fault Refusal :=
  match operandReg n with
  | some r => .next { s with regs := s.regs.set s.params r v }
  | none => if n = 28 then command (v.setWidth 32) s else .next s

/-- The external reset between commands (70 R360, R361): registers take their reset values; memory, the build's
parameters, the host's script and the oracle's count stay. -/
def resetBlock (s : State) : State :=
  { s with
    regs := OperandRegs.reset
    res := 0
    rchan := 0
    status := ⟨0, false, false⟩ }

/-- One thing the host does. The host's own access to memory goes by its bus, not by the block's memory port: that
it succeeds on every byte of the address space, also on one whose access by the block the platform rejects
(20_memory R84), is a DESIGN CHOICE of the model, log entry 13. -/
def hostEvent (e : HostEvent) (s : State) : Host.Outcome State Fault Refusal :=
  match e with
  | .write offset v =>
    if offset % 8 = 0 then writeRegister s (offset / 8) v else .refused (.partialSlot offset)
  | .read offset =>
    if offset % 8 = 0 then .next { s with readData := registerValue s (offset / 8) }
    else .refused (.partialSlot offset)
  | .memWrite a b =>
    if a < 2 ^ s.params.addrW then .next { s with mem := s.mem.write a b } else .fault (.noSuchAddress a)
  | .memRead a =>
    if a < 2 ^ s.params.addrW then .next { s with readData := (s.mem.read a).setWidth 64 }
    else .fault (.noSuchAddress a)
  | .reset => .next (resetBlock s)

/-- The bus write that issues a command word: `go` (30_encoding R110). -/
def goEvent (c : Nat) : HostEvent :=
  .write cmdOffset (BitVec.ofNat 64 c)

end Sys2Proof.Machine
end

