-- ==== Sys2Proof/Machine/Step.lean ====
section
/-! DEFINITION. One step: the block waits for the host, or the host's next event happens (00_scope R8). -/

namespace Sys2Proof.Machine

/-- One step. With nothing pending from the host the block waits and nothing changes (10_state R24: it
fetches no instructions); otherwise the next event happens, whatever the outcome of the last command. -/
def step (s : State) : Host.Outcome State Fault Refusal :=
  match s.script with
  | [] => .next s
  | e :: rest => hostEvent e { s with script := rest }

/-- The state in which the host's next act is to write the low `nbits` bits of `w` to CMD. -/
def State.withFetchWord (s : State) (nbits w : Nat) : State :=
  { s with script := goEvent (w % 2 ^ nbits) :: s.script }

end Sys2Proof.Machine
end

