-- ==== Sys2Proof/Safety.lean ====
section
/-! DEFINITION. What claims about color_codec speak of: the invariant of every state, the bytes a command may
store to, what a command reads and how it may end, the bytes a command cannot do without, and the values its rules
give, said without the order of its steps. -/

namespace Sys2Proof

/-- The operand registers a command reads (10_state R22). -/
def Instr.reads (i : Instr) : List OperandReg :=
  match i with
  | .nop => []
  | .fmtBpp | .fmtBytes | .fmtHasAlpha => [.sfmt]
  | .fmtEqna => [.sfmt, .dfmt]
  | .fmtName => [.sfmt, .dst]
  | .getColor => [.dfmt, .chan]
  | .splitColor => [.color0, .sfmt, .pal]
  | .readColor => [.src, .sfmt]
  | .writeColor | .writeColorIa => [.dst, .dfmt, .color0]
  | .convertColor => [.color0, .sfmt, .dfmt, .pal]
  | .copy | .copyOvl | .copyNovl =>
    [.dst, .dfmt, .dstride, .dx, .dy, .w, .h, .src, .sfmt, .sstride, .sx, .sy, .pal, .flags]
  | .fill => [.dst, .dfmt, .dstride, .dx, .dy, .w, .h, .color0]
  | .scale => [.dst, .dfmt, .dstride, .dx, .dy, .w, .h, .src, .sfmt, .sstride, .sx, .sy, .sw, .sh]
  | .glyph => [.dst, .src, .w, .h]
  | .mono => [.dst, .dfmt, .dstride, .dx, .dy, .w, .h, .src, .color0, .color1]
  | .icon =>
    [.dst, .dfmt, .dstride, .dx, .dy, .w, .h, .src, .srclen, .msk, .msklen, .tbl, .tbllen, .bpp]
  | .cursor =>
    [.dst, .dfmt, .dstride, .dx, .dy, .w, .h, .src, .srclen, .msk, .msklen, .bpp, .pal]

/-- The producers of RES (10_state R31). -/
def Instr.producesRes (i : Instr) : Bool :=
  [.fmtBpp, .fmtBytes, .fmtHasAlpha, .fmtEqna, .fmtName, .getColor, .readColor, .convertColor].contains i

/-- The producer of RCHAN (10_state R31). -/
def Instr.producesRchan (i : Instr) : Bool :=
  i == .splitColor

/-- The commands that may store to memory. -/
def Instr.stores (i : Instr) : Bool :=
  [.fmtName, .writeColor, .writeColorIa, .copy, .copyOvl, .copyNovl, .fill, .scale, .glyph, .mono, .icon,
    .cursor].contains i

end Sys2Proof

namespace Sys2Proof.Machine

/-- The codes of STATUS.ERR other than 0 (success) and 6 (BUS) with which a command can end
(60_exceptions R321, R323). -/
def mayEnd (i : Instr) : List (BitVec 4) :=
  match i with
  | .nop => []
  | .fmtBpp | .fmtBytes | .fmtHasAlpha | .fmtEqna => [2]
  | .fmtName => [1]
  | .getColor => [2]
  | .splitColor | .convertColor => [1, 2, 3]
  | .readColor | .writeColor | .writeColorIa => [1, 2]
  | .copy => [1, 2, 3, 4]
  | .copyOvl => [1, 2, 3]
  | .copyNovl => [1, 2, 3, 4, 7]
  | .fill => [1, 2]
  | .scale => [1, 2, 3, 4, 7]
  | .glyph => [1]
  | .mono => [1, 2]
  | .icon => [1, 2, 4]
  | .cursor => [1, 2, 3]

/-- The commands that touch no memory, whatever their operands; SPLITCOLOR and CONVERTCOLOR touch it only for
RGB8 (60_exceptions R323). -/
def touchesNoMemory (i : Instr) : Bool :=
  [.nop, .fmtBpp, .fmtBytes, .fmtHasAlpha, .fmtEqna, .getColor].contains i

/-- The five address registers (10_state R21). -/
def addressRegs : List OperandReg :=
  [.dst, .src, .pal, .msk, .tbl]

/-- The invariant every step keeps: the parameters are a build's, memory has its canonical form and lies
inside the address space, address registers hold `ADDR_W` bits, ERR is a code that is ever written and a
fault's code comes with FAULT set. -/
abbrev State.Lawful (s : State) : Prop :=
  s.params.wf = true ∧ Memory.wf s.mem ∧ (∀ c ∈ s.mem, c.1 < 2 ^ s.params.addrW) ∧
  (∀ r ∈ addressRegs, (s.regs.get r).toNat < 2 ^ s.params.addrW) ∧
  s.status.err.toNat ≤ 7 ∧ (6 ≤ s.status.err.toNat → s.status.fault = true)

/-- A safe run of the host and the block: no command has faulted (60_exceptions R330), and the next step is
neither a fault nor a refusal of the model. -/
def State.Safe (s : State) : Prop :=
  s.status.fault = false ∧ ∃ t, step s = .next t

/-! ### The bytes a command stores to -/

/-- The bytes from an address on, `n` of them, as the memory port sees them. -/
abbrev span (p : Params) (a n b : Nat) : Prop :=
  ∃ k, k < n ∧ b = portAddr p (a + k)

/-- The bytes of a rectangle (70 R364): row by row, from its first column on. -/
abbrev Rect.footprint (p : Params) (t : Rect) (b : Nat) : Prop :=
  ∃ y, y < t.h ∧ span p (t.pixel 0 y) t.rowBytes b

/-- Rows do not run into one another (42_blit_engine R225). -/
abbrev Rect.rowsApart (t : Rect) : Prop :=
  (t.x + t.w) * t.fmt.bytes ≤ t.stride ∨ t.h = 1

/-- The footprint does not pass the top of the address space (20_memory R62). -/
abbrev Rect.fits (p : Params) (t : Rect) : Prop :=
  t.pixel 0 (t.h - 1) + t.rowBytes ≤ 2 ^ p.addrW

/-! ### Values, said without the order of a command's steps -/

/-- The bytes memory holds from an address on. -/
def bytesAt (p : Params) (m : Memory) (a n : Nat) : List Byte :=
  (List.range n).map fun k => Memory.read m (portAddr p (a + k))

/-- The 32-bit number that memory holds least significant byte first (20_memory R72). -/
def wordLeAt (p : Params) (m : Memory) (a : Nat) : Word :=
  place (Memory.read m (portAddr p (a + 3))) 24 ||| place (Memory.read m (portAddr p (a + 2))) 16 |||
    place (Memory.read m (portAddr p (a + 1))) 8 ||| place (Memory.read m (portAddr p a)) 0

/-- The packed value of the pixel memory holds at an address (20_memory R66). -/
def pixelAt (p : Params) (m : Memory) (a : Nat) (f : Fmt) : Word :=
  pixelValue f (bytesAt p m a f.bytes)

/-- The bit of a bit-packed input (00_scope R13). -/
def bitIn (p : Params) (m : Memory) (base stride row x : Nat) : Bool :=
  (Memory.read m (portAddr p (base + stride * row + x / 8))).getLsbD (7 - x % 8)

/-- The format of a palette's entries, and entry `i`, as memory holds them (20_memory R72). -/
def paletteIn (p : Params) (m : Memory) (pal : Palette) (i : Nat) : Option Fmt × Word :=
  match pal with
  | .absent => (none, 0)
  | .inMemory a => (decodeFmt (wordLeAt p m a), wordLeAt p m (a + 4 + 4 * i))
  | .built entries => (some .bgrx32, entries.getD i 0)

/-- The channels of a packed value, palettes resolved in memory (41_color_codec R161 to R164). -/
def channelsIn (p : Params) (m : Memory) (pal : Palette) (f : Fmt) (v : Word) : Except Err Channels :=
  if f = .rgb8 then
    if pal = .absent then .error .missingContext
    else if 0xFF < v.toNat then .error .invalidArg
    else
      match paletteIn p m pal v.toNat with
      | (none, _) => .error .unsupported
      | (some g, e) => splitBare p g e
  else splitBare p f v

/-- The converted value (41_color_codec R179), palettes resolved in memory. -/
def convertIn (p : Params) (m : Memory) (pal : Palette) (sf df : Fmt) (v : Word) : Except Err Word :=
  match channelsIn p m pal sf v with
  | .error e => .error e
  | .ok c => pack p df c

/-- What `store_px_ia` leaves in a pixel (41_color_codec R175): the alpha or pad byte as it was. -/
def mergedBytes (f : Fmt) (old new : List Byte) : List Byte :=
  if f.alphaFirst then old.take 1 ++ new.drop 1
  else if f.alphaLast then new.take 3 ++ old.drop 3
  else new

/-- The bytes of a destination pixel after a converting copy (42_blit_engine R208, R209). -/
def storedBytes (mode : CopyMode) (f : Fmt) (old : List Byte) (v : Word) : List Byte :=
  match mode with
  | .alpha => mergedBytes f old (pxBytes f v)
  | .conv | .raw => pxBytes f v

/-! ### When a converting copy cannot fail -/

/-- The palette serves the conversion of RGB8 pixels (42_blit_engine R207), and the copy does not overwrite
its tag (70 R372). -/
abbrev CopyJob.paletteGood (p : Params) (m : Memory) (j : CopyJob) : Prop :=
  match j.pal with
  | .absent => False
  | .built _ => True
  | .inMemory a =>
    (∃ g ∈ Fmt.all, decodeFmt (wordLeAt p m a) = some g ∧ g ≠ .rgb8 ∧ g.unpackable = true) ∧
    ∀ k, k < 4 → ¬ j.rect.footprint p (portAddr p (a + k))

/-- The conditions under which a copy's mode runs through (42_blit_engine R204, R206, R207). -/
abbrev CopyJob.ready (p : Params) (m : Memory) (j : CopyJob) : Prop :=
  j.mode = .raw ∨
  (j.sf.unpackable = true ∧ j.df.packable = true ∧ (j.sf = .rgb8 → j.paletteGood p m))

/-- The destination rectangle of a command does not hold the tag of the palette at PAL (70 R372). -/
abbrev paletteApart (s : State) : Prop :=
  ∀ f ∈ Fmt.all, decodeFmt s.regs.dfmt = some f → s.regs.pal ≠ 0 →
    ∀ k, k < 4 → ¬ (destRect s.regs f).footprint s.params (portAddr s.params (s.regs.pal.toNat + k))

/-! ### How a command ends -/

/-- `s` after a command that succeeded, leaving memory `m` and the backend handle's bit `binit` (10_state R33). -/
def State.succeeded (s : State) (m : Memory) (binit : Bool) : State :=
  { s with mem := m, status := ⟨0, s.status.fault, binit⟩ }

/-- `s` after a command that failed with a code and changed nothing else (60_exceptions R325). -/
def State.failed (s : State) (code : BitVec 4) : State :=
  { s with status := ⟨code, s.status.fault, s.status.binit⟩ }

/-- The two formats of a command, DFMT's and SFMT's, when both are enumerated (30_encoding R101). -/
abbrev State.formats (s : State) (df sf : Fmt) : Prop :=
  decodeFmt s.regs.dfmt = some df ∧ decodeFmt s.regs.sfmt = some sf

/-- The conditions of `copy_checks` under which a copy has work to do (42_blit_engine R202). -/
abbrev State.copyable (s : State) : Prop :=
  s.regs.w.toNat ≤ s.params.maxDim ∧ s.regs.h.toNat ≤ s.params.maxDim ∧
  s.regs.dst ≠ 0 ∧ s.regs.src ≠ 0 ∧ s.regs.w ≠ 0 ∧ s.regs.h ≠ 0

/-- The copy the operand registers ask for, its formats enumerated (42_blit_engine R200). -/
def State.copyJob (s : State) (df sf : Fmt) : CopyJob :=
  (copyReq s.regs).job df sf

/-- No byte of a copy's source rectangle is in its destination rectangle. -/
abbrev CopyJob.sourceApart (p : Params) (j : CopyJob) : Prop :=
  ∀ y, y < j.h → ∀ k, k < j.w * j.sf.bytes → ¬ j.rect.footprint p (portAddr p (j.srcPixel 0 y + k))

/-- The palette of an RGB8 source, if it lies in memory, is not in the destination rectangle: neither its tag
nor an entry (20_memory R72). -/
abbrev CopyJob.paletteApart (p : Params) (j : CopyJob) : Prop :=
  j.sf = .rgb8 → ∀ a, j.pal = .inMemory a → ∀ k, k < 1028 → ¬ j.rect.footprint p (portAddr p (a + k))

/-- The conditions of the staging property (42_blit_engine R212): one buffer, one stride, one pixel size, no flip,
rows that do not run into one another, all inside the address space (20_memory R62). -/
abbrev CopyJob.sameBuffer (p : Params) (j : CopyJob) : Prop :=
  j.dst = j.src ∧ j.ds = j.ss ∧ j.df.bytes = j.sf.bytes ∧ j.flip = false ∧
  (max j.dx j.sx + j.w) * j.df.bytes ≤ j.ds ∧
  j.dst + (max j.dy j.sy + j.h) * j.ds ≤ 2 ^ p.addrW

/-- No byte that a bit-packed input of `h` rows of `w` bits is read from is in `S`. -/
abbrev bitsApart (p : Params) (base stride w h : Nat) (S : Nat → Prop) : Prop :=
  ∀ y, y < h → ∀ x, x < w → ¬ S (portAddr p (base + stride * y + x / 8))

/-! ### Rejected accesses -/

/-- The bytes that a bit-packed input of `h` rows of `w` bits is read from (43_bitmap_decoders R260). -/
abbrev bitBytes (p : Params) (base stride w h a : Nat) : Prop :=
  ∃ y, y < h ∧ ∃ x, x < w ∧ a = portAddr p (base + stride * y + x / 8)

/-- `s` on a platform that rejects no access (20_memory R84: the default one). -/
def State.unrejecting (s : State) : State :=
  { s with params := { s.params with rejects := [] } }

/-- The bytes of a copy's source rectangle. -/
abbrev CopyJob.sourceBytes (p : Params) (j : CopyJob) (a : Nat) : Prop :=
  ∃ y, y < j.h ∧ span p (j.srcPixel 0 y) (j.w * j.sf.bytes) a

/-- The bytes every copy of some area accesses when it succeeds, unless it is a raw copy of a rectangle onto itself
(42_blit_engine R206): both rectangles, and the palette's tag (R207). -/
abbrev CopyJob.touches (p : Params) (j : CopyJob) (a : Nat) : Prop :=
  ¬ (j.mode = .raw ∧ j.coincide = true) ∧
  (j.rect.footprint p a ∨ j.sourceBytes p a ∨
    (j.mode ≠ .raw ∧ j.sf = .rgb8 ∧ 0 < j.w ∧ 0 < j.h ∧ ∃ b, j.pal = .inMemory b ∧ span p b 4 a))

/-- The bytes an ICON accesses when it succeeds (43_bitmap_decoders R280): its color table when its length is well
formed, what its copy accesses, and its mask when that is used. -/
abbrev iconTouches (s : State) (f sf : Fmt) (a : Nat) : Prop :=
  (s.regs.tbllen.toNat % 4 = 0 ∧ s.regs.tbllen.toNat ≤ 1024 ∧
    span s.params s.regs.tbl.toNat s.regs.tbllen.toNat a) ∨
  ((iconReq s.regs sf .absent).job f sf).touches s.params a ∨
  (f.hasAlpha = true ∧ s.regs.msk ≠ 0 ∧ s.regs.msklen ≠ 0 ∧
    bitBytes s.params s.regs.msk.toNat (((s.regs.w.toNat + 7) / 8 + 3) / 4 * 4) s.regs.w.toNat s.regs.h.toNat a)

/-- The bytes a CURSOR accesses when it succeeds (43_bitmap_decoders R290, R293, R295): its rectangle, its XOR mask,
its AND mask unless there is none, and the tag of an 8-bit cursor's palette. -/
abbrev cursorTouches (s : State) (f : Fmt) (a : Nat) : Prop :=
  (destRect s.regs f).footprint s.params a ∨
  (s.regs.bpp = 1 ∧
    bitBytes s.params s.regs.src.toNat (((s.regs.w.toNat + 7) / 8 + 1) / 2 * 2) s.regs.w.toNat s.regs.h.toNat a) ∨
  (s.regs.bpp ≠ 1 ∧ ∃ y, y < s.regs.h.toNat ∧
    span s.params (s.regs.src.toNat + ((s.regs.w.toNat * (s.regs.bpp.toNat / 8) + 1) / 2 * 2) * y)
      (s.regs.w.toNat * (s.regs.bpp.toNat / 8)) a) ∨
  (s.regs.msk ≠ 0 ∧
    bitBytes s.params s.regs.msk.toNat (((s.regs.w.toNat + 7) / 8 + 1) / 2 * 2) s.regs.w.toNat s.regs.h.toNat a) ∨
  (s.regs.bpp = 8 ∧ span s.params s.regs.pal.toNat 4 a)

/-- The bytes a command accesses whenever it succeeds (70 R364). Of a palette's entries a copy or cursor reads those
its pixels index, which are not counted here. -/
def mustTouch (i : Instr) (s : State) (a : Nat) : Prop :=
  let src := s.regs.src.toNat
  let dst := s.regs.dst.toNat
  let w := s.regs.w.toNat
  let h := s.regs.h.toNat
  match i with
  | .nop | .fmtBpp | .fmtBytes | .fmtHasAlpha | .fmtEqna | .getColor => False
  | .fmtName => span s.params dst ((fmtName (decodeFmt s.regs.sfmt)).length + 1) a
  | .splitColor | .convertColor =>
    decodeFmt s.regs.sfmt = some .rgb8 ∧
    (span s.params s.regs.pal.toNat 4 a ∨
      span s.params (s.regs.pal.toNat + 4 + 4 * s.regs.color0.toNat) 4 a)
  | .readColor => ∃ f ∈ Fmt.all, decodeFmt s.regs.sfmt = some f ∧ span s.params src f.bytes a
  | .writeColor | .writeColorIa => ∃ f ∈ Fmt.all, decodeFmt s.regs.dfmt = some f ∧ span s.params dst f.bytes a
  | .copy | .copyOvl | .copyNovl =>
    ∃ df ∈ Fmt.all, ∃ sf ∈ Fmt.all, s.formats df sf ∧ (s.copyJob df sf).touches s.params a
  | .fill => ∃ f ∈ Fmt.all, decodeFmt s.regs.dfmt = some f ∧ (destRect s.regs f).footprint s.params a
  | .scale =>
    ∃ df ∈ Fmt.all, ∃ sf ∈ Fmt.all, s.formats df sf ∧
      if s.regs.w = s.regs.sw ∧ s.regs.h = s.regs.sh then ((scaleReq s.regs).job df sf).touches s.params a
      else (destRect s.regs df).footprint s.params a
  | .glyph => span s.params dst (w * h) a ∨ bitBytes s.params src ((w + 7) / 8) w h a
  | .mono =>
    ∃ f ∈ Fmt.all, decodeFmt s.regs.dfmt = some f ∧
      ((destRect s.regs f).footprint s.params a ∨ bitBytes s.params src ((w + 7) / 8) w h a)
  | .icon =>
    ∃ f ∈ Fmt.all, decodeFmt s.regs.dfmt = some f ∧
      ∃ sf ∈ Fmt.all, (s.regs.bpp.toNat, sf) ∈ [(8, Fmt.rgb8), (16, .rgb15), (24, .rgb24), (32, .bgra32)] ∧
        iconTouches s f sf a
  | .cursor => ∃ f ∈ Fmt.all, decodeFmt s.regs.dfmt = some f ∧ cursorTouches s f a

/-- Byte `k` of row `y` comes before byte `K` of row `Y`, rows and columns ascending. -/
abbrev rowMajor (Y K y k : Nat) : Prop :=
  y < Y ∨ (y = Y ∧ k < K)

/-- Byte `k` of destination row `y` is stored before byte `K` of row `Y` by a RAW or CONV copy (42_blit_engine R203,
R206, R208): columns go from right to left only pixel by pixel. -/
abbrev CopyJob.storedBefore (j : CopyJob) (Y K y k : Nat) : Prop :=
  if y = Y then
    if j.mode = .conv ∧ j.dy = j.sy ∧ j.sx < j.dx then
      K / j.df.bytes < k / j.df.bytes ∨ (k / j.df.bytes = K / j.df.bytes ∧ k < K)
    else k < K
  else if j.sy < j.dy then Y < y
  else y < Y

/-- The first byte of a rectangle that the platform rejects, in an order of its bytes, is byte `K` of row `Y`. -/
abbrev Rect.stopsAt (p : Params) (t : Rect) (before : Nat → Nat → Prop) (Y K : Nat) : Prop :=
  Y < t.h ∧ K < t.rowBytes ∧ rejected p (portAddr p (t.pixel 0 Y + K)) = true ∧
  ∀ y, y < t.h → ∀ k, k < t.rowBytes → before y k → rejected p (portAddr p (t.pixel 0 y + k)) = false

/-- The bytes of a rectangle that come before a place, in an order of its bytes. -/
abbrev Rect.bytesBefore (p : Params) (t : Rect) (before : Nat → Nat → Prop) (a : Nat) : Prop :=
  ∃ y, y < t.h ∧ ∃ k, k < t.rowBytes ∧ before y k ∧ a = portAddr p (t.pixel 0 y + k)

/-- A command that a BUS fault stopped (20_memory R84): FAULT is set, BINIT is as said, and of memory just the bytes
of `stored` were written, with what `m` holds. -/
abbrev stopped (s t : State) (binit : Bool) (stored : Nat → Prop) (m : Memory) : Prop :=
  t.status = ⟨6, true, binit⟩ ∧
  (∀ a, stored a → Memory.read t.mem a = Memory.read m a) ∧
  ∀ a, ¬ stored a → Memory.read t.mem a = Memory.read s.mem a

/-! ### The rules' tables in numbers -/

/-- One row of the format tables (30_encoding R100, 40_format_metadata R123, R124, R125, R129). -/
structure FormatRow where
  ident : Word
  bpp : Nat
  bytes : Nat
  alpha : Nat
  name : String
  deriving DecidableEq, Repr

/-- The 21 rows. -/
def formatRows : List FormatRow :=
  [⟨0x20018888#32, 32, 4, 1, "PIXEL_FORMAT_ARGB32"⟩,
   ⟨0x20010888#32, 32, 4, 0, "PIXEL_FORMAT_XRGB32"⟩,
   ⟨0x20028888#32, 32, 4, 1, "PIXEL_FORMAT_ABGR32"⟩,
   ⟨0x20020888#32, 32, 4, 0, "PIXEL_FORMAT_XBGR32"⟩,
   ⟨0x20048888#32, 32, 4, 1, "PIXEL_FORMAT_BGRA32"⟩,
   ⟨0x20040888#32, 32, 4, 0, "PIXEL_FORMAT_BGRX32"⟩,
   ⟨0x20038888#32, 32, 4, 1, "PIXEL_FORMAT_RGBA32"⟩,
   ⟨0x20030888#32, 32, 4, 0, "PIXEL_FORMAT_RGBX32"⟩,
   ⟨0x20040AAA#32, 32, 4, 0, "PIXEL_FORMAT_BGRX32_DEPTH30"⟩,
   ⟨0x20030AAA#32, 32, 4, 0, "PIXEL_FORMAT_RGBX32_DEPTH30"⟩] ++
  [⟨0x18010888#32, 24, 3, 0, "PIXEL_FORMAT_RGB24"⟩,
   ⟨0x18020888#32, 24, 3, 0, "PIXEL_FORMAT_BGR24"⟩,
   ⟨0x10010565#32, 16, 2, 0, "PIXEL_FORMAT_RGB16"⟩,
   ⟨0x10020565#32, 16, 2, 0, "PIXEL_FORMAT_BGR16"⟩,
   ⟨0x10011555#32, 16, 2, 1, "PIXEL_FORMAT_ARGB15"⟩,
   ⟨0x0F010555#32, 15, 2, 0, "PIXEL_FORMAT_RGB15"⟩,
   ⟨0x10021555#32, 16, 2, 1, "PIXEL_FORMAT_ABGR15"⟩,
   ⟨0x0F020555#32, 15, 2, 0, "PIXEL_FORMAT_BGR15"⟩,
   ⟨0x08008000#32, 8, 1, 1, "PIXEL_FORMAT_RGB8"⟩,
   ⟨0x04004000#32, 4, 1, 1, "PIXEL_FORMAT_A4"⟩,
   ⟨0x01001000#32, 1, 1, 1, "PIXEL_FORMAT_MONO"⟩]

/-- The packed depth-30 value in numbers (41_color_codec R156): the 30-bit field, its bytes reversed. -/
def depth30Nat (r g b : Nat) : Nat :=
  let t := r * 2 ^ 22 + g * 2 ^ 12 + b * 2 ^ 2
  t % 256 * 2 ^ 24 + t / 2 ^ 8 % 256 * 2 ^ 16 + t / 2 ^ 16 % 256 * 2 ^ 8 + t / 2 ^ 24

/-- The 1-bit alpha in numbers (41_color_codec R154). -/
def alpha1Nat (p : Params) (a : Nat) : Nat :=
  match p.alpha1Pack with
  | .msb => a / 128
  | .nonzero => if a = 0 then 0 else 1

/-- The packed value of four channels in numbers (41_color_codec R156, R158, R159); `none` where packing is
unsupported. -/
def packNat (p : Params) (f : Fmt) (r g b a : Nat) : Option Nat :=
  match f with
  | .argb32 => some (a * 2 ^ 24 + r * 2 ^ 16 + g * 2 ^ 8 + b)
  | .xrgb32 => some (r * 2 ^ 16 + g * 2 ^ 8 + b)
  | .abgr32 => some (a * 2 ^ 24 + b * 2 ^ 16 + g * 2 ^ 8 + r)
  | .xbgr32 => some (b * 2 ^ 16 + g * 2 ^ 8 + r)
  | .rgba32 | .rgbx32 => some (r * 2 ^ 24 + g * 2 ^ 16 + b * 2 ^ 8 + a)
  | .bgra32 | .bgrx32 => some (b * 2 ^ 24 + g * 2 ^ 16 + r * 2 ^ 8 + a)
  | .rgbx32Depth30 | .bgrx32Depth30 => some (depth30Nat r g b)
  | .rgb24 => some (r * 2 ^ 16 + g * 2 ^ 8 + b)
  | .bgr24 => some (b * 2 ^ 16 + g * 2 ^ 8 + r)
  | .rgb16 => some (r / 8 * 2 ^ 11 + g / 4 * 2 ^ 5 + b / 8)
  | .bgr16 => some (b / 8 * 2 ^ 11 + g / 4 * 2 ^ 5 + r / 8)
  | .argb15 => some (alpha1Nat p a * 2 ^ 15 + r / 8 * 2 ^ 10 + g / 8 * 2 ^ 5 + b / 8)
  | .rgb15 => some (r / 8 * 2 ^ 10 + g / 8 * 2 ^ 5 + b / 8)
  | .abgr15 => some (alpha1Nat p a * 2 ^ 15 + b / 8 * 2 ^ 10 + g / 8 * 2 ^ 5 + r / 8)
  | .bgr15 => some (b / 8 * 2 ^ 10 + g / 8 * 2 ^ 5 + r / 8)
  | .rgb8 | .a4 | .mono => none

/-- Byte `i` of a number, counted from the least significant. -/
def byteOf (v i : Nat) : Nat :=
  v / 2 ^ (8 * i) % 256

/-- The widened 5-bit field of a number whose lowest bit is `lo` (41_color_codec R151). -/
def five (v lo : Nat) : Nat :=
  v / 2 ^ lo % 32 * 8 + v / 2 ^ lo % 32 / 4

/-- The widened 6-bit green of a number (41_color_codec R152). -/
def greenNat (p : Params) (v : Nat) : Nat :=
  match p.expand6 with
  | .replicate => v / 2 ^ 5 % 64 * 4 + v / 2 ^ 5 % 64 / 16
  | .sumClamp => min 255 (v / 2 ^ 5 % 64 * 4 + v / 2 ^ 5 % 64 / 8)

/-- The channels r, g, b, a of a packed value in numbers, without a palette (41_color_codec R161, R163, R164);
`none` for RGB8 and for the formats without an unpack. -/
def splitNat (p : Params) (f : Fmt) (v : Nat) : Option (Nat × Nat × Nat × Nat) :=
  match f with
  | .argb32 => some (byteOf v 2, byteOf v 1, byteOf v 0, byteOf v 3)
  | .xrgb32 => some (byteOf v 2, byteOf v 1, byteOf v 0, 255)
  | .abgr32 => some (byteOf v 0, byteOf v 1, byteOf v 2, byteOf v 3)
  | .xbgr32 => some (byteOf v 0, byteOf v 1, byteOf v 2, 255)
  | .rgba32 => some (byteOf v 3, byteOf v 2, byteOf v 1, byteOf v 0)
  | .rgbx32 => some (byteOf v 3, byteOf v 2, byteOf v 1, 255)
  | .bgra32 => some (byteOf v 1, byteOf v 2, byteOf v 3, byteOf v 0)
  | .bgrx32 => some (byteOf v 1, byteOf v 2, byteOf v 3, 255)
  | .rgb24 => some (byteOf v 2, byteOf v 1, byteOf v 0, 255)
  | .bgr24 => some (byteOf v 0, byteOf v 1, byteOf v 2, 255)
  | .rgb16 => some (five v 11, greenNat p v, five v 0, 255)
  | .bgr16 => some (five v 0, greenNat p v, five v 11, 255)
  | .argb15 => some (five v 10, five v 5, five v 0, v / 2 ^ 15 % 2 * 255)
  | .rgb15 => some (five v 10, five v 5, five v 0, 255)
  | .abgr15 => some (five v 0, five v 5, five v 10, v / 2 ^ 15 % 2 * 255)
  | .bgr15 => some (five v 0, five v 5, five v 10, 255)
  | .mono => if v = 0 then some (0, 0, 0, 255) else some (255, 255, 255, 255)
  | .rgb8 | .a4 | .bgrx32Depth30 | .rgbx32Depth30 => none

/-- What unpacking a value gives in numbers, an RGB8 index resolved through the palette at `pal` (0 for none):
the channels, or the code of the failure (41_color_codec R161 to R165). -/
def unpackNat (p : Params) (m : Memory) (pal : Nat) (f : Fmt) (v : Nat) :
    Except (BitVec 4) (Nat × Nat × Nat × Nat) :=
  match f with
  | .rgb8 =>
    if pal = 0 then .error 3
    else if 255 < v then .error 1
    else
      match decodeFmt (wordLeAt p m pal) with
      | none => .error 2
      | some .rgb8 => .error 3
      | some g =>
        match splitNat p g (wordLeAt p m (pal + 4 + 4 * v)).toNat with
        | none => .error 2
        | some c => .ok c
  | _ =>
    match splitNat p f v with
    | none => .error 2
    | some c => .ok c

/-- The byte at an address of the memory port, as a number. -/
def byteNat (p : Params) (m : Memory) (a : Nat) : Nat :=
  (Memory.read m (portAddr p a)).toNat

/-- The packed value of the pixel at an address in numbers (20_memory R66). -/
def loadNat (p : Params) (m : Memory) (a : Nat) (bpp : Nat) : Nat :=
  if bpp = 32 then
    byteNat p m a * 2 ^ 24 + byteNat p m (a + 1) * 2 ^ 16 + byteNat p m (a + 2) * 2 ^ 8 + byteNat p m (a + 3)
  else if bpp = 24 then byteNat p m a * 2 ^ 16 + byteNat p m (a + 1) * 2 ^ 8 + byteNat p m (a + 2)
  else if bpp = 16 then byteNat p m (a + 1) * 2 ^ 8 + byteNat p m a
  else if bpp = 15 then (byteNat p m (a + 1) * 2 ^ 8 + byteNat p m a) % 2 ^ 15
  else byteNat p m a

/-- The bytes stored for a packed value in numbers, lowest address first (20_memory R67); none where the format
cannot be written. -/
def storeNat (bpp v : Nat) : List Nat :=
  if bpp = 32 then [byteOf v 3, byteOf v 2, byteOf v 1, byteOf v 0]
  else if bpp = 24 then [byteOf v 2, byteOf v 1, byteOf v 0]
  else if bpp = 16 then [byteOf v 0, byteOf v 1]
  else if bpp = 15 then [byteOf v 0, byteOf v 1 % 128]
  else if bpp = 8 then [byteOf v 0]
  else []

/-- The channels r, g, b, a of the inverted color (43_bitmap_decoders R292): opaque black where the sum of the
coordinates is odd, opaque white where it is even. -/
def invertedNat (x y : Nat) : Nat × Nat × Nat × Nat :=
  if (x + y) % 2 = 1 then (0, 0, 0, 255) else (255, 255, 255, 255)

/-- The combination table of a 1-bit cursor (43_bitmap_decoders R294). -/
def combinedNat (andBit xorBit : Bool) (x y : Nat) : Nat × Nat × Nat × Nat :=
  match andBit, xorBit with
  | false, false => (0, 0, 0, 255)
  | false, true => (255, 255, 255, 255)
  | true, false => (0, 0, 0, 0)
  | true, true => invertedNat x y

/-- What the AND bit makes of the channels of a color cursor's pixel (43_bitmap_decoders R295). -/
def maskedNat (andBit : Bool) (c : Nat × Nat × Nat × Nat) (x y : Nat) : Nat × Nat × Nat × Nat :=
  if andBit = true ∧ c = (0, 0, 0, 255) then (0, 0, 0, 0)
  else if andBit = true ∧ c = (255, 255, 255, 255) then invertedNat x y
  else c

/-- The packed value of a tuple of channels. -/
def packedNat (p : Params) (f : Fmt) (c : Nat × Nat × Nat × Nat) : Option Nat :=
  packNat p f c.1 c.2.1 c.2.2.1 c.2.2.2

/-- Memory `m` holds these bytes from an address on. -/
abbrev holds (p : Params) (m : Memory) (a : Nat) (bs : List Nat) : Prop :=
  (bytesAt p m a bs.length).map BitVec.toNat = bs

end Sys2Proof.Machine
end

