-- ==== Sys2Proof/Certificates/Slice0/Obligations.lean ====
section
/-! DEFINITION. The statements for the provers, from the numbered rules of spec/. -/

open Sys2Proof Sys2Proof.Machine

/-! ### Command words and the host's port -/

/-- The opcode map of 30_encoding R91, word by word. -/
def Obligations.DecodeWords : Prop :=
  decode 0x00000000#32 = .ok .nop ∧ decode 0x00000001#32 = .ok .fmtBpp ∧ decode 0x00000002#32 = .ok .fmtBytes ∧
  decode 0x00000003#32 = .ok .fmtHasAlpha ∧ decode 0x00000004#32 = .ok .fmtEqna ∧
  decode 0x00000005#32 = .ok .fmtName ∧ decode 0x00000010#32 = .ok .getColor ∧
  decode 0x00000011#32 = .ok .splitColor ∧ decode 0x00000012#32 = .ok .readColor ∧
  decode 0x00000013#32 = .ok .writeColor ∧ decode 0x00000014#32 = .ok .writeColorIa ∧
  decode 0x00000015#32 = .ok .convertColor ∧ decode 0x00000020#32 = .ok .copy ∧
  decode 0x00000021#32 = .ok .copyOvl ∧ decode 0x00000022#32 = .ok .copyNovl ∧ decode 0x00000023#32 = .ok .fill ∧
  decode 0x00000024#32 = .ok .scale ∧ decode 0x00000030#32 = .ok .glyph ∧ decode 0x00000031#32 = .ok .mono ∧
  decode 0x00000032#32 = .ok .icon ∧ decode 0x00000033#32 = .ok .cursor

/-- Decoding and encoding agree in both directions on all 2^32 words, and every word that encodes no command is
reserved (30_encoding R92, R95). -/
def Obligations.DecodeEncodeAgree : Prop :=
  (∀ i : Instr, i.wf = true ∧ decode (encode i) = .ok i ∧ decodeTableWord 32 (encode i).toNat = some i) ∧
  (∀ w i, decode w = .ok i → w = encode i) ∧
  (∀ w, (∀ i, w ≠ encode i) → decode w = .error (.reserved w))

/-- A write of a command's word to CMD runs that command (10_state R34); bits 63:32 of what the bus delivers are
discarded (30_encoding R90). The host's pending events are the model's (log entry 3). -/
def Obligations.StepRunsCommand : Prop :=
  ∀ (s : State) (v : Slot) (rest : List HostEvent) (i : Instr), s.script = .write 0xE0 v :: rest →
    decode (v.setWidth 32) = .ok i → step s = exec i { s with script := rest }

/-- A reserved word written to CMD executes nothing and leaves ILLEGAL_CMD in ERR (30_encoding R95). -/
def Obligations.ReservedWord : Prop :=
  ∀ (s : State) (v : Slot) (rest : List HostEvent), s.script = .write 0xE0 v :: rest →
    (∀ i, v.setWidth 32 ≠ encode i) → step s = .next ({ s with script := rest }.failed 5)

/-- The operand registers (10_state R21): their offsets; a write stores the low `ADDR_W` or 32 bits in the one
register written and changes nothing else; a read returns the value zero-extended; no command writes one. -/
def Obligations.OperandRegisters : Prop :=
  ([OperandReg.dst, .src, .pal, .msk, .tbl, .dfmt, .sfmt, .dstride, .sstride, .dx, .dy, .sx, .sy, .w, .h, .sw, .sh,
      .flags, .color0, .color1, .chan, .srclen, .msklen, .tbllen, .bpp].map fun r => 8 * r.number) =
    [0x00, 0x08, 0x10, 0x18, 0x20, 0x28, 0x30, 0x38, 0x40, 0x48, 0x50, 0x58, 0x60, 0x68, 0x70, 0x78, 0x80,
      0x88, 0x90, 0x98, 0xA0, 0xA8, 0xB0, 0xB8, 0xC0] ∧
  (∀ (s : State) (r : OperandReg) (v : Slot) (rest : List HostEvent),
    s.script = .write (8 * r.number) v :: rest →
    ∃ rs : OperandRegs, step s = .next { s with script := rest, regs := rs } ∧
      (rs.get r).toNat =
        v.toNat % (if r ∈ [OperandReg.dst, .src, .pal, .msk, .tbl] then 2 ^ s.params.addrW else 2 ^ 32) ∧
      ∀ q, q ≠ r → rs.get q = s.regs.get q) ∧
  (∀ (s : State) (r : OperandReg) (rest : List HostEvent), s.script = .read (8 * r.number) :: rest →
    step s = .next { s with script := rest, readData := s.regs.get r }) ∧
  (∀ (i : Instr) (s t : State), exec i s = .next t → t.regs = s.regs)

/-- The registers the host cannot write (10_state R30, R32, R34, R36, R37): writes to RES, RCHAN, STATUS, CAP and
to offsets from 0xF0 on change nothing, and reads of them and of CMD return RES, RCHAN, STATUS laid out as R32,
0, CAP laid out as R36, and 0. -/
def Obligations.ReadOnlyRegisters : Prop :=
  ∀ (s : State) (rest : List HostEvent),
    (∀ n v, n ∈ [25, 26, 27, 29] ∨ 30 ≤ n → s.script = .write (8 * n) v :: rest →
      step s = .next { s with script := rest }) ∧
    ∀ n, s.script = .read (8 * n) :: rest → 25 ≤ n →
      ∃ v : Slot, step s = .next { s with script := rest, readData := v } ∧
        v.toNat =
          if n = 25 then s.res.toNat
          else if n = 26 then s.rchan.toNat
          else if n = 27 then
            s.status.err.toNat + (if s.status.fault then 2 ^ 8 else 0) + (if s.status.binit then 2 ^ 9 else 0)
          else if n = 29 then
            (if s.params.backendCopyPresent then 1 else 0) + (if s.params.resamplerPresent then 2 else 0) + 7 * 2 ^ 8
          else 0

/-- Reset (10_state R45): in the state after reset, and after the model's reset event from any state (log entry
3), every operand register, RES, RCHAN and STATUS read 0; the event leaves memory and the build as they were; CAP
reads 0x701 in the state after reset. -/
def Obligations.ResetValues : Prop :=
  ((∀ r, State.reset.regs.get r = 0) ∧ State.reset.res = 0 ∧ State.reset.rchan = 0 ∧
    State.reset.status.word = 0 ∧ capWord State.reset.params = 0x701) ∧
  ∀ (s : State) (rest : List HostEvent), s.script = .reset :: rest →
    ∃ t, step s = .next t ∧ (∀ r, t.regs.get r = 0) ∧ t.res = 0 ∧ t.rchan = 0 ∧
      t.status = ⟨0, false, false⟩ ∧ t.mem = s.mem ∧ t.params = s.params ∧ t.script = rest

/-- The host's own accesses to memory between commands (00_scope R8, 20_memory R60), and waiting. That these are
steps of the model, that an access outside the address space or to part of a register slot stops it, and that the
platform's rejected addresses stop only the block, are the model's choices (log entries 3, 8, 10, 13). -/
def Obligations.HostAccesses : Prop :=
  ∀ (s : State) (rest : List HostEvent),
    (s.script = [] → step s = .next s) ∧
    (∀ a b, s.script = .memWrite a b :: rest →
      (a < 2 ^ s.params.addrW → ∃ m, step s = .next { s with script := rest, mem := m } ∧
        Memory.read m a = b ∧ ∀ x, x ≠ a → Memory.read m x = Memory.read s.mem x) ∧
      (2 ^ s.params.addrW ≤ a → step s = .fault (.noSuchAddress a))) ∧
    (∀ a, s.script = .memRead a :: rest →
      (a < 2 ^ s.params.addrW →
        step s = .next { s with script := rest, readData := (Memory.read s.mem a).setWidth 64 }) ∧
      (2 ^ s.params.addrW ≤ a → step s = .fault (.noSuchAddress a))) ∧
    (∀ o v, o % 8 ≠ 0 → s.script = .write o v :: rest → step s = .refused (.partialSlot o)) ∧
    (∀ o, o % 8 ≠ 0 → s.script = .read o :: rest → step s = .refused (.partialSlot o))

/-! ### The whole machine -/

/-- The state after reset meets the invariant. -/
def Obligations.ResetLawful : Prop :=
  State.Lawful State.reset

/-- Every step keeps the invariant: memory canonical and inside the address space, address registers `ADDR_W`
bits wide, ERR a code that is written, a fault's code only with FAULT set. -/
def Obligations.StepKeepsLawful : Prop :=
  ∀ s t : State, State.Lawful s → step s = .next t → State.Lawful t

/-- FAULT and BINIT are sticky: no step but the host's reset clears them (60_exceptions R330, 10_state R38). -/
def Obligations.FaultAndBinitSticky : Prop :=
  ∀ s t : State, s.script.head? ≠ some .reset → step s = .next t →
    (s.status.fault = true → t.status.fault = true) ∧ (s.status.binit = true → t.status.binit = true)

/-- Every command ends, whatever its operands, and touches nothing but RES, RCHAN, STATUS, memory and the
model's count of draws (00_scope R9, 60_exceptions R320). -/
def Obligations.CommandsEnd : Prop :=
  ∀ (i : Instr) (s : State), ∃ t, exec i s = .next t ∧ t.regs = s.regs ∧ t.params = s.params ∧
    t.script = s.script ∧ t.readData = s.readData

/-- A command's outcome rests only on the operand registers of its row in 10_state R22. -/
def Obligations.ReadsOnlyItsOperands : Prop :=
  ∀ (i : Instr) (s t : State) (rs : OperandRegs), (∀ r ∈ i.reads, rs.get r = s.regs.get r) →
    exec i s = .next t → exec i { s with regs := rs } = .next { t with regs := rs }

/-- The codes a command can end with (60_exceptions R323), and BUS only on a platform that rejects an address, for
a command that touches memory. -/
def Obligations.AllowedCodes : Prop :=
  ∀ (i : Instr) (s t : State), exec i s = .next t →
    t.status.err = 0 ∨ t.status.err ∈ mayEnd i ∨
    (t.status.err = 6 ∧ s.params.rejects ≠ [] ∧ touchesNoMemory i = false ∧
      (i = .splitColor ∨ i = .convertColor → s.regs.sfmt = 0x08008000#32))

/-- FAULT is set by the faults and by nothing else, and stays (60_exceptions R320, R330). -/
def Obligations.FaultFlag : Prop :=
  ∀ (i : Instr) (s t : State), exec i s = .next t →
    t.status.fault = (s.status.fault || t.status.err == 6 || t.status.err == 7)

/-- BINIT is changed only by the commands that can take the non-overlapping path, and only to 1 (10_state R38). -/
def Obligations.BackendHandle : Prop :=
  ∀ (i : Instr) (s t : State), exec i s = .next t →
    (i ∉ [Instr.copy, .copyNovl, .scale, .icon] → t.status.binit = s.status.binit) ∧
    (s.status.binit = true → t.status.binit = true)

/-- RES and RCHAN change only by their producers, and a producer that fails leaves 0 (10_state R31). What a BUS fault
leaves there is in BusFault and RejectedByteFaults. -/
def Obligations.Producers : Prop :=
  ∀ (i : Instr) (s t : State), exec i s = .next t →
    (i ∉ [Instr.fmtBpp, .fmtBytes, .fmtHasAlpha, .fmtEqna, .fmtName, .getColor, .readColor, .convertColor] →
      t.res = s.res) ∧
    (i ≠ .splitColor → t.rchan = s.rchan) ∧
    (1 ≤ t.status.err.toNat → t.status.err.toNat ≤ 5 →
      (i ∈ [Instr.fmtBpp, .fmtBytes, .fmtHasAlpha, .fmtEqna, .fmtName, .getColor, .readColor, .convertColor] →
        t.res = 0) ∧
      (i = .splitColor → t.rchan = 0))

/-- A command other than CURSOR that fails leaves memory exactly as it was (60_exceptions R325), on any platform.
A copy that overwrites the tag of its own palette is excluded (70 R372). -/
def Obligations.FailureLeavesMemory : Prop :=
  ∀ (i : Instr) (s t : State), i ≠ .cursor → exec i s = .next t →
    1 ≤ t.status.err.toNat → t.status.err.toNat ≤ 5 →
    (i = .copy ∨ i = .copyOvl ∨ i = .copyNovl → s.regs.sfmt = 0x08008000#32 → paletteApart s) → t.mem = s.mem

/-- The bytes a command may touch, whatever its outcome and on any platform (70 R364): nothing for the commands
that store nothing or whose destination format is not enumerated; the name, the pixel, the mask bytes, or the
destination rectangle. -/
def Obligations.Footprints : Prop :=
  ∀ (i : Instr) (s t : State), exec i s = .next t →
    (i ∈ [Instr.nop, .fmtBpp, .fmtBytes, .fmtHasAlpha, .fmtEqna, .getColor, .splitColor, .readColor,
      .convertColor] → t.mem = s.mem) ∧
    (i = .fmtName → ∀ a, ¬ span s.params s.regs.dst.toNat 28 a → Memory.read t.mem a = Memory.read s.mem a) ∧
    (i = .glyph → ∀ a, ¬ span s.params s.regs.dst.toNat (s.regs.w.toNat * s.regs.h.toNat) a →
      Memory.read t.mem a = Memory.read s.mem a) ∧
    (i ∈ [Instr.writeColor, .writeColorIa, .copy, .copyOvl, .copyNovl, .fill, .scale, .mono, .icon, .cursor] →
      (decodeFmt s.regs.dfmt = none → t.mem = s.mem) ∧
      ∀ f, decodeFmt s.regs.dfmt = some f →
        (i = .writeColor ∨ i = .writeColorIa → ∀ a, ¬ span s.params s.regs.dst.toNat f.bytes a →
          Memory.read t.mem a = Memory.read s.mem a) ∧
        (i ≠ .writeColor → i ≠ .writeColorIa → ∀ a, ¬ (destRect s.regs f).footprint s.params a →
          Memory.read t.mem a = Memory.read s.mem a))

/-! ### Control and metadata -/

/-- NOP clears ERR and does nothing else (60_exceptions R340). -/
def Obligations.NopClearsErr : Prop :=
  ∀ s : State, exec .nop s = .next (s.succeeded s.mem s.status.binit)

/-- The format table (30_encoding R100, R101, 40_format_metadata R123 to R125): the enumerated words are the 21
identifiers and no others, with their sizes and alpha. -/
def Obligations.FormatTable : Prop :=
  (∀ row ∈ formatRows, ∃ f, decodeFmt row.ident = some f ∧ f.ident = row.ident ∧ f.bpp = row.bpp ∧
    f.bytes = row.bytes ∧ f.hasAlpha.toNat = row.alpha) ∧
  (∀ w f, decodeFmt w = some f ↔ w = f.ident) ∧
  (∀ f : Fmt, ∃ row ∈ formatRows, row.ident = f.ident)

/-- FMT_BPP, FMT_BYTES and FMT_HASALPHA (40_format_metadata R130, R131, R132). -/
def Obligations.FormatQueries : Prop :=
  ∀ s : State,
    (∀ row ∈ formatRows, s.regs.sfmt = row.ident →
      exec .fmtBpp s = .next { s.succeeded s.mem s.status.binit with res := BitVec.ofNat 32 row.bpp } ∧
      exec .fmtBytes s = .next { s.succeeded s.mem s.status.binit with res := BitVec.ofNat 32 row.bytes } ∧
      exec .fmtHasAlpha s = .next { s.succeeded s.mem s.status.binit with res := BitVec.ofNat 32 row.alpha }) ∧
    ((∀ row ∈ formatRows, s.regs.sfmt ≠ row.ident) →
      exec .fmtBpp s = .next { s.failed 2 with res := 0 } ∧
      exec .fmtBytes s = .next { s.failed 2 with res := 0 } ∧
      exec .fmtHasAlpha s = .next { s.failed 2 with res := 0 })

/-- FMT_EQNA (40_format_metadata R133): 1 when the two identifiers are equal after clearing bit 15 of each
(R126). -/
def Obligations.FormatEqualIgnoringAlpha : Prop :=
  ∀ s : State,
    (∀ a ∈ formatRows, ∀ b ∈ formatRows, s.regs.sfmt = a.ident → s.regs.dfmt = b.ident →
      exec .fmtEqna s = .next { s.succeeded s.mem s.status.binit with
        res := if a.ident &&& 0xFFFF7FFF#32 = b.ident &&& 0xFFFF7FFF#32 then 1 else 0 }) ∧
    ((∀ a ∈ formatRows, s.regs.sfmt ≠ a.ident) ∨ (∀ b ∈ formatRows, s.regs.dfmt ≠ b.ident) →
      exec .fmtEqna s = .next { s.failed 2 with res := 0 })

/-- FMT_NAME (40_format_metadata R134): the name and a zero byte at DST, its length in RES, nothing else. -/
def Obligations.FormatName : Prop :=
  ∀ s : State,
    (s.regs.dst = 0 → exec .fmtName s = .next { s.failed 1 with res := 0 }) ∧
    (∀ name : String, s.regs.dst ≠ 0 → s.params.wf = true → s.params.rejects = [] →
      (∃ row ∈ formatRows, s.regs.sfmt = row.ident ∧ name = row.name) ∨
        ((∀ row ∈ formatRows, s.regs.sfmt ≠ row.ident) ∧ name = "UNKNOWN") →
      ∃ m, exec .fmtName s = .next { s.succeeded m s.status.binit with res := BitVec.ofNat 32 name.length } ∧
        holds s.params m s.regs.dst.toNat (name.toList.map Char.toNat ++ [0]) ∧
        ∀ a, ¬ span s.params s.regs.dst.toNat (name.length + 1) a → Memory.read m a = Memory.read s.mem a)

/-! ### The color codec -/

/-- The channel-depth scaler (41_color_codec R150 to R155), in numbers. -/
def Obligations.ChannelScaler : Prop :=
  (∀ c : Byte, (narrow5 c).toNat = c.toNat / 8 ∧ (narrow6 c).toNat = c.toNat / 4 ∧
    (widen10 c).toNat = c.toNat * 4) ∧
  (∀ c : BitVec 5, (expand5 c).toNat = c.toNat * 8 + c.toNat / 4 ∧ narrow5 (expand5 c) = c) ∧
  (∀ b : BitVec 1, (expand1 b).toNat = b.toNat * 255) ∧
  (∀ (p : Params) (c : BitVec 6),
    (p.expand6 = .replicate → (expand6 p c).toNat = c.toNat * 4 + c.toNat / 16 ∧ narrow6 (expand6 p c) = c) ∧
    (p.expand6 = .sumClamp → (expand6 p c).toNat = min 255 (c.toNat * 4 + c.toNat / 8))) ∧
  (∀ (p : Params) (a : Byte),
    (p.alpha1Pack = .msb → (narrow1 p a).toNat = a.toNat / 128) ∧
    (p.alpha1Pack = .nonzero → (narrow1 p a).toNat = if a.toNat = 0 then 0 else 1))

/-- GETCOLOR (41_color_codec R160): the packed value of CHAN's four bytes, R, G, B, A from the lowest (10_state
R23), in the layout of R158 and R156; UNSUPPORTED with RES = 0 otherwise. -/
def Obligations.GetColor : Prop :=
  ∀ s : State,
    (∀ f v, s.regs.dfmt = f.ident →
      packNat s.params f (byteOf s.regs.chan.toNat 0) (byteOf s.regs.chan.toNat 1) (byteOf s.regs.chan.toNat 2)
        (byteOf s.regs.chan.toNat 3) = some v →
      exec .getColor s = .next { s.succeeded s.mem s.status.binit with res := BitVec.ofNat 32 v } ∧ v < 2 ^ 32) ∧
    ((∀ f : Fmt, s.regs.dfmt = f.ident → f = .rgb8 ∨ f = .a4 ∨ f = .mono) →
      exec .getColor s = .next { s.failed 2 with res := 0 })

/-- SPLITCOLOR (41_color_codec R165): the channels in RCHAN, or the code of the failure with RCHAN = 0; the
palette's tag and entry are read in memory (R162). -/
def Obligations.SplitColor : Prop :=
  ∀ s : State, s.params.rejects = [] →
    (∀ f r g b a, s.regs.sfmt = f.ident →
      unpackNat s.params s.mem s.regs.pal.toNat f s.regs.color0.toNat = .ok (r, g, b, a) →
      exec .splitColor s = .next { s.succeeded s.mem s.status.binit with
        rchan := BitVec.ofNat 32 (r + g * 2 ^ 8 + b * 2 ^ 16 + a * 2 ^ 24) }) ∧
    (∀ f c, s.regs.sfmt = f.ident →
      unpackNat s.params s.mem s.regs.pal.toNat f s.regs.color0.toNat = .error c →
      exec .splitColor s = .next { s.failed c with rchan := 0 }) ∧
    ((∀ f : Fmt, s.regs.sfmt ≠ f.ident) → exec .splitColor s = .next { s.failed 2 with rchan := 0 })

/-- CONVERTCOLOR (41_color_codec R180): split, then pack; the failures of the split first. -/
def Obligations.ConvertColor : Prop :=
  ∀ s : State, s.params.rejects = [] →
    (∀ sf df, s.regs.sfmt = sf.ident → s.regs.dfmt = df.ident →
      (∀ c v, unpackNat s.params s.mem s.regs.pal.toNat sf s.regs.color0.toNat = .ok c →
        packedNat s.params df c = some v →
        exec .convertColor s = .next { s.succeeded s.mem s.status.binit with res := BitVec.ofNat 32 v }) ∧
      (∀ c, unpackNat s.params s.mem s.regs.pal.toNat sf s.regs.color0.toNat = .ok c →
        packedNat s.params df c = none → exec .convertColor s = .next { s.failed 2 with res := 0 }) ∧
      (∀ e, unpackNat s.params s.mem s.regs.pal.toNat sf s.regs.color0.toNat = .error e →
        exec .convertColor s = .next { s.failed e with res := 0 })) ∧
    ((∀ f : Fmt, s.regs.sfmt ≠ f.ident) ∨ (∀ f : Fmt, s.regs.dfmt ≠ f.ident) →
      exec .convertColor s = .next { s.failed 2 with res := 0 })

/-- The round trip of 41_color_codec R182: exact for the ten formats of 8-bit channels, within the channel's
precision for the others; full opacity for a format without alpha. -/
def Obligations.RoundTrip : Prop :=
  ∀ (p : Params) (f : Fmt) (c c' : Channels) (v : Word), pack p f c = .ok v → splitBare p f v = .ok c' →
    (f.bytes ≤ 2 → c'.r = expand5 (narrow5 c.r) ∧ c'.b = expand5 (narrow5 c.b) ∧
      c.r.toNat ≤ c'.r.toNat + 7 ∧ c'.r.toNat ≤ c.r.toNat + 7 ∧
      c.b.toNat ≤ c'.b.toNat + 7 ∧ c'.b.toNat ≤ c.b.toNat + 7) ∧
    (3 ≤ f.bytes → c'.r = c.r ∧ c'.g = c.g ∧ c'.b = c.b ∧ c'.a = if f.hasAlpha then c.a else 255) ∧
    (f.bytes ≤ 2 → c'.a = if f.hasAlpha then expand1 (narrow1 p c.a) else 255) ∧
    (f.bytes ≤ 2 → f ≠ .rgb16 → f ≠ .bgr16 → c'.g = expand5 (narrow5 c.g)) ∧
    (f = .rgb16 ∨ f = .bgr16 → c'.g = expand6 p (narrow6 c.g) ∧
      (p.expand6 = .replicate → c.g.toNat ≤ c'.g.toNat + 3 ∧ c'.g.toNat ≤ c.g.toNat + 3))

/-- READCOLOR (41_color_codec R170), the byte order of 20_memory R66 in numbers. -/
def Obligations.ReadColor : Prop :=
  ∀ s : State,
    (∀ row ∈ formatRows, s.regs.sfmt = row.ident → s.regs.src ≠ 0 → s.params.rejects = [] →
      exec .readColor s = .next { s.succeeded s.mem s.status.binit with
        res := BitVec.ofNat 32 (loadNat s.params s.mem s.regs.src.toNat row.bpp) }) ∧
    (∀ row ∈ formatRows, s.regs.sfmt = row.ident → s.regs.src = 0 →
      exec .readColor s = .next { s.failed 1 with res := 0 }) ∧
    ((∀ row ∈ formatRows, s.regs.sfmt ≠ row.ident) → exec .readColor s = .next { s.failed 2 with res := 0 })

/-- WRITECOLOR (41_color_codec R174), the bytes of 20_memory R67 in numbers. -/
def Obligations.WriteColor : Prop :=
  ∀ s : State,
    (∀ row ∈ formatRows, s.regs.dfmt = row.ident → 8 ≤ row.bpp → s.regs.dst ≠ 0 → s.params.wf = true →
      s.params.rejects = [] →
      ∃ m, exec .writeColor s = .next (s.succeeded m s.status.binit) ∧
        holds s.params m s.regs.dst.toNat (storeNat row.bpp s.regs.color0.toNat) ∧
        ∀ a, ¬ span s.params s.regs.dst.toNat row.bytes a → Memory.read m a = Memory.read s.mem a) ∧
    (∀ row ∈ formatRows, s.regs.dfmt = row.ident → 8 ≤ row.bpp → s.regs.dst = 0 →
      exec .writeColor s = .next (s.failed 1)) ∧
    ((∀ row ∈ formatRows, s.regs.dfmt = row.ident → row.bpp < 8) → exec .writeColor s = .next (s.failed 2))

/-- WRITECOLOR_IA (41_color_codec R176): as WRITECOLOR, but byte 0 of the four formats with alpha or pad first and
byte 3 of the four with it last keep their value (R175). -/
def Obligations.WriteColorIgnoringAlpha : Prop :=
  ∀ s : State,
    (∀ row ∈ formatRows, s.regs.dfmt = row.ident → 8 ≤ row.bpp → s.regs.dst ≠ 0 → s.params.wf = true →
      s.params.rejects = [] →
      ∃ m, exec .writeColorIa s = .next (s.succeeded m s.status.binit) ∧
        (∀ k, k < row.bytes → byteNat s.params m (s.regs.dst.toNat + k) =
          if (k = 0 ∧ row.ident ∈ [0x20018888#32, 0x20010888#32, 0x20028888#32, 0x20020888#32]) ∨
              (k = 3 ∧ row.ident ∈ [0x20038888#32, 0x20030888#32, 0x20048888#32, 0x20040888#32]) then
            byteNat s.params s.mem (s.regs.dst.toNat + k)
          else (storeNat row.bpp s.regs.color0.toNat).getD k 0) ∧
        ∀ a, ¬ span s.params s.regs.dst.toNat row.bytes a → Memory.read m a = Memory.read s.mem a) ∧
    (∀ row ∈ formatRows, s.regs.dfmt = row.ident → 8 ≤ row.bpp → s.regs.dst = 0 →
      exec .writeColorIa s = .next (s.failed 1)) ∧
    ((∀ row ∈ formatRows, s.regs.dfmt = row.ident → row.bpp < 8) → exec .writeColorIa s = .next (s.failed 2))

/-- Reading back what WRITECOLOR wrote gives COLOR0 truncated to the bits the format stores (20_memory R67). -/
def Obligations.WriteThenRead : Prop :=
  ∀ s t : State, ∀ row ∈ formatRows, s.regs.dfmt = row.ident → 8 ≤ row.bpp → s.regs.dst ≠ 0 →
    s.params.wf = true → s.params.rejects = [] → exec .writeColor s = .next t →
    exec .readColor { t with regs := { t.regs with src := t.regs.dst, sfmt := t.regs.dfmt } } =
      .next { t with
        regs := { t.regs with src := t.regs.dst, sfmt := t.regs.dfmt }
        res := BitVec.ofNat 32 (s.regs.color0.toNat % 2 ^ row.bpp) }

/-- A rejected access stops the command at that access with BUS and sets FAULT; the bytes stored before it stay, no
later one is stored (20_memory R84). READCOLOR, WRITECOLOR and FMT_NAME; FILL, MONO and the copies in modes RAW and
CONV, whose bytes before the rejected one hold what the command leaves there on a platform that rejects nothing;
GLYPH; and the zero fill of CURSOR. That the bytes of one access are touched in rising order of address, and that a
producer's register then holds 0, are the model's readings (log entries 9 and 6). -/
def Obligations.BusFault : Prop :=
  (∀ (s : State) (f : Fmt) (k : Nat), decodeFmt s.regs.sfmt = some f → s.regs.src ≠ 0 → k < f.bytes →
    rejected s.params (portAddr s.params (s.regs.src.toNat + k)) = true →
    exec .readColor s = .next { s with res := 0, status := ⟨6, true, s.status.binit⟩ }) ∧
  (∀ (s : State) (f : Fmt) (k : Nat), decodeFmt s.regs.dfmt = some f → f.writable = true → s.regs.dst ≠ 0 →
    s.params.wf = true → k < f.bytes → rejected s.params (portAddr s.params (s.regs.dst.toNat + k)) = true →
    (∀ j, j < k → rejected s.params (portAddr s.params (s.regs.dst.toNat + j)) = false) →
    ∃ m, exec .writeColor s = .next { s with mem := m, status := ⟨6, true, s.status.binit⟩ } ∧
      holds s.params m s.regs.dst.toNat ((storeNat f.bpp s.regs.color0.toNat).take k) ∧
      ∀ a, ¬ span s.params s.regs.dst.toNat k a → Memory.read m a = Memory.read s.mem a) ∧
  (∀ (s : State) (row : FormatRow) (k : Nat), row ∈ formatRows → s.regs.sfmt = row.ident → s.regs.dst ≠ 0 →
    s.params.wf = true → k < row.name.length + 1 →
    rejected s.params (portAddr s.params (s.regs.dst.toNat + k)) = true →
    (∀ j, j < k → rejected s.params (portAddr s.params (s.regs.dst.toNat + j)) = false) →
    ∃ m, exec .fmtName s = .next { s with mem := m, res := 0, status := ⟨6, true, s.status.binit⟩ } ∧
      holds s.params m s.regs.dst.toNat ((row.name.toList.map Char.toNat).take k) ∧
      ∀ a, ¬ span s.params s.regs.dst.toNat k a → Memory.read m a = Memory.read s.mem a) ∧
  (∀ (i : Instr) (s u : State) (f : Fmt) (Y K : Nat), i = .fill ∨ i = .mono →
    exec i s.unrejecting = .next u → u.status.err = 0 → decodeFmt s.regs.dfmt = some f →
    (destRect s.regs f).fits s.params → (destRect s.regs f).rowsApart →
    (destRect s.regs f).stopsAt s.params (rowMajor Y K) Y K →
    (i = .mono → ∀ a, bitBytes s.params s.regs.src.toNat ((s.regs.w.toNat + 7) / 8) s.regs.w.toNat s.regs.h.toNat a →
      rejected s.params a = false) →
    ∃ t, exec i s = .next t ∧
      stopped s t s.status.binit ((destRect s.regs f).bytesBefore s.params (rowMajor Y K)) u.mem) ∧
  (∀ (i : Instr) (s u : State) (df sf : Fmt) (Y K : Nat), i ∈ [Instr.copy, .copyOvl, .copyNovl] →
    exec i s.unrejecting = .next u → u.status.err = 0 → s.formats df sf →
    (s.copyJob df sf).mode ≠ .alpha → ¬ ((s.copyJob df sf).mode = .raw ∧ (s.copyJob df sf).coincide = true) →
    (destRect s.regs df).fits s.params → (destRect s.regs df).rowsApart →
    (destRect s.regs df).stopsAt s.params ((s.copyJob df sf).storedBefore Y K) Y K →
    (∀ a, (s.copyJob df sf).sourceBytes s.params a → rejected s.params a = false) →
    (sf = .rgb8 → ∀ k, k < 1028 → rejected s.params (portAddr s.params (s.regs.pal.toNat + k)) = false) →
    ∃ t, exec i s = .next t ∧
      stopped s t u.status.binit ((destRect s.regs df).bytesBefore s.params ((s.copyJob df sf).storedBefore Y K))
        u.mem) ∧
  (∀ (s u : State) (K : Nat), exec .glyph s.unrejecting = .next u → u.status.err = 0 →
    s.regs.w.toNat * s.regs.h.toNat ≤ 2 ^ s.params.addrW → K < s.regs.w.toNat * s.regs.h.toNat →
    rejected s.params (portAddr s.params (s.regs.dst.toNat + K)) = true →
    (∀ k, k < K → rejected s.params (portAddr s.params (s.regs.dst.toNat + k)) = false) →
    (∀ a, bitBytes s.params s.regs.src.toNat ((s.regs.w.toNat + 7) / 8) s.regs.w.toNat s.regs.h.toNat a →
      rejected s.params a = false) →
    ∃ t, exec .glyph s = .next t ∧ stopped s t s.status.binit (span s.params s.regs.dst.toNat K) u.mem) ∧
  ∀ (s : State) (f : Fmt) (Y K : Nat), decodeFmt s.regs.dfmt = some f → f.packable = true → s.regs.dst ≠ 0 →
    (destRect s.regs f).stopsAt s.params (rowMajor Y K) Y K →
    ∃ t, exec .cursor s = .next t ∧ t.status = ⟨6, true, s.status.binit⟩ ∧
      (∀ a, (destRect s.regs f).bytesBefore s.params (rowMajor Y K) a → Memory.read t.mem a = 0) ∧
      ∀ a, ¬ (destRect s.regs f).bytesBefore s.params (rowMajor Y K) a → Memory.read t.mem a = Memory.read s.mem a

/-! ### The blit engine -/

/-- The address of a pixel of a destination rectangle: the stride operand, or the tight value where it is 0
(20_memory R68), and the pixel's row and column (R69). The source pixel of a destination pixel of the copies and of
SCALE, the source rows from the last one up under FLIP_VERTICAL (42_blit_engine R206, R230). The mode of a copy
(R204): ALPHA for KEEP_DST_ALPHA and a destination with alpha, else RAW for identifiers that are equal after
clearing bit 15 (40_format_metadata R126), else CONV; SCALE has no flags. -/
def Obligations.PixelAddressesAndModes : Prop :=
  (∀ (r : OperandRegs) (f : Fmt) (x y : Nat),
    (destRect r f).pixel x y =
      r.dst.toNat +
        (r.dy.toNat + y) * (if r.dstride.toNat = 0 then r.w.toNat * f.bytes else r.dstride.toNat) +
        (r.dx.toNat + x) * f.bytes) ∧
  (∀ (s : State) (df sf : Fmt) (x y : Nat),
    let ss := if s.regs.sstride.toNat = 0 then s.regs.w.toNat * sf.bytes else s.regs.sstride.toNat
    (s.copyJob df sf).srcPixel x y =
      s.regs.src.toNat +
        (s.regs.sy.toNat + if s.regs.flags.toNat % 2 = 1 then s.regs.h.toNat - 1 - y else y) * ss +
        (s.regs.sx.toNat + x) * sf.bytes ∧
    ((scaleReq s.regs).job df sf).srcPixel x y =
      s.regs.src.toNat + (s.regs.sy.toNat + y) * ss + (s.regs.sx.toNat + x) * sf.bytes) ∧
  ∀ (s : State) (df sf : Fmt),
    let same := df.ident &&& 0xFFFF7FFF#32 = sf.ident &&& 0xFFFF7FFF#32
    (s.copyJob df sf).mode =
      (if s.regs.flags.toNat / 4 % 2 = 1 ∧ df.hasAlpha = true then .alpha else if same then .raw else .conv) ∧
    ((scaleReq s.regs).job df sf).mode = if same then .raw else .conv

/-- `copy_checks` (42_blit_engine R202), in its order, for the three copy commands. -/
def Obligations.CopyChecks : Prop :=
  ∀ (i : Instr) (s : State), i ∈ [Instr.copy, .copyOvl, .copyNovl] →
    (decodeFmt s.regs.dfmt = none ∨ decodeFmt s.regs.sfmt = none → exec i s = .next (s.failed 2)) ∧
    ∀ df sf, s.formats df sf →
      (s.params.maxDim < s.regs.w.toNat ∨ s.params.maxDim < s.regs.h.toNat → exec i s = .next (s.failed 1)) ∧
      (s.regs.w.toNat ≤ s.params.maxDim → s.regs.h.toNat ≤ s.params.maxDim →
        (s.regs.dst = 0 ∨ s.regs.src = 0 → exec i s = .next (s.failed 1)) ∧
        (s.regs.dst ≠ 0 → s.regs.src ≠ 0 → s.regs.w = 0 ∨ s.regs.h = 0 →
          exec i s = .next (s.succeeded s.mem s.status.binit)))

/-- COPY takes the overlap-safe path where the scanline ranges of 42_blit_engine R201 meet, the non-overlapping
path elsewhere (R200). -/
def Obligations.CopyDispatch : Prop :=
  ∀ (s : State) (df sf : Fmt), s.formats df sf →
    exec .copy s =
      let ds := if s.regs.dstride.toNat = 0 then s.regs.w.toNat * df.bytes else s.regs.dstride.toNat
      let ss := if s.regs.sstride.toNat = 0 then s.regs.w.toNat * sf.bytes else s.regs.sstride.toNat
      let srcStart := s.regs.src.toNat + ss * s.regs.sy.toNat
      let dstStart := s.regs.dst.toNat + ds * s.regs.dy.toNat
      if dstStart ≤ srcStart + ss * s.regs.h.toNat ∧ srcStart ≤ dstStart + ds * s.regs.h.toNat then
        exec .copyOvl s
      else exec .copyNovl s

/-- COPY_NOVL after its checks (42_blit_engine R214): BINIT is set; without a backend it fails with BACKEND, on
overlapping ranges it faults with ASSERT, nothing written either way; else it does what COPY_OVL does (R215). -/
def Obligations.NonOverlappingPath : Prop :=
  ∀ (s : State) (df sf : Fmt), s.formats df sf → s.copyable →
    (s.params.backendCopyPresent = false →
      exec .copyNovl s = .next { s with status := ⟨4, s.status.fault, true⟩ }) ∧
    (s.params.backendCopyPresent = true → (s.copyJob df sf).overlap = true →
      exec .copyNovl s = .next { s with status := ⟨7, true, true⟩ }) ∧
    (s.params.backendCopyPresent = true → (s.copyJob df sf).overlap = false →
      ∀ t, exec .copyOvl s = .next t →
        exec .copyNovl s = .next { t with status := ⟨t.status.err, t.status.fault, true⟩ })

/-- A copy whose mode's checks pass completes (42_blit_engine R200, R205, R214, R207): COPY_OVL leaves BINIT, the
non-overlapping path sets it; nothing outside the destination rectangle changes. -/
def Obligations.CopiesComplete : Prop :=
  ∀ (s : State) (df sf : Fmt), s.formats df sf → s.copyable → s.params.rejects = [] →
    (s.copyJob df sf).ready s.params s.mem →
    (∃ m, exec .copyOvl s = .next (s.succeeded m s.status.binit) ∧
      ∀ a, ¬ (destRect s.regs df).footprint s.params a → Memory.read m a = Memory.read s.mem a) ∧
    ((s.copyJob df sf).overlap = true →
      ∃ m, exec .copy s = .next (s.succeeded m s.status.binit) ∧
        ∀ a, ¬ (destRect s.regs df).footprint s.params a → Memory.read m a = Memory.read s.mem a) ∧
    ((s.copyJob df sf).overlap = false → s.params.backendCopyPresent = true →
      ∃ m, exec .copy s = .next (s.succeeded m true) ∧ exec .copyNovl s = .next (s.succeeded m true) ∧
        ∀ a, ¬ (destRect s.regs df).footprint s.params a → Memory.read m a = Memory.read s.mem a)

/-- The checks of the converting modes, line by line (42_blit_engine R207): a source that does not unpack; an RGB8
source without a palette, with one tagged RGB8, with one whose tag is no format that unpacks; a destination that does
not pack. Nothing is written. -/
def Obligations.ConversionChecks : Prop :=
  ∀ (s : State) (df sf : Fmt), s.formats df sf → s.copyable → (s.copyJob df sf).mode ≠ .raw →
    (sf = .a4 ∨ sf = .bgrx32Depth30 ∨ sf = .rgbx32Depth30 → exec .copyOvl s = .next (s.failed 2)) ∧
    (sf = .rgb8 → s.regs.pal = 0 → exec .copyOvl s = .next (s.failed 3)) ∧
    (sf = .rgb8 → s.regs.pal ≠ 0 → s.params.rejects = [] →
      (decodeFmt (wordLeAt s.params s.mem s.regs.pal.toNat) = some .rgb8 → exec .copyOvl s = .next (s.failed 3)) ∧
      ((∀ g, decodeFmt (wordLeAt s.params s.mem s.regs.pal.toNat) = some g → g.unpackable = false) →
        exec .copyOvl s = .next (s.failed 2)) ∧
      (∀ g, decodeFmt (wordLeAt s.params s.mem s.regs.pal.toNat) = some g → g ≠ .rgb8 → g.unpackable = true →
        df = .rgb8 ∨ df = .a4 ∨ df = .mono → exec .copyOvl s = .next (s.failed 2))) ∧
    (sf.unpackable = true → sf ≠ .rgb8 → df = .rgb8 ∨ df = .a4 ∨ df = .mono →
      exec .copyOvl s = .next (s.failed 2))

/-- RAW mode (42_blit_engine R206), source and destination rectangles apart: every row of the destination holds the
bytes of its source row, flipped rows in reverse. -/
def Obligations.RawCopyContents : Prop :=
  ∀ (i : Instr) (s : State) (df sf : Fmt), i ∈ [Instr.copy, .copyOvl] → s.formats df sf → s.copyable →
    s.params.rejects = [] → s.params.backendCopyPresent = true → (s.copyJob df sf).mode = .raw →
    (destRect s.regs df).fits s.params → (destRect s.regs df).rowsApart →
    (s.copyJob df sf).sourceApart s.params →
    ∃ m b, exec i s = .next (s.succeeded m b) ∧
      ∀ y, y < s.regs.h.toNat →
        bytesAt s.params m ((destRect s.regs df).pixel 0 y) (s.regs.w.toNat * df.bytes) =
          bytesAt s.params s.mem ((s.copyJob df sf).srcPixel 0 y) (s.regs.w.toNat * df.bytes)

/-- CONV and ALPHA modes (42_blit_engine R208, R209), source and destination rectangles and the palette apart: every
destination pixel holds the conversion of its source pixel, in ALPHA mode with its alpha or pad byte as it was. -/
def Obligations.ConvertingCopyContents : Prop :=
  ∀ (i : Instr) (s : State) (df sf : Fmt), i ∈ [Instr.copy, .copyOvl] → s.formats df sf → s.copyable →
    s.params.rejects = [] → s.params.backendCopyPresent = true → (s.copyJob df sf).mode ≠ .raw →
    (s.copyJob df sf).ready s.params s.mem →
    (destRect s.regs df).fits s.params → (destRect s.regs df).rowsApart →
    (s.copyJob df sf).sourceApart s.params → (s.copyJob df sf).paletteApart s.params →
    ∃ m b, exec i s = .next (s.succeeded m b) ∧
      ∀ x y, x < s.regs.w.toNat → y < s.regs.h.toNat → ∃ c v,
        unpackNat s.params s.mem s.regs.pal.toNat sf
          (loadNat s.params s.mem ((s.copyJob df sf).srcPixel x y) sf.bpp) = .ok c ∧
        packedNat s.params df c = some v ∧
        bytesAt s.params m ((destRect s.regs df).pixel x y) df.bytes =
          storedBytes (s.copyJob df sf).mode df
            (bytesAt s.params s.mem ((destRect s.regs df).pixel x y) df.bytes) (BitVec.ofNat 32 v)

/-- Correctness under aliasing, RAW mode (42_blit_engine R212): within one buffer, whatever the offset pair, the
copy leaves what copying through a scratch buffer would. -/
def Obligations.RawCopyStaging : Prop :=
  ∀ (i : Instr) (s : State) (df sf : Fmt), i ∈ [Instr.copy, .copyOvl] → s.formats df sf → s.copyable →
    s.params.rejects = [] → s.params.backendCopyPresent = true → (s.copyJob df sf).mode = .raw →
    (s.copyJob df sf).sameBuffer s.params →
    ∃ m b, exec i s = .next (s.succeeded m b) ∧
      (∀ y, y < s.regs.h.toNat →
        bytesAt s.params m ((destRect s.regs df).pixel 0 y) (s.regs.w.toNat * df.bytes) =
          bytesAt s.params s.mem ((s.copyJob df sf).srcPixel 0 y) (s.regs.w.toNat * df.bytes)) ∧
      ∀ a, ¬ (destRect s.regs df).footprint s.params a → Memory.read m a = Memory.read s.mem a

/-- Correctness under aliasing, CONV and ALPHA modes (42_blit_engine R212). -/
def Obligations.ConvertingCopyStaging : Prop :=
  ∀ (i : Instr) (s : State) (df sf : Fmt), i ∈ [Instr.copy, .copyOvl] → s.formats df sf → s.copyable →
    s.params.rejects = [] → s.params.backendCopyPresent = true → (s.copyJob df sf).mode ≠ .raw →
    (s.copyJob df sf).ready s.params s.mem → (s.copyJob df sf).sameBuffer s.params →
    (s.copyJob df sf).paletteApart s.params →
    ∃ m b, exec i s = .next (s.succeeded m b) ∧
      (∀ x y, x < s.regs.w.toNat → y < s.regs.h.toNat → ∃ v,
        convertIn s.params s.mem (s.copyJob df sf).pal sf df
          (pixelAt s.params s.mem ((s.copyJob df sf).srcPixel x y) sf) = .ok v ∧
        bytesAt s.params m ((destRect s.regs df).pixel x y) df.bytes =
          storedBytes (s.copyJob df sf).mode df
            (bytesAt s.params s.mem ((destRect s.regs df).pixel x y) df.bytes) v) ∧
      ∀ a, ¬ (destRect s.regs df).footprint s.params a → Memory.read m a = Memory.read s.mem a

/-- KEEP_DST_ALPHA with one of the four 32-bit alpha formats: whatever the copy's outcome and overlap, the alpha
byte of every destination pixel keeps its value (42_blit_engine R209). -/
def Obligations.CopyKeepsAlpha : Prop :=
  ∀ (i : Instr) (s t : State) (df : Fmt), i ∈ [Instr.copy, .copyOvl, .copyNovl] →
    decodeFmt s.regs.dfmt = some df → s.regs.flags.getLsbD 2 = true → s.params.rejects = [] →
    (destRect s.regs df).fits s.params → (destRect s.regs df).rowsApart → exec i s = .next t →
    ∀ x y, x < s.regs.w.toNat → y < s.regs.h.toNat →
      (df = .argb32 ∨ df = .abgr32 →
        byteNat s.params t.mem ((destRect s.regs df).pixel x y) =
          byteNat s.params s.mem ((destRect s.regs df).pixel x y)) ∧
      (df = .rgba32 ∨ df = .bgra32 →
        byteNat s.params t.mem ((destRect s.regs df).pixel x y + 3) =
          byteNat s.params s.mem ((destRect s.regs df).pixel x y + 3))

/-- FILL (42_blit_engine R225, R226): the checks in their order, and every pixel of a rectangle whose rows are
apart holds COLOR0's bytes. -/
def Obligations.FillsRectangle : Prop :=
  ∀ s : State,
    ((∀ f, decodeFmt s.regs.dfmt = some f → f = .a4 ∨ f = .mono) → exec .fill s = .next (s.failed 2)) ∧
    ∀ f, decodeFmt s.regs.dfmt = some f → f ≠ .a4 → f ≠ .mono →
      (s.regs.w = 0 ∨ s.regs.h = 0 → exec .fill s = .next (s.succeeded s.mem s.status.binit)) ∧
      (s.regs.w ≠ 0 → s.regs.h ≠ 0 → s.regs.dst = 0 → exec .fill s = .next (s.failed 1)) ∧
      (s.regs.w ≠ 0 → s.regs.h ≠ 0 → s.regs.dst ≠ 0 → s.params.rejects = [] →
        (destRect s.regs f).fits s.params → (destRect s.regs f).rowsApart →
        ∃ m, exec .fill s = .next (s.succeeded m s.status.binit) ∧
          (∀ x y, x < s.regs.w.toNat → y < s.regs.h.toNat →
            holds s.params m ((destRect s.regs f).pixel x y) (storeNat f.bpp s.regs.color0.toNat)) ∧
          ∀ a, ¬ (destRect s.regs f).footprint s.params a → Memory.read m a = Memory.read s.mem a)

/-- SCALE (42_blit_engine R230): with equal sizes it is COPY_NOVL with the palette absent and FLAGS = 0; with
different sizes and no resampler it fails with BACKEND. -/
def Obligations.ScaleDispatch : Prop :=
  ∀ s : State,
    (decodeFmt s.regs.dfmt = none ∨ decodeFmt s.regs.sfmt = none → exec .scale s = .next (s.failed 2)) ∧
    ∀ df sf, s.formats df sf →
      (s.regs.w = s.regs.sw → s.regs.h = s.regs.sh →
        ∀ t, exec .copyNovl { s with regs := { s.regs with pal := 0, flags := 0 } } = .next t →
          exec .scale s = .next { t with regs := s.regs }) ∧
      (¬ (s.regs.w = s.regs.sw ∧ s.regs.h = s.regs.sh) → s.params.resamplerPresent = false →
        exec .scale s = .next (s.failed 4))

/-- SCALE completes: with equal sizes over ranges that do not meet, and through the resampler (42_blit_engine R230,
R232); only the destination rectangle changes. -/
def Obligations.ScaleCompletes : Prop :=
  ∀ (s : State) (df sf : Fmt), s.formats df sf → s.params.rejects = [] →
    (s.regs.w = s.regs.sw → s.regs.h = s.regs.sh → s.copyable → s.params.backendCopyPresent = true →
      ((scaleReq s.regs).job df sf).overlap = false → ((scaleReq s.regs).job df sf).ready s.params s.mem →
      ∃ m, exec .scale s = .next (s.succeeded m true) ∧
        ∀ a, ¬ (destRect s.regs df).footprint s.params a → Memory.read m a = Memory.read s.mem a) ∧
    (¬ (s.regs.w = s.regs.sw ∧ s.regs.h = s.regs.sh) → s.params.resamplerPresent = true →
      let rgba := [Fmt.argb32, .xrgb32, .abgr32, .xbgr32, .rgba32, .rgbx32, .bgra32, .bgrx32]
      (df ∉ rgba ∨ sf ∉ rgba → exec .scale s = .next (s.failed 2)) ∧
      (df ∈ rgba → sf ∈ rgba →
        (s.regs.dst = 0 ∨ s.regs.src = 0 → exec .scale s = .next (s.failed 1)) ∧
        (s.regs.dst ≠ 0 → s.regs.src ≠ 0 →
          ∃ m, exec .scale s = .next { s.succeeded m s.status.binit with draws := s.draws + 1 } ∧
            ∀ a, ¬ (destRect s.regs df).footprint s.params a → Memory.read m a = Memory.read s.mem a)))

/-! ### The bit-packed decoders -/

/-- GLYPH (43_bitmap_decoders R262): 0xFF for a set bit, 0x00 for a clear one, tightly packed; the glyph's bits are
not in the output, which does not meet itself around the address space. -/
def Obligations.GlyphWritesBytes : Prop :=
  ∀ s : State,
    (s.regs.dst = 0 ∨ s.regs.src = 0 → exec .glyph s = .next (s.failed 1)) ∧
    (s.regs.dst ≠ 0 → s.regs.src ≠ 0 → s.params.rejects = [] →
      s.regs.w.toNat * s.regs.h.toNat ≤ 2 ^ s.params.addrW →
      bitsApart s.params s.regs.src.toNat ((s.regs.w.toNat + 7) / 8) s.regs.w.toNat s.regs.h.toNat
        (span s.params s.regs.dst.toNat (s.regs.w.toNat * s.regs.h.toNat)) →
      ∃ m, exec .glyph s = .next (s.succeeded m s.status.binit) ∧
        (∀ x y, x < s.regs.w.toNat → y < s.regs.h.toNat →
          byteNat s.params m (s.regs.dst.toNat + y * s.regs.w.toNat + x) =
            if bitIn s.params s.mem s.regs.src.toNat ((s.regs.w.toNat + 7) / 8) y x then 0xFF else 0x00) ∧
        ∀ a, ¬ span s.params s.regs.dst.toNat (s.regs.w.toNat * s.regs.h.toNat) a →
          Memory.read m a = Memory.read s.mem a)

/-- MONO (43_bitmap_decoders R270): a set bit stores COLOR0, a clear one COLOR1. -/
def Obligations.MonoSelectsColors : Prop :=
  ∀ s : State,
    ((∀ f, decodeFmt s.regs.dfmt = some f → f = .a4 ∨ f = .mono) → exec .mono s = .next (s.failed 2)) ∧
    ∀ f, decodeFmt s.regs.dfmt = some f → f ≠ .a4 → f ≠ .mono →
      (s.regs.dst = 0 ∨ s.regs.src = 0 → exec .mono s = .next (s.failed 1)) ∧
      (s.regs.dst ≠ 0 → s.regs.src ≠ 0 → s.params.rejects = [] →
        (destRect s.regs f).fits s.params → (destRect s.regs f).rowsApart →
        bitsApart s.params s.regs.src.toNat ((s.regs.w.toNat + 7) / 8) s.regs.w.toNat s.regs.h.toNat
          ((destRect s.regs f).footprint s.params) →
        ∃ m, exec .mono s = .next (s.succeeded m s.status.binit) ∧
          (∀ x y, x < s.regs.w.toNat → y < s.regs.h.toNat →
            holds s.params m ((destRect s.regs f).pixel x y) (storeNat f.bpp
              (if bitIn s.params s.mem s.regs.src.toNat ((s.regs.w.toNat + 7) / 8) y x then s.regs.color0.toNat
              else s.regs.color1.toNat))) ∧
          ∀ a, ¬ (destRect s.regs f).footprint s.params a → Memory.read m a = Memory.read s.mem a)

/-- The checks of ICON before its copy, in their order (43_bitmap_decoders R280 steps 1 to 7): nothing changes but
ERR. -/
def Obligations.IconChecks : Prop :=
  ∀ s : State,
    (decodeFmt s.regs.dfmt = none → exec .icon s = .next (s.failed 2)) ∧
    ∀ f, decodeFmt s.regs.dfmt = some f →
      (s.regs.dst = 0 ∨ s.regs.src = 0 → exec .icon s = .next (s.failed 1)) ∧
      (s.regs.dst ≠ 0 → s.regs.src ≠ 0 →
        (s.regs.bpp.toNat ∉ [8, 16, 24, 32] → exec .icon s = .next (s.failed 2)) ∧
        (s.regs.bpp.toNat ∈ [8, 16, 24, 32] →
          (s.regs.srclen.toNat < s.regs.w.toNat * s.regs.h.toNat * (s.regs.bpp.toNat / 8) →
            exec .icon s = .next (s.failed 1)) ∧
          (s.regs.w.toNat * s.regs.h.toNat * (s.regs.bpp.toNat / 8) ≤ s.regs.srclen.toNat →
            (s.regs.tbl = 0 → s.regs.tbllen ≠ 0 → exec .icon s = .next (s.failed 1)) ∧
            (s.regs.tbl ≠ 0 ∨ s.regs.tbllen = 0 → s.params.rejects = [] → f.hasAlpha = true →
              s.regs.msk ≠ 0 → s.regs.msklen ≠ 0 →
              (f = .rgb8 ∨ f = .a4 ∨ f = .mono → exec .icon s = .next (s.failed 2)) ∧
              (f.packable = true →
                s.regs.msklen.toNat < (((s.regs.w.toNat + 7) / 8 + 3) / 4 * 4) * s.regs.h.toNat →
                exec .icon s = .next (s.failed 1))))))

/-- How ICON ends once its own checks pass (43_bitmap_decoders R280). It completes for every packable destination
whose copy passes: only the destination rectangle changes; BINIT is set where the color bitmap and the destination do
not meet; an icon of no area changes nothing. If the copy step fails, masked or not, ICON ends with the same outcome:
a width or height above MAX_DIM, an absent backend, a destination that neither packs nor takes the bitmap raw. An
8-bit icon into RGB8 completes. -/
def Obligations.IconCompletes : Prop :=
  ∀ (s : State) (f sf : Fmt), decodeFmt s.regs.dfmt = some f →
    s.params.rejects = [] → s.regs.dst ≠ 0 → s.regs.src ≠ 0 →
    (s.regs.bpp.toNat, sf) ∈ [(8, Fmt.rgb8), (16, .rgb15), (24, .rgb24), (32, .bgra32)] →
    s.regs.w.toNat * s.regs.h.toNat * (s.regs.bpp.toNat / 8) ≤ s.regs.srclen.toNat →
    s.regs.tbl ≠ 0 ∨ s.regs.tbllen = 0 →
    f.hasAlpha = false ∨ s.regs.msk = 0 ∨ s.regs.msklen = 0 ∨
      (f.packable = true ∧ (((s.regs.w.toNat + 7) / 8 + 3) / 4 * 4) * s.regs.h.toNat ≤ s.regs.msklen.toNat) →
    (s.params.maxDim < s.regs.w.toNat ∨ s.params.maxDim < s.regs.h.toNat → exec .icon s = .next (s.failed 1)) ∧
    (s.regs.w.toNat ≤ s.params.maxDim → s.regs.h.toNat ≤ s.params.maxDim →
      let j := (iconReq s.regs sf .absent).job f sf
      (s.regs.w = 0 ∨ s.regs.h = 0 → exec .icon s = .next (s.succeeded s.mem s.status.binit)) ∧
      (s.regs.w ≠ 0 → s.regs.h ≠ 0 →
        (s.params.backendCopyPresent = false → j.overlap = false →
          exec .icon s = .next { s with status := ⟨4, s.status.fault, true⟩ }) ∧
        (s.params.backendCopyPresent = true ∨ j.overlap = true →
          (f.packable = false → f ≠ sf →
            exec .icon s = .next { s with status := ⟨2, s.status.fault, s.status.binit || !j.overlap⟩ }) ∧
          (f.packable = true ∨ f = sf →
            ∃ m, exec .icon s = .next (s.succeeded m (s.status.binit || !j.overlap)) ∧
              ∀ a, ¬ (destRect s.regs f).footprint s.params a → Memory.read m a = Memory.read s.mem a))))

/-- ICON without a mask is a vertically flipped COPY of a tight bitmap, whatever that COPY's outcome: of RGB15, RGB24
or BGRA32 for 16, 24 and 32 bits, and of RGB8 for 8 bits into RGB8 (43_bitmap_decoders R280 step 8, R281). On any
platform that does not reject the color table. -/
def Obligations.IconIsFlippedCopy : Prop :=
  ∀ (s t : State) (f : Fmt) (ident : Word), decodeFmt s.regs.dfmt = some f → s.regs.dst ≠ 0 → s.regs.src ≠ 0 →
    (s.regs.bpp.toNat, ident) ∈ [(16, 0x0F010555#32), (24, 0x18010888#32), (32, 0x20048888#32)] ∨
      (s.regs.bpp = 8 ∧ f = .rgb8 ∧ ident = 0x08008000#32) →
    s.regs.w.toNat * s.regs.h.toNat * (s.regs.bpp.toNat / 8) ≤ s.regs.srclen.toNat →
    s.regs.tbl ≠ 0 ∨ s.regs.tbllen = 0 → f.hasAlpha = false ∨ s.regs.msk = 0 ∨ s.regs.msklen = 0 →
    (∀ a, span s.params s.regs.tbl.toNat s.regs.tbllen.toNat a → rejected s.params a = false) →
    exec .copy { s with regs := { s.regs with sfmt := ident, sstride := 0, sx := 0, sy := 0, flags := 1 } } =
      .next t →
    exec .icon s = .next { t with regs := s.regs }

/-- An 8-bit icon without a mask (43_bitmap_decoders R282): the pixel of index `i` gets entry `i` of the color
table, bytes blue, green, red, unused, made opaque; black where the table is malformed or too short. -/
def Obligations.IconPaletted : Prop :=
  ∀ (s : State) (f : Fmt), decodeFmt s.regs.dfmt = some f → f.packable = true →
    s.params.rejects = [] → s.params.backendCopyPresent = true → s.copyable → s.regs.bpp = 8 →
    s.regs.w.toNat * s.regs.h.toNat ≤ s.regs.srclen.toNat → s.regs.tbl ≠ 0 ∨ s.regs.tbllen = 0 →
    f.hasAlpha = false ∨ s.regs.msk = 0 ∨ s.regs.msklen = 0 →
    (destRect s.regs f).fits s.params → (destRect s.regs f).rowsApart →
    (∀ k, k < s.regs.w.toNat * s.regs.h.toNat →
      ¬ (destRect s.regs f).footprint s.params (portAddr s.params (s.regs.src.toNat + k))) →
    ∃ m b, exec .icon s = .next (s.succeeded m b) ∧
      ∀ x y, x < s.regs.w.toNat → y < s.regs.h.toNat →
        let n := s.regs.tbllen.toNat
        let i := byteNat s.params s.mem (s.regs.src.toNat + (s.regs.h.toNat - 1 - y) * s.regs.w.toNat + x)
        let e := fun k => if n % 4 = 0 ∧ n ≤ 1024 ∧ 4 * i < n then
          byteNat s.params s.mem (s.regs.tbl.toNat + 4 * i + k) else 0
        ∃ v, packNat s.params f (e 2) (e 1) (e 0) 255 = some v ∧
          holds s.params m ((destRect s.regs f).pixel x y) (storeNat f.bpp v)

/-- The mask pass of ICON (43_bitmap_decoders R280 step 9): from what the icon without its mask leaves, every pixel
keeps its color and gets alpha 0 where the mask's bit is set, 255 elsewhere, mask rows bottom to top. -/
def Obligations.IconMask : Prop :=
  ∀ (s t : State) (f : Fmt), decodeFmt s.regs.dfmt = some f → f.packable = true → f.hasAlpha = true →
    s.params.rejects = [] → s.regs.msk ≠ 0 → s.regs.msklen ≠ 0 →
    (((s.regs.w.toNat + 7) / 8 + 3) / 4 * 4) * s.regs.h.toNat ≤ s.regs.msklen.toNat →
    (destRect s.regs f).fits s.params → (destRect s.regs f).rowsApart →
    bitsApart s.params s.regs.msk.toNat (((s.regs.w.toNat + 7) / 8 + 3) / 4 * 4) s.regs.w.toNat s.regs.h.toNat
      ((destRect s.regs f).footprint s.params) →
    exec .icon { s with regs := { s.regs with msklen := 0 } } = .next t → t.status.err = 0 →
    ∃ m, exec .icon s = .next { t with regs := s.regs, mem := m } ∧
      (∀ x y, x < s.regs.w.toNat → y < s.regs.h.toNat → ∃ r g b a v,
        splitNat s.params f (loadNat s.params t.mem ((destRect s.regs f).pixel x y) f.bpp) = some (r, g, b, a) ∧
        packNat s.params f r g b
          (if bitIn s.params s.mem s.regs.msk.toNat (((s.regs.w.toNat + 7) / 8 + 3) / 4 * 4)
              (s.regs.h.toNat - 1 - y) x then 0 else 255) = some v ∧
        holds s.params m ((destRect s.regs f).pixel x y) (storeNat f.bpp v)) ∧
      ∀ a, ¬ (destRect s.regs f).footprint s.params a → Memory.read m a = Memory.read t.mem a

/-- CURSOR's checks before it writes (43_bitmap_decoders R290 steps 1 and 2). -/
def Obligations.CursorChecks : Prop :=
  ∀ s : State,
    ((∀ f, decodeFmt s.regs.dfmt = some f → f = .rgb8 ∨ f = .a4 ∨ f = .mono) →
      exec .cursor s = .next (s.failed 2)) ∧
    (∀ f, decodeFmt s.regs.dfmt = some f → f.packable = true → s.regs.dst = 0 →
      exec .cursor s = .next (s.failed 1))

/-- A cursor that fails after the zero fill leaves its rectangle zeroed and the rest as it was (60_exceptions R325,
43_bitmap_decoders R290); for an 8-bit cursor, where it does not overwrite its palette's tag (70 R372). The codes, by
the checks in their order: a depth that is not listed (R296), the 1-bit variant's masks and their lengths (R293), the
color variant's XOR mask, its palette, and the two lengths (R295). -/
def Obligations.CursorFailure : Prop :=
  ∀ (s : State) (f : Fmt), decodeFmt s.regs.dfmt = some f → f.packable = true → s.regs.dst ≠ 0 →
    s.params.rejects = [] →
    let ends := fun code : BitVec 4 => ∃ t, exec .cursor s = .next t ∧ t.status.err = code
    let maskBytes := (((s.regs.w.toNat + 7) / 8 + 1) / 2 * 2) * s.regs.h.toNat
    let tag := decodeFmt (wordLeAt s.params s.mem s.regs.pal.toNat)
    (s.regs.bpp.toNat ∉ [1, 8, 16, 24, 32] → ends 2) ∧
    (s.regs.bpp = 1 →
      s.regs.src = 0 ∨ s.regs.srclen = 0 ∨ s.regs.msk = 0 ∨ s.regs.msklen = 0 ∨
        s.regs.srclen.toNat < maskBytes ∨ s.regs.msklen.toNat < maskBytes →
      ends 1) ∧
    (s.regs.bpp.toNat ∈ [8, 16, 24, 32] → s.regs.src = 0 ∨ s.regs.srclen = 0 → ends 1) ∧
    (s.regs.bpp.toNat ∈ [8, 16, 24, 32] → s.regs.src ≠ 0 → s.regs.srclen ≠ 0 →
      (s.regs.bpp = 8 → s.regs.pal = 0 → ends 3) ∧
      (s.regs.bpp = 8 → s.regs.pal ≠ 0 → paletteApart s →
        (tag = some .rgb8 → ends 3) ∧ ((∀ g, tag = some g → g.unpackable = false) → ends 2)) ∧
      ((s.regs.bpp = 8 → s.regs.pal ≠ 0 ∧ paletteApart s ∧ ∃ g, tag = some g ∧ g ≠ .rgb8 ∧ g.unpackable = true) →
        s.regs.srclen.toNat < ((s.regs.w.toNat * (s.regs.bpp.toNat / 8) + 1) / 2 * 2) * s.regs.h.toNat ∨
          (s.regs.msk ≠ 0 ∧ s.regs.msklen.toNat < maskBytes) →
        ends 1)) ∧
    (∀ t, exec .cursor s = .next t → t.status.err ≠ 0 → s.regs.bpp ≠ 8 ∨ paletteApart s →
      (∀ a, (destRect s.regs f).footprint s.params a → Memory.read t.mem a = 0) ∧
      (∀ a, ¬ (destRect s.regs f).footprint s.params a → Memory.read t.mem a = Memory.read s.mem a) ∧
      t.status.fault = s.status.fault ∧ t.status.binit = s.status.binit)

/-- The 1-bit variant of CURSOR (43_bitmap_decoders R293, R294), its masks not in the destination rectangle. -/
def Obligations.CursorOneBit : Prop :=
  ∀ (s : State) (f : Fmt), decodeFmt s.regs.dfmt = some f → f.packable = true → s.params.rejects = [] →
    s.regs.dst ≠ 0 → s.regs.bpp = 1 → s.regs.src ≠ 0 → s.regs.srclen ≠ 0 → s.regs.msk ≠ 0 → s.regs.msklen ≠ 0 →
    (((s.regs.w.toNat + 7) / 8 + 1) / 2 * 2) * s.regs.h.toNat ≤ s.regs.srclen.toNat →
    (((s.regs.w.toNat + 7) / 8 + 1) / 2 * 2) * s.regs.h.toNat ≤ s.regs.msklen.toNat →
    (destRect s.regs f).fits s.params → (destRect s.regs f).rowsApart →
    bitsApart s.params s.regs.src.toNat (((s.regs.w.toNat + 7) / 8 + 1) / 2 * 2) s.regs.w.toNat s.regs.h.toNat
      ((destRect s.regs f).footprint s.params) →
    bitsApart s.params s.regs.msk.toNat (((s.regs.w.toNat + 7) / 8 + 1) / 2 * 2) s.regs.w.toNat s.regs.h.toNat
      ((destRect s.regs f).footprint s.params) →
    ∃ m, exec .cursor s = .next (s.succeeded m s.status.binit) ∧
      (∀ x y, x < s.regs.w.toNat → y < s.regs.h.toNat → ∃ v,
        packedNat s.params f (combinedNat
          (bitIn s.params s.mem s.regs.msk.toNat (((s.regs.w.toNat + 7) / 8 + 1) / 2 * 2) y x)
          (bitIn s.params s.mem s.regs.src.toNat (((s.regs.w.toNat + 7) / 8 + 1) / 2 * 2) y x) x y) = some v ∧
        holds s.params m ((destRect s.regs f).pixel x y) (storeNat f.bpp v)) ∧
      ∀ a, ¬ (destRect s.regs f).footprint s.params a → Memory.read m a = Memory.read s.mem a

/-- The color variant of CURSOR (43_bitmap_decoders R295, R296), its inputs not in the destination rectangle: rows
bottom to top, each pixel converted, the AND bit turning opaque black transparent and opaque white inverted. -/
def Obligations.CursorColor : Prop :=
  ∀ (s : State) (f xf : Fmt), decodeFmt s.regs.dfmt = some f → f.packable = true → s.params.rejects = [] →
    s.regs.dst ≠ 0 → (s.regs.bpp.toNat, xf) ∈ [(8, Fmt.rgb8), (16, .rgb15), (24, .bgr24), (32, .bgra32)] →
    s.regs.src ≠ 0 → s.regs.srclen ≠ 0 →
    ((s.regs.w.toNat * (s.regs.bpp.toNat / 8) + 1) / 2 * 2) * s.regs.h.toNat ≤ s.regs.srclen.toNat →
    s.regs.msk = 0 ∨ (((s.regs.w.toNat + 7) / 8 + 1) / 2 * 2) * s.regs.h.toNat ≤ s.regs.msklen.toNat →
    (destRect s.regs f).fits s.params → (destRect s.regs f).rowsApart →
    (xf = .rgb8 → s.regs.pal ≠ 0 ∧
      (∃ g, decodeFmt (wordLeAt s.params s.mem s.regs.pal.toNat) = some g ∧ g ≠ .rgb8 ∧ g.unpackable = true) ∧
      ∀ k, k < 1028 → ¬ (destRect s.regs f).footprint s.params (portAddr s.params (s.regs.pal.toNat + k))) →
    (∀ y, y < s.regs.h.toNat → ∀ k, k < s.regs.w.toNat * (s.regs.bpp.toNat / 8) →
      ¬ (destRect s.regs f).footprint s.params (portAddr s.params
        (s.regs.src.toNat + ((s.regs.w.toNat * (s.regs.bpp.toNat / 8) + 1) / 2 * 2) * y + k))) →
    (s.regs.msk ≠ 0 → bitsApart s.params s.regs.msk.toNat (((s.regs.w.toNat + 7) / 8 + 1) / 2 * 2)
      s.regs.w.toNat s.regs.h.toNat ((destRect s.regs f).footprint s.params)) →
    ∃ m, exec .cursor s = .next (s.succeeded m s.status.binit) ∧
      (∀ x y, x < s.regs.w.toNat → y < s.regs.h.toNat → ∃ c v,
        unpackNat s.params s.mem s.regs.pal.toNat xf
          (loadNat s.params s.mem (s.regs.src.toNat +
            ((s.regs.w.toNat * (s.regs.bpp.toNat / 8) + 1) / 2 * 2) * (s.regs.h.toNat - 1 - y) +
            x * (s.regs.bpp.toNat / 8)) xf.bpp) = .ok c ∧
        packedNat s.params f (maskedNat
          (s.regs.msk != 0 && bitIn s.params s.mem s.regs.msk.toNat
            (((s.regs.w.toNat + 7) / 8 + 1) / 2 * 2) (s.regs.h.toNat - 1 - y) x) c x y) = some v ∧
        holds s.params m ((destRect s.regs f).pixel x y) (storeNat f.bpp v)) ∧
      ∀ a, ¬ (destRect s.regs f).footprint s.params a → Memory.read m a = Memory.read s.mem a

/-! ### Rejected accesses -/

/-- A platform that rejects an access (20_memory R84), for every command: one that would succeed on a platform that
rejects nothing ends with BUS, FAULT set, if it accesses a rejected byte (70 R364), and a producer leaves 0 in its
register; and no command changes a rejected byte. That a producer leaves 0 after BUS is the model's reading (log
entry 6). -/
def Obligations.RejectedByteFaults : Prop :=
  (∀ (i : Instr) (s u : State) (a : Nat), exec i s.unrejecting = .next u → u.status.err = 0 → mustTouch i s a →
    rejected s.params a = true →
    ∃ t, exec i s = .next t ∧ t.status.err = 6 ∧ t.status.fault = true ∧
      t.res = (if i = .fmtName ∨ i = .readColor ∨ i = .convertColor then 0 else s.res) ∧
      t.rchan = (if i = .splitColor then 0 else s.rchan)) ∧
  ∀ (i : Instr) (s t : State) (a : Nat), exec i s = .next t → rejected s.params a = true →
    Memory.read t.mem a = Memory.read s.mem a
end

