-- ==== Sys2Proof/Laws/Cmd.lean ====
section
/-! SUPPORT. Commands in progress: what binding, checking and looping do, and three ways to say once what a
piece of a command can do. `Moves R` relates the working state before and after, whatever the outcome;
`Raises E` bounds the ways it can end early; `forEach_runs` carries an invariant through a loop that does
not end early. -/

namespace Sys2Proof.Machine

/-- The working state an outcome leaves. -/
def endWork {α : Type} (r : EStateM.Result Err Work α) : Work :=
  match r with
  | .ok _ w => w
  | .error _ w => w

@[simp] theorem endWork_ok {α : Type} (a : α) (w : Work) :
    endWork (.ok a w : EStateM.Result Err Work α) = w := rfl

@[simp] theorem endWork_error {α : Type} (e : Err) (w : Work) :
    endWork (.error e w : EStateM.Result Err Work α) = w := rfl

/-! ### Running the pieces -/

@[simp] theorem pure_runs {α : Type} (a : α) (w : Work) : (pure a : Cmd α) w = .ok a w := rfl

@[simp] theorem throw_runs {α : Type} (e : Err) (w : Work) : (throw e : Cmd α) w = .error e w := rfl

theorem bind_runs_ok {α β : Type} {c : Cmd α} {f : α → Cmd β} {w w' : Work} {a : α} (h : c w = .ok a w') :
    (c >>= f) w = f a w' := by
  show EStateM.bind c f w = _
  simp [EStateM.bind, h]

theorem bind_runs_error {α β : Type} {c : Cmd α} {f : α → Cmd β} {w w' : Work} {e : Err}
    (h : c w = .error e w') : (c >>= f) w = .error e w' := by
  show EStateM.bind c f w = _
  simp [EStateM.bind, h]

/-- A sequence succeeds only through its parts. -/
theorem bind_ok {α β : Type} {c : Cmd α} {f : α → Cmd β} {w w'' : Work} {b : β}
    (h : (c >>= f) w = .ok b w'') : ∃ a w', c w = .ok a w' ∧ f a w' = .ok b w'' := by
  cases hc : c w with
  | ok a w' => exact ⟨a, w', rfl, by rwa [bind_runs_ok hc] at h⟩
  | error e w' => rw [bind_runs_error hc] at h; cases h

/-- A sequence ends early in its first part or in its second. -/
theorem bind_error {α β : Type} {c : Cmd α} {f : α → Cmd β} {w w'' : Work} {e : Err}
    (h : (c >>= f) w = .error e w'') :
    c w = .error e w'' ∨ ∃ a w', c w = .ok a w' ∧ f a w' = .error e w'' := by
  cases hc : c w with
  | ok a w' => exact .inr ⟨a, w', rfl, by rwa [bind_runs_ok hc] at h⟩
  | error e' w' =>
    rw [bind_runs_error hc] at h
    cases h
    exact .inl rfl

@[simp] theorem failIf_false (e : Err) : failIf false e = pure () := rfl

@[simp] theorem failIf_true (e : Err) : failIf true e = throw e := rfl

theorem failIf_bind {α : Type} (b : Bool) (e : Err) (c : Cmd α) (w : Work) :
    (do failIf b e; c) w = if b then .error e w else c w := by
  cases b <;> rfl

@[simp] theorem onlyIf_false (c : Cmd Unit) : onlyIf false c = pure () := rfl

@[simp] theorem onlyIf_true (c : Cmd Unit) : onlyIf true c = c := rfl

/-- The outcome of a value, or a raise, that needs no memory. -/
def answers {α : Type} (x : Except Err α) (w : Work) : EStateM.Result Err Work α :=
  match x with
  | .ok a => .ok a w
  | .error e => .error e w

@[simp] theorem answers_ok {α : Type} (a : α) (w : Work) : answers (.ok a) w = .ok a w := rfl

@[simp] theorem answers_error {α : Type} (e : Err) (w : Work) :
    answers (.error e : Except Err α) w = .error e w := rfl

theorem ofExcept_runs {α : Type} (x : Except Err α) (w : Work) : ofExcept x w = answers x w := by
  cases x <;> rfl

@[simp] theorem ofExcept_ok {α : Type} (a : α) : ofExcept (.ok a) = (pure a : Cmd α) := rfl

@[simp] theorem ofExcept_error {α : Type} (e : Err) : ofExcept (.error e : Except Err α) = throw e := rfl

@[simp] theorem forEach_nil (body : Nat → Cmd Unit) : forEach [] body = pure () := rfl

theorem forEach_cons (n : Nat) (ns : List Nat) (body : Nat → Cmd Unit) :
    forEach (n :: ns) body = (do body n; forEach ns body) := rfl

/-- A loop whose every turn succeeds and carries the invariant on, from the turns done to the turn after
them, succeeds and ends with the invariant over all its turns. -/
theorem forEach_runs {ns : List Nat} {body : Nat → Cmd Unit} (I : List Nat → Work → Prop)
    (hstep : ∀ done n rest, ns = done ++ n :: rest → ∀ w, I done w →
      ∃ w', body n w = .ok () w' ∧ I (done ++ [n]) w')
    {w : Work} (h0 : I [] w) : ∃ w', forEach ns body w = .ok () w' ∧ I ns w' := by
  suffices H : ∀ rest done, ns = done ++ rest → ∀ w, I done w →
      ∃ w', forEach rest body w = .ok () w' ∧ I ns w' from H ns [] rfl w h0
  intro rest
  induction rest with
  | nil =>
    intro done hd w hw
    exact ⟨w, rfl, by simpa [hd] using hw⟩
  | cons n rest ih =>
    intro done hd w hw
    obtain ⟨w1, h1, hI⟩ := hstep done n rest hd w hw
    obtain ⟨w2, h2, hI2⟩ := ih (done ++ [n]) (by simp [hd]) w1 hI
    exact ⟨w2, by rw [forEach_cons, bind_runs_ok h1, h2], hI2⟩

/-! ### `Moves` -/

/-- Whatever the outcome, the working state after is related to the one before. -/
def Moves {α : Type} (R : Work → Work → Prop) (c : Cmd α) : Prop :=
  ∀ w, R w (endWork (c w))

/-- A relation every command's pieces can be composed along. -/
structure Step (R : Work → Work → Prop) : Prop where
  refl : ∀ w, R w w
  trans : ∀ {u v w}, R u v → R v w → R u w

theorem Moves.pure {α : Type} {R : Work → Work → Prop} (h : Step R) (a : α) :
    Moves R (Pure.pure a : Cmd α) :=
  fun w => h.refl w

theorem Moves.throw {α : Type} {R : Work → Work → Prop} (h : Step R) (e : Err) :
    Moves R (MonadExcept.throw e : Cmd α) :=
  fun w => h.refl w

theorem Moves.bind {α β : Type} {R : Work → Work → Prop} (h : Step R) {c : Cmd α} {f : α → Cmd β}
    (hc : Moves R c) (hf : ∀ a, Moves R (f a)) : Moves R (c >>= f) := by
  intro w
  have h1 := hc w
  cases hr : c w with
  | ok a w' =>
    rw [bind_runs_ok hr]
    rw [hr] at h1
    exact h.trans h1 (hf a w')
  | error e w' =>
    rw [bind_runs_error hr]
    rwa [hr] at h1

theorem Moves.failIf {R : Work → Work → Prop} (h : Step R) (b : Bool) (e : Err) :
    Moves R (Machine.failIf b e) := by
  cases b
  · exact Moves.pure h ()
  · exact Moves.throw h e

theorem Moves.onlyIf {R : Work → Work → Prop} (h : Step R) {b : Bool} {c : Cmd Unit}
    (hc : b = true → Moves R c) : Moves R (Machine.onlyIf b c) := by
  cases b
  · exact Moves.pure h ()
  · exact hc rfl

theorem Moves.ofExcept {α : Type} {R : Work → Work → Prop} (h : Step R) (x : Except Err α) :
    Moves R (Machine.ofExcept x) := by
  cases x
  · exact Moves.throw h _
  · exact Moves.pure h _

theorem Moves.forEach {R : Work → Work → Prop} (h : Step R) {ns : List Nat} {body : Nat → Cmd Unit}
    (hb : ∀ n ∈ ns, Moves R (body n)) : Moves R (Machine.forEach ns body) := by
  induction ns with
  | nil => exact Moves.pure h ()
  | cons n ns ih =>
    exact Moves.bind h (hb n (by simp)) fun _ => ih fun k hk => hb k (by simp [hk])

theorem Moves.ite {α : Type} {R : Work → Work → Prop} {P : Prop} [Decidable P] {c d : Cmd α}
    (hc : P → Moves R c) (hd : ¬ P → Moves R d) : Moves R (if P then c else d) := by
  split
  · exact hc ‹_›
  · exact hd ‹_›

theorem Moves.mono {α : Type} {R S : Work → Work → Prop} (hRS : ∀ u v, R u v → S u v) {c : Cmd α}
    (hc : Moves R c) : Moves S c :=
  fun w => hRS _ _ (hc w)

/-! ### `Raises` -/

/-- The command ends early only in ways that `E` allows. -/
def Raises {α : Type} (E : Err → Prop) (c : Cmd α) : Prop :=
  ∀ w e w', c w = .error e w' → E e

theorem Raises.pure {α : Type} {E : Err → Prop} (a : α) : Raises E (Pure.pure a : Cmd α) := by
  intro w e w' h
  cases h

theorem Raises.throw {α : Type} {E : Err → Prop} {e : Err} (h : E e) :
    Raises E (MonadExcept.throw e : Cmd α) := by
  intro w e' w' h'
  cases h'
  exact h

theorem Raises.bind {α β : Type} {E : Err → Prop} {c : Cmd α} {f : α → Cmd β}
    (hc : Raises E c) (hf : ∀ a, Raises E (f a)) : Raises E (c >>= f) := by
  intro w e w' h
  rcases bind_error h with h | ⟨a, w1, _, h⟩
  · exact hc w e w' h
  · exact hf a w1 e w' h

theorem Raises.failIf {E : Err → Prop} {b : Bool} {e : Err} (h : b = true → E e) :
    Raises E (Machine.failIf b e) := by
  cases b
  · exact Raises.pure ()
  · exact Raises.throw (h rfl)

theorem Raises.onlyIf {E : Err → Prop} {b : Bool} {c : Cmd Unit} (hc : b = true → Raises E c) :
    Raises E (Machine.onlyIf b c) := by
  cases b
  · exact Raises.pure ()
  · exact hc rfl

theorem Raises.ofExcept {α : Type} {E : Err → Prop} {x : Except Err α}
    (h : ∀ e, x = .error e → E e) : Raises E (Machine.ofExcept x) := by
  cases x
  · exact Raises.throw (h _ rfl)
  · exact Raises.pure _

theorem Raises.forEach {E : Err → Prop} {ns : List Nat} {body : Nat → Cmd Unit}
    (hb : ∀ n ∈ ns, Raises E (body n)) : Raises E (Machine.forEach ns body) := by
  induction ns with
  | nil => exact Raises.pure ()
  | cons n ns ih =>
    exact Raises.bind (hb n (by simp)) fun _ => ih fun k hk => hb k (by simp [hk])

theorem Raises.ite {α : Type} {E : Err → Prop} {P : Prop} [Decidable P] {c d : Cmd α}
    (hc : P → Raises E c) (hd : ¬ P → Raises E d) : Raises E (if P then c else d) := by
  split
  · exact hc ‹_›
  · exact hd ‹_›

theorem Raises.mono {α : Type} {E F : Err → Prop} (h : ∀ e, E e → F e) {c : Cmd α} (hc : Raises E c) :
    Raises F c :=
  fun w e w' hw => h e (hc w e w' hw)

/-! ### What running a command to its end leaves -/

theorem runPlain_mem (s : State) (c : Cmd Unit) : (s.runPlain c).mem = (endWork (c s.work)).mem := by
  unfold State.runPlain
  cases c s.work <;> rfl

theorem runRes_mem (s : State) (c : Cmd Word) : (s.runRes c).mem = (endWork (c s.work)).mem := by
  unfold State.runRes
  cases c s.work <;> rfl

theorem runRchan_mem (s : State) (c : Cmd Word) : (s.runRchan c).mem = (endWork (c s.work)).mem := by
  unfold State.runRchan
  cases c s.work <;> rfl

theorem runPlain_binit (s : State) (c : Cmd Unit) :
    (s.runPlain c).status.binit = (endWork (c s.work)).binit := by
  unfold State.runPlain
  cases c s.work <;> rfl

theorem runRes_binit (s : State) (c : Cmd Word) :
    (s.runRes c).status.binit = (endWork (c s.work)).binit := by
  unfold State.runRes
  cases c s.work <;> rfl

theorem runRchan_binit (s : State) (c : Cmd Word) :
    (s.runRchan c).status.binit = (endWork (c s.work)).binit := by
  unfold State.runRchan
  cases c s.work <;> rfl

theorem runPlain_of_ok {s : State} {c : Cmd Unit} {w : Work} (h : c s.work = .ok () w) :
    s.runPlain c = s.endCommand w none := by
  simp [State.runPlain, h]

theorem runPlain_of_error {s : State} {c : Cmd Unit} {e : Err} {w : Work} (h : c s.work = .error e w) :
    s.runPlain c = s.endCommand w (some e) := by
  simp [State.runPlain, h]

theorem runRes_of_ok {s : State} {c : Cmd Word} {v : Word} {w : Work} (h : c s.work = .ok v w) :
    s.runRes c = { s.endCommand w none with res := v } := by
  simp [State.runRes, h]

theorem runRes_of_error {s : State} {c : Cmd Word} {e : Err} {w : Work} (h : c s.work = .error e w) :
    s.runRes c = { s.endCommand w (some e) with res := 0 } := by
  simp [State.runRes, h]

theorem runRchan_of_ok {s : State} {c : Cmd Word} {v : Word} {w : Work} (h : c s.work = .ok v w) :
    s.runRchan c = { s.endCommand w none with rchan := v } := by
  simp [State.runRchan, h]

theorem runRchan_of_error {s : State} {c : Cmd Word} {e : Err} {w : Work} (h : c s.work = .error e w) :
    s.runRchan c = { s.endCommand w (some e) with rchan := 0 } := by
  simp [State.runRchan, h]

end Sys2Proof.Machine
end

