-- ==== Sys2Proof/Laws/Memory.lean ====
section
/-! SUPPORT. What reading and writing memory do, said once; every write keeps the canonical form. -/

namespace Sys2Proof.Machine

@[simp] theorem Memory.read_nil (a : Nat) : Memory.read [] a = Memory.unlisted := rfl

theorem Memory.read_cons (c : Host.Cell) (m : Memory) (a : Nat) :
    Memory.read (c :: m) a = if c.1 = a then c.2 else Memory.read m a := rfl

theorem Memory.read_erase (m : Memory) (a b : Nat) :
    Memory.read (m.erase a) b = if b = a then Memory.unlisted else Memory.read m b := by
  induction m with
  | nil => simp [Memory.erase]
  | cons c m ih =>
    unfold Memory.erase at ih ⊢
    rw [List.filter_cons]
    by_cases h : c.1 = a
    · subst h
      simp only [ne_eq, not_true_eq_false, decide_false, Bool.false_eq_true, if_false]
      rw [ih, Memory.read_cons]
      by_cases hb : b = c.1
      · simp [hb]
      · simp [hb, Ne.symm hb]
    · simp only [ne_eq, h, not_false_eq_true, decide_true, if_true, Memory.read_cons, ih]
      by_cases hb : b = a
      · subst hb
        simp [h]
      · simp [hb]

theorem Memory.read_insert (m : Memory) (a : Nat) (v : Byte) (b : Nat) (h : Memory.read m a = Memory.unlisted)
    (hn : ∀ c ∈ m, c.1 ≠ a) :
    Memory.read (m.insert a v) b = if b = a then v else Memory.read m b := by
  induction m with
  | nil =>
    by_cases hb : b = a
    · simp [Memory.insert, Memory.read_cons, hb]
    · simp [Memory.insert, Memory.read_cons, hb, Ne.symm hb]
  | cons c m ih =>
    have hc : c.1 ≠ a := hn c (by simp)
    simp only [Memory.insert]
    split
    · by_cases hb : b = a
      · simp [Memory.read_cons, hb]
      · simp [Memory.read_cons, hb, Ne.symm hb]
    · rw [Memory.read_cons, Memory.read_cons, ih _ fun d hd => hn d (by simp [hd])]
      · by_cases hb : b = a
        · subst hb
          simp [hc]
        · simp [hb]
      · rwa [Memory.read_cons, if_neg hc] at h

theorem Memory.mem_erase {m : Memory} {a : Nat} {c : Host.Cell} :
    c ∈ m.erase a ↔ c ∈ m ∧ c.1 ≠ a := by
  simp [Memory.erase]

theorem Memory.mem_insert {m : Memory} {a : Nat} {v : Byte} {c : Host.Cell} :
    c ∈ m.insert a v ↔ c = (a, v) ∨ c ∈ m := by
  induction m with
  | nil => simp [Memory.insert]
  | cons d m ih =>
    simp only [Memory.insert]
    split
    · simp
    · simp only [List.mem_cons, ih]
      tauto

/-- A read after a write: the written byte at its address, every other byte as before. -/
theorem Memory.read_write (m : Memory) (a : Nat) (v : Byte) (b : Nat) :
    Memory.read (m.write a v) b = if b = a then v else Memory.read m b := by
  unfold Memory.write
  split
  · next h => rw [Memory.read_erase, h]
  · rw [Memory.read_insert]
    · by_cases hb : b = a <;> simp [hb, Memory.read_erase]
    · simp [Memory.read_erase]
    · exact fun c hc => (Memory.mem_erase.1 hc).2

@[simp] theorem Memory.read_write_same (m : Memory) (a : Nat) (v : Byte) :
    Memory.read (m.write a v) a = v := by
  simp [Memory.read_write]

theorem Memory.read_write_ne (m : Memory) {a b : Nat} (v : Byte) (h : b ≠ a) :
    Memory.read (m.write a v) b = Memory.read m b := by
  simp [Memory.read_write, h]

/-- Every cell of memory after a write is the written one or was there. -/
theorem Memory.mem_write {m : Memory} {a : Nat} {v : Byte} {c : Host.Cell} (h : c ∈ m.write a v) :
    c = (a, v) ∨ c ∈ m := by
  unfold Memory.write at h
  split at h
  · exact .inr (Memory.mem_erase.1 h).1
  · rcases Memory.mem_insert.1 h with h | h
    · exact .inl h
    · exact .inr (Memory.mem_erase.1 h).1

theorem Memory.insert_rising {m : Memory} {a : Nat} {v : Byte}
    (h : m.Pairwise fun c d => c.1 < d.1) (hn : ∀ c ∈ m, c.1 ≠ a) :
    (m.insert a v).Pairwise fun c d => c.1 < d.1 := by
  induction m with
  | nil => simp [Memory.insert]
  | cons c m ih =>
    obtain ⟨h1, h2⟩ := List.pairwise_cons.1 h
    simp only [Memory.insert]
    split
    · next hac =>
      refine List.pairwise_cons.2 ⟨fun d hd => ?_, h⟩
      rcases List.mem_cons.1 hd with rfl | hd
      · exact hac
      · exact Nat.lt_trans hac (h1 d hd)
    · next hac =>
      have hc := hn c (by simp)
      refine List.pairwise_cons.2 ⟨fun d hd => ?_, ih h2 fun d hd => hn d (by simp [hd])⟩
      rcases Memory.mem_insert.1 hd with rfl | hd
      · show c.1 < a
        omega
      · exact h1 d hd

/-- A write keeps the canonical form. -/
theorem Memory.wf_write {m : Memory} (h : Memory.wf m) (a : Nat) (v : Byte) : Memory.wf (m.write a v) := by
  have he : (m.erase a).Pairwise fun c d => c.1 < d.1 := h.1.filter _
  unfold Memory.write
  split
  · exact ⟨he, fun c hc => h.2 c (Memory.mem_erase.1 hc).1⟩
  · next hv =>
    refine ⟨Memory.insert_rising he fun c hc => (Memory.mem_erase.1 hc).2, fun c hc => ?_⟩
    rcases Memory.mem_insert.1 hc with rfl | hc
    · exact hv
    · exact h.2 c (Memory.mem_erase.1 hc).1

theorem Memory.read_of_lt {m : Memory} {a : Nat} (h : ∀ c ∈ m, a < c.1) :
    Memory.read m a = Memory.unlisted := by
  induction m with
  | nil => rfl
  | cons c m ih =>
    have := h c (by simp)
    rw [Memory.read_cons, if_neg (by omega), ih fun d hd => h d (by simp [hd])]

/-- Canonical memories that read alike everywhere are equal. -/
theorem Memory.ext_of_wf {m n : Memory} (hm : Memory.wf m) (hn : Memory.wf n)
    (h : ∀ a, Memory.read m a = Memory.read n a) : m = n := by
  induction m generalizing n with
  | nil =>
    cases n with
    | nil => rfl
    | cons d n =>
      have := h d.1
      rw [Memory.read_cons, if_pos rfl] at this
      exact absurd this.symm (hn.2 d (by simp))
  | cons c m ih =>
    obtain ⟨hc1, hc2⟩ := List.pairwise_cons.1 hm.1
    have hcv := hm.2 c (by simp)
    cases n with
    | nil =>
      have := h c.1
      rw [Memory.read_cons, if_pos rfl] at this
      exact absurd this hcv
    | cons d n =>
      obtain ⟨hd1, hd2⟩ := List.pairwise_cons.1 hn.1
      have hdv := hn.2 d (by simp)
      have hkey : c.1 = d.1 := by
        rcases Nat.lt_trichotomy c.1 d.1 with hlt | heq | hgt
        · have := h c.1
          rw [Memory.read_cons, if_pos rfl, Memory.read_of_lt] at this
          · exact absurd this hcv
          · intro e he
            rcases List.mem_cons.1 he with rfl | he
            · exact hlt
            · exact Nat.lt_trans hlt (hd1 e he)
        · exact heq
        · have := h d.1
          rw [Memory.read_of_lt, Memory.read_cons, if_pos rfl] at this
          · exact absurd this.symm hdv
          · intro e he
            rcases List.mem_cons.1 he with rfl | he
            · exact hgt
            · exact Nat.lt_trans hgt (hc1 e he)
      have hval : c.2 = d.2 := by
        have := h c.1
        rwa [Memory.read_cons, if_pos rfl, Memory.read_cons, if_pos hkey.symm] at this
      have hrest : m = n := by
        refine ih ⟨hc2, fun e he => hm.2 e (by simp [he])⟩ ⟨hd2, fun e he => hn.2 e (by simp [he])⟩ fun a => ?_
        have := h a
        rw [Memory.read_cons, Memory.read_cons, hkey, hval] at this
        by_cases ha : d.1 = a
        · subst ha
          rw [Memory.read_of_lt hd1, Memory.read_of_lt]
          intro e he
          exact hkey ▸ hc1 e he
        · rwa [if_neg ha, if_neg ha] at this
      rw [hrest, Prod.ext hkey hval]

end Sys2Proof.Machine
end

