-- ==== Sys2Proof/Laws/Port.lean ====
section
/-! SUPPORT. The memory port: what reading and writing through it do on a platform that rejects no address,
and what they can do on any. -/

namespace Sys2Proof.Machine

/-! ### Addresses -/

theorem portAddr_lt (p : Params) (a : Nat) : portAddr p a < 2 ^ p.addrW :=
  Nat.mod_lt _ (Nat.two_pow_pos _)

/-- Bytes less than the address space apart do not meet at the port. -/
theorem portAddr_inj (p : Params) {a i j : Nat} (hi : i < 2 ^ p.addrW) (hj : j < 2 ^ p.addrW)
    (h : portAddr p (a + i) = portAddr p (a + j)) : i = j := by
  unfold portAddr at h
  generalize 2 ^ p.addrW = N at *
  have h' : (a + i) ≡ (a + j) [MOD N] := h
  have := Nat.ModEq.add_left_cancel' a h'
  have h2 : i % N = j % N := this
  rwa [Nat.mod_eq_of_lt hi, Nat.mod_eq_of_lt hj] at h2

/-- Addresses inside the address space go through the port unchanged. -/
theorem portAddr_of_lt (p : Params) {a : Nat} (h : a < 2 ^ p.addrW) : portAddr p a = a :=
  Nat.mod_eq_of_lt h

theorem rejected_nil {p : Params} (h : p.rejects = []) (a : Nat) : rejected p a = false := by
  simp [rejected, h]

/-! ### Without rejected addresses -/

theorem readByte_runs {p : Params} (h : p.rejects = []) (a : Nat) (w : Work) :
    readByte p a w = .ok (Memory.read w.mem (portAddr p a)) w := by
  simp [readByte, rejected_nil h]

theorem writeByte_runs {p : Params} (h : p.rejects = []) (a : Nat) (b : Byte) (w : Work) :
    writeByte p a b w = .ok () ⟨w.mem.write (portAddr p a) b, w.binit, w.draws⟩ := by
  simp [writeByte, rejected_nil h]

theorem bytesAt_succ (p : Params) (m : Memory) (a n : Nat) :
    bytesAt p m a (n + 1) = Memory.read m (portAddr p a) :: bytesAt p m (a + 1) n := by
  simp only [bytesAt, List.range_succ_eq_map, List.map_cons, List.map_map, Nat.add_zero]
  congr 1
  refine List.map_congr_left fun k _ => ?_
  simp only [Function.comp]
  congr 2
  omega

@[simp] theorem bytesAt_length (p : Params) (m : Memory) (a n : Nat) : (bytesAt p m a n).length = n := by
  simp [bytesAt]

theorem bytesAt_getElem (p : Params) (m : Memory) (a n k : Nat) (h : k < (bytesAt p m a n).length) :
    (bytesAt p m a n)[k] = Memory.read m (portAddr p (a + k)) := by
  simp [bytesAt]

theorem byteAt_bytesAt (p : Params) (m : Memory) (a n k : Nat) (h : k < n) :
    byteAt (bytesAt p m a n) k = Memory.read m (portAddr p (a + k)) := by
  simp [byteAt, bytesAt, List.getD_eq_getElem?_getD, h]

/-- `MemRead` delivers the bytes memory holds and changes nothing. -/
theorem memRead_runs {p : Params} (h : p.rejects = []) (a n : Nat) (w : Work) :
    memRead p a n w = .ok (bytesAt p w.mem a n) w := by
  induction n generalizing a with
  | zero => rfl
  | succ n ih =>
    rw [memRead, bind_runs_ok (readByte_runs h a w), bind_runs_ok (ih (a + 1)), bytesAt_succ]
    rfl

/-- Memory after `MemWrite`. -/
def writeBytes (p : Params) (m : Memory) (a : Nat) (bs : List Byte) : Memory :=
  match bs with
  | [] => m
  | b :: rest => writeBytes p (m.write (portAddr p a) b) (a + 1) rest

theorem memWrite_runs {p : Params} (h : p.rejects = []) (a : Nat) (bs : List Byte) (w : Work) :
    memWrite p a bs w = .ok () ⟨writeBytes p w.mem a bs, w.binit, w.draws⟩ := by
  induction bs generalizing a w with
  | nil => rfl
  | cons b bs ih => rw [memWrite, bind_runs_ok (writeByte_runs h a b w), ih]; rfl

/-- `MemWrite` leaves every byte outside the written ones. -/
theorem read_writeBytes_outside (p : Params) (m : Memory) (a : Nat) (bs : List Byte) (x : Nat)
    (h : ¬ span p a bs.length x) : Memory.read (writeBytes p m a bs) x = Memory.read m x := by
  induction bs generalizing a m with
  | nil => rfl
  | cons b bs ih =>
    rw [writeBytes, ih]
    · refine Memory.read_write_ne _ _ fun hx => h ⟨0, by simp, by simpa using hx⟩
    · rintro ⟨k, hk, rfl⟩
      exact h ⟨k + 1, by simpa using hk, by congr 1; omega⟩

/-- `MemWrite` leaves the written bytes, where they do not run into one another around the address space. -/
theorem read_writeBytes_inside (p : Params) (m : Memory) (a : Nat) (bs : List Byte)
    (hn : bs.length ≤ 2 ^ p.addrW) {k : Nat} (hk : k < bs.length) :
    Memory.read (writeBytes p m a bs) (portAddr p (a + k)) = bs[k] := by
  induction bs generalizing a m k with
  | nil => simp at hk
  | cons b bs ih =>
    rw [writeBytes]
    cases k with
    | zero =>
      rw [read_writeBytes_outside]
      · simp
      · rintro ⟨j, hj, hx⟩
        have h1 : portAddr p (a + 0) = portAddr p (a + (j + 1)) := by
          rw [hx]; congr 1; omega
        simp only [List.length_cons] at hn
        have := portAddr_inj p (by omega) (by omega) h1
        omega
    | succ k =>
      simp only [List.length_cons] at hn hk
      rw [show a + (k + 1) = a + 1 + k by omega, ih _ _ (by omega) (by omega)]
      rfl

/-! ### On any platform -/

/-- Nothing outside `S` changes. -/
def KeepsOutside (S : Nat → Prop) (w w' : Work) : Prop :=
  ∀ a, ¬ S a → Memory.read w'.mem a = Memory.read w.mem a

theorem keepsOutside_step (S : Nat → Prop) : Step (KeepsOutside S) where
  refl _ _ _ := rfl
  trans h1 h2 a ha := (h2 a ha).trans (h1 a ha)

theorem KeepsOutside.mono {S T : Nat → Prop} (h : ∀ a, S a → T a) {u v : Work} (hS : KeepsOutside S u v) :
    KeepsOutside T u v :=
  fun a ha => hS a fun hs => ha (h a hs)

/-- Memory is not touched, the backend handle and the oracle's count stay. -/
def Same (w w' : Work) : Prop :=
  w' = w

theorem same_step : Step Same where
  refl _ := rfl
  trans h1 h2 := by
    unfold Same at *
    rw [h2, h1]

/-- What every command's working state keeps: the canonical form of memory, memory inside the address space,
the backend handle's bit once set, and the oracle's count never going back. -/
def KeepsForm (p : Params) (w w' : Work) : Prop :=
  (Memory.wf w.mem → Memory.wf w'.mem) ∧
  ((∀ c ∈ w.mem, c.1 < 2 ^ p.addrW) → ∀ c ∈ w'.mem, c.1 < 2 ^ p.addrW) ∧
  (w.binit = true → w'.binit = true) ∧ w.draws ≤ w'.draws

theorem keepsForm_step (p : Params) : Step (KeepsForm p) where
  refl _ := ⟨id, id, id, Nat.le_refl _⟩
  trans h1 h2 :=
    ⟨fun h => h2.1 (h1.1 h), fun h => h2.2.1 (h1.2.1 h), fun h => h2.2.2.1 (h1.2.2.1 h),
      Nat.le_trans h1.2.2.2 h2.2.2.2⟩

theorem moves_of_same {α : Type} {R : Work → Work → Prop} (h : Step R) {c : Cmd α} (hc : Moves Same c) :
    Moves R c := by
  intro w
  rw [show endWork (c w) = w from hc w]
  exact h.refl w

theorem readByte_same (p : Params) (a : Nat) : Moves Same (readByte p a) := by
  intro w
  unfold readByte
  split <;> rfl

theorem memRead_same (p : Params) (a n : Nat) : Moves Same (memRead p a n) := by
  induction n generalizing a with
  | zero => exact Moves.pure same_step _
  | succ n ih =>
    exact Moves.bind same_step (readByte_same p a) fun _ =>
      Moves.bind same_step (ih (a + 1)) fun _ => Moves.pure same_step _

theorem writeByte_keeps (p : Params) (a : Nat) (b : Byte) :
    Moves (KeepsOutside (fun x => x = portAddr p a)) (writeByte p a b) := by
  intro w x hx
  unfold writeByte
  split
  · rfl
  · exact Memory.read_write_ne _ _ hx

theorem writeByte_form (p : Params) (a : Nat) (b : Byte) : Moves (KeepsForm p) (writeByte p a b) := by
  intro w
  unfold writeByte
  split
  · exact (keepsForm_step p).refl w
  · refine ⟨fun h => Memory.wf_write h _ _, fun h c hc => ?_, id, Nat.le_refl _⟩
    rcases Memory.mem_write hc with rfl | hc
    · exact portAddr_lt p a
    · exact h c hc

/-- `MemWrite` touches only the bytes it is given, even where the platform stops it. -/
theorem memWrite_keeps (p : Params) (a : Nat) (bs : List Byte) :
    Moves (KeepsOutside (span p a bs.length)) (memWrite p a bs) := by
  induction bs generalizing a with
  | nil => exact Moves.pure (keepsOutside_step _) _
  | cons b bs ih =>
    refine Moves.bind (keepsOutside_step _) ?_ fun _ => ?_
    · refine Moves.mono (fun u v h => h.mono ?_) (writeByte_keeps p a b)
      rintro x rfl
      exact ⟨0, by simp, by simp⟩
    · refine Moves.mono (fun u v h => h.mono ?_) (ih (a + 1))
      rintro x ⟨k, hk, rfl⟩
      exact ⟨k + 1, by simpa using hk, by congr 1; omega⟩

theorem memWrite_form (p : Params) (a : Nat) (bs : List Byte) : Moves (KeepsForm p) (memWrite p a bs) := by
  induction bs generalizing a with
  | nil => exact Moves.pure (keepsForm_step p) _
  | cons b bs ih => exact Moves.bind (keepsForm_step p) (writeByte_form p a b) fun _ => ih (a + 1)

theorem readByte_raises (p : Params) (a : Nat) : Raises (· = .bus) (readByte p a) := by
  intro w e w' h
  unfold readByte at h
  split at h <;> cases h
  rfl

theorem writeByte_raises (p : Params) (a : Nat) (b : Byte) : Raises (· = .bus) (writeByte p a b) := by
  intro w e w' h
  unfold writeByte at h
  split at h <;> cases h
  rfl

/-- Reading raises nothing but BUS. -/
theorem memRead_raises (p : Params) (a n : Nat) : Raises (· = .bus) (memRead p a n) := by
  induction n generalizing a with
  | zero => exact Raises.pure _
  | succ n ih =>
    exact Raises.bind (readByte_raises p a) fun _ => Raises.bind (ih (a + 1)) fun _ => Raises.pure _

/-- Writing raises nothing but BUS. -/
theorem memWrite_raises (p : Params) (a : Nat) (bs : List Byte) : Raises (· = .bus) (memWrite p a bs) := by
  induction bs generalizing a with
  | nil => exact Raises.pure _
  | cons b bs ih => exact Raises.bind (writeByte_raises p a b) fun _ => ih (a + 1)

theorem readBit_same (p : Params) (base stride row x : Nat) : Moves Same (readBit p base stride row x) :=
  Moves.bind same_step (readByte_same p _) fun _ => Moves.pure same_step _

theorem readBit_raises (p : Params) (base stride row x : Nat) :
    Raises (· = .bus) (readBit p base stride row x) :=
  Raises.bind (readByte_raises p _) fun _ => Raises.pure _

theorem readBit_runs {p : Params} (h : p.rejects = []) (base stride row x : Nat) (w : Work) :
    readBit p base stride row x w = .ok (bitIn p w.mem base stride row x) w := by
  rw [readBit, bind_runs_ok (readByte_runs h _ w)]
  rfl

end Sys2Proof.Machine
end

