-- ==== Sys2Proof/Laws/Loops.lean ====
section
/-! SUPPORT. Loops that store to places which do not meet: every place ends with what its turn stored, every
other byte stays. -/

namespace Sys2Proof.Machine

/-- A loop over a list of any kind. -/
def forList {ι : Type} (l : List ι) (body : ι → Cmd Unit) : Cmd Unit :=
  match l with
  | [] => pure ()
  | i :: rest => do
    body i
    forList rest body

theorem forEach_eq_forList (ns : List Nat) (body : Nat → Cmd Unit) : forEach ns body = forList ns body := by
  induction ns with
  | nil => rfl
  | cons n ns ih => rw [forEach_cons, forList, ih]

theorem forList_append {ι : Type} (k l : List ι) (body : ι → Cmd Unit) :
    forList (k ++ l) body = (do forList k body; forList l body) := by
  induction k with
  | nil => rfl
  | cons i k ih =>
    show (do body i; forList (k ++ l) body) = (do (do body i; forList k body); forList l body)
    rw [ih, bind_assoc]

theorem forList_map {ι κ : Type} (g : κ → ι) (l : List κ) (body : ι → Cmd Unit) :
    forList (l.map g) body = forList l fun i => body (g i) := by
  induction l with
  | nil => rfl
  | cons i l ih => simp only [List.map_cons, forList, ih]

/-- The pixels of nested loops, in their order: rows outside, columns inside. -/
def pixelOrder (xs ys : List Nat) : List (Nat × Nat) :=
  ys.flatMap fun y => xs.map fun x => (x, y)

/-- Nested loops are one loop over the pixels in order. -/
theorem nested_eq (xs ys : List Nat) (body : Nat → Nat → Cmd Unit) :
    (forEach ys fun y => forEach xs fun x => body x y) =
      forList (pixelOrder xs ys) fun q => body q.1 q.2 := by
  rw [forEach_eq_forList]
  induction ys with
  | nil => rfl
  | cons y ys ih =>
    rw [pixelOrder, List.flatMap_cons, forList_append, forList_map, forList, forEach_eq_forList]
    rw [ih]
    rfl

theorem mem_pixelOrder {xs ys : List Nat} {q : Nat × Nat} :
    q ∈ pixelOrder xs ys ↔ q.1 ∈ xs ∧ q.2 ∈ ys := by
  simp only [pixelOrder, List.mem_flatMap, List.mem_map]
  constructor
  · rintro ⟨y, hy, x, hx, rfl⟩
    exact ⟨hx, hy⟩
  · rintro ⟨hx, hy⟩
    exact ⟨q.2, hy, q.1, hx, rfl⟩

theorem pixelOrder_nodup {xs ys : List Nat} (hx : xs.Nodup) (hy : ys.Nodup) : (pixelOrder xs ys).Nodup := by
  induction ys with
  | nil => simp [pixelOrder]
  | cons y ys ih =>
    obtain ⟨h1, h2⟩ := List.nodup_cons.1 hy
    rw [pixelOrder, List.flatMap_cons]
    refine List.Nodup.append (hx.map fun a b h => (Prod.mk.inj h).1) (ih h2) ?_
    intro q hq hq'
    obtain ⟨x, _, rfl⟩ := List.mem_map.1 hq
    exact h1 (mem_pixelOrder.1 hq').2

/-- A loop whose turns store to places that do not meet. Turn `i` stores `out i` from address `A i` on,
provided memory outside the places of the turns before is as it was at the start; then the loop succeeds, each
place holds what its turn stored, and every other byte is as it was. -/
theorem forList_stores {ι : Type} {p : Params} {A : ι → Nat} {out : ι → List Byte} {l : List ι}
    {body : ι → Cmd Unit} {w₀ : Work}
    (hn : l.Nodup) (hlen : ∀ i ∈ l, (out i).length ≤ 2 ^ p.addrW)
    (hapart : ∀ i ∈ l, ∀ j ∈ l, i ≠ j → ∀ a, span p (A i) (out i).length a → ¬ span p (A j) (out j).length a)
    (hbody : ∀ done i rest, l = done ++ i :: rest → ∀ m,
      (∀ a, (∀ j ∈ done, ¬ span p (A j) (out j).length a) → Memory.read m a = Memory.read w₀.mem a) →
      body i ⟨m, w₀.binit, w₀.draws⟩ = .ok () ⟨writeBytes p m (A i) (out i), w₀.binit, w₀.draws⟩) :
    ∃ m, forList l body w₀ = .ok () ⟨m, w₀.binit, w₀.draws⟩ ∧
      (∀ i ∈ l, ∀ k, (h : k < (out i).length) → Memory.read m (portAddr p (A i + k)) = (out i)[k]) ∧
      ∀ a, (∀ i ∈ l, ¬ span p (A i) (out i).length a) → Memory.read m a = Memory.read w₀.mem a := by
  suffices H : ∀ rest done, l = done ++ rest → ∀ m,
      (∀ i ∈ done, ∀ k, (h : k < (out i).length) → Memory.read m (portAddr p (A i + k)) = (out i)[k]) →
      (∀ a, (∀ i ∈ done, ¬ span p (A i) (out i).length a) → Memory.read m a = Memory.read w₀.mem a) →
      ∃ m', forList rest body ⟨m, w₀.binit, w₀.draws⟩ = .ok () ⟨m', w₀.binit, w₀.draws⟩ ∧
        (∀ i ∈ l, ∀ k, (h : k < (out i).length) → Memory.read m' (portAddr p (A i + k)) = (out i)[k]) ∧
        ∀ a, (∀ i ∈ l, ¬ span p (A i) (out i).length a) → Memory.read m' a = Memory.read w₀.mem a from
    H l [] rfl w₀.mem (by simp) (by simp)
  intro rest
  induction rest with
  | nil =>
    intro done hd m h1 h2
    have hd' : l = done := by simpa using hd
    subst hd'
    exact ⟨m, rfl, h1, h2⟩
  | cons i rest ih =>
    intro done hd m h1 h2
    have hrun := hbody done i rest hd m h2
    have hi : i ∈ l := by simp [hd]
    have hdone : ∀ j ∈ done, j ∈ l ∧ j ≠ i := by
      intro j hj
      refine ⟨by simp [hd, hj], ?_⟩
      rintro rfl
      rw [hd] at hn
      exact (List.nodup_append.1 hn).2.2 j hj j (by simp) rfl
    obtain ⟨m', hr, h3, h4⟩ := ih (done ++ [i]) (by simp [hd]) (writeBytes p m (A i) (out i))
      (by
        intro j hj k hk
        rcases List.mem_append.1 hj with hj | hj
        · rw [read_writeBytes_outside]
          · exact h1 j hj k hk
          · exact hapart j (hdone j hj).1 i hi (hdone j hj).2 _ ⟨k, hk, rfl⟩
        · obtain rfl : j = i := by simpa using hj
          exact read_writeBytes_inside p m (A j) (out j) (hlen j hi) hk)
      (by
        intro a ha
        rw [read_writeBytes_outside]
        · exact h2 a fun j hj => ha j (by simp [hj])
        · exact ha i (by simp))
    refine ⟨m', ?_, h3, h4⟩
    rw [forList, bind_runs_ok hrun, hr]

/-- A relation that every turn keeps is kept by the loop. -/
theorem forList_moves {ι : Type} {R : Work → Work → Prop} (h : Step R) {l : List ι} {body : ι → Cmd Unit}
    (hb : ∀ i ∈ l, Moves R (body i)) : Moves R (forList l body) := by
  induction l with
  | nil => exact Moves.pure h ()
  | cons i l ih => exact Moves.bind h (hb i (by simp)) fun _ => ih fun k hk => hb k (by simp [hk])

end Sys2Proof.Machine
end

