-- ==== Sys2Proof/Laws/Formats.lean ====
section
/-! SUPPORT. The format table: identifiers, sizes, and which formats pack and split. -/

namespace Sys2Proof

theorem Fmt.mem_all (f : Fmt) : f ∈ Fmt.all := by
  cases f <;> decide

/-- An identifier decodes to its format (30_encoding R101). -/
@[simp] theorem decodeFmt_ident (f : Fmt) : decodeFmt f.ident = some f := by
  cases f <;> decide

/-- Only an identifier decodes to a format (30_encoding R101: exact match). -/
theorem ident_of_decodeFmt {w : Word} {f : Fmt} (h : decodeFmt w = some f) : w = f.ident := by
  have := List.find?_some h
  exact (beq_iff_eq.1 this).symm

theorem Fmt.bytes_pos (f : Fmt) : 0 < f.bytes := by
  cases f <;> decide

theorem Fmt.bytes_le (f : Fmt) : f.bytes ≤ 4 := by
  cases f <;> decide

/-- Every packable format is writable (40_format_metadata R127). -/
theorem Fmt.writable_of_packable {f : Fmt} (h : f.packable = true) : f.writable = true := by
  cases f <;> first | rfl | cases h

/-- A format equal to another ignoring alpha has pixels of the same size (40_format_metadata R126). -/
theorem bytes_of_eqna {a b : Fmt} (h : eqna a b = true) : a.bytes = b.bytes := by
  revert h
  cases a <;> cases b <;> decide

theorem Fmt.two_le_bytes_of_packable {f : Fmt} (h : f.packable = true) : 2 ≤ f.bytes := by
  revert h
  cases f <;> decide

end Sys2Proof

namespace Sys2Proof.Machine

/-- `store_px` writes as many bytes as a pixel has, for every writable format (20_memory R67). -/
theorem pxBytes_length {f : Fmt} (h : f.writable = true) (v : Word) : (pxBytes f v).length = f.bytes := by
  cases f <;> simp_all [pxBytes, Fmt.bpp, Fmt.bytes, ceilDiv, Fmt.writable]

theorem pxBytes_length_le (f : Fmt) (v : Word) : (pxBytes f v).length ≤ f.bytes := by
  cases f <;> simp [pxBytes, Fmt.bpp, Fmt.bytes, ceilDiv]

/-- `pack` succeeds exactly for the packable formats (41_color_codec R158). -/
theorem pack_ok {p : Params} {f : Fmt} (h : f.packable = true) (c : Channels) : ∃ v, pack p f c = .ok v := by
  cases f <;> first | exact ⟨_, rfl⟩ | cases h

theorem pack_error {p : Params} {f : Fmt} {c : Channels} {e : Err} (h : pack p f c = .error e) :
    e = .unsupported ∧ f.packable = false := by
  cases f <;> first | cases h; exact ⟨rfl, rfl⟩ | cases h

/-- Splitting without a palette succeeds for every unpackable format but RGB8 (41_color_codec R161, R163). -/
theorem splitBare_ok {p : Params} {f : Fmt} (h : f.unpackable = true) (h8 : f ≠ .rgb8) (v : Word) :
    ∃ c, splitBare p f v = .ok c := by
  cases f <;> first | exact ⟨_, rfl⟩ | exact absurd rfl h8 | cases h

theorem splitBare_error {p : Params} {f : Fmt} {v : Word} {e : Err} (h : splitBare p f v = .error e) :
    (e = .missingContext ∧ f = .rgb8) ∨ (e = .unsupported ∧ f.unpackable = false) := by
  cases f <;> first | (cases h; exact .inl ⟨rfl, rfl⟩) | (cases h; exact .inr ⟨rfl, rfl⟩) | cases h

end Sys2Proof.Machine
end

