-- ==== Sys2Proof/Laws/Pixels.lean ====
section
/-! SUPPORT. Loading and storing a pixel, splitting, converting, and the palette: each said once, as a value
on a platform that rejects nothing and as a frame on any. -/

namespace Sys2Proof.Machine

/-! ### Loading -/

theorem loadPx_runs {p : Params} (h : p.rejects = []) (a : Nat) (f : Fmt) (w : Work) :
    loadPx p a f w = .ok (pixelAt p w.mem a f) w := by
  rw [loadPx, bind_runs_ok (memRead_runs h a _ w)]
  rfl

theorem loadPx_same (p : Params) (a : Nat) (f : Fmt) : Moves Same (loadPx p a f) :=
  Moves.bind same_step (memRead_same p a _) fun _ => Moves.pure same_step _

theorem loadPx_raises (p : Params) (a : Nat) (f : Fmt) : Raises (· = .bus) (loadPx p a f) :=
  Raises.bind (memRead_raises p a _) fun _ => Raises.pure _

theorem readWordLe_runs {p : Params} (h : p.rejects = []) (a : Nat) (w : Work) :
    readWordLe p a w = .ok (wordLeAt p w.mem a) w := by
  rw [readWordLe, bind_runs_ok (memRead_runs h a 4 w)]
  simp only [byteAt_bytesAt p w.mem a 4 _ (by omega : 3 < 4), byteAt_bytesAt p w.mem a 4 _ (by omega : 2 < 4),
    byteAt_bytesAt p w.mem a 4 _ (by omega : 1 < 4), byteAt_bytesAt p w.mem a 4 _ (by omega : 0 < 4)]
  rfl

theorem readWordLe_same (p : Params) (a : Nat) : Moves Same (readWordLe p a) :=
  Moves.bind same_step (memRead_same p a _) fun _ => Moves.pure same_step _

theorem readWordLe_raises (p : Params) (a : Nat) : Raises (· = .bus) (readWordLe p a) :=
  Raises.bind (memRead_raises p a _) fun _ => Raises.pure _

/-! ### The bytes of the alpha-ignoring store's word -/

theorem place_alpha_first_3 (o : Byte) (v : Word) :
    (place o 24 ||| place (v.extractLsb' 0 24) 0).extractLsb' 24 8 = o := by
  ext i hi
  interval_cases i <;> simp [place]

theorem place_alpha_first_2 (o : Byte) (v : Word) :
    (place o 24 ||| place (v.extractLsb' 0 24) 0).extractLsb' 16 8 = v.extractLsb' 16 8 := by
  ext i hi
  interval_cases i <;> simp [place]

theorem place_alpha_first_1 (o : Byte) (v : Word) :
    (place o 24 ||| place (v.extractLsb' 0 24) 0).extractLsb' 8 8 = v.extractLsb' 8 8 := by
  ext i hi
  interval_cases i <;> simp [place]

theorem place_alpha_first_0 (o : Byte) (v : Word) :
    (place o 24 ||| place (v.extractLsb' 0 24) 0).extractLsb' 0 8 = v.extractLsb' 0 8 := by
  ext i hi
  interval_cases i <;> simp [place]

theorem place_alpha_last_3 (o : Byte) (v : Word) :
    (place (v.extractLsb' 8 24) 8 ||| place o 0).extractLsb' 24 8 = v.extractLsb' 24 8 := by
  ext i hi
  interval_cases i <;> simp [place]

theorem place_alpha_last_2 (o : Byte) (v : Word) :
    (place (v.extractLsb' 8 24) 8 ||| place o 0).extractLsb' 16 8 = v.extractLsb' 16 8 := by
  ext i hi
  interval_cases i <;> simp [place]

theorem place_alpha_last_1 (o : Byte) (v : Word) :
    (place (v.extractLsb' 8 24) 8 ||| place o 0).extractLsb' 8 8 = v.extractLsb' 8 8 := by
  ext i hi
  interval_cases i <;> simp [place]

theorem place_alpha_last_0 (o : Byte) (v : Word) :
    (place (v.extractLsb' 8 24) 8 ||| place o 0).extractLsb' 0 8 = o := by
  ext i hi
  interval_cases i <;> simp [place]

/-! ### Storing -/

theorem storePx_runs {p : Params} (h : p.rejects = []) (a : Nat) (f : Fmt) (v : Word) (w : Work) :
    storePx p a f v w = .ok () ⟨writeBytes p w.mem a (pxBytes f v), w.binit, w.draws⟩ :=
  memWrite_runs h a _ w

theorem storePx_keeps (p : Params) (a : Nat) (f : Fmt) (v : Word) :
    Moves (KeepsOutside (span p a f.bytes)) (storePx p a f v) :=
  Moves.mono (fun _ _ h => h.mono fun _ ⟨k, hk, hx⟩ => ⟨k, Nat.lt_of_lt_of_le hk (pxBytes_length_le f v), hx⟩)
    (memWrite_keeps p a _)

theorem storePx_form (p : Params) (a : Nat) (f : Fmt) (v : Word) : Moves (KeepsForm p) (storePx p a f v) :=
  memWrite_form p a _

theorem storePx_raises (p : Params) (a : Nat) (f : Fmt) (v : Word) : Raises (· = .bus) (storePx p a f v) :=
  memWrite_raises p a _

/-- A relation that storing a pixel keeps is kept by the alpha-ignoring store, which only reads before it. -/
theorem storePxIa_moves {p : Params} {a : Nat} {f : Fmt} {R : Work → Work → Prop} (hR : Step R)
    (h : ∀ v, Moves R (storePx p a f v)) (v : Word) : Moves R (storePxIa p a f v) := by
  unfold storePxIa
  refine Moves.ite (fun _ => ?_) fun _ => Moves.ite (fun _ => ?_) fun _ => h v
  · exact Moves.bind hR (moves_of_same hR (readByte_same p _)) fun _ => h _
  · exact Moves.bind hR (moves_of_same hR (readByte_same p _)) fun _ => h _

theorem storePxIa_keeps (p : Params) (a : Nat) (f : Fmt) (v : Word) :
    Moves (KeepsOutside (span p a f.bytes)) (storePxIa p a f v) :=
  storePxIa_moves (keepsOutside_step _) (storePx_keeps p a f) v

theorem storePxIa_form (p : Params) (a : Nat) (f : Fmt) (v : Word) : Moves (KeepsForm p) (storePxIa p a f v) :=
  storePxIa_moves (keepsForm_step p) (storePx_form p a f) v

theorem storePxIa_raises (p : Params) (a : Nat) (f : Fmt) (v : Word) :
    Raises (· = .bus) (storePxIa p a f v) := by
  unfold storePxIa
  refine Raises.ite (fun _ => ?_) fun _ => Raises.ite (fun _ => ?_) fun _ => storePx_raises p a f v
  · exact Raises.bind (readByte_raises p _) fun _ => storePx_raises p a f _
  · exact Raises.bind (readByte_raises p _) fun _ => storePx_raises p a f _

/-- The alpha-ignoring store writes the merged bytes (41_color_codec R175). -/
theorem storePxIa_runs {p : Params} (h : p.rejects = []) (a : Nat) (f : Fmt) (v : Word) (w : Work) :
    storePxIa p a f v w =
      .ok () ⟨writeBytes p w.mem a (mergedBytes f (bytesAt p w.mem a f.bytes) (pxBytes f v)), w.binit, w.draws⟩ := by
  unfold storePxIa
  by_cases h1 : f.alphaFirst = true
  · have hb : f.bpp = 32 := by
      revert h1
      cases f <;> decide
    have hn : f.bytes = 4 := by rw [Fmt.bytes, hb]; rfl
    rw [if_pos h1, bind_runs_ok (readByte_runs h a w), storePx_runs h, mergedBytes, if_pos h1, hn]
    simp only [pxBytes, hb, bytesAt_succ, place_alpha_first_3, place_alpha_first_2, place_alpha_first_1,
      place_alpha_first_0, List.take_succ_cons, List.take_zero, List.drop_succ_cons, List.drop_zero,
      List.cons_append, List.nil_append]
  · rw [if_neg h1, mergedBytes, if_neg h1]
    by_cases h2 : f.alphaLast = true
    · have hb : f.bpp = 32 := by
        revert h2
        cases f <;> decide
      have hn : f.bytes = 4 := by rw [Fmt.bytes, hb]; rfl
      rw [if_pos h2, bind_runs_ok (readByte_runs h (a + 3) w), storePx_runs h, if_pos h2, hn]
      simp only [pxBytes, hb, bytesAt_succ, place_alpha_last_3, place_alpha_last_2, place_alpha_last_1,
        place_alpha_last_0, List.take_succ_cons, List.take_zero, List.drop_succ_cons, List.drop_zero,
        List.cons_append, List.nil_append, Nat.add_assoc, Nat.reduceAdd]
      rfl
    · rw [if_neg h2, if_neg h2]
      exact storePx_runs h a f v w

/-! ### Splitting and converting -/

theorem paletteFmt_runs {p : Params} (h : p.rejects = []) (pal : Palette) (w : Work) :
    paletteFmt p pal w = .ok (paletteIn p w.mem pal 0).1 w := by
  cases pal with
  | absent => rfl
  | built es => rfl
  | inMemory a =>
    rw [paletteFmt, bind_runs_ok (readWordLe_runs h a w)]
    rfl

theorem paletteFmt_same (p : Params) (pal : Palette) : Moves Same (paletteFmt p pal) := by
  cases pal with
  | absent => exact Moves.pure same_step _
  | built es => exact Moves.pure same_step _
  | inMemory a => exact Moves.bind same_step (readWordLe_same p a) fun _ => Moves.pure same_step _

theorem paletteFmt_raises (p : Params) (pal : Palette) : Raises (· = .bus) (paletteFmt p pal) := by
  cases pal with
  | absent => exact Raises.pure _
  | built es => exact Raises.pure _
  | inMemory a => exact Raises.bind (readWordLe_raises p a) fun _ => Raises.pure _

theorem paletteEntry_runs {p : Params} (h : p.rejects = []) (pal : Palette) (i : Nat) (w : Work) :
    paletteEntry p pal i w = .ok (paletteIn p w.mem pal i).2 w := by
  cases pal with
  | absent => rfl
  | built es => rfl
  | inMemory a => exact readWordLe_runs h _ w

theorem paletteEntry_same (p : Params) (pal : Palette) (i : Nat) : Moves Same (paletteEntry p pal i) := by
  cases pal with
  | absent => exact Moves.pure same_step _
  | built es => exact Moves.pure same_step _
  | inMemory a => exact readWordLe_same p _

theorem paletteEntry_raises (p : Params) (pal : Palette) (i : Nat) :
    Raises (· = .bus) (paletteEntry p pal i) := by
  cases pal with
  | absent => exact Raises.pure _
  | built es => exact Raises.pure _
  | inMemory a => exact readWordLe_raises p _

theorem paletteIn_fst (p : Params) (m : Memory) (pal : Palette) (i j : Nat) :
    (paletteIn p m pal i).1 = (paletteIn p m pal j).1 := by
  cases pal <;> rfl

/-- `split` answers the channels that memory's palette gives, and changes nothing. -/
theorem split_runs {p : Params} (h : p.rejects = []) (v : Word) (f : Fmt) (pal : Palette) (w : Work) :
    split p v f pal w = answers (channelsIn p w.mem pal f v) w := by
  unfold split channelsIn
  by_cases h8 : f = .rgb8
  · rw [if_pos h8, if_pos h8, splitIndexed]
    by_cases ha : pal = .absent
    · subst ha
      rfl
    · rw [if_neg ha, show (pal == Palette.absent) = false from beq_false_of_ne ha, failIf_bind]
      simp only [Bool.false_eq_true, if_false]
      rw [failIf_bind]
      by_cases hv : 0xFF < v.toNat
      · simp only [hv, decide_true, if_true, answers_error]
      · simp only [hv, decide_false, Bool.false_eq_true, if_false]
        rw [bind_runs_ok (paletteEntry_runs h pal _ w), bind_runs_ok (paletteFmt_runs h pal w),
          paletteIn_fst p w.mem pal 0 v.toNat]
        generalize paletteIn p w.mem pal v.toNat = q
        obtain ⟨_ | g, e⟩ := q
        · rfl
        · exact ofExcept_runs _ w
  · rw [if_neg h8, if_neg h8]
    exact ofExcept_runs _ w

theorem split_same (p : Params) (v : Word) (f : Fmt) (pal : Palette) : Moves Same (split p v f pal) := by
  unfold split
  refine Moves.ite (fun _ => ?_) fun _ => Moves.ofExcept same_step _
  refine Moves.bind same_step (Moves.failIf same_step _ _) fun _ =>
    Moves.bind same_step (Moves.failIf same_step _ _) fun _ =>
    Moves.bind same_step (paletteEntry_same p pal _) fun _ =>
    Moves.bind same_step (paletteFmt_same p pal) fun pf => ?_
  cases pf with
  | none => exact Moves.throw same_step _
  | some g => exact Moves.ofExcept same_step _

/-- `convert` answers the converted value, and changes nothing. -/
theorem convert_runs {p : Params} (h : p.rejects = []) (v : Word) (sf df : Fmt) (pal : Palette) (w : Work) :
    convert p v sf df pal w = answers (convertIn p w.mem pal sf df v) w := by
  unfold convert convertIn
  have hs := split_runs h v sf pal w
  generalize channelsIn p w.mem pal sf v = x at hs ⊢
  cases x with
  | error e =>
    rw [bind_runs_error hs]
    rfl
  | ok c =>
    rw [bind_runs_ok hs]
    exact ofExcept_runs _ w

theorem convert_same (p : Params) (v : Word) (sf df : Fmt) (pal : Palette) :
    Moves Same (convert p v sf df pal) :=
  Moves.bind same_step (split_same p v sf pal) fun _ => Moves.ofExcept same_step _

/-- The ways a split can end early (41_color_codec R162, R164). -/
theorem split_raises (p : Params) (v : Word) (f : Fmt) (pal : Palette) :
    Raises (fun e => e = .bus ∨ e = .missingContext ∨ e = .unsupported ∨
      (e = .invalidArg ∧ f = .rgb8 ∧ 0xFF < v.toNat)) (split p v f pal) := by
  have hbare : ∀ g x e, splitBare p g x = .error e → e = .missingContext ∨ e = .unsupported := by
    intro g x e h
    rcases splitBare_error h with ⟨rfl, _⟩ | ⟨rfl, _⟩ <;> simp
  unfold split
  refine Raises.ite (fun h8 => ?_) fun _ => Raises.ofExcept fun e h => ?_
  · refine Raises.bind (Raises.failIf fun _ => by simp) fun _ =>
      Raises.bind (Raises.failIf fun hv => ?_) fun _ =>
      Raises.bind (Raises.mono (fun e he => .inl he) (paletteEntry_raises p pal _)) fun _ =>
      Raises.bind (Raises.mono (fun e he => .inl he) (paletteFmt_raises p pal)) fun pf => ?_
    · exact .inr (.inr (.inr ⟨rfl, h8, by simpa using hv⟩))
    · cases pf with
      | none => exact Raises.throw (by simp)
      | some g =>
        refine Raises.ofExcept fun e h => ?_
        rcases hbare _ _ _ h with h | h <;> simp [h]
  · rcases hbare _ _ _ h with h | h <;> simp [h]

/-- The ways a conversion can end early (41_color_codec R179). -/
theorem convert_raises (p : Params) (v : Word) (sf df : Fmt) (pal : Palette) :
    Raises (fun e => e = .bus ∨ e = .missingContext ∨ e = .unsupported ∨
      (e = .invalidArg ∧ sf = .rgb8 ∧ 0xFF < v.toNat)) (convert p v sf df pal) :=
  Raises.bind (split_raises p v sf pal) fun _ => Raises.ofExcept fun e h => by
    simp [(pack_error h).1]

theorem paletteChecks_same (p : Params) (pal : Palette) : Moves Same (paletteChecks p pal) := by
  refine Moves.bind same_step (Moves.failIf same_step _ _) fun _ =>
    Moves.bind same_step (paletteFmt_same p pal) fun pf => ?_
  cases pf with
  | none => exact Moves.throw same_step _
  | some g => exact Moves.bind same_step (Moves.failIf same_step _ _) fun _ => Moves.failIf same_step _ _

/-- `conv_checks` reads at most the palette's tag. -/
theorem convChecks_same (p : Params) (sf df : Fmt) (pal : Palette) : Moves Same (convChecks p sf df pal) :=
  Moves.bind same_step (Moves.failIf same_step _ _) fun _ =>
    Moves.bind same_step (Moves.onlyIf same_step fun _ => paletteChecks_same p pal) fun _ =>
    Moves.failIf same_step _ _

theorem paletteChecks_raises (p : Params) (pal : Palette) :
    Raises (fun e => e = .bus ∨ e = .missingContext ∨ e = .unsupported) (paletteChecks p pal) := by
  refine Raises.bind (Raises.failIf fun _ => by simp) fun _ =>
    Raises.bind (Raises.mono (fun e he => .inl he) (paletteFmt_raises p pal)) fun pf => ?_
  cases pf with
  | none => exact Raises.throw (by simp)
  | some g => exact Raises.bind (Raises.failIf fun _ => by simp) fun _ => Raises.failIf fun _ => by simp

theorem convChecks_raises (p : Params) (sf df : Fmt) (pal : Palette) :
    Raises (fun e => e = .bus ∨ e = .missingContext ∨ e = .unsupported) (convChecks p sf df pal) :=
  Raises.bind (Raises.failIf fun _ => by simp) fun _ =>
    Raises.bind (Raises.onlyIf fun _ => paletteChecks_raises p pal) fun _ => Raises.failIf fun _ => by simp

/-- `conv_checks` passes where its conditions hold (42_blit_engine R207). -/
theorem convChecks_runs {p : Params} (h : p.rejects = []) {sf df : Fmt} {pal : Palette} {w : Work}
    (hs : sf.unpackable = true) (hd : df.packable = true)
    (hp : sf = .rgb8 → pal ≠ .absent ∧
      ∃ g, (paletteIn p w.mem pal 0).1 = some g ∧ g ≠ .rgb8 ∧ g.unpackable = true) :
    convChecks p sf df pal w = .ok () w := by
  rw [convChecks, hs, hd]
  show (onlyIf (sf == .rgb8) (paletteChecks p pal) >>= fun _ => pure ()) w = _
  by_cases h8 : sf = .rgb8
  · obtain ⟨ha, g, hg, hg8, hgu⟩ := hp h8
    have : paletteChecks p pal w = .ok () w := by
      rw [paletteChecks, beq_false_of_ne ha, failIf_bind]
      simp only [Bool.false_eq_true, if_false]
      rw [bind_runs_ok (paletteFmt_runs h pal w), hg]
      simp only [beq_false_of_ne hg8, hgu]
      rfl
    rw [h8, beq_self_eq_true, onlyIf_true, bind_runs_ok this]
    rfl
  · rw [beq_false_of_ne h8]
    rfl

end Sys2Proof.Machine
end

