-- ==== Sys2Proof/Laws/Rects.lean ====
section
/-! SUPPORT. The places of a rectangle's pixels and rows: inside its footprint, inside the address space, and
apart from one another. -/

namespace Sys2Proof.Machine

/-- A pixel's address is its row's address and its column's offset. -/
theorem Rect.pixel_eq (t : Rect) (x y : Nat) : t.pixel x y = t.pixel 0 y + x * t.fmt.bytes := by
  simp only [Rect.pixel, pxAddr, Nat.add_zero, Nat.add_mul]
  omega

/-- A row's address is the first row's address and the row's offset. -/
theorem Rect.row_eq (t : Rect) (y : Nat) : t.pixel 0 y = t.pixel 0 0 + y * t.stride := by
  simp only [Rect.pixel, pxAddr, Nat.add_zero, Nat.add_mul]
  omega

theorem Rect.column_end {t : Rect} {x k : Nat} (hx : x < t.w) (hk : k < t.fmt.bytes) :
    x * t.fmt.bytes + k < t.rowBytes := by
  have h : (x + 1) * t.fmt.bytes ≤ t.w * t.fmt.bytes := Nat.mul_le_mul_right _ hx
  rw [Nat.add_mul] at h
  unfold Rect.rowBytes
  omega

/-- The bytes of a pixel of a rectangle are in its footprint. -/
theorem Rect.pixel_footprint {p : Params} {t : Rect} {x y a : Nat} (hx : x < t.w) (hy : y < t.h)
    (h : span p (t.pixel x y) t.fmt.bytes a) : t.footprint p a := by
  obtain ⟨k, hk, rfl⟩ := h
  refine ⟨y, hy, x * t.fmt.bytes + k, Rect.column_end hx hk, ?_⟩
  rw [Rect.pixel_eq, Nat.add_assoc]

/-- The bytes of a footprint are those of the rectangle's pixels. -/
theorem Rect.footprint_pixel {p : Params} {t : Rect} {a : Nat} (h : t.footprint p a) :
    ∃ x y, x < t.w ∧ y < t.h ∧ span p (t.pixel x y) t.fmt.bytes a := by
  obtain ⟨y, hy, k, hk, rfl⟩ := h
  have hb := t.fmt.bytes_pos
  refine ⟨k / t.fmt.bytes, y, (Nat.div_lt_iff_lt_mul hb).2 hk, hy, k % t.fmt.bytes, Nat.mod_lt _ hb, ?_⟩
  rw [t.pixel_eq (k / t.fmt.bytes) y]
  have := Nat.div_add_mod k t.fmt.bytes
  rw [Nat.mul_comm] at this
  congr 1
  omega

theorem Rect.row_footprint {p : Params} {t : Rect} {y a : Nat} (hy : y < t.h)
    (h : span p (t.pixel 0 y) t.rowBytes a) : t.footprint p a :=
  ⟨y, hy, h⟩

/-- Every byte of a rectangle that fits lies inside the address space. -/
theorem Rect.lt_of_fits {p : Params} {t : Rect} (h : t.fits p) {y k : Nat} (hy : y < t.h) (hk : k < t.rowBytes) :
    t.pixel 0 y + k < 2 ^ p.addrW := by
  have h1 : y * t.stride ≤ (t.h - 1) * t.stride := Nat.mul_le_mul_right _ (by omega)
  unfold Rect.fits at h
  rw [Rect.row_eq] at h ⊢
  omega

/-- Two bytes of rows that do not run into one another are the same only in the same row and column. -/
theorem Rect.row_inj {t : Rect} (h : t.rowsApart) {y k y' k' : Nat} (hy : y < t.h) (hk : k < t.rowBytes)
    (hy' : y' < t.h) (hk' : k' < t.rowBytes) (he : t.pixel 0 y + k = t.pixel 0 y' + k') : y = y' ∧ k = k' := by
  rw [t.row_eq y, t.row_eq y'] at he
  rcases h with h | h
  · have hle : t.rowBytes ≤ t.stride := by
      refine Nat.le_trans ?_ h
      exact Nat.mul_le_mul_right _ (by omega)
    have e : y * t.stride + k = y' * t.stride + k' := by omega
    have hs : 0 < t.stride := by omega
    have hy2 : y = y' := by
      have h1 : (y * t.stride + k) / t.stride = y := by
        rw [Nat.add_comm, Nat.add_mul_div_right _ _ hs, Nat.div_eq_of_lt (by omega)]
        omega
      have h2 : (y' * t.stride + k') / t.stride = y' := by
        rw [Nat.add_comm, Nat.add_mul_div_right _ _ hs, Nat.div_eq_of_lt (by omega)]
        omega
      rw [← h1, e, h2]
    subst hy2
    exact ⟨rfl, by omega⟩
  · have : y = y' := by omega
    subst this
    exact ⟨rfl, by omega⟩

/-- Two rows of a rectangle that fits and whose rows are apart have no byte in common. -/
theorem Rect.rows_apart {p : Params} {t : Rect} (hf : t.fits p) (ha : t.rowsApart) {y y' a : Nat} (hy : y < t.h)
    (hy' : y' < t.h) (hne : y ≠ y') (h : span p (t.pixel 0 y) t.rowBytes a) :
    ¬ span p (t.pixel 0 y') t.rowBytes a := by
  obtain ⟨k, hk, rfl⟩ := h
  rintro ⟨k', hk', he⟩
  rw [portAddr_of_lt p (Rect.lt_of_fits hf hy hk), portAddr_of_lt p (Rect.lt_of_fits hf hy' hk')] at he
  exact hne (Rect.row_inj ha hy hk hy' hk' he).1

/-- Two pixels of a rectangle that fits and whose rows are apart have no byte in common. -/
theorem Rect.pixels_apart {p : Params} {t : Rect} (hf : t.fits p) (ha : t.rowsApart) {q r : Nat × Nat} {a : Nat}
    (hq : q.1 < t.w ∧ q.2 < t.h) (hr : r.1 < t.w ∧ r.2 < t.h) (hne : q ≠ r)
    (h : span p (t.pixel q.1 q.2) t.fmt.bytes a) : ¬ span p (t.pixel r.1 r.2) t.fmt.bytes a := by
  obtain ⟨k, hk, rfl⟩ := h
  rintro ⟨k', hk', he⟩
  rw [t.pixel_eq q.1, t.pixel_eq r.1, Nat.add_assoc, Nat.add_assoc] at he
  have c1 := Rect.column_end hq.1 hk
  have c2 := Rect.column_end hr.1 hk'
  rw [portAddr_of_lt p (Rect.lt_of_fits hf hq.2 c1), portAddr_of_lt p (Rect.lt_of_fits hf hr.2 c2)] at he
  obtain ⟨e1, e2⟩ := Rect.row_inj ha hq.2 c1 hr.2 c2 he
  have hx : q.1 = r.1 := by
    have h1 : (q.1 * t.fmt.bytes + k) / t.fmt.bytes = q.1 := by
      rw [Nat.add_comm, Nat.add_mul_div_right _ _ t.fmt.bytes_pos, Nat.div_eq_of_lt hk]
      omega
    have h2 : (r.1 * t.fmt.bytes + k') / t.fmt.bytes = r.1 := by
      rw [Nat.add_comm, Nat.add_mul_div_right _ _ t.fmt.bytes_pos, Nat.div_eq_of_lt hk']
      omega
    rw [← h1, e2, h2]
  exact hne (Prod.ext hx e1)

theorem Rect.rowBytes_le_of_fits {p : Params} {t : Rect} (hf : t.fits p) : t.rowBytes ≤ 2 ^ p.addrW := by
  unfold Rect.fits at hf
  omega

end Sys2Proof.Machine
end

