-- ==== Sys2Proof/Laws/Stores.lean ====
section
/-! SUPPORT. Loops over the pixels or the rows of a rectangle: what they leave where the rectangle's rows are
apart and fit, and which bytes they can touch anywhere. -/

namespace Sys2Proof.Machine

theorem bytesAt_eq {p : Params} {m : Memory} {a : Nat} {bs : List Byte}
    (h : ∀ k, (hk : k < bs.length) → Memory.read m (portAddr p (a + k)) = bs[k]) :
    bytesAt p m a bs.length = bs := by
  refine List.ext_getElem (by simp) fun k h1 h2 => ?_
  rw [bytesAt_getElem, h k h2]

theorem bytesAt_congr {p : Params} {m m' : Memory} {a n : Nat}
    (h : ∀ b, span p a n b → Memory.read m b = Memory.read m' b) : bytesAt p m a n = bytesAt p m' a n := by
  refine List.map_congr_left fun k hk => h _ ⟨k, List.mem_range.1 hk, rfl⟩

theorem pixelAt_congr {p : Params} {m m' : Memory} {a : Nat} {f : Fmt}
    (h : ∀ b, span p a f.bytes b → Memory.read m b = Memory.read m' b) : pixelAt p m a f = pixelAt p m' a f := by
  rw [pixelAt, pixelAt, bytesAt_congr h]

/-- Nested loops that store, for each pixel of a rectangle, bytes computed from memory as the turns before
left it outside their own pixels: the rectangle holds those bytes, everything else stays. -/
theorem pixels_store {p : Params} {t : Rect} {xs ys : List Nat} {out : Nat → Nat → List Byte}
    {body : Nat → Nat → Cmd Unit} {w₀ : Work}
    (hf : t.fits p) (ha : t.rowsApart) (hxs : xs.Perm (List.range t.w)) (hys : ys.Perm (List.range t.h))
    (hlen : ∀ x y, (out x y).length = t.fmt.bytes)
    (hbody : ∀ done x y rest, pixelOrder xs ys = done ++ (x, y) :: rest → x < t.w → y < t.h → ∀ m,
      (∀ a, (∀ q ∈ done, ¬ span p (t.pixel q.1 q.2) t.fmt.bytes a) → Memory.read m a = Memory.read w₀.mem a) →
      body x y ⟨m, w₀.binit, w₀.draws⟩ =
        .ok () ⟨writeBytes p m (t.pixel x y) (out x y), w₀.binit, w₀.draws⟩) :
    ∃ m, (forEach ys fun y => forEach xs fun x => body x y) w₀ = .ok () ⟨m, w₀.binit, w₀.draws⟩ ∧
      (∀ x y, x < t.w → y < t.h → bytesAt p m (t.pixel x y) t.fmt.bytes = out x y) ∧
      ∀ a, ¬ t.footprint p a → Memory.read m a = Memory.read w₀.mem a := by
  have hin : ∀ q ∈ pixelOrder xs ys, q.1 < t.w ∧ q.2 < t.h := by
    intro q hq
    obtain ⟨h1, h2⟩ := mem_pixelOrder.1 hq
    exact ⟨List.mem_range.1 (hxs.mem_iff.1 h1), List.mem_range.1 (hys.mem_iff.1 h2)⟩
  have hmem : ∀ x y, x < t.w → y < t.h → (x, y) ∈ pixelOrder xs ys := fun x y hx hy =>
    mem_pixelOrder.2 ⟨hxs.mem_iff.2 (List.mem_range.2 hx), hys.mem_iff.2 (List.mem_range.2 hy)⟩
  rw [nested_eq]
  obtain ⟨m, hr, h1, h2⟩ := forList_stores (p := p) (A := fun q : Nat × Nat => t.pixel q.1 q.2)
    (out := fun q => out q.1 q.2) (l := pixelOrder xs ys) (body := fun q => body q.1 q.2) (w₀ := w₀)
    (pixelOrder_nodup (hxs.symm.nodup List.nodup_range) (hys.symm.nodup List.nodup_range))
    (by
      intro q hq
      rw [hlen]
      have hq' := hin q hq
      refine Nat.le_trans ?_ (Rect.rowBytes_le_of_fits hf)
      exact Nat.le_mul_of_pos_left _ (by omega))
    (by
      intro q hq r hr hne a
      rw [hlen, hlen]
      exact Rect.pixels_apart hf ha (hin q hq) (hin r hr) hne)
    (by
      intro done q rest hd m hm
      have hq := hin q (by simp [hd])
      refine hbody done q.1 q.2 rest hd hq.1 hq.2 m fun a ha' => hm a fun j hj => ?_
      rw [hlen]
      exact ha' j hj)
  refine ⟨m, hr, fun x y hx hy => ?_, fun a hna => h2 a fun q hq => ?_⟩
  · rw [← hlen x y]
    exact bytesAt_eq fun k hk => h1 (x, y) (hmem x y hx hy) k hk
  · rw [hlen]
    exact fun hs => hna (Rect.pixel_footprint (hin q hq).1 (hin q hq).2 hs)

/-- A loop that stores the rows of a rectangle whole. -/
theorem rows_store {p : Params} {t : Rect} {ys : List Nat} {out : Nat → List Byte} {body : Nat → Cmd Unit}
    {w₀ : Work} (hf : t.fits p) (ha : t.rowsApart) (hn : ys.Nodup) (hys : ∀ y ∈ ys, y < t.h)
    (hlen : ∀ y, (out y).length = t.rowBytes)
    (hbody : ∀ done y rest, ys = done ++ y :: rest → y < t.h → ∀ m,
      (∀ a, (∀ y' ∈ done, ¬ span p (t.pixel 0 y') t.rowBytes a) → Memory.read m a = Memory.read w₀.mem a) →
      body y ⟨m, w₀.binit, w₀.draws⟩ =
        .ok () ⟨writeBytes p m (t.pixel 0 y) (out y), w₀.binit, w₀.draws⟩) :
    ∃ m, forEach ys body w₀ = .ok () ⟨m, w₀.binit, w₀.draws⟩ ∧
      (∀ y ∈ ys, bytesAt p m (t.pixel 0 y) t.rowBytes = out y) ∧
      ∀ a, (∀ y ∈ ys, ¬ span p (t.pixel 0 y) t.rowBytes a) → Memory.read m a = Memory.read w₀.mem a := by
  rw [forEach_eq_forList]
  obtain ⟨m, hr, h1, h2⟩ := forList_stores (p := p) (A := fun y => t.pixel 0 y) (out := out) (l := ys)
    (body := body) (w₀ := w₀) hn
    (fun y _ => by
      rw [hlen]
      exact Rect.rowBytes_le_of_fits hf)
    (by
      intro y hy y' hy' hne a
      rw [hlen, hlen]
      exact Rect.rows_apart hf ha (hys y hy) (hys y' hy') hne)
    (by
      intro done y rest hd m hm
      refine hbody done y rest hd (hys y (by simp [hd])) m fun a ha' => hm a fun j hj => ?_
      rw [hlen]
      exact ha' j hj)
  refine ⟨m, hr, fun y hy => ?_, fun a hna => h2 a fun y hy => ?_⟩
  · rw [← hlen y]
    exact bytesAt_eq fun k hk => h1 y hy k hk
  · rw [hlen]
    exact hna y hy

/-- The bytes of a pixel are a piece of the bytes of its row. -/
theorem pixel_of_row (p : Params) (t : Rect) (m : Memory) {x y : Nat} (hx : x < t.w) :
    bytesAt p m (t.pixel x y) t.fmt.bytes =
      ((bytesAt p m (t.pixel 0 y) t.rowBytes).drop (x * t.fmt.bytes)).take t.fmt.bytes := by
  have hle : x * t.fmt.bytes + t.fmt.bytes ≤ t.rowBytes := by
    have h : (x + 1) * t.fmt.bytes ≤ t.w * t.fmt.bytes := Nat.mul_le_mul_right _ hx
    rw [Nat.add_mul] at h
    unfold Rect.rowBytes
    omega
  refine List.ext_getElem ?_ fun k h1 h2 => ?_
  · simp
    omega
  · rw [List.getElem_take, List.getElem_drop, bytesAt_getElem, bytesAt_getElem, t.pixel_eq x y, Nat.add_assoc]

/-! ### On any platform -/

theorem pixel_span_footprint {p : Params} {t : Rect} {x y : Nat} (hx : x < t.w) (hy : y < t.h) {u v : Work}
    (h : KeepsOutside (span p (t.pixel x y) t.fmt.bytes) u v) : KeepsOutside (t.footprint p) u v :=
  h.mono fun _ hs => Rect.pixel_footprint hx hy hs

theorem row_span_footprint {p : Params} {t : Rect} {y n : Nat} (hy : y < t.h) (hn : n ≤ t.rowBytes) {u v : Work}
    (h : KeepsOutside (span p (t.pixel 0 y) n) u v) : KeepsOutside (t.footprint p) u v :=
  h.mono fun _ ⟨k, hk, ha⟩ => ⟨y, hy, k, by omega, ha⟩

/-- Nested loops do what every turn does. -/
theorem nested_moves {R : Work → Work → Prop} (hR : Step R) {xs ys : List Nat} {body : Nat → Nat → Cmd Unit}
    (h : ∀ x ∈ xs, ∀ y ∈ ys, Moves R (body x y)) : Moves R (forEach ys fun y => forEach xs fun x => body x y) :=
  Moves.forEach hR fun y hy => Moves.forEach hR fun x hx => h x hx y hy

theorem nested_raises {E : Err → Prop} {xs ys : List Nat} {body : Nat → Nat → Cmd Unit}
    (h : ∀ x ∈ xs, ∀ y ∈ ys, Raises E (body x y)) : Raises E (forEach ys fun y => forEach xs fun x => body x y) :=
  Raises.forEach fun y hy => Raises.forEach fun x hx => h x hx y hy

end Sys2Proof.Machine
end

