-- ==== Sys2Proof/Laws/Copy.lean ====
section
/-! SUPPORT. The copy engine's two modes of working, each said once: what it stores where the destination's
rows are apart and fit and its sources are read before they are overwritten, that it runs through, which bytes
it can touch, how it can end. -/

namespace Sys2Proof.Machine

/-! ### Conversions that cannot fail -/

theorem pixelAt_rgb8_le (p : Params) (m : Memory) (a : Nat) : (pixelAt p m a .rgb8).toNat ≤ 255 := by
  rw [pixelAt, pixelValue]
  simp only [Fmt.bpp, place]
  have : (byteAt (bytesAt p m a Fmt.rgb8.bytes) 0).toNat < 256 := BitVec.isLt _
  simp only [BitVec.shiftLeft_zero, BitVec.toNat_setWidth]
  omega

/-- The palette's tag allows the second step of an indexed conversion (42_blit_engine R207). -/
abbrev tagServes (p : Params) (m : Memory) (pal : Palette) : Prop :=
  pal ≠ .absent ∧ ∃ g, (paletteIn p m pal 0).1 = some g ∧ g ≠ .rgb8 ∧ g.unpackable = true

theorem convertIn_ok {p : Params} {m : Memory} {pal : Palette} {sf df : Fmt} {v : Word}
    (hs : sf.unpackable = true) (hd : df.packable = true)
    (hp : sf = .rgb8 → v.toNat ≤ 255 ∧ tagServes p m pal) : ∃ c, convertIn p m pal sf df v = .ok c := by
  unfold convertIn channelsIn
  by_cases h8 : sf = .rgb8
  · obtain ⟨hv, ha, g, hg, hg8, hgu⟩ := hp h8
    rw [if_pos h8, if_neg ha, if_neg (by omega)]
    rw [paletteIn_fst p m pal 0 v.toNat] at hg
    revert hg
    generalize paletteIn p m pal v.toNat = q
    rintro hg
    obtain ⟨q1, e⟩ := q
    subst hg
    obtain ⟨c, hc⟩ := splitBare_ok (p := p) hgu hg8 e
    simp only [hc]
    exact pack_ok hd c
  · rw [if_neg h8]
    obtain ⟨c, hc⟩ := splitBare_ok (p := p) hs h8 v
    simp only [hc]
    exact pack_ok hd c

/-! ### The order of rows and columns -/

theorem CopyJob.rowOrder_perm (j : CopyJob) : j.rowOrder.Perm (List.range j.rect.h) := by
  unfold CopyJob.rowOrder
  split
  · exact List.reverse_perm _
  · exact List.Perm.refl _

theorem CopyJob.colOrder_perm (j : CopyJob) : j.colOrder.Perm (List.range j.rect.w) := by
  unfold CopyJob.colOrder
  split
  · exact List.reverse_perm _
  · exact List.Perm.refl _

theorem CopyJob.mem_rowOrder {j : CopyJob} {y : Nat} (h : y ∈ j.rowOrder) : y < j.rect.h :=
  List.mem_range.1 (j.rowOrder_perm.mem_iff.1 h)

theorem CopyJob.mem_colOrder {j : CopyJob} {x : Nat} (h : x ∈ j.colOrder) : x < j.rect.w :=
  List.mem_range.1 (j.colOrder_perm.mem_iff.1 h)

/-! ### RAW -/

/-- RAW mode (42_blit_engine R206), where no row is written before it is read as a source: every row of the
rectangle holds its source row, everything else stays. -/
theorem rawCopy_store {p : Params} (hp : p.rejects = []) {j : CopyJob} {w₀ : Work}
    (hf : j.rect.fits p) (ha : j.rect.rowsApart) (hc : j.coincide = false)
    (hread : ∀ done y rest, j.rowOrder = done ++ y :: rest → ∀ y' ∈ done, ∀ a,
      span p (j.srcPixel 0 y) j.rect.rowBytes a → ¬ span p (j.rect.pixel 0 y') j.rect.rowBytes a) :
    ∃ m, rawCopy p j w₀ = .ok () ⟨m, w₀.binit, w₀.draws⟩ ∧
      (∀ y, y < j.h → bytesAt p m (j.rect.pixel 0 y) j.rect.rowBytes =
        bytesAt p w₀.mem (j.srcPixel 0 y) j.rect.rowBytes) ∧
      ∀ a, ¬ j.rect.footprint p a → Memory.read m a = Memory.read w₀.mem a := by
  unfold rawCopy
  rw [hc]
  obtain ⟨m, hr, h1, h2⟩ := rows_store (p := p) (t := j.rect) (ys := j.rowOrder)
    (out := fun y => bytesAt p w₀.mem (j.srcPixel 0 y) j.rect.rowBytes)
    (body := fun y => do
      let buf ← memRead p (j.srcPixel 0 y) j.rect.rowBytes
      memWrite p (j.rect.pixel 0 y) buf) (w₀ := w₀) hf ha
    (j.rowOrder_perm.symm.nodup List.nodup_range) (fun y hy => CopyJob.mem_rowOrder hy)
    (fun y => by simp)
    (by
      intro done y rest hd hy m hm
      rw [bind_runs_ok (memRead_runs hp _ _ _), memWrite_runs hp]
      congr 3
      exact bytesAt_congr fun a hs => hm a fun y' hy' => hread done y rest hd y' hy' a hs)
  refine ⟨m, hr, fun y hy => h1 y (j.rowOrder_perm.mem_iff.2 (List.mem_range.2 hy)), fun a hna => h2 a fun y hy hs => ?_⟩
  exact hna ⟨y, CopyJob.mem_rowOrder hy, hs⟩

theorem rawCopy_coincide {p : Params} {j : CopyJob} (hc : j.coincide = true) : rawCopy p j = pure () := by
  unfold rawCopy
  rw [hc]
  rfl

/-! ### CONV and ALPHA -/

/-- CONV and ALPHA modes (42_blit_engine R208, R209), where no pixel is overwritten before it is read as a
source: every pixel of the rectangle holds its source's conversion, stored as the mode stores it, and
everything else stays. `hconv` says that
the palette's answers do not rest on bytes of the rectangle. -/
theorem pixelCopy_store {p : Params} (hp : p.rejects = []) {j : CopyJob} {w₀ : Work}
    {store : Nat → Word → Cmd Unit} {put : List Byte → Word → List Byte} {conv : Word → Word}
    (hf : j.rect.fits p) (ha : j.rect.rowsApart)
    (hs : j.sf.unpackable = true) (hd : j.df.packable = true) (hpal : j.sf = .rgb8 → tagServes p w₀.mem j.pal)
    (hput : ∀ old v, old.length = j.df.bytes → (put old v).length = j.df.bytes)
    (hstore : ∀ a v w, store a v w =
      .ok () ⟨writeBytes p w.mem a (put (bytesAt p w.mem a j.df.bytes) v), w.binit, w.draws⟩)
    (hconv : ∀ x y, x < j.w → y < j.h → ∀ m, (∀ a, ¬ j.rect.footprint p a → Memory.read m a = Memory.read w₀.mem a) →
      convertIn p m j.pal j.sf j.df (pixelAt p w₀.mem (j.srcPixel x y) j.sf) =
        .ok (conv (pixelAt p w₀.mem (j.srcPixel x y) j.sf)))
    (hread : ∀ done x y rest, pixelOrder j.colOrder j.rowOrder = done ++ (x, y) :: rest → ∀ q ∈ done, ∀ a,
      span p (j.srcPixel x y) j.sf.bytes a → ¬ span p (j.rect.pixel q.1 q.2) j.df.bytes a) :
    ∃ m, pixelCopy p j store w₀ = .ok () ⟨m, w₀.binit, w₀.draws⟩ ∧
      (∀ x y, x < j.w → y < j.h → bytesAt p m (j.rect.pixel x y) j.df.bytes =
        put (bytesAt p w₀.mem (j.rect.pixel x y) j.df.bytes) (conv (pixelAt p w₀.mem (j.srcPixel x y) j.sf))) ∧
      ∀ a, ¬ j.rect.footprint p a → Memory.read m a = Memory.read w₀.mem a := by
  unfold pixelCopy
  rw [bind_runs_ok (convChecks_runs hp hs hd hpal)]
  refine pixels_store (p := p) (t := j.rect) (xs := j.colOrder) (ys := j.rowOrder)
    (out := fun x y => put (bytesAt p w₀.mem (j.rect.pixel x y) j.df.bytes)
      (conv (pixelAt p w₀.mem (j.srcPixel x y) j.sf)))
    hf ha j.colOrder_perm j.rowOrder_perm (fun x y => hput _ _ (by simp)) ?_
  intro done x y rest hdone hx hy m hm
  have hin : ∀ q ∈ done, q.1 < j.rect.w ∧ q.2 < j.rect.h := by
    intro q hq
    have : q ∈ pixelOrder j.colOrder j.rowOrder := by simp [hdone, hq]
    obtain ⟨h1, h2⟩ := mem_pixelOrder.1 this
    exact ⟨CopyJob.mem_colOrder h1, CopyJob.mem_rowOrder h2⟩
  have hnot : (x, y) ∉ done := by
    have hn := pixelOrder_nodup (j.colOrder_perm.symm.nodup List.nodup_range)
      (j.rowOrder_perm.symm.nodup List.nodup_range)
    rw [hdone] at hn
    exact fun hq => (List.nodup_append.1 hn).2.2 _ hq _ (by simp) rfl
  rw [bind_runs_ok (loadPx_runs hp _ _ _)]
  have hpx : pixelAt p m (j.srcPixel x y) j.sf = pixelAt p w₀.mem (j.srcPixel x y) j.sf :=
    pixelAt_congr fun a hsp => hm a fun q hq => hread done x y rest hdone q hq a hsp
  have hmf : ∀ a, ¬ j.rect.footprint p a → Memory.read m a = Memory.read w₀.mem a := fun a hna =>
    hm a fun q hq hsp => hna (Rect.pixel_footprint (hin q hq).1 (hin q hq).2 hsp)
  have hcv : convert p (pixelAt p m (j.srcPixel x y) j.sf) j.sf j.df j.pal ⟨m, w₀.binit, w₀.draws⟩ =
      .ok (conv (pixelAt p w₀.mem (j.srcPixel x y) j.sf)) ⟨m, w₀.binit, w₀.draws⟩ := by
    rw [convert_runs hp, hpx, hconv x y hx hy m hmf]
    rfl
  rw [bind_runs_ok hcv, hstore]
  congr 4
  refine bytesAt_congr fun a hsp => hm a fun q hq => ?_
  have hne : ((x, y) : Nat × Nat) ≠ q := by
    rintro rfl
    exact hnot hq
  exact Rect.pixels_apart hf ha ⟨hx, hy⟩ (hin q hq) hne hsp

/-! ### Running through, whatever the overlap -/

/-- Changed only inside `S`, the backend handle's bit and the oracle's count not at all. -/
def Stores (S : Nat → Prop) (w w' : Work) : Prop :=
  KeepsOutside S w w' ∧ w'.binit = w.binit ∧ w'.draws = w.draws

theorem stores_step (S : Nat → Prop) : Step (Stores S) where
  refl w := ⟨(keepsOutside_step S).refl w, rfl, rfl⟩
  trans h1 h2 := ⟨(keepsOutside_step S).trans h1.1 h2.1, h2.2.1.trans h1.2.1, h2.2.2.trans h1.2.2⟩

theorem writeByte_aside (p : Params) (a : Nat) (b : Byte) (w : Work) :
    (endWork (writeByte p a b w)).binit = w.binit ∧ (endWork (writeByte p a b w)).draws = w.draws := by
  unfold writeByte
  split <;> exact ⟨rfl, rfl⟩

theorem memWrite_aside (p : Params) (a : Nat) (bs : List Byte) :
    Moves (fun w w' => w'.binit = w.binit ∧ w'.draws = w.draws) (memWrite p a bs) := by
  have hR : Step fun w w' : Work => w'.binit = w.binit ∧ w'.draws = w.draws :=
    ⟨fun _ => ⟨rfl, rfl⟩, fun h1 h2 => ⟨h2.1.trans h1.1, h2.2.trans h1.2⟩⟩
  induction bs generalizing a with
  | nil => exact Moves.pure hR _
  | cons b bs ih => exact Moves.bind hR (writeByte_aside p a b) fun _ => ih (a + 1)

theorem memWrite_stores (p : Params) (a : Nat) (bs : List Byte) {n : Nat} (hn : bs.length ≤ n) :
    Moves (Stores (span p a n)) (memWrite p a bs) := by
  intro w
  refine ⟨?_, memWrite_aside p a bs w⟩
  exact (memWrite_keeps p a bs w).mono fun _ ⟨k, hk, h⟩ => ⟨k, by omega, h⟩

theorem storePx_stores (p : Params) (a : Nat) (f : Fmt) (v : Word) :
    Moves (Stores (span p a f.bytes)) (storePx p a f v) :=
  memWrite_stores p a _ (pxBytes_length_le f v)

theorem storePxIa_stores (p : Params) (a : Nat) (f : Fmt) (v : Word) :
    Moves (Stores (span p a f.bytes)) (storePxIa p a f v) :=
  storePxIa_moves (stores_step _) (storePx_stores p a f) v

theorem Stores.mono {S T : Nat → Prop} (h : ∀ a, S a → T a) {u v : Work} (hS : Stores S u v) : Stores T u v :=
  ⟨hS.1.mono h, hS.2⟩

/-- A command that moves so and never ends early in a way of `E` succeeds where `E` is all there is. -/
theorem runs_of_raises {α : Type} {R : Work → Work → Prop} {c : Cmd α} (hm : Moves R c)
    (hr : Raises (fun _ => False) c) (w : Work) : ∃ a w', c w = .ok a w' ∧ R w w' := by
  have h := hm w
  cases hc : c w with
  | ok a w' =>
    rw [hc] at h
    exact ⟨a, w', rfl, h⟩
  | error e w' => exact (hr w e w' hc).elim

theorem rawCopy_stores (p : Params) (j : CopyJob) : Moves (Stores (j.rect.footprint p)) (rawCopy p j) := by
  have hR := stores_step (j.rect.footprint p)
  unfold rawCopy
  refine Moves.ite (fun _ => Moves.pure hR _) fun _ => Moves.forEach hR fun y hy => ?_
  intro w
  have hr := memRead_same p (j.srcPixel 0 y) j.rect.rowBytes w
  have hlen : ∀ n a (w w' : Work) bs, memRead p a n w = .ok bs w' → bs.length = n := by
    intro n
    induction n with
    | zero =>
      intro a w w' bs h
      cases h
      rfl
    | succ n ih =>
      intro a w w' bs h
      obtain ⟨b, w1, _, h⟩ := bind_ok h
      obtain ⟨cs, w2, h2, h⟩ := bind_ok h
      cases h
      simp [ih _ _ _ _ h2]
  cases hb : memRead p (j.srcPixel 0 y) j.rect.rowBytes w with
  | ok buf w' =>
    rw [hb] at hr
    obtain rfl : w' = w := hr
    rw [bind_runs_ok hb]
    have := memWrite_stores p (j.rect.pixel 0 y) buf (n := j.rect.rowBytes) (by rw [hlen _ _ _ _ _ hb]) w'
    exact this.mono fun a hs => ⟨y, CopyJob.mem_rowOrder hy, hs⟩
  | error e w' =>
    rw [hb] at hr
    obtain rfl : w' = w := hr
    rw [bind_runs_error hb]
    exact hR.refl _

theorem rawCopy_form (p : Params) (j : CopyJob) : Moves (KeepsForm p) (rawCopy p j) := by
  have hR := keepsForm_step p
  unfold rawCopy
  refine Moves.ite (fun _ => Moves.pure hR _) fun _ => Moves.forEach hR fun y _ => ?_
  exact Moves.bind hR (moves_of_same hR (memRead_same p _ _)) fun _ => memWrite_form p _ _

theorem rawCopy_raises (p : Params) (j : CopyJob) : Raises (· = .bus) (rawCopy p j) := by
  unfold rawCopy
  refine Raises.ite (fun _ => Raises.pure _) fun _ => Raises.forEach fun y _ => ?_
  exact Raises.bind (memRead_raises p _ _) fun _ => memWrite_raises p _ _

/-- A relation kept by the mode's store is kept by the per-pixel loop. -/
theorem pixelCopy_moves {R : Work → Work → Prop} (hR : Step R) {p : Params} {j : CopyJob}
    {store : Nat → Word → Cmd Unit} (h : ∀ x y, x < j.w → y < j.h → ∀ v, Moves R (store (j.rect.pixel x y) v)) :
    Moves R (pixelCopy p j store) := by
  refine Moves.bind hR (moves_of_same hR (convChecks_same p _ _ _)) fun _ => nested_moves hR fun x hx y hy => ?_
  exact Moves.bind hR (moves_of_same hR (loadPx_same p _ _)) fun v =>
    Moves.bind hR (moves_of_same hR (convert_same p _ _ _ _)) fun c =>
    h x y (CopyJob.mem_colOrder hx) (CopyJob.mem_rowOrder hy) c

/-- The overlap-safe path touches only the destination rectangle. -/
theorem overlapSafe_stores (p : Params) (j : CopyJob) : Moves (Stores (j.rect.footprint p)) (overlapSafe p j) := by
  have hR := stores_step (j.rect.footprint p)
  unfold overlapSafe
  cases j.mode with
  | raw => exact rawCopy_stores p j
  | conv =>
    exact pixelCopy_moves hR fun x y hx hy v => Moves.mono
      (fun _ _ h => h.mono fun _ hs => Rect.pixel_footprint (t := j.rect) hx hy hs) (storePx_stores p _ _ v)
  | alpha =>
    exact pixelCopy_moves hR fun x y hx hy v => Moves.mono
      (fun _ _ h => h.mono fun _ hs => Rect.pixel_footprint (t := j.rect) hx hy hs) (storePxIa_stores p _ _ v)

theorem overlapSafe_form (p : Params) (j : CopyJob) : Moves (KeepsForm p) (overlapSafe p j) := by
  have hR := keepsForm_step p
  unfold overlapSafe
  cases j.mode with
  | raw => exact rawCopy_form p j
  | conv => exact pixelCopy_moves hR fun x y _ _ v => storePx_form p _ _ v
  | alpha => exact pixelCopy_moves hR fun x y _ _ v => storePxIa_form p _ _ v

theorem loadPx_rgb8_le {p : Params} {a : Nat} {w w' : Work} {v : Word} (h : loadPx p a .rgb8 w = .ok v w') :
    v.toNat ≤ 255 := by
  obtain ⟨m, w1, _, h⟩ := bind_ok h
  cases h
  rw [pixelValue]
  simp only [Fmt.bpp, place, BitVec.shiftLeft_zero, BitVec.toNat_setWidth]
  have : (byteAt m 0).toNat < 256 := BitVec.isLt _
  omega

theorem pixelCopy_raises {p : Params} {j : CopyJob} {store : Nat → Word → Cmd Unit}
    (h : ∀ a v, Raises (· = .bus) (store a v)) :
    Raises (fun e => e = .bus ∨ e = .missingContext ∨ e = .unsupported) (pixelCopy p j store) := by
  refine Raises.bind (convChecks_raises p _ _ _) fun _ => nested_raises fun x _ y _ => ?_
  intro w e w' he
  rcases bind_error he with he | ⟨v, w1, hv, he⟩
  · exact .inl (loadPx_raises p _ _ w e w' he)
  · rcases bind_error he with he | ⟨c, w2, _, he⟩
    · rcases convert_raises p v j.sf j.df j.pal w1 e w' he with h | h | h | ⟨_, h8, hlt⟩
      · exact .inl h
      · exact .inr (.inl h)
      · exact .inr (.inr h)
      · rw [h8] at hv
        have := loadPx_rgb8_le hv
        omega
    · exact .inl (h _ _ w2 e w' he)

/-- Outside the non-overlapping path the ways a copy can end early are those of its conversions. -/
theorem overlapSafe_raises (p : Params) (j : CopyJob) :
    Raises (fun e => e = .bus ∨ e = .missingContext ∨ e = .unsupported) (overlapSafe p j) := by
  unfold overlapSafe
  cases j.mode with
  | raw => exact Raises.mono (fun e h => .inl h) (rawCopy_raises p j)
  | conv => exact pixelCopy_raises fun a v => storePx_raises p a _ v
  | alpha => exact pixelCopy_raises fun a v => storePxIa_raises p a _ v

end Sys2Proof.Machine
end

