-- ==== Sys2Proof/Laws/Blind.lean ====
section
/-! SUPPORT. No command reads the backend handle's bit (10_state R38): a piece run with the bit at another value
does the same and leaves the bit at that value. -/

namespace Sys2Proof.Machine

/-- A working state with the backend handle's bit set to `b`. -/
def Work.withBinit (w : Work) (b : Bool) : Work :=
  ⟨w.mem, b, w.draws⟩

/-- An outcome with the backend handle's bit set to `b`. -/
def resultWithBinit {α : Type} (r : EStateM.Result Err Work α) (b : Bool) : EStateM.Result Err Work α :=
  match r with
  | .ok a w => .ok a (w.withBinit b)
  | .error e w => .error e (w.withBinit b)

/-- The piece does not read the bit. -/
def Blind {α : Type} (c : Cmd α) : Prop :=
  ∀ w b, c (w.withBinit b) = resultWithBinit (c w) b

theorem Blind.pure {α : Type} (a : α) : Blind (Pure.pure a : Cmd α) := fun _ _ => rfl

theorem Blind.throw {α : Type} (e : Err) : Blind (MonadExcept.throw e : Cmd α) := fun _ _ => rfl

theorem Blind.bind {α β : Type} {c : Cmd α} {f : α → Cmd β} (hc : Blind c) (hf : ∀ a, Blind (f a)) :
    Blind (c >>= f) := by
  intro w b
  have h := hc w b
  cases hr : c w with
  | ok a w' =>
    rw [hr] at h
    rw [bind_runs_ok h, bind_runs_ok hr]
    exact hf a w' b
  | error e w' =>
    rw [hr] at h
    rw [bind_runs_error h, bind_runs_error hr]
    rfl

theorem Blind.failIf (b : Bool) (e : Err) : Blind (Machine.failIf b e) := by
  cases b
  · exact Blind.pure ()
  · exact Blind.throw e

theorem Blind.onlyIf {b : Bool} {c : Cmd Unit} (h : Blind c) : Blind (Machine.onlyIf b c) := by
  cases b
  · exact Blind.pure ()
  · exact h

theorem Blind.ofExcept {α : Type} (x : Except Err α) : Blind (Machine.ofExcept x) := by
  cases x
  · exact Blind.throw _
  · exact Blind.pure _

theorem Blind.forEach {ns : List Nat} {body : Nat → Cmd Unit} (h : ∀ n, Blind (body n)) :
    Blind (Machine.forEach ns body) := by
  induction ns with
  | nil => exact Blind.pure ()
  | cons n ns ih => exact Blind.bind (h n) fun _ => ih

theorem Blind.ite {α : Type} {P : Prop} [Decidable P] {c d : Cmd α} (hc : Blind c) (hd : Blind d) :
    Blind (if P then c else d) := by
  split
  · exact hc
  · exact hd

theorem readByte_blind (p : Params) (a : Nat) : Blind (readByte p a) := by
  intro w b
  unfold readByte
  show (if rejected p (portAddr p a) then _ else _) = resultWithBinit (if rejected p (portAddr p a) then _ else _) b
  split <;> rfl

theorem writeByte_blind (p : Params) (a : Nat) (v : Byte) : Blind (writeByte p a v) := by
  intro w b
  unfold writeByte
  show (if rejected p (portAddr p a) then _ else _) = resultWithBinit (if rejected p (portAddr p a) then _ else _) b
  split <;> rfl

theorem memRead_blind (p : Params) (a n : Nat) : Blind (memRead p a n) := by
  induction n generalizing a with
  | zero => exact Blind.pure _
  | succ n ih => exact Blind.bind (readByte_blind p a) fun _ => Blind.bind (ih (a + 1)) fun _ => Blind.pure _

theorem memWrite_blind (p : Params) (a : Nat) (bs : List Byte) : Blind (memWrite p a bs) := by
  induction bs generalizing a with
  | nil => exact Blind.pure _
  | cons b bs ih => exact Blind.bind (writeByte_blind p a b) fun _ => ih (a + 1)

theorem loadPx_blind (p : Params) (a : Nat) (f : Fmt) : Blind (loadPx p a f) :=
  Blind.bind (memRead_blind p a _) fun _ => Blind.pure _

theorem storePx_blind (p : Params) (a : Nat) (f : Fmt) (v : Word) : Blind (storePx p a f v) :=
  memWrite_blind p a _

theorem storePxIa_blind (p : Params) (a : Nat) (f : Fmt) (v : Word) : Blind (storePxIa p a f v) := by
  unfold storePxIa
  refine Blind.ite ?_ (Blind.ite ?_ (storePx_blind p a f v))
  · exact Blind.bind (readByte_blind p _) fun _ => storePx_blind p a f _
  · exact Blind.bind (readByte_blind p _) fun _ => storePx_blind p a f _

theorem readWordLe_blind (p : Params) (a : Nat) : Blind (readWordLe p a) :=
  Blind.bind (memRead_blind p a _) fun _ => Blind.pure _

theorem paletteFmt_blind (p : Params) (pal : Palette) : Blind (paletteFmt p pal) := by
  cases pal with
  | absent => exact Blind.pure _
  | built es => exact Blind.pure _
  | inMemory a => exact Blind.bind (readWordLe_blind p a) fun _ => Blind.pure _

theorem paletteEntry_blind (p : Params) (pal : Palette) (i : Nat) : Blind (paletteEntry p pal i) := by
  cases pal with
  | absent => exact Blind.pure _
  | built es => exact Blind.pure _
  | inMemory a => exact readWordLe_blind p _

theorem split_blind (p : Params) (v : Word) (f : Fmt) (pal : Palette) : Blind (split p v f pal) := by
  unfold split
  refine Blind.ite ?_ (Blind.ofExcept _)
  refine Blind.bind (Blind.failIf _ _) fun _ => Blind.bind (Blind.failIf _ _) fun _ =>
    Blind.bind (paletteEntry_blind p pal _) fun _ => Blind.bind (paletteFmt_blind p pal) fun pf => ?_
  cases pf with
  | none => exact Blind.throw _
  | some g => exact Blind.ofExcept _

theorem convert_blind (p : Params) (v : Word) (sf df : Fmt) (pal : Palette) : Blind (convert p v sf df pal) :=
  Blind.bind (split_blind p v sf pal) fun _ => Blind.ofExcept _

theorem convChecks_blind (p : Params) (sf df : Fmt) (pal : Palette) : Blind (convChecks p sf df pal) := by
  refine Blind.bind (Blind.failIf _ _) fun _ => Blind.bind (Blind.onlyIf ?_) fun _ => Blind.failIf _ _
  refine Blind.bind (Blind.failIf _ _) fun _ => Blind.bind (paletteFmt_blind p pal) fun pf => ?_
  cases pf with
  | none => exact Blind.throw _
  | some g => exact Blind.bind (Blind.failIf _ _) fun _ => Blind.failIf _ _

theorem pixelCopy_blind {p : Params} {j : CopyJob} {store : Nat → Word → Cmd Unit}
    (h : ∀ a v, Blind (store a v)) : Blind (pixelCopy p j store) :=
  Blind.bind (convChecks_blind p _ _ _) fun _ => Blind.forEach fun _ => Blind.forEach fun _ =>
    Blind.bind (loadPx_blind p _ _) fun _ => Blind.bind (convert_blind p _ _ _ _) fun _ => h _ _

/-- The overlap-safe path does not read the backend handle's bit. -/
theorem overlapSafe_blind (p : Params) (j : CopyJob) : Blind (overlapSafe p j) := by
  unfold overlapSafe
  cases j.mode with
  | raw =>
    exact Blind.ite (Blind.pure _) (Blind.forEach fun _ => Blind.bind (memRead_blind p _ _) fun _ =>
      memWrite_blind p _ _)
  | conv => exact pixelCopy_blind fun a v => storePx_blind p a _ v
  | alpha => exact pixelCopy_blind fun a v => storePxIa_blind p a _ v

end Sys2Proof.Machine
end

