-- ==== Sys2Proof/Laws/Converting.lean ====
section
/-! SUPPORT. A converting copy after its checks: no pixel can fail (42_blit_engine R207), as long as the copy
does not overwrite the palette's tag. -/

namespace Sys2Proof.Machine

/-! ### What a read that succeeds delivers, on any platform -/

theorem readByte_ok {p : Params} {a : Nat} {w w' : Work} {b : Byte} (h : readByte p a w = .ok b w') :
    b = Memory.read w.mem (portAddr p a) ∧ w' = w := by
  unfold readByte at h
  split at h <;> cases h
  exact ⟨rfl, rfl⟩

theorem memRead_ok {p : Params} {a n : Nat} {w w' : Work} {bs : List Byte} (h : memRead p a n w = .ok bs w') :
    bs = bytesAt p w.mem a n ∧ w' = w := by
  induction n generalizing a w' bs with
  | zero =>
    cases h
    exact ⟨rfl, rfl⟩
  | succ n ih =>
    obtain ⟨b, w1, h1, h⟩ := bind_ok h
    obtain ⟨cs, w2, h2, h⟩ := bind_ok h
    cases h
    obtain ⟨rfl, rfl⟩ := readByte_ok h1
    obtain ⟨rfl, rfl⟩ := ih h2
    exact ⟨(bytesAt_succ _ _ _ _).symm, rfl⟩

theorem loadPx_ok {p : Params} {a : Nat} {f : Fmt} {w w' : Work} {v : Word} (h : loadPx p a f w = .ok v w') :
    v = pixelAt p w.mem a f ∧ w' = w := by
  obtain ⟨m, w1, h1, h⟩ := bind_ok h
  cases h
  obtain ⟨rfl, rfl⟩ := memRead_ok h1
  exact ⟨rfl, rfl⟩

theorem readWordLe_ok {p : Params} {a : Nat} {w w' : Work} {v : Word} (h : readWordLe p a w = .ok v w') :
    v = wordLeAt p w.mem a ∧ w' = w := by
  obtain ⟨m, w1, h1, h⟩ := bind_ok h
  cases h
  obtain ⟨rfl, rfl⟩ := memRead_ok h1
  refine ⟨?_, rfl⟩
  rw [byteAt_bytesAt _ _ _ _ _ (by omega), byteAt_bytesAt _ _ _ _ _ (by omega),
    byteAt_bytesAt _ _ _ _ _ (by omega), byteAt_bytesAt _ _ _ _ _ (by omega)]
  rfl

theorem paletteFmt_ok {p : Params} {pal : Palette} {w w' : Work} {pf : Option Fmt}
    (h : paletteFmt p pal w = .ok pf w') : pf = (paletteIn p w.mem pal 0).1 ∧ w' = w := by
  cases pal with
  | absent =>
    cases h
    exact ⟨rfl, rfl⟩
  | built es =>
    cases h
    exact ⟨rfl, rfl⟩
  | inMemory a =>
    obtain ⟨v, w1, h1, h⟩ := bind_ok h
    cases h
    obtain ⟨rfl, rfl⟩ := readWordLe_ok h1
    exact ⟨rfl, rfl⟩

/-- What `conv_checks` having passed says (42_blit_engine R207). -/
theorem convChecks_ok {p : Params} {sf df : Fmt} {pal : Palette} {w w' : Work}
    (h : convChecks p sf df pal w = .ok () w') :
    sf.unpackable = true ∧ df.packable = true ∧ (sf = .rgb8 → tagServes p w.mem pal) ∧ w' = w := by
  have hw : w' = w := by
    have := convChecks_same p sf df pal w
    rwa [h] at this
  rw [convChecks, failIf_bind] at h
  split at h
  · cases h
  rename_i hs
  obtain ⟨_, w1, h1, h⟩ := bind_ok h
  have hd : df.packable = true := by
    cases hd : df.packable with
    | true => rfl
    | false =>
      rw [hd] at h
      cases h
  refine ⟨by simpa using hs, hd, fun h8 => ?_, hw⟩
  rw [h8, beq_self_eq_true, onlyIf_true, paletteChecks, failIf_bind] at h1
  split at h1
  · cases h1
  rename_i ha
  obtain ⟨pf, w2, h2, h1⟩ := bind_ok h1
  obtain ⟨hpf, rfl⟩ := paletteFmt_ok h2
  refine ⟨fun hab => ha (by rw [hab]; rfl), ?_⟩
  cases pf with
  | none => cases h1
  | some g =>
    simp only at h1
    rw [failIf_bind] at h1
    split at h1
    · cases h1
    rename_i h8
    refine ⟨g, hpf.symm, fun hg => h8 (by rw [hg]; rfl), ?_⟩
    cases hu : g.unpackable with
    | true => rfl
    | false =>
      rw [hu] at h1
      cases h1

/-- A conversion whose checks have passed ends early only with BUS. -/
theorem convert_error {p : Params} {sf df : Fmt} {pal : Palette} {v : Word} {w w' : Work} {e : Err}
    (hs : sf.unpackable = true) (hd : df.packable = true) (hp : sf = .rgb8 → v.toNat ≤ 255 ∧ tagServes p w.mem pal)
    (h : convert p v sf df pal w = .error e w') : e = .bus := by
  have hpack : ∀ c w1, ofExcept (pack p df c) w1 = .error e w' → e = .bus := by
    intro c w1 h
    obtain ⟨x, hx⟩ := pack_ok (p := p) hd c
    rw [hx] at h
    cases h
  rcases bind_error h with h | ⟨c, w1, _, h⟩
  · unfold split at h
    by_cases h8 : sf = .rgb8
    · obtain ⟨hv, ha, g, hg, hg8, hgu⟩ := hp h8
      rw [if_pos h8, splitIndexed, failIf_bind] at h
      rw [beq_false_of_ne ha] at h
      simp only [Bool.false_eq_true, if_false] at h
      rw [failIf_bind, decide_eq_false (by omega)] at h
      simp only [Bool.false_eq_true, if_false] at h
      rcases bind_error h with h | ⟨x, w1, hx, h'⟩
      · exact paletteEntry_raises p pal _ _ _ _ h
      · clear h
        have hw1 : w1 = w := by
          have := paletteEntry_same p pal v.toNat w
          rwa [hx] at this
        subst hw1
        rcases bind_error h' with h2 | ⟨pf, w2, hpf, h2⟩
        · exact paletteFmt_raises p pal _ _ _ h2
        · obtain ⟨hpf, rfl⟩ := paletteFmt_ok hpf
          rw [hg] at hpf
          subst hpf
          obtain ⟨c, hc⟩ := splitBare_ok (p := p) hgu hg8 x
          simp only [hc] at h2
          cases h2
    · rw [if_neg h8] at h
      obtain ⟨c, hc⟩ := splitBare_ok (p := p) hs h8 v
      rw [hc] at h
      cases h
  · exact hpack c w1 h

/-! ### The palette's tag -/

/-- The tag of a palette in memory is not in `S`. -/
abbrev tagOutside (p : Params) (pal : Palette) (S : Nat → Prop) : Prop :=
  ∀ a, pal = .inMemory a → ∀ k, k < 4 → ¬ S (portAddr p (a + k))

theorem wordLeAt_congr {p : Params} {m m' : Memory} {a : Nat}
    (h : ∀ k, k < 4 → Memory.read m (portAddr p (a + k)) = Memory.read m' (portAddr p (a + k))) :
    wordLeAt p m a = wordLeAt p m' a := by
  have h0 := h 0 (by omega)
  rw [Nat.add_zero] at h0
  rw [wordLeAt, wordLeAt, h 3 (by omega), h 2 (by omega), h 1 (by omega), h0]

theorem tag_congr {p : Params} {pal : Palette} {S : Nat → Prop} {w w' : Work} (ht : tagOutside p pal S)
    (h : KeepsOutside S w w') : (paletteIn p w'.mem pal 0).1 = (paletteIn p w.mem pal 0).1 := by
  cases pal with
  | absent => rfl
  | built es => rfl
  | inMemory a =>
    show decodeFmt _ = decodeFmt _
    rw [wordLeAt_congr fun k hk => h _ (ht a rfl k hk)]

theorem tagServes_congr {p : Params} {pal : Palette} {S : Nat → Prop} {w w' : Work} (ht : tagOutside p pal S)
    (h : KeepsOutside S w w') (hs : tagServes p w.mem pal) : tagServes p w'.mem pal := by
  unfold tagServes at hs ⊢
  rwa [tag_congr ht h]

/-! ### The per-pixel loop -/

/-- A per-pixel loop ends early, other than with BUS, only before it has changed anything. -/
theorem pixelCopy_failure {p : Params} {j : CopyJob} {store : Nat → Word → Cmd Unit} {w w' : Work} {e : Err}
    (hstore : ∀ x y, x < j.w → y < j.h → ∀ v,
      Moves (Stores (j.rect.footprint p)) (store (j.rect.pixel x y) v))
    (hraise : ∀ a v, Raises (· = .bus) (store a v))
    (ht : j.sf = .rgb8 → tagOutside p j.pal (j.rect.footprint p))
    (h : pixelCopy p j store w = .error e w') (he : e ≠ .bus) : w' = w := by
  unfold pixelCopy at h
  rcases bind_error h with h | ⟨_, w1, h1, hloop⟩
  · have := convChecks_same p j.sf j.df j.pal w
    rwa [h] at this
  · exfalso
    obtain ⟨hs, hd, hp, rfl⟩ := convChecks_ok h1
    have hR := stores_step (j.rect.footprint p)
    -- each turn keeps `Stores` from the start and ends early only with BUS
    have hturn : ∀ x y, x < j.w → y < j.h → ∀ u, Stores (j.rect.footprint p) w1 u → ∀ e' u',
        (do
          let v ← loadPx p (j.srcPixel x y) j.sf
          let c ← convert p v j.sf j.df j.pal
          store (j.rect.pixel x y) c) u = .error e' u' → e' = .bus := by
      intro x y hx hy u hu e' u' hb
      rcases bind_error hb with hb1 | ⟨v, u1, hv, hb1⟩
      · exact loadPx_raises p _ _ _ _ _ hb1
      · obtain ⟨hv', rfl⟩ := loadPx_ok hv
        rcases bind_error hb1 with hb2 | ⟨c, u2, _, hb2⟩
        · refine convert_error hs hd (fun h8 => ⟨?_, ?_⟩) hb2
          · rw [hv', h8]
            exact pixelAt_rgb8_le p _ _
          · exact tagServes_congr (ht h8) hu.1 (hp h8)
        · exact hraise _ _ _ _ _ hb2
    have hmoves : ∀ x y, x < j.w → y < j.h → Moves (Stores (j.rect.footprint p))
        (do
          let v ← loadPx p (j.srcPixel x y) j.sf
          let c ← convert p v j.sf j.df j.pal
          store (j.rect.pixel x y) c) := fun x y hx hy =>
      Moves.bind hR (moves_of_same hR (loadPx_same p _ _)) fun v =>
        Moves.bind hR (moves_of_same hR (convert_same p _ _ _ _)) fun c => hstore x y hx hy c
    have hrow : ∀ y, y < j.h → ∀ xs : List Nat, (∀ x ∈ xs, x < j.w) → ∀ u,
        Stores (j.rect.footprint p) w1 u → ∀ e' u',
        (forEach xs fun x => do
          let v ← loadPx p (j.srcPixel x y) j.sf
          let c ← convert p v j.sf j.df j.pal
          store (j.rect.pixel x y) c) u = .error e' u' → e' = .bus := by
      intro y hy xs
      induction xs with
      | nil =>
        intro _ u _ e' u' hb
        cases hb
      | cons x xs ih =>
        intro hxs u hu e' u' hb
        rw [forEach_cons] at hb
        rcases bind_error hb with hb | ⟨_, u1, h2, hb⟩
        · exact hturn x y (hxs x (by simp)) hy u hu e' u' hb
        · refine ih (fun x hx => hxs x (by simp [hx])) u1 (hR.trans hu ?_) e' u' hb
          have := hmoves x y (hxs x (by simp)) hy u
          rwa [h2] at this
    have hall : ∀ ys : List Nat, (∀ y ∈ ys, y < j.h) → ∀ u, Stores (j.rect.footprint p) w1 u → ∀ e' u',
        (forEach ys fun y => forEach j.colOrder fun x => do
          let v ← loadPx p (j.srcPixel x y) j.sf
          let c ← convert p v j.sf j.df j.pal
          store (j.rect.pixel x y) c) u = .error e' u' → e' = .bus := by
      intro ys
      induction ys with
      | nil =>
        intro _ u _ e' u' hb
        cases hb
      | cons y ys ih =>
        intro hys u hu e' u' hb
        rw [forEach_cons] at hb
        rcases bind_error hb with hb | ⟨_, u1, h2, hb⟩
        · exact hrow y (hys y (by simp)) j.colOrder (fun x hx => CopyJob.mem_colOrder hx) u hu e' u' hb
        · refine ih (fun y hy => hys y (by simp [hy])) u1 (hR.trans hu ?_) e' u' hb
          have := (Moves.forEach hR (ns := j.colOrder) fun x hx =>
            hmoves x y (CopyJob.mem_colOrder hx) (hys y (by simp))) u
          rwa [h2] at this
    exact he (hall j.rowOrder (fun y hy => CopyJob.mem_rowOrder hy) w1 (hR.refl w1) e w' hloop)

/-- A per-pixel loop whose checks pass runs through on a platform that rejects nothing. -/
theorem pixelCopy_runs {p : Params} (hp : p.rejects = []) {j : CopyJob} {store : Nat → Word → Cmd Unit} {w : Work}
    (hs : j.sf.unpackable = true) (hd : j.df.packable = true) (hpal : j.sf = .rgb8 → tagServes p w.mem j.pal)
    (ht : j.sf = .rgb8 → tagOutside p j.pal (j.rect.footprint p))
    (hstore : ∀ x y, x < j.w → y < j.h → ∀ v u, ∃ u',
      store (j.rect.pixel x y) v u = .ok () u' ∧ Stores (j.rect.footprint p) u u') :
    ∃ w', pixelCopy p j store w = .ok () w' ∧ Stores (j.rect.footprint p) w w' := by
  unfold pixelCopy
  rw [bind_runs_ok (convChecks_runs hp hs hd hpal)]
  have hR := stores_step (j.rect.footprint p)
  refine forEach_runs (fun _ u => Stores (j.rect.footprint p) w u) ?_ (hR.refl w)
  intro done y rest hys u hu
  have hy : y < j.h := CopyJob.mem_rowOrder (j := j) (by simp [hys])
  refine forEach_runs (fun _ u => Stores (j.rect.footprint p) w u) ?_ hu
  intro done x rest hxs u hu
  have hx : x < j.w := CopyJob.mem_colOrder (j := j) (by simp [hxs])
  rw [bind_runs_ok (loadPx_runs hp _ _ _)]
  obtain ⟨c, hc⟩ := convertIn_ok (p := p) (m := u.mem) (pal := j.pal)
    (v := pixelAt p u.mem (j.srcPixel x y) j.sf) hs hd fun h8 =>
      ⟨by rw [h8]; exact pixelAt_rgb8_le p _ _, tagServes_congr (ht h8) hu.1 (hpal h8)⟩
  have hcv : convert p (pixelAt p u.mem (j.srcPixel x y) j.sf) j.sf j.df j.pal u = .ok c u := by
    rw [convert_runs hp, hc]
    rfl
  rw [bind_runs_ok hcv]
  obtain ⟨u', h1, h2⟩ := hstore x y hx hy c u
  exact ⟨u', h1, hR.trans hu h2⟩

theorem storePx_completes {p : Params} (hp : p.rejects = []) (a : Nat) (f : Fmt) (v : Word) (u : Work) :
    ∃ u', storePx p a f v u = .ok () u' ∧ Stores (span p a f.bytes) u u' := by
  have h := storePx_stores p a f v u
  rw [storePx_runs hp] at h
  exact ⟨_, storePx_runs hp a f v u, h⟩

theorem storePxIa_completes {p : Params} (hp : p.rejects = []) (a : Nat) (f : Fmt) (v : Word) (u : Work) :
    ∃ u', storePxIa p a f v u = .ok () u' ∧ Stores (span p a f.bytes) u u' := by
  have h := storePxIa_stores p a f v u
  rw [storePxIa_runs hp] at h
  exact ⟨_, storePxIa_runs hp a f v u, h⟩

theorem memWrite_completes {p : Params} (hp : p.rejects = []) (a : Nat) (bs : List Byte) (u : Work) :
    ∃ u', memWrite p a bs u = .ok () u' ∧ Stores (span p a bs.length) u u' := by
  have h := memWrite_stores p a bs (Nat.le_refl _) u
  rw [memWrite_runs hp] at h
  exact ⟨_, memWrite_runs hp a bs u, h⟩

theorem rawCopy_runs {p : Params} (hp : p.rejects = []) (j : CopyJob) (w : Work) :
    ∃ w', rawCopy p j w = .ok () w' ∧ Stores (j.rect.footprint p) w w' := by
  have hR := stores_step (j.rect.footprint p)
  unfold rawCopy
  split
  · exact ⟨w, rfl, hR.refl w⟩
  · refine forEach_runs (fun _ u => Stores (j.rect.footprint p) w u) ?_ (hR.refl w)
    intro done y rest hys u hu
    rw [bind_runs_ok (memRead_runs hp _ _ _)]
    obtain ⟨u', h1, h2⟩ := memWrite_completes hp (j.rect.pixel 0 y)
      (bytesAt p u.mem (j.srcPixel 0 y) j.rect.rowBytes) u
    refine ⟨u', h1, hR.trans hu (h2.mono fun a hs => ?_)⟩
    rw [bytesAt_length] at hs
    exact ⟨y, CopyJob.mem_rowOrder (j := j) (by simp [hys]), hs⟩

/-- The palette of a job that is ready serves, and its tag stays. -/
theorem CopyJob.ready_tag {p : Params} {m : Memory} {j : CopyJob} (h : j.paletteGood p m) :
    tagServes p m j.pal ∧ tagOutside p j.pal (j.rect.footprint p) := by
  unfold CopyJob.paletteGood at h
  cases hp : j.pal with
  | absent =>
    rw [hp] at h
    exact h.elim
  | built es => exact ⟨⟨by simp, .bgrx32, rfl, by decide, rfl⟩, fun a ha => by cases ha⟩
  | inMemory a =>
    rw [hp] at h
    obtain ⟨⟨g, _, h1, h2, h3⟩, h4⟩ := h
    refine ⟨⟨by simp, g, h1, h2, h3⟩, fun b hb => ?_⟩
    cases hb
    exact h4

/-- A copy that is ready runs through the overlap-safe path and touches only its rectangle. -/
theorem overlapSafe_runs {p : Params} (hp : p.rejects = []) {j : CopyJob} {w : Work} (h : j.ready p w.mem) :
    ∃ w', overlapSafe p j w = .ok () w' ∧ Stores (j.rect.footprint p) w w' := by
  unfold overlapSafe
  by_cases hraw : j.mode = .raw
  · rw [hraw]
    exact rawCopy_runs hp j w
  · obtain ⟨hs, hd, hpal⟩ := h.resolve_left hraw
    have hfoot : ∀ x y, x < j.w → y < j.h → ∀ a, span p (j.rect.pixel x y) j.df.bytes a → j.rect.footprint p a :=
      fun x y hx hy a ha => Rect.pixel_footprint (t := j.rect) hx hy ha
    have h1 := fun h8 => (CopyJob.ready_tag (hpal h8)).1
    have h2 := fun h8 => (CopyJob.ready_tag (hpal h8)).2
    cases hm : j.mode with
    | raw => exact absurd hm hraw
    | conv =>
      refine pixelCopy_runs hp hs hd h1 h2 fun x y hx hy v u => ?_
      obtain ⟨u', h3, h4⟩ := storePx_completes hp (j.rect.pixel x y) j.df v u
      exact ⟨u', h3, h4.mono (hfoot x y hx hy)⟩
    | alpha =>
      refine pixelCopy_runs hp hs hd h1 h2 fun x y hx hy v u => ?_
      obtain ⟨u', h3, h4⟩ := storePxIa_completes hp (j.rect.pixel x y) j.df v u
      exact ⟨u', h3, h4.mono (hfoot x y hx hy)⟩

/-- The overlap-safe path ends early, other than with BUS, only before it has changed anything. -/
theorem overlapSafe_failure {p : Params} {j : CopyJob} {w w' : Work} {e : Err}
    (ht : j.sf = .rgb8 → tagOutside p j.pal (j.rect.footprint p))
    (h : overlapSafe p j w = .error e w') (he : e ≠ .bus) : w' = w := by
  unfold overlapSafe at h
  have hfoot : ∀ x y, x < j.w → y < j.h → ∀ a, span p (j.rect.pixel x y) j.df.bytes a → j.rect.footprint p a :=
    fun x y hx hy a ha => Rect.pixel_footprint (t := j.rect) hx hy ha
  cases hm : j.mode with
  | raw =>
    rw [hm] at h
    exact absurd (rawCopy_raises p j w e w' h) he
  | conv =>
    rw [hm] at h
    refine pixelCopy_failure (fun x y hx hy v => ?_) (fun a v => storePx_raises p a _ v) ht h he
    exact Moves.mono (fun _ _ h => h.mono (hfoot x y hx hy)) (storePx_stores p _ _ v)
  | alpha =>
    rw [hm] at h
    refine pixelCopy_failure (fun x y hx hy v => ?_) (fun a v => storePxIa_raises p a _ v) ht h he
    exact Moves.mono (fun _ _ h => h.mono (hfoot x y hx hy)) (storePxIa_stores p _ _ v)

end Sys2Proof.Machine
end

