-- ==== Sys2Proof/Laws/Commands.lean ====
section
/-! SUPPORT. The bodies of the commands, each said twice: it keeps memory's form (`_form`), and it changes
nothing outside the bytes its rule names, whatever the outcome and the platform (`_stores`). -/

namespace Sys2Proof.Machine

/-! ### Pieces -/

theorem setBinit_form (p : Params) : Moves (KeepsForm p) setBinit := by
  intro w
  exact ⟨id, id, fun _ => rfl, Nat.le_refl _⟩

theorem takeDraw_form (p : Params) : Moves (KeepsForm p) takeDraw := by
  intro w
  exact ⟨id, id, id, Nat.le_succ _⟩

theorem setBinit_keeps (S : Nat → Prop) : Moves (KeepsOutside S) setBinit := fun _ _ _ => rfl

theorem takeDraw_keeps (S : Nat → Prop) : Moves (KeepsOutside S) takeDraw := fun _ _ _ => rfl

theorem keeps_of_stores {α : Type} {S : Nat → Prop} {c : Cmd α} (h : Moves (Stores S) c) :
    Moves (KeepsOutside S) c :=
  Moves.mono (fun _ _ h => h.1) h

theorem nonOverlapping_moves {R : Work → Work → Prop} (hR : Step R) {p : Params} {j : CopyJob}
    (hb : Moves R setBinit) (h : Moves R (overlapSafe p j)) : Moves R (nonOverlapping p j) :=
  Moves.bind hR hb fun _ => Moves.bind hR (Moves.failIf hR _ _) fun _ =>
    Moves.bind hR (Moves.failIf hR _ _) fun _ => h

theorem dispatchCopy_moves {R : Work → Work → Prop} (hR : Step R) {p : Params} {j : CopyJob}
    (hb : Moves R setBinit) (h : Moves R (overlapSafe p j)) : Moves R (dispatchCopy p j) :=
  Moves.ite (fun _ => h) fun _ => nonOverlapping_moves hR hb h

/-- What a copy request's path does, its checks passed, is what the request does. -/
theorem copyWith_moves {R : Work → Work → Prop} (hR : Step R) {p : Params} {q : CopyReq}
    {path : CopyJob → Cmd Unit}
    (h : ∀ df sf, q.dfmt = some df → q.sfmt = some sf → Moves R (path (q.job df sf))) :
    Moves R (copyWith p q path) := by
  unfold copyWith copyChecks
  cases hd : q.dfmt with
  | none => exact Moves.throw hR _
  | some df =>
    cases hs : q.sfmt with
    | none => exact Moves.throw hR _
    | some sf =>
      simp only
      split
      · rename_i e he
        exact Moves.throw hR _
      · exact Moves.pure hR _
      · rename_i j hj
        have : j = q.job df sf := by
          split at hj
          · cases hj
          · split at hj
            · cases hj
            · split at hj
              · cases hj
              · cases hj
                rfl
        rw [this]
        exact h df sf hd hs

theorem nonOverlapping_form (p : Params) (j : CopyJob) : Moves (KeepsForm p) (nonOverlapping p j) :=
  nonOverlapping_moves (keepsForm_step p) (setBinit_form p) (overlapSafe_form p j)

theorem dispatchCopy_form (p : Params) (j : CopyJob) : Moves (KeepsForm p) (dispatchCopy p j) :=
  dispatchCopy_moves (keepsForm_step p) (setBinit_form p) (overlapSafe_form p j)

theorem nonOverlapping_keeps (p : Params) (j : CopyJob) :
    Moves (KeepsOutside (j.rect.footprint p)) (nonOverlapping p j) :=
  nonOverlapping_moves (keepsOutside_step _) (setBinit_keeps _) (keeps_of_stores (overlapSafe_stores p j))

theorem dispatchCopy_keeps (p : Params) (j : CopyJob) :
    Moves (KeepsOutside (j.rect.footprint p)) (dispatchCopy p j) :=
  dispatchCopy_moves (keepsOutside_step _) (setBinit_keeps _) (keeps_of_stores (overlapSafe_stores p j))

/-- The rectangle of a copy command is that of its operand registers. -/
theorem copyReq_rect (r : OperandRegs) (df sf : Fmt) : ((copyReq r).job df sf).rect = destRect r df := rfl

theorem scaleReq_rect (r : OperandRegs) (df sf : Fmt) : ((scaleReq r).job df sf).rect = destRect r df := rfl

theorem iconReq_rect (r : OperandRegs) (f df sf : Fmt) (pal : Palette) :
    ((iconReq r f pal).job df sf).rect = destRect r df := rfl

/-- A relation kept by what a loop over pixels does at each pixel. -/
theorem forPixels_moves {R : Work → Work → Prop} (hR : Step R) {w h : Nat} {body : Nat → Nat → Cmd Unit}
    (hb : ∀ x y, x < w → y < h → Moves R (body x y)) : Moves R (forPixels w h body) :=
  nested_moves hR fun x hx y hy => hb x y (List.mem_range.1 hx) (List.mem_range.1 hy)

theorem pixel_keeps {p : Params} {t : Rect} {x y : Nat} (hx : x < t.w) (hy : y < t.h) (v : Word) :
    Moves (KeepsOutside (t.footprint p)) (storePx p (t.pixel x y) t.fmt v) :=
  Moves.mono (fun _ _ h => pixel_span_footprint hx hy h) (storePx_keeps p _ _ v)

theorem zeroFill_moves {R : Work → Work → Prop} (hR : Step R) {p : Params} {t : Rect}
    (h : ∀ y bs, y < t.h → bs.length = t.rowBytes → Moves R (memWrite p (t.pixel 0 y) bs)) :
    Moves R (zeroFill p t) :=
  Moves.forEach hR fun y hy => h y _ (List.mem_range.1 hy) (by simp)

theorem row_keeps {p : Params} {t : Rect} {y : Nat} {bs : List Byte} (hy : y < t.h) (hb : bs.length ≤ t.rowBytes) :
    Moves (KeepsOutside (t.footprint p)) (memWrite p (t.pixel 0 y) bs) :=
  Moves.mono (fun _ _ h => row_span_footprint hy hb h) (memWrite_keeps p _ bs)

theorem zeroFill_form (p : Params) (t : Rect) : Moves (KeepsForm p) (zeroFill p t) :=
  zeroFill_moves (keepsForm_step p) fun _ _ _ _ => memWrite_form p _ _

theorem zeroFill_keeps (p : Params) (t : Rect) : Moves (KeepsOutside (t.footprint p)) (zeroFill p t) :=
  zeroFill_moves (keepsOutside_step _) fun _ _ hy hb => row_keeps hy (by omega)

/-! ### FMT_NAME, WRITECOLOR, WRITECOLOR_IA -/

theorem fmtNameCmd_form (s : State) : Moves (KeepsForm s.params) (fmtNameCmd s) :=
  Moves.bind (keepsForm_step _) (Moves.failIf (keepsForm_step _) _ _) fun _ =>
    Moves.bind (keepsForm_step _) (memWrite_form _ _ _) fun _ => Moves.pure (keepsForm_step _) _

theorem fmtNameCmd_keeps (s : State) :
    Moves (KeepsOutside (span s.params s.regs.dst.toNat ((fmtName (decodeFmt s.regs.sfmt)).length + 1)))
      (fmtNameCmd s) := by
  have hR := keepsOutside_step (span s.params s.regs.dst.toNat ((fmtName (decodeFmt s.regs.sfmt)).length + 1))
  refine Moves.bind hR (Moves.failIf hR _ _) fun _ => Moves.bind hR ?_ fun _ => Moves.pure hR _
  have := memWrite_keeps s.params s.regs.dst.toNat (fmtName (decodeFmt s.regs.sfmt) ++ [0])
  simpa using this

theorem writeColorWith_moves {R : Work → Work → Prop} (hR : Step R) {s : State}
    {store : Params → Nat → Fmt → Word → Cmd Unit}
    (h : ∀ f, decodeFmt s.regs.dfmt = some f → Moves R (store s.params s.regs.dst.toNat f s.regs.color0)) :
    Moves R (writeColorWith s store) := by
  unfold writeColorWith
  cases hd : decodeFmt s.regs.dfmt with
  | none => exact Moves.throw hR _
  | some f =>
    exact Moves.bind hR (Moves.failIf hR _ _) fun _ => Moves.bind hR (Moves.failIf hR _ _) fun _ => h f hd

/-! ### FILL, SCALE -/

theorem fillRect_form (p : Params) (t : Rect) (c : Word) : Moves (KeepsForm p) (fillRect p t c) := by
  have hR := keepsForm_step p
  refine Moves.bind hR (Moves.forEach hR fun x _ => storePx_form p _ _ _) fun _ => Moves.forEach hR fun y _ => ?_
  exact Moves.bind hR (moves_of_same hR (memRead_same p _ _)) fun _ => memWrite_form p _ _

theorem fillRect_keeps (p : Params) (t : Rect) (c : Word) (hh : 0 < t.h) :
    Moves (KeepsOutside (t.footprint p)) (fillRect p t c) := by
  have hR := keepsOutside_step (t.footprint p)
  refine Moves.bind hR (Moves.forEach hR fun x hx => pixel_keeps (List.mem_range.1 hx) hh _) fun _ =>
    Moves.forEach hR fun y hy => ?_
  have hy' : y < t.h := by
    have := List.mem_range'_1.1 hy
    omega
  intro w
  cases hr : memRead p (t.pixel 0 0) t.rowBytes w with
  | ok bs w' =>
    obtain ⟨rfl, rfl⟩ := memRead_ok hr
    rw [bind_runs_ok hr]
    exact row_keeps hy' (by simp) w'
  | error e w' =>
    have := memRead_same p (t.pixel 0 0) t.rowBytes w
    rw [hr] at this
    rw [bind_runs_error hr]
    obtain rfl : w' = w := this
    exact hR.refl _

theorem fillCmd_moves {R : Work → Work → Prop} (hR : Step R) {s : State}
    (h : ∀ f, decodeFmt s.regs.dfmt = some f → s.regs.h ≠ 0 →
      Moves R (fillRect s.params (destRect s.regs f) s.regs.color0)) : Moves R (fillCmd s) := by
  unfold fillCmd
  cases hd : decodeFmt s.regs.dfmt with
  | none => exact Moves.throw hR _
  | some f =>
    refine Moves.bind hR (Moves.failIf hR _ _) fun _ => Moves.ite (fun _ => Moves.pure hR _) fun hn => ?_
    exact Moves.bind hR (Moves.failIf hR _ _) fun _ => h f hd fun h0 => hn (.inr h0)

theorem resample_moves {R : Work → Work → Prop} (hR : Step R) {s : State} {df sf : Fmt} (hd : Moves R takeDraw)
    (h : ∀ y bs, y < s.regs.h.toNat → bs.length = (destRect s.regs df).rowBytes →
      Moves R (memWrite s.params ((destRect s.regs df).pixel 0 y) bs)) : Moves R (resample s df sf) :=
  Moves.bind hR (Moves.failIf hR _ _) fun _ => Moves.bind hR (Moves.failIf hR _ _) fun _ =>
    Moves.bind hR hd fun draw => Moves.forEach hR fun y hy =>
    h y _ (List.mem_range.1 hy) (by simp [resampledRow])

theorem scaleCmd_moves {R : Work → Work → Prop} (hR : Step R) {s : State}
    (hc : ∀ df sf, decodeFmt s.regs.dfmt = some df → Moves R (nonOverlapping s.params ((scaleReq s.regs).job df sf)))
    (hr : ∀ df sf, decodeFmt s.regs.dfmt = some df → Moves R (resample s df sf)) : Moves R (scaleCmd s) := by
  unfold scaleCmd
  cases hd : decodeFmt s.regs.dfmt with
  | none => exact Moves.throw hR _
  | some df =>
    cases hs : decodeFmt s.regs.sfmt with
    | none => exact Moves.throw hR _
    | some sf =>
      refine Moves.ite (fun _ => ?_) fun _ => ?_
      · exact copyWith_moves hR fun df' sf' hd' _ => hc df' sf' hd'
      · exact Moves.bind hR (Moves.failIf hR _ _) fun _ => hr df sf hd

/-! ### GLYPH, MONO -/

theorem glyphCmd_moves {R : Work → Work → Prop} (hR : Step R) {s : State}
    (h : ∀ x y b, x < s.regs.w.toNat → y < s.regs.h.toNat →
      Moves R (memWrite s.params (s.regs.dst.toNat + y * s.regs.w.toNat + x) [b])) : Moves R (glyphCmd s) :=
  Moves.bind hR (Moves.failIf hR _ _) fun _ => forPixels_moves hR fun x y hx hy =>
    Moves.bind hR (moves_of_same hR (readBit_same _ _ _ _ _)) fun _ => h x y _ hx hy

theorem monoCmd_moves {R : Work → Work → Prop} (hR : Step R) {s : State}
    (h : ∀ f x y v, decodeFmt s.regs.dfmt = some f → x < s.regs.w.toNat → y < s.regs.h.toNat →
      Moves R (storePx s.params ((destRect s.regs f).pixel x y) f v)) : Moves R (monoCmd s) := by
  unfold monoCmd
  cases hd : decodeFmt s.regs.dfmt with
  | none => exact Moves.throw hR _
  | some f =>
    refine Moves.bind hR (Moves.failIf hR _ _) fun _ => Moves.bind hR (Moves.failIf hR _ _) fun _ =>
      forPixels_moves hR fun x y hx hy => ?_
    exact Moves.bind hR (moves_of_same hR (readBit_same _ _ _ _ _)) fun _ => h f x y _ hd hx hy

/-! ### ICON -/

theorem readTable_same (p : Params) (a n : Nat) : Moves Same (readTable p a n) := by
  induction n generalizing a with
  | zero => exact Moves.pure same_step _
  | succ n ih =>
    exact Moves.bind same_step (loadPx_same p a _) fun _ => Moves.bind same_step (ih (a + 4)) fun _ =>
      Moves.pure same_step _

theorem iconPalette_same (p : Params) (a n : Nat) : Moves Same (iconPalette p a n) := by
  unfold iconPalette
  exact Moves.ite (fun _ => Moves.bind same_step (readTable_same p a _) fun _ => Moves.pure same_step _) fun _ =>
    Moves.pure same_step _

theorem iconMaskPass_moves {R : Work → Work → Prop} (hR : Step R) {p : Params} {t : Rect} {msk : Nat}
    (h : ∀ x y v, x < t.w → y < t.h → Moves R (storePx p (t.pixel x y) t.fmt v)) :
    Moves R (iconMaskPass p t msk) :=
  forPixels_moves hR fun x y hx hy =>
    Moves.bind hR (moves_of_same hR (readBit_same _ _ _ _ _)) fun _ =>
    Moves.bind hR (moves_of_same hR (loadPx_same _ _ _)) fun _ =>
    Moves.bind hR (moves_of_same hR (split_same _ _ _ _)) fun _ =>
    Moves.bind hR (Moves.ofExcept hR _) fun _ => h x y _ hx hy

theorem iconCmd_moves {R : Work → Work → Prop} (hR : Step R) {s : State}
    (hc : ∀ f sf pal, decodeFmt s.regs.dfmt = some f →
      Moves R (copyWith s.params (iconReq s.regs sf pal) (dispatchCopy s.params)))
    (hm : ∀ f, decodeFmt s.regs.dfmt = some f →
      Moves R (iconMaskPass s.params (destRect s.regs f) s.regs.msk.toNat)) : Moves R (iconCmd s) := by
  unfold iconCmd
  cases hd : decodeFmt s.regs.dfmt with
  | none => exact Moves.throw hR _
  | some f =>
    refine Moves.bind hR (Moves.failIf hR _ _) fun _ => ?_
    cases iconFmt s.regs.bpp with
    | none => exact Moves.throw hR _
    | some sf =>
      exact Moves.bind hR (Moves.failIf hR _ _) fun _ => Moves.bind hR (Moves.failIf hR _ _) fun _ =>
        Moves.bind hR (moves_of_same hR (iconPalette_same _ _ _)) fun pal =>
        Moves.bind hR (Moves.failIf hR _ _) fun _ => Moves.bind hR (Moves.failIf hR _ _) fun _ =>
        Moves.bind hR (hc f sf pal hd) fun _ => Moves.onlyIf hR fun _ => hm f hd

/-! ### CURSOR -/

theorem cursorMonoCmd_moves {R : Work → Work → Prop} (hR : Step R) {s : State} {t : Rect}
    (h : ∀ x y v, x < t.w → y < t.h → Moves R (storePx s.params (t.pixel x y) t.fmt v)) :
    Moves R (cursorMonoCmd s t) :=
  Moves.bind hR (Moves.failIf hR _ _) fun _ => Moves.bind hR (Moves.failIf hR _ _) fun _ =>
    forPixels_moves hR fun x y hx hy =>
    Moves.bind hR (moves_of_same hR (readBit_same _ _ _ _ _)) fun _ =>
    Moves.bind hR (moves_of_same hR (readBit_same _ _ _ _ _)) fun _ =>
    Moves.bind hR (Moves.ofExcept hR _) fun _ => h x y _ hx hy

theorem cursorAndBit_same (s : State) (t : Rect) (row x : Nat) : Moves Same (cursorAndBit s t row x) := by
  unfold cursorAndBit
  exact Moves.ite (fun _ => Moves.pure same_step _) fun _ => readBit_same _ _ _ _ _

theorem cursorColorCmd_moves {R : Work → Work → Prop} (hR : Step R) {s : State} {t : Rect} {xf : Fmt}
    (h : ∀ x y v, x < t.w → y < t.h → Moves R (storePx s.params (t.pixel x y) t.fmt v)) :
    Moves R (cursorColorCmd s t xf) :=
  Moves.bind hR (Moves.failIf hR _ _) fun _ => Moves.bind hR (moves_of_same hR (convChecks_same _ _ _ _)) fun _ =>
    Moves.bind hR (Moves.failIf hR _ _) fun _ => Moves.bind hR (Moves.failIf hR _ _) fun _ =>
    forPixels_moves hR fun x y hx hy =>
    Moves.bind hR (moves_of_same hR (loadPx_same _ _ _)) fun _ =>
    Moves.bind hR (moves_of_same hR (convert_same _ _ _ _ _)) fun _ =>
    Moves.bind hR (moves_of_same hR (cursorAndBit_same _ _ _ _)) fun _ =>
    Moves.bind hR (Moves.ofExcept hR _) fun _ =>
    Moves.bind hR (moves_of_same hR (convert_same _ _ _ _ _)) fun _ => h x y _ hx hy

theorem cursorCmd_moves {R : Work → Work → Prop} (hR : Step R) {s : State}
    (hz : ∀ f, decodeFmt s.regs.dfmt = some f → Moves R (zeroFill s.params (destRect s.regs f)))
    (h : ∀ f x y v, decodeFmt s.regs.dfmt = some f → x < s.regs.w.toNat → y < s.regs.h.toNat →
      Moves R (storePx s.params ((destRect s.regs f).pixel x y) f v)) : Moves R (cursorCmd s) := by
  unfold cursorCmd
  cases hd : decodeFmt s.regs.dfmt with
  | none => exact Moves.throw hR _
  | some f =>
    refine Moves.bind hR (Moves.failIf hR _ _) fun _ => Moves.bind hR (Moves.failIf hR _ _) fun _ =>
      Moves.bind hR (hz f hd) fun _ => Moves.ite (fun _ => ?_) fun _ => ?_
    · exact cursorMonoCmd_moves hR fun x y v hx hy => h f x y v hd hx hy
    · cases cursorFmt s.regs.bpp with
      | none => exact Moves.throw hR _
      | some xf => exact cursorColorCmd_moves hR fun x y v hx hy => h f x y v hd hx hy

/-! ### Memory's form, for every storing command -/

theorem fillCmd_form (s : State) : Moves (KeepsForm s.params) (fillCmd s) :=
  fillCmd_moves (keepsForm_step _) fun _ _ _ => fillRect_form _ _ _

theorem scaleCmd_form (s : State) : Moves (KeepsForm s.params) (scaleCmd s) :=
  scaleCmd_moves (keepsForm_step _) (fun _ _ _ => nonOverlapping_form _ _) fun _ _ _ =>
    resample_moves (keepsForm_step _) (takeDraw_form _) fun _ _ _ _ => memWrite_form _ _ _

theorem glyphCmd_form (s : State) : Moves (KeepsForm s.params) (glyphCmd s) :=
  glyphCmd_moves (keepsForm_step _) fun _ _ _ _ _ => memWrite_form _ _ _

theorem monoCmd_form (s : State) : Moves (KeepsForm s.params) (monoCmd s) :=
  monoCmd_moves (keepsForm_step _) fun _ _ _ _ _ _ _ => storePx_form _ _ _ _

theorem iconCmd_form (s : State) : Moves (KeepsForm s.params) (iconCmd s) :=
  iconCmd_moves (keepsForm_step _)
    (fun _ _ _ _ => copyWith_moves (keepsForm_step _) fun _ _ _ _ => dispatchCopy_form _ _)
    fun _ _ => iconMaskPass_moves (keepsForm_step _) fun _ _ _ _ _ => storePx_form _ _ _ _

theorem cursorCmd_form (s : State) : Moves (KeepsForm s.params) (cursorCmd s) :=
  cursorCmd_moves (keepsForm_step _) (fun _ _ => zeroFill_form _ _) fun _ _ _ _ _ _ _ => storePx_form _ _ _ _

/-! ### The destination rectangle, for every command that has one -/

theorem copyWith_keeps {s : State} {f : Fmt} (hf : decodeFmt s.regs.dfmt = some f) {path : CopyJob → Cmd Unit}
    (h : ∀ j, Moves (KeepsOutside (j.rect.footprint s.params)) (path j)) :
    Moves (KeepsOutside ((destRect s.regs f).footprint s.params)) (copyWith s.params (copyReq s.regs) path) :=
  copyWith_moves (keepsOutside_step _) fun df sf hd _ => by
    have : df = f := by
      rw [show (copyReq s.regs).dfmt = decodeFmt s.regs.dfmt from rfl, hf] at hd
      exact (Option.some.inj hd).symm
    rw [this]
    exact h ((copyReq s.regs).job f sf)

theorem fillCmd_keeps {s : State} {f : Fmt} (hf : decodeFmt s.regs.dfmt = some f) :
    Moves (KeepsOutside ((destRect s.regs f).footprint s.params)) (fillCmd s) := by
  refine fillCmd_moves (keepsOutside_step _) fun g hg hh => ?_
  obtain rfl : f = g := Option.some.inj (hf.symm.trans hg)
  refine fillRect_keeps _ _ _ ?_
  exact Nat.pos_of_ne_zero fun h0 => hh (BitVec.eq_of_toNat_eq h0)

theorem scaleCmd_keeps {s : State} {f : Fmt} (hf : decodeFmt s.regs.dfmt = some f) :
    Moves (KeepsOutside ((destRect s.regs f).footprint s.params)) (scaleCmd s) := by
  refine scaleCmd_moves (keepsOutside_step _) (fun g sf hg => ?_) fun g sf hg => ?_
  · obtain rfl : f = g := Option.some.inj (hf.symm.trans hg)
    exact nonOverlapping_keeps s.params ((scaleReq s.regs).job f sf)
  · obtain rfl : f = g := Option.some.inj (hf.symm.trans hg)
    exact resample_moves (keepsOutside_step _) (takeDraw_keeps _) fun y bs hy hb => row_keeps hy (by omega)

theorem monoCmd_keeps {s : State} {f : Fmt} (hf : decodeFmt s.regs.dfmt = some f) :
    Moves (KeepsOutside ((destRect s.regs f).footprint s.params)) (monoCmd s) := by
  refine monoCmd_moves (keepsOutside_step _) fun g x y v hg hx hy => ?_
  obtain rfl : f = g := Option.some.inj (hf.symm.trans hg)
  exact pixel_keeps (t := destRect s.regs f) hx hy v

theorem iconCmd_keeps {s : State} {f : Fmt} (hf : decodeFmt s.regs.dfmt = some f) :
    Moves (KeepsOutside ((destRect s.regs f).footprint s.params)) (iconCmd s) := by
  refine iconCmd_moves (keepsOutside_step _) (fun g sf pal hg => ?_) fun g hg => ?_
  · refine copyWith_moves (keepsOutside_step _) fun df sf' hd _ => ?_
    obtain rfl : f = df := Option.some.inj (hf.symm.trans hd)
    exact dispatchCopy_keeps s.params ((iconReq s.regs sf pal).job f sf')
  · obtain rfl : f = g := Option.some.inj (hf.symm.trans hg)
    exact iconMaskPass_moves (keepsOutside_step _) fun x y v hx hy => pixel_keeps hx hy v

theorem cursorCmd_keeps {s : State} {f : Fmt} (hf : decodeFmt s.regs.dfmt = some f) :
    Moves (KeepsOutside ((destRect s.regs f).footprint s.params)) (cursorCmd s) := by
  refine cursorCmd_moves (keepsOutside_step _) (fun g hg => ?_) fun g x y v hg hx hy => ?_
  · obtain rfl : f = g := Option.some.inj (hf.symm.trans hg)
    exact zeroFill_keeps _ _
  · obtain rfl : f = g := Option.some.inj (hf.symm.trans hg)
    exact pixel_keeps (t := destRect s.regs f) hx hy v

theorem glyphCmd_keeps (s : State) :
    Moves (KeepsOutside (span s.params s.regs.dst.toNat (s.regs.w.toNat * s.regs.h.toNat))) (glyphCmd s) := by
  refine glyphCmd_moves (keepsOutside_step _) fun x y b hx hy => ?_
  refine Moves.mono (fun _ _ h => h.mono ?_) (memWrite_keeps s.params _ [b])
  rintro a ⟨k, hk, rfl⟩
  obtain rfl : k = 0 := by simpa using hk
  refine ⟨y * s.regs.w.toNat + x, ?_, by rw [Nat.add_zero, Nat.add_assoc]⟩
  have : (y + 1) * s.regs.w.toNat ≤ s.regs.h.toNat * s.regs.w.toNat := Nat.mul_le_mul_right _ hy
  rw [Nat.add_mul] at this
  rw [Nat.mul_comm s.regs.w.toNat]
  omega

end Sys2Proof.Machine
end

