-- ==== Sys2Proof/Laws/PerInstr.lean ====
section
/-! SUPPORT. A law of every command as syntax: it is well formed, its word has zeros above bit 7 (30_encoding
R90), and its word decodes to it (R92). -/

namespace Sys2Proof.Laws

/-- The law. -/
def DecodesBack.Statement (i : Instr) : Prop :=
  i.wf = true ∧ (encode i).extractLsb' 8 24 = 0 ∧ decode (encode i) = .ok i

theorem DecodesBack.nop : DecodesBack.Statement .nop := ⟨rfl, by decide, by decide⟩

theorem DecodesBack.fmtBpp : DecodesBack.Statement .fmtBpp := ⟨rfl, by decide, by decide⟩

theorem DecodesBack.fmtBytes : DecodesBack.Statement .fmtBytes := ⟨rfl, by decide, by decide⟩

theorem DecodesBack.fmtHasAlpha : DecodesBack.Statement .fmtHasAlpha := ⟨rfl, by decide, by decide⟩

theorem DecodesBack.fmtEqna : DecodesBack.Statement .fmtEqna := ⟨rfl, by decide, by decide⟩

theorem DecodesBack.fmtName : DecodesBack.Statement .fmtName := ⟨rfl, by decide, by decide⟩

theorem DecodesBack.getColor : DecodesBack.Statement .getColor := ⟨rfl, by decide, by decide⟩

theorem DecodesBack.splitColor : DecodesBack.Statement .splitColor := ⟨rfl, by decide, by decide⟩

theorem DecodesBack.readColor : DecodesBack.Statement .readColor := ⟨rfl, by decide, by decide⟩

theorem DecodesBack.writeColor : DecodesBack.Statement .writeColor := ⟨rfl, by decide, by decide⟩

theorem DecodesBack.writeColorIa : DecodesBack.Statement .writeColorIa := ⟨rfl, by decide, by decide⟩

theorem DecodesBack.convertColor : DecodesBack.Statement .convertColor := ⟨rfl, by decide, by decide⟩

theorem DecodesBack.copy : DecodesBack.Statement .copy := ⟨rfl, by decide, by decide⟩

theorem DecodesBack.copyOvl : DecodesBack.Statement .copyOvl := ⟨rfl, by decide, by decide⟩

theorem DecodesBack.copyNovl : DecodesBack.Statement .copyNovl := ⟨rfl, by decide, by decide⟩

theorem DecodesBack.fill : DecodesBack.Statement .fill := ⟨rfl, by decide, by decide⟩

theorem DecodesBack.scale : DecodesBack.Statement .scale := ⟨rfl, by decide, by decide⟩

theorem DecodesBack.glyph : DecodesBack.Statement .glyph := ⟨rfl, by decide, by decide⟩

theorem DecodesBack.mono : DecodesBack.Statement .mono := ⟨rfl, by decide, by decide⟩

theorem DecodesBack.icon : DecodesBack.Statement .icon := ⟨rfl, by decide, by decide⟩

theorem DecodesBack.cursor : DecodesBack.Statement .cursor := ⟨rfl, by decide, by decide⟩

end Sys2Proof.Laws
end

