-- ==== Sys2Proof/Laws/State.lean ====
section
/-! SUPPORT. One lemma per field per update of the state, true by unfolding, so that no proof opens a record
update. -/

namespace Sys2Proof.Machine

/-! ### `State.endCommand` -/

@[simp] theorem endCommand_regs (s : State) (w : Work) (o : Option Err) :
    (s.endCommand w o).regs = s.regs := rfl

@[simp] theorem endCommand_res (s : State) (w : Work) (o : Option Err) :
    (s.endCommand w o).res = s.res := rfl

@[simp] theorem endCommand_rchan (s : State) (w : Work) (o : Option Err) :
    (s.endCommand w o).rchan = s.rchan := rfl

@[simp] theorem endCommand_status (s : State) (w : Work) (o : Option Err) :
    (s.endCommand w o).status = s.status.conclude w.binit o := rfl

@[simp] theorem endCommand_mem (s : State) (w : Work) (o : Option Err) :
    (s.endCommand w o).mem = w.mem := rfl

@[simp] theorem endCommand_params (s : State) (w : Work) (o : Option Err) :
    (s.endCommand w o).params = s.params := rfl

@[simp] theorem endCommand_draws (s : State) (w : Work) (o : Option Err) :
    (s.endCommand w o).draws = w.draws := rfl

@[simp] theorem endCommand_script (s : State) (w : Work) (o : Option Err) :
    (s.endCommand w o).script = s.script := rfl

@[simp] theorem endCommand_readData (s : State) (w : Work) (o : Option Err) :
    (s.endCommand w o).readData = s.readData := rfl

/-! ### `State.work` -/

@[simp] theorem work_mem (s : State) : s.work.mem = s.mem := rfl

@[simp] theorem work_binit (s : State) : s.work.binit = s.status.binit := rfl

@[simp] theorem work_draws (s : State) : s.work.draws = s.draws := rfl

/-! ### Running a command leaves the rest of the state -/

@[simp] theorem runPlain_regs (s : State) (c : Cmd Unit) : (s.runPlain c).regs = s.regs := by
  unfold State.runPlain
  cases c s.work <;> rfl

@[simp] theorem runPlain_res (s : State) (c : Cmd Unit) : (s.runPlain c).res = s.res := by
  unfold State.runPlain
  cases c s.work <;> rfl

@[simp] theorem runPlain_rchan (s : State) (c : Cmd Unit) : (s.runPlain c).rchan = s.rchan := by
  unfold State.runPlain
  cases c s.work <;> rfl

@[simp] theorem runPlain_params (s : State) (c : Cmd Unit) : (s.runPlain c).params = s.params := by
  unfold State.runPlain
  cases c s.work <;> rfl

@[simp] theorem runPlain_script (s : State) (c : Cmd Unit) : (s.runPlain c).script = s.script := by
  unfold State.runPlain
  cases c s.work <;> rfl

@[simp] theorem runPlain_readData (s : State) (c : Cmd Unit) : (s.runPlain c).readData = s.readData := by
  unfold State.runPlain
  cases c s.work <;> rfl

@[simp] theorem runRes_regs (s : State) (c : Cmd Word) : (s.runRes c).regs = s.regs := by
  unfold State.runRes
  cases c s.work <;> rfl

@[simp] theorem runRes_rchan (s : State) (c : Cmd Word) : (s.runRes c).rchan = s.rchan := by
  unfold State.runRes
  cases c s.work <;> rfl

@[simp] theorem runRes_params (s : State) (c : Cmd Word) : (s.runRes c).params = s.params := by
  unfold State.runRes
  cases c s.work <;> rfl

@[simp] theorem runRes_script (s : State) (c : Cmd Word) : (s.runRes c).script = s.script := by
  unfold State.runRes
  cases c s.work <;> rfl

@[simp] theorem runRes_readData (s : State) (c : Cmd Word) : (s.runRes c).readData = s.readData := by
  unfold State.runRes
  cases c s.work <;> rfl

@[simp] theorem runRchan_regs (s : State) (c : Cmd Word) : (s.runRchan c).regs = s.regs := by
  unfold State.runRchan
  cases c s.work <;> rfl

@[simp] theorem runRchan_res (s : State) (c : Cmd Word) : (s.runRchan c).res = s.res := by
  unfold State.runRchan
  cases c s.work <;> rfl

@[simp] theorem runRchan_params (s : State) (c : Cmd Word) : (s.runRchan c).params = s.params := by
  unfold State.runRchan
  cases c s.work <;> rfl

@[simp] theorem runRchan_script (s : State) (c : Cmd Word) : (s.runRchan c).script = s.script := by
  unfold State.runRchan
  cases c s.work <;> rfl

@[simp] theorem runRchan_readData (s : State) (c : Cmd Word) : (s.runRchan c).readData = s.readData := by
  unfold State.runRchan
  cases c s.work <;> rfl

/-! ### `Status.conclude` -/

@[simp] theorem conclude_err_none (st : Status) (b : Bool) : (st.conclude b none).err = 0 := rfl

@[simp] theorem conclude_err_some (st : Status) (b : Bool) (e : Err) :
    (st.conclude b (some e)).err = e.code := rfl

@[simp] theorem conclude_fault_none (st : Status) (b : Bool) : (st.conclude b none).fault = st.fault := rfl

@[simp] theorem conclude_fault_some (st : Status) (b : Bool) (e : Err) :
    (st.conclude b (some e)).fault = (st.fault || e.isFault) := rfl

@[simp] theorem conclude_binit (st : Status) (b : Bool) (o : Option Err) : (st.conclude b o).binit = b := by
  cases o <;> rfl

/-! ### The host's side -/

@[simp] theorem withFetchWord_regs (s : State) (n w : Nat) :
    (s.withFetchWord n w).regs = s.regs := rfl

@[simp] theorem withFetchWord_res (s : State) (n w : Nat) :
    (s.withFetchWord n w).res = s.res := rfl

@[simp] theorem withFetchWord_rchan (s : State) (n w : Nat) :
    (s.withFetchWord n w).rchan = s.rchan := rfl

@[simp] theorem withFetchWord_status (s : State) (n w : Nat) :
    (s.withFetchWord n w).status = s.status := rfl

@[simp] theorem withFetchWord_mem (s : State) (n w : Nat) :
    (s.withFetchWord n w).mem = s.mem := rfl

@[simp] theorem withFetchWord_params (s : State) (n w : Nat) :
    (s.withFetchWord n w).params = s.params := rfl

@[simp] theorem withFetchWord_draws (s : State) (n w : Nat) :
    (s.withFetchWord n w).draws = s.draws := rfl

@[simp] theorem withFetchWord_script (s : State) (n w : Nat) :
    (s.withFetchWord n w).script = goEvent (w % 2 ^ n) :: s.script := rfl

@[simp] theorem withFetchWord_readData (s : State) (n w : Nat) :
    (s.withFetchWord n w).readData = s.readData := rfl

@[simp] theorem resetBlock_regs (s : State) : (resetBlock s).regs = OperandRegs.reset := rfl

@[simp] theorem resetBlock_res (s : State) : (resetBlock s).res = 0 := rfl

@[simp] theorem resetBlock_rchan (s : State) : (resetBlock s).rchan = 0 := rfl

@[simp] theorem resetBlock_status (s : State) : (resetBlock s).status = ⟨0, false, false⟩ := rfl

@[simp] theorem resetBlock_mem (s : State) : (resetBlock s).mem = s.mem := rfl

@[simp] theorem resetBlock_params (s : State) : (resetBlock s).params = s.params := rfl

@[simp] theorem resetBlock_draws (s : State) : (resetBlock s).draws = s.draws := rfl

@[simp] theorem resetBlock_script (s : State) : (resetBlock s).script = s.script := rfl

@[simp] theorem resetBlock_readData (s : State) : (resetBlock s).readData = s.readData := rfl

/-! ### Operand registers -/

/-- An operand register reads back what was stored: an address register the low `ADDR_W` bits, any other the
low 32 (10_state R21). -/
theorem get_set_same (p : Params) (rs : OperandRegs) (r : OperandReg) (v : Slot) :
    (rs.set p r v).get r =
      if r ∈ [OperandReg.dst, .src, .pal, .msk, .tbl] then addressBits p v
      else (v.setWidth 32).setWidth 64 := by
  cases r <;> rfl

/-- No operand register aliases another (10_state R21). -/
theorem get_set_ne (p : Params) (rs : OperandRegs) (r q : OperandReg) (v : Slot) (h : q ≠ r) :
    (rs.set p r v).get q = rs.get q := by
  cases r <;> cases q <;> first | rfl | exact absurd rfl h

/-- An operand register's number leads back to it. -/
@[simp] theorem operandReg_number (r : OperandReg) : operandReg r.number = some r := by
  cases r <;> rfl

end Sys2Proof.Machine
end

