-- ==== Sys2Proof/Tests/Slice0.lean ====
section
/-! SUPPORT. Tests from the spec's worked examples (95_test_vectors), the checks of WellFormed, and a witness
for the hypotheses of every statement that has some. -/

namespace Sys2Proof.Tests

-- Each test is checked before the next is read: many kernel evaluations waiting at once would hold a thread each.
set_option Elab.async false

open Sys2Proof.Machine

/-! ### Well-formedness: each check refuses an ill-formed term -/

/-- R21, R37: an access inside a slot. -/
theorem test_wf_refuses_partial_write : HostEvent.wf Params.standard (.write 0xE1 0) = false := by decide

theorem test_wf_refuses_partial_read : HostEvent.wf Params.standard (.read 0xDC) = false := by decide

/-- R60: an address outside the address space. -/
theorem test_wf_refuses_far_write :
    HostEvent.wf { Params.standard with addrW := 32 } (.memWrite (2 ^ 32) 0) = false := by decide

theorem test_wf_refuses_far_read : HostEvent.wf Params.standard (.memRead (2 ^ 64)) = false := by decide

/-- R7: `ADDR_W` is at least 32; R21: at most 64. -/
theorem test_wf_refuses_narrow_address : Params.wf { Params.standard with addrW := 31 } = false := by decide

theorem test_wf_refuses_wide_address : Params.wf { Params.standard with addrW := 65 } = false := by decide

theorem test_wf_accepts : Params.wf Params.standard = true ∧ HostEvent.wf Params.standard (.write 0xE0 1) = true ∧
    HostEvent.wf Params.standard .reset = true := by decide

/-! ### Decoding: words written out bit by bit from 30_encoding R90 and R91 -/

theorem test_decode_control : decode 0b00000000000000000000000000000000#32 = .ok .nop := by decide

theorem test_decode_metadata :
    decode 0b00000000000000000000000000000001#32 = .ok .fmtBpp ∧
    decode 0b00000000000000000000000000000010#32 = .ok .fmtBytes ∧
    decode 0b00000000000000000000000000000011#32 = .ok .fmtHasAlpha ∧
    decode 0b00000000000000000000000000000100#32 = .ok .fmtEqna ∧
    decode 0b00000000000000000000000000000101#32 = .ok .fmtName := by decide

theorem test_decode_codec :
    decode 0b00000000000000000000000000010000#32 = .ok .getColor ∧
    decode 0b00000000000000000000000000010001#32 = .ok .splitColor ∧
    decode 0b00000000000000000000000000010010#32 = .ok .readColor ∧
    decode 0b00000000000000000000000000010011#32 = .ok .writeColor ∧
    decode 0b00000000000000000000000000010100#32 = .ok .writeColorIa ∧
    decode 0b00000000000000000000000000010101#32 = .ok .convertColor := by decide

theorem test_decode_blit :
    decode 0b00000000000000000000000000100000#32 = .ok .copy ∧
    decode 0b00000000000000000000000000100001#32 = .ok .copyOvl ∧
    decode 0b00000000000000000000000000100010#32 = .ok .copyNovl ∧
    decode 0b00000000000000000000000000100011#32 = .ok .fill ∧
    decode 0b00000000000000000000000000100100#32 = .ok .scale := by decide

theorem test_decode_decoders :
    decode 0b00000000000000000000000000110000#32 = .ok .glyph ∧
    decode 0b00000000000000000000000000110001#32 = .ok .mono ∧
    decode 0b00000000000000000000000000110010#32 = .ok .icon ∧
    decode 0b00000000000000000000000000110011#32 = .ok .cursor := by decide

/-- V16: an unlisted opcode, and COPY's opcode with a bit above bit 7. -/
theorem test_decode_reserved :
    decode 0x99#32 = .error (.reserved 0x99#32) ∧ decode 0x120#32 = .error (.reserved 0x120#32) := by decide

/-! ### One step of each command, from the spec's examples -/

/-- The state after a command; the same state if it did not end in a next one. -/
def after (i : Instr) (s : State) : State :=
  match exec i s with
  | .next t => t
  | .fault _ => s
  | .refused _ => s

/-- The state after one step of the machine. -/
def stepped (s : State) : State :=
  match step s with
  | .next t => t
  | .fault _ => s
  | .refused _ => s

/-- The reset state with these registers and this memory. -/
def having (r : OperandRegs) (m : Memory) : State :=
  { State.reset with regs := r, mem := m }

/-- The bytes of a state's memory. -/
def bytes (s : State) (a n : Nat) : List Byte :=
  bytesAt s.params s.mem a n

/-- Consecutive nonzero bytes of memory, 0 skipped. -/
def image (a : Nat) (bs : List Byte) : Memory :=
  match bs with
  | [] => []
  | b :: rest => if b = 0 then image (a + 1) rest else (a, b) :: image (a + 1) rest

/-- All operand registers 0. -/
abbrev r0 : OperandRegs := OperandRegs.reset

/-- R340, V16: NOP clears ERR and leaves FAULT and BINIT. -/
theorem test_nop : (after .nop { State.reset with status := ⟨5, true, true⟩ }).status = ⟨0, true, true⟩ := by decide +kernel

/-- R130. -/
theorem test_fmt_bpp : (after .fmtBpp (having { r0 with sfmt := 0x0F010555 } [])).res = 15 := by decide +kernel

/-- R131. -/
theorem test_fmt_bytes : (after .fmtBytes (having { r0 with sfmt := 0x0F010555 } [])).res = 2 := by decide +kernel

/-- R132. -/
theorem test_fmt_has_alpha : (after .fmtHasAlpha (having { r0 with sfmt := 0x08008000 } [])).res = 1 := by decide +kernel

/-- R133: ARGB15 against RGB15. -/
theorem test_fmt_eqna :
    (after .fmtEqna (having { r0 with sfmt := 0x10011555, dfmt := 0x0F010555 } [])).res = 0 ∧
    (after .fmtEqna (having { r0 with sfmt := 0x20018888, dfmt := 0x20010888 } [])).res = 1 := by decide +kernel

/-- R134: an identifier that is not enumerated. -/
theorem test_fmt_name :
    let t := after .fmtName (having { r0 with sfmt := 0x12345678, dst := 0x2000 } [(0x2007, 9)])
    t.res = 7 ∧ bytes t 0x2000 8 = [0x55, 0x4E, 0x4B, 0x4E, 0x4F, 0x57, 0x4E, 0] := by decide +kernel

/-- R160. -/
theorem test_get_color :
    (after .getColor (having { r0 with dfmt := 0x10010565, chan := 0xFF0000FF } [])).res = 0xF800 := by decide +kernel

/-- R165. -/
theorem test_split_color :
    (after .splitColor (having { r0 with sfmt := 0x10011555, color0 := 1 } [])).rchan = 0x00080000 := by decide +kernel

/-- R170. -/
theorem test_read_color :
    (after .readColor (having { r0 with sfmt := 0x10010565, src := 0x2000 }
      (image 0x2000 [0x11, 0x22, 0x33, 0x44]))).res = 0x2211 := by decide +kernel

/-- R174. -/
theorem test_write_color :
    bytes (after .writeColor (having { r0 with dfmt := 0x0F010555, dst := 0x2000, color0 := 0xFFFF } [])) 0x2000 3 =
      [0xFF, 0x7F, 0] := by decide +kernel

/-- R176. -/
theorem test_write_color_ia :
    bytes (after .writeColorIa (having { r0 with dfmt := 0x20048888, dst := 0x2000, color0 := 0x332211FF }
      [(0x2003, 0x7F)])) 0x2000 4 = [0x33, 0x22, 0x11, 0x7F] := by decide +kernel

/-- R180. -/
theorem test_convert_color :
    (after .convertColor (having { r0 with sfmt := 0x10010565, dfmt := 0x20048888, color0 := 0xF800 } [])).res =
      0xFFFF := by decide +kernel

/-- R200: a 2 by 1 copy from RGB16 to BGRX32, the ranges apart. -/
theorem test_copy :
    let t := after .copy (having
      { r0 with dst := 0x3000, src := 0x2000, dfmt := 0x20040888, sfmt := 0x10010565, w := 2, h := 1 }
      (image 0x2000 [0x00, 0xF8, 0x1F, 0x00]))
    bytes t 0x3000 8 = [0x00, 0x00, 0xFF, 0xFF, 0xFF, 0x00, 0x00, 0xFF] ∧ t.status = ⟨0, false, true⟩ := by decide +kernel

/-- R205: six pixels in a row, copied two to the right within the buffer (one byte a pixel here). -/
theorem test_copy_ovl :
    bytes (after .copyOvl (having
      { r0 with dst := 0x2000, src := 0x2000, dfmt := 0x08008000, sfmt := 0x08008000, dx := 2, w := 4, h := 1 }
      (image 0x2000 [1, 2, 3, 4, 5, 6]))) 0x2000 6 = [1, 2, 1, 2, 3, 4] := by decide +kernel

/-- V16: ranges that touch. -/
theorem test_copy_novl :
    (after .copyNovl (having
      { r0 with dst := 0x2002, src := 0x2000, dfmt := 0x08008000, sfmt := 0x08008000, w := 2, h := 1 }
      (image 0x2000 [1, 2, 3, 4]))).status = ⟨7, true, true⟩ := by decide +kernel

/-- R225. -/
theorem test_fill :
    bytes (after .fill (having { r0 with dst := 0x2000, dfmt := 0x10010565, w := 2, h := 2, color0 := 0xF800 } []))
      0x2000 9 = [0, 0xF8, 0, 0xF8, 0, 0xF8, 0, 0xF8, 0] := by decide +kernel

/-- V12.2, V12.5. -/
theorem test_scale :
    (after .scale (having { r0 with dst := 0x3000, src := 0x2000, dfmt := 0x08008000, sfmt := 0x08008000, w := 4, h := 2, sw := 2, sh := 1 } [])).status = ⟨4, false, false⟩ ∧
    bytes (after .scale (having { r0 with dst := 0x3000, src := 0x2000, dfmt := 0x08008000, sfmt := 0x08008000, w := 1, h := 1, sw := 1, sh := 1 } [(0x2000, 1)])) 0x3000 1 = [1] := by
  decide

/-- R262. -/
theorem test_glyph :
    bytes (after .glyph (having { r0 with dst := 0x3000, src := 0x2000, w := 10, h := 1 }
      (image 0x2000 [0xA5, 0xC0]))) 0x3000 10 = [0xFF, 0, 0xFF, 0, 0, 0xFF, 0, 0xFF, 0xFF, 0xFF] := by decide +kernel

/-- R270. -/
theorem test_mono :
    bytes (after .mono (having
      { r0 with dst := 0x3000, src := 0x2000, dfmt := 0x10010565, w := 3, h := 1, color0 := 0xF800, color1 := 0x1F }
      [(0x2000, 0xA0)])) 0x3000 6 = [0x00, 0xF8, 0x1F, 0x00, 0x00, 0xF8] := by decide +kernel

/-- V14.2: a 16-bit icon with a mask into ARGB15. -/
theorem test_icon :
    bytes (after .icon (having
      { r0 with
        dst := 0x9000, src := 0x8000, msk := 0x8200, dfmt := 0x10011555, bpp := 16, w := 2, h := 1, srclen := 4
        msklen := 4 }
      (image 0x8000 [0x1F, 0x7C, 0xE0, 0x83] ++ [(0x8200, 0x40)]))) 0x9000 4 = [0x1F, 0xFC, 0xE0, 0x03] := by decide +kernel

/-- R298: the source's 2 by 2 cursor. -/
theorem test_cursor :
    bytes (after .cursor (having
      { r0 with
        dst := 0x7000, src := 0x6000, msk := 0x6100, dfmt := 0x20018888, bpp := 1, w := 2, h := 2, srclen := 4
        msklen := 4 }
      [(0x6000, 0x80), (0x6100, 0x40)])) 0x7000 16 =
      [0xFF, 0xFF, 0xFF, 0xFF, 0, 0, 0, 0, 0xFF, 0, 0, 0, 0xFF, 0, 0, 0] := by decide +kernel

/-- V16, last line but one: any format command straight after reset fails with UNSUPPORTED. -/
theorem test_first_command :
    (stepped (State.reset.withFetchWord 32 0x01)).status = ⟨2, false, false⟩ ∧
    (stepped (State.reset.withFetchWord 32 0x30)).status = ⟨1, false, false⟩ ∧
    (stepped (State.reset.withFetchWord 32 0x00)).status = ⟨0, false, false⟩ := by decide +kernel

/-- V16: STATUS reads 0x307 after the fault, and CAP 0x701 (R36). -/
theorem test_status_word : (Status.word ⟨7, true, true⟩) = 0x307 ∧ capWord Params.standard = 0x701 := by decide +kernel

/-! ### Witnesses: a state and operands that meet the hypotheses of each statement, clause by clause -/

theorem witness_DecodeEncodeAgree : (∃ (w : Word) (i : Instr), decode w = .ok i) ∧ ∃ w : Word, ∀ i, w ≠ encode i :=
  ⟨⟨0x33, .cursor, by decide⟩, ⟨0x34, by intro i; cases i <;> decide⟩⟩

theorem witness_StepRunsCommand : ∃ (s : State) (v : Slot) (rest : List HostEvent) (i : Instr),
    s.script = .write 0xE0 v :: rest ∧ decode (v.setWidth 32) = .ok i :=
  ⟨{ State.reset with script := [.write 0xE0 0xFFFFFFFF00000020, .reset] }, _, _, .copy, rfl, by decide +kernel⟩

theorem witness_ReservedWord : ∃ (s : State) (v : Slot) (rest : List HostEvent),
    s.script = .write 0xE0 v :: rest ∧ ∀ i, v.setWidth 32 ≠ encode i :=
  ⟨{ State.reset with script := [.write 0xE0 0x120] }, _, _, rfl, by intro i; cases i <;> decide⟩

theorem witness_OperandRegisters :
    (∃ (s : State) (r : OperandReg) (v : Slot) (rest : List HostEvent) (q : OperandReg),
      s.script = .write (8 * r.number) v :: rest ∧ q ≠ r ∧ r ∈ [OperandReg.dst, .src, .pal, .msk, .tbl]) ∧
    (∃ (s : State) (r : OperandReg) (v : Slot) (rest : List HostEvent),
      s.script = .write (8 * r.number) v :: rest ∧ r = .bpp) ∧
    (∃ (s : State) (r : OperandReg) (rest : List HostEvent), s.script = .read (8 * r.number) :: rest) ∧
    ∃ (i : Instr) (s t : State), exec i s = .next t :=
  ⟨⟨{ State.reset with script := [.write 0x20 (2 ^ 64 - 1)] }, .tbl, _, _, .msk, rfl, by decide +kernel⟩,
    ⟨{ State.reset with script := [.write 0xC0 (2 ^ 64 - 1)] }, .bpp, _, _, rfl, rfl⟩,
    ⟨{ State.reset with script := [.read 0xC0] }, .bpp, _, rfl⟩, ⟨.cursor, State.reset, _, rfl⟩⟩

theorem witness_ReadOnlyRegisters :
    (∃ (s : State) (v : Slot) (rest : List HostEvent), s.script = .write (8 * 25) v :: rest) ∧
    (∃ (s : State) (v : Slot) (rest : List HostEvent), s.script = .write (8 * 30) v :: rest) ∧
    (∃ (s : State) (rest : List HostEvent), s.script = .read (8 * 25) :: rest) ∧
    ∃ (s : State) (rest : List HostEvent), s.script = .read (8 * 30) :: rest :=
  ⟨⟨{ State.reset with script := [.write 0xC8 1] }, _, _, rfl⟩, ⟨{ State.reset with script := [.write 0xF0 1] }, _, _, rfl⟩,
    ⟨{ State.reset with script := [.read 0xC8] }, _, rfl⟩, ⟨{ State.reset with script := [.read 0xF0] }, _, rfl⟩⟩

theorem witness_ResetValues : ∃ (s : State) (rest : List HostEvent), s.script = .reset :: rest :=
  ⟨{ State.reset with script := [.reset] }, _, rfl⟩

theorem witness_HostAccesses :
    State.reset.script = [] ∧
    (∃ (s : State) (rest : List HostEvent) (a : Nat) (b : Byte),
      s.script = .memWrite a b :: rest ∧ a < 2 ^ s.params.addrW) ∧
    (∃ (s : State) (rest : List HostEvent) (a : Nat) (b : Byte),
      s.script = .memWrite a b :: rest ∧ 2 ^ s.params.addrW ≤ a) ∧
    (∃ (s : State) (rest : List HostEvent) (a : Nat), s.script = .memRead a :: rest ∧ a < 2 ^ s.params.addrW) ∧
    (∃ (s : State) (rest : List HostEvent) (a : Nat), s.script = .memRead a :: rest ∧ 2 ^ s.params.addrW ≤ a) ∧
    (∃ (s : State) (rest : List HostEvent) (o : Nat) (v : Slot), o % 8 ≠ 0 ∧ s.script = .write o v :: rest) ∧
    ∃ (s : State) (rest : List HostEvent) (o : Nat), o % 8 ≠ 0 ∧ s.script = .read o :: rest :=
  ⟨rfl, ⟨{ State.reset with script := [.memWrite (2 ^ 64 - 1) 5] }, _, _, _, rfl, by decide +kernel⟩,
    ⟨{ State.reset with script := [.memWrite (2 ^ 64) 5] }, _, _, _, rfl, by decide +kernel⟩,
    ⟨{ State.reset with script := [.memRead (2 ^ 64 - 1)] }, _, _, rfl, by decide +kernel⟩,
    ⟨{ State.reset with script := [.memRead (2 ^ 64)] }, _, _, rfl, by decide +kernel⟩,
    ⟨{ State.reset with script := [.write 0xE1 0] }, _, _, _, by decide +kernel, rfl⟩,
    ⟨{ State.reset with script := [.read 0xDF] }, _, _, by decide +kernel, rfl⟩⟩

/-- A state that has faulted, memory with a byte, about to run NOP. -/
def faulted : State :=
  { State.reset with
    status := ⟨7, true, true⟩
    mem := [(2 ^ 64 - 1, 1)]
    script := [.write 0xE0 0] }

theorem witness_StepKeepsLawful : ∃ s t : State, State.Lawful s ∧ step s = .next t :=
  ⟨faulted, stepped faulted, by decide +kernel, rfl⟩

theorem witness_FaultAndBinitSticky : ∃ s t : State, s.script.head? ≠ some .reset ∧ step s = .next t ∧
    s.status.fault = true ∧ s.status.binit = true :=
  ⟨faulted, stepped faulted, by decide +kernel, rfl, rfl, rfl⟩

theorem witness_ReadsOnlyItsOperands : ∃ (i : Instr) (s t : State) (rs : OperandRegs),
    (∀ r ∈ i.reads, rs.get r = s.regs.get r) ∧ exec i s = .next t ∧ rs ≠ s.regs :=
  ⟨.glyph, having { r0 with dst := 1, src := 2, flags := 1 } [], _, { r0 with dst := 1, src := 2, flags := 4 },
    by decide +kernel, rfl, by decide +kernel⟩

theorem witness_AllowedCodes : ∃ (i : Instr) (s t : State), exec i s = .next t ∧ t.status.err = 6 :=
  ⟨.readColor, { having { r0 with sfmt := 0x08008000, src := 5 } [] with
    params := { Params.standard with rejects := [(5, 6)] } }, _, rfl, by decide +kernel⟩

theorem witness_FaultFlag : ∃ (i : Instr) (s t : State), exec i s = .next t ∧ t.status.fault = true :=
  ⟨.nop, faulted, _, rfl, rfl⟩

theorem witness_BackendHandle :
    (∃ (i : Instr) (s t : State), exec i s = .next t ∧ i ∉ [Instr.copy, .copyNovl, .scale, .icon]) ∧
    ∃ (i : Instr) (s t : State), exec i s = .next t ∧ s.status.binit = true :=
  ⟨⟨.copyOvl, State.reset, _, rfl, by decide +kernel⟩, ⟨.copyNovl, faulted, _, rfl, rfl⟩⟩

theorem witness_Producers :
    (∃ (i : Instr) (s t : State), exec i s = .next t ∧
      i ∉ [Instr.fmtBpp, .fmtBytes, .fmtHasAlpha, .fmtEqna, .fmtName, .getColor, .readColor, .convertColor]) ∧
    (∃ (i : Instr) (s t : State), exec i s = .next t ∧ i ≠ .splitColor) ∧
    (∃ (i : Instr) (s t : State), exec i s = .next t ∧ 1 ≤ t.status.err.toNat ∧ t.status.err.toNat ≤ 5 ∧
      i ∈ [Instr.fmtBpp, .fmtBytes, .fmtHasAlpha, .fmtEqna, .fmtName, .getColor, .readColor, .convertColor]) ∧
    ∃ (i : Instr) (s t : State), exec i s = .next t ∧ 1 ≤ t.status.err.toNat ∧ t.status.err.toNat ≤ 5 ∧
      i = .splitColor :=
  ⟨⟨.nop, State.reset, _, rfl, by decide +kernel⟩, ⟨.nop, State.reset, _, rfl, by decide +kernel⟩,
    ⟨.fmtName, State.reset, _, rfl, by decide +kernel⟩,
    ⟨.splitColor, State.reset, _, rfl, by decide +kernel, by decide +kernel, rfl⟩⟩

theorem witness_FailureLeavesMemory : ∃ (i : Instr) (s t : State), i ≠ .cursor ∧ exec i s = .next t ∧
    1 ≤ t.status.err.toNat ∧ t.status.err.toNat ≤ 5 ∧
    (i = .copy ∨ i = .copyOvl ∨ i = .copyNovl) ∧ s.regs.sfmt = 0x08008000#32 ∧ paletteApart s :=
  ⟨.copyOvl, having { r0 with dst := 0x3000, src := 0x2000, dfmt := 0x20018888, sfmt := 0x08008000, pal := 0x4000, w := 1, h := 1 } [],
    _, by decide +kernel, rfl, by decide +kernel, by decide +kernel, by decide +kernel, rfl, by decide +kernel⟩

theorem witness_Footprints :
    (∃ (i : Instr) (s t : State), exec i s = .next t ∧ i = .convertColor) ∧
    (∃ (i : Instr) (s t : State) (a : Nat), exec i s = .next t ∧ i = .fmtName ∧
      ¬ span s.params s.regs.dst.toNat 28 a) ∧
    (∃ (i : Instr) (s t : State) (a : Nat), exec i s = .next t ∧ i = .glyph ∧
      ¬ span s.params s.regs.dst.toNat (s.regs.w.toNat * s.regs.h.toNat) a) ∧
    (∃ (i : Instr) (s t : State), exec i s = .next t ∧ i = .icon ∧ decodeFmt s.regs.dfmt = none) ∧
    (∃ (i : Instr) (s t : State) (f : Fmt) (a : Nat), exec i s = .next t ∧ i = .writeColor ∧
      decodeFmt s.regs.dfmt = some f ∧ ¬ span s.params s.regs.dst.toNat f.bytes a) ∧
    ∃ (i : Instr) (s t : State) (f : Fmt) (a : Nat), exec i s = .next t ∧ i = .cursor ∧
      decodeFmt s.regs.dfmt = some f ∧ ¬ (destRect s.regs f).footprint s.params a :=
  ⟨⟨_, State.reset, _, rfl, rfl⟩,
    ⟨_, having { r0 with dst := 0x2000 } [], _, 0x201C, rfl, rfl, by decide +kernel⟩,
    ⟨_, having { r0 with dst := 0x2000, src := 1, w := 3, h := 2 } [], _, 0x2006, rfl, rfl, by decide +kernel⟩,
    ⟨_, State.reset, _, rfl, rfl, by decide +kernel⟩,
    ⟨_, having { r0 with dst := 0x2000, dfmt := 0x18010888 } [], _, .rgb24, 0x2003, rfl, rfl, by decide +kernel⟩,
    ⟨_, having { r0 with dst := 0x2000, dfmt := 0x18010888, w := 2, h := 2 } [], _, .rgb24, 0x200C, rfl, rfl, by decide +kernel⟩⟩

theorem witness_FormatTable : ∃ row, row ∈ formatRows :=
  ⟨_, List.mem_cons_self⟩

theorem witness_FormatQueries :
    (∃ s : State, ∃ row ∈ formatRows, s.regs.sfmt = row.ident) ∧
    ∃ s : State, ∀ row ∈ formatRows, s.regs.sfmt ≠ row.ident :=
  ⟨⟨having { r0 with sfmt := 0x01001000 } [], by decide +kernel⟩, ⟨having { r0 with sfmt := 0x60018888 } [], by decide +kernel⟩⟩

theorem witness_FormatEqualIgnoringAlpha :
    (∃ s : State, ∃ a ∈ formatRows, ∃ b ∈ formatRows, s.regs.sfmt = a.ident ∧ s.regs.dfmt = b.ident) ∧
    (∃ s : State, ∀ a ∈ formatRows, s.regs.sfmt ≠ a.ident) ∧ ∃ s : State, ∀ b ∈ formatRows, s.regs.dfmt ≠ b.ident :=
  ⟨⟨having { r0 with sfmt := 0x20018888, dfmt := 0x20010888 } [], by decide +kernel⟩, ⟨State.reset, by decide +kernel⟩,
    ⟨State.reset, by decide +kernel⟩⟩

theorem witness_FormatName :
    State.reset.regs.dst = 0 ∧
    (∃ (s : State) (name : String), s.regs.dst ≠ 0 ∧ s.params.wf = true ∧ s.params.rejects = [] ∧
      ∃ row ∈ formatRows, s.regs.sfmt = row.ident ∧ name = row.name) ∧
    ∃ (s : State) (name : String), s.regs.dst ≠ 0 ∧ s.params.wf = true ∧ s.params.rejects = [] ∧
      (∀ row ∈ formatRows, s.regs.sfmt ≠ row.ident) ∧ name = "UNKNOWN" :=
  ⟨rfl,
    ⟨having { r0 with sfmt := 0x20040AAA, dst := 2 ^ 64 - 1 } [], "PIXEL_FORMAT_BGRX32_DEPTH30", by decide +kernel⟩,
    ⟨having { r0 with sfmt := 0x12345678, dst := 1 } [], "UNKNOWN", by decide +kernel⟩⟩

theorem witness_ChannelScaler :
    (∃ p : Params, p.expand6 = .replicate) ∧ (∃ p : Params, p.expand6 = .sumClamp) ∧
    (∃ p : Params, p.alpha1Pack = .msb) ∧ ∃ p : Params, p.alpha1Pack = .nonzero :=
  ⟨⟨Params.standard, rfl⟩, ⟨{ Params.standard with expand6 := .sumClamp }, rfl⟩, ⟨Params.standard, rfl⟩,
    ⟨{ Params.standard with alpha1Pack := .nonzero }, rfl⟩⟩

theorem witness_GetColor :
    (∃ (s : State) (f : Fmt) (v : Nat), s.regs.dfmt = f.ident ∧
      packNat s.params f (byteOf s.regs.chan.toNat 0) (byteOf s.regs.chan.toNat 1) (byteOf s.regs.chan.toNat 2)
        (byteOf s.regs.chan.toNat 3) = some v) ∧
    ∃ s : State, (∃ f : Fmt, s.regs.dfmt = f.ident) ∧
      ∀ f : Fmt, s.regs.dfmt = f.ident → f = .rgb8 ∨ f = .a4 ∨ f = .mono :=
  ⟨⟨having { r0 with dfmt := 0x10011555, chan := 0xFFFFFFFF } [], .argb15, _, rfl, rfl⟩,
    ⟨having { r0 with dfmt := 0x01001000 } [], ⟨.mono, rfl⟩, by intro f; cases f <;> decide⟩⟩

/-- A palette tagged ARGB32 with entry 255, at 0x4000. -/
def paletteImage : Memory :=
  image 0x4000 [0x88, 0x88, 0x01, 0x20] ++ image 0x4400 [0x11, 0x22, 0x33, 0x44]

theorem witness_SplitColor :
    (∃ (s : State) (f : Fmt) (r g b a : Nat), s.params.rejects = [] ∧ s.regs.sfmt = f.ident ∧
      unpackNat s.params s.mem s.regs.pal.toNat f s.regs.color0.toNat = .ok (r, g, b, a)) ∧
    (∃ (s : State) (f : Fmt) (c : BitVec 4), s.params.rejects = [] ∧ s.regs.sfmt = f.ident ∧
      unpackNat s.params s.mem s.regs.pal.toNat f s.regs.color0.toNat = .error c) ∧
    ∃ s : State, s.params.rejects = [] ∧ ∀ f : Fmt, s.regs.sfmt ≠ f.ident :=
  ⟨⟨having { r0 with sfmt := 0x08008000, color0 := 255, pal := 0x4000 } paletteImage, .rgb8, 0x33, 0x22, 0x11, 0x44,
      by decide +kernel⟩,
    ⟨having { r0 with sfmt := 0x08008000, color0 := 256, pal := 0x4000 } paletteImage, .rgb8, 1, by decide +kernel⟩,
    ⟨State.reset, rfl, by intro f; cases f <;> decide⟩⟩

theorem witness_ConvertColor :
    (∃ (s : State) (sf df : Fmt) (c : Nat × Nat × Nat × Nat) (v : Nat), s.params.rejects = [] ∧
      s.regs.sfmt = sf.ident ∧ s.regs.dfmt = df.ident ∧
      unpackNat s.params s.mem s.regs.pal.toNat sf s.regs.color0.toNat = .ok c ∧
      packedNat s.params df c = some v) ∧
    (∃ (s : State) (sf df : Fmt) (c : Nat × Nat × Nat × Nat), s.params.rejects = [] ∧
      s.regs.sfmt = sf.ident ∧ s.regs.dfmt = df.ident ∧
      unpackNat s.params s.mem s.regs.pal.toNat sf s.regs.color0.toNat = .ok c ∧ packedNat s.params df c = none) ∧
    (∃ (s : State) (sf df : Fmt) (e : BitVec 4), s.params.rejects = [] ∧ s.regs.sfmt = sf.ident ∧
      s.regs.dfmt = df.ident ∧ unpackNat s.params s.mem s.regs.pal.toNat sf s.regs.color0.toNat = .error e) ∧
    (∃ s : State, s.params.rejects = [] ∧ ∀ f : Fmt, s.regs.sfmt ≠ f.ident) ∧
    ∃ s : State, s.params.rejects = [] ∧ ∀ f : Fmt, s.regs.dfmt ≠ f.ident :=
  ⟨⟨having { r0 with sfmt := 0x08008000, dfmt := 0x20040888, color0 := 255, pal := 0x4000 } paletteImage, .rgb8,
      .bgrx32, (0x33, 0x22, 0x11, 0x44), 0x11223344, by decide +kernel⟩,
    ⟨having { r0 with sfmt := 0x01001000, dfmt := 0x08008000 } [], .mono, .rgb8, (0, 0, 0, 255), by decide +kernel⟩,
    ⟨having { r0 with sfmt := 0x08008000, dfmt := 0x08008000 } [], .rgb8, .rgb8, 3, by decide +kernel⟩,
    ⟨State.reset, rfl, by intro f; cases f <;> decide⟩, ⟨State.reset, rfl, by intro f; cases f <;> decide⟩⟩

theorem witness_RoundTrip :
    (∃ (p : Params) (f : Fmt) (c c' : Channels) (v : Word), pack p f c = .ok v ∧ splitBare p f v = .ok c' ∧
      f.bytes ≤ 2 ∧ f = .rgb16) ∧
    (∃ (p : Params) (f : Fmt) (c c' : Channels) (v : Word), pack p f c = .ok v ∧ splitBare p f v = .ok c' ∧
      f.bytes ≤ 2 ∧ f ≠ .rgb16 ∧ f ≠ .bgr16) ∧
    ∃ (p : Params) (f : Fmt) (c c' : Channels) (v : Word), pack p f c = .ok v ∧ splitBare p f v = .ok c' ∧
      3 ≤ f.bytes :=
  ⟨⟨Params.standard, .rgb16, ⟨7, 3, 255, 0⟩, _, _, rfl, rfl, by decide +kernel, rfl⟩,
    ⟨Params.standard, .abgr15, ⟨7, 3, 255, 127⟩, _, _, rfl, rfl, by decide +kernel⟩,
    ⟨Params.standard, .rgb24, ⟨7, 3, 255, 0⟩, _, _, rfl, rfl, by decide +kernel⟩⟩

theorem witness_ReadColor :
    (∃ s : State, ∃ row ∈ formatRows, s.regs.sfmt = row.ident ∧ s.regs.src ≠ 0 ∧ s.params.rejects = []) ∧
    (∃ s : State, ∃ row ∈ formatRows, s.regs.sfmt = row.ident ∧ s.regs.src = 0) ∧
    ∃ s : State, ∀ row ∈ formatRows, s.regs.sfmt ≠ row.ident :=
  ⟨⟨having { r0 with sfmt := 0x0F020555, src := 2 ^ 64 - 1 } [], by decide +kernel⟩,
    ⟨having { r0 with sfmt := 0x01001000 } [], by decide +kernel⟩, ⟨State.reset, by decide +kernel⟩⟩

/-- Of WriteColor and of WriteColorIgnoringAlpha, whose hypotheses are the same. -/
theorem witness_WriteColor :
    (∃ s : State, ∃ row ∈ formatRows, s.regs.dfmt = row.ident ∧ 8 ≤ row.bpp ∧ s.regs.dst ≠ 0 ∧ s.params.wf = true ∧
      s.params.rejects = [] ∧ ∃ a, a ≤ 4 ∧ ¬ span s.params s.regs.dst.toNat row.bytes a) ∧
    (∃ s : State, ∃ row ∈ formatRows, s.regs.dfmt = row.ident ∧ 8 ≤ row.bpp ∧ s.regs.dst = 0) ∧
    ∃ s : State, (∃ row ∈ formatRows, s.regs.dfmt = row.ident) ∧
      ∀ row ∈ formatRows, s.regs.dfmt = row.ident → row.bpp < 8 :=
  ⟨⟨having { r0 with dfmt := 0x20048888, dst := 2 ^ 64 - 1 } [], ⟨0x20048888#32, 32, 4, 1, "PIXEL_FORMAT_BGRA32"⟩,
      by decide +kernel, rfl, by decide +kernel, by decide +kernel, by decide +kernel, rfl, 3, by decide +kernel⟩,
    ⟨having { r0 with dfmt := 0x08008000 } [], by decide +kernel⟩, ⟨having { r0 with dfmt := 0x04004000 } [], by decide +kernel⟩⟩

theorem witness_WriteThenRead : ∃ s t : State, ∃ row ∈ formatRows, s.regs.dfmt = row.ident ∧ 8 ≤ row.bpp ∧
    s.regs.dst ≠ 0 ∧ s.params.wf = true ∧ s.params.rejects = [] ∧ exec .writeColor s = .next t :=
  ⟨having { r0 with dfmt := 0x0F010555, dst := 2 ^ 64 - 1, color0 := 0xFFFF } [], _,
    ⟨0x0F010555#32, 15, 2, 0, "PIXEL_FORMAT_RGB15"⟩, by decide +kernel, rfl, by decide +kernel, by decide +kernel, by decide +kernel, rfl, rfl⟩

/-- A copy of 2 by 2 pixels between two buffers, in these formats. -/
def copying (df sf : Word) : OperandRegs :=
  { r0 with dst := 0x3000, src := 0x2000, dfmt := df, sfmt := sf, w := 2, h := 2 }

/-- `s` on a platform that rejects the one byte at `a`. -/
def rejecting (a : Nat) (s : State) : State :=
  { s with params := { s.params with rejects := [(a, a + 1)] } }

/-- A platform that rejects one byte rejects no byte of a bit-packed input that does not hold it. -/
theorem bits_not_rejected {p : Params} {base stride w h : Nat} (free : ∀ y, y < h → ∀ x, x < w →
    rejected p (portAddr p (base + stride * y + x / 8)) = false) :
    ∀ a, bitBytes p base stride w h a → rejected p a = false := by
  rintro a ⟨y, hy, x, hx, rfl⟩
  exact free y hy x hx

theorem source_not_rejected {p : Params} {j : CopyJob} (free : ∀ y, y < j.h → ∀ k, k < j.w * j.sf.bytes →
    rejected p (portAddr p (j.srcPixel 0 y + k)) = false) : ∀ a, j.sourceBytes p a → rejected p a = false := by
  rintro a ⟨y, hy, k, hk, rfl⟩
  exact free y hy k hk

/-- The last bytes READCOLOR and WRITECOLOR touch; the zero byte FMT_NAME stores last; the second row of MONO; for a
copy of overlapping ranges from the last row up, the row above it; the last byte of a glyph; a cursor's second row. -/
theorem witness_BusFault :
    (∃ (s : State) (f : Fmt) (k : Nat), decodeFmt s.regs.sfmt = some f ∧ s.regs.src ≠ 0 ∧ k < f.bytes ∧
      rejected s.params (portAddr s.params (s.regs.src.toNat + k)) = true) ∧
    (∃ (s : State) (f : Fmt) (k : Nat), decodeFmt s.regs.dfmt = some f ∧ f.writable = true ∧ s.regs.dst ≠ 0 ∧
      s.params.wf = true ∧ k < f.bytes ∧ rejected s.params (portAddr s.params (s.regs.dst.toNat + k)) = true ∧
      ∀ j, j < k → rejected s.params (portAddr s.params (s.regs.dst.toNat + j)) = false) ∧
    (∃ (s : State) (row : FormatRow) (k : Nat), row ∈ formatRows ∧ s.regs.sfmt = row.ident ∧ s.regs.dst ≠ 0 ∧
      s.params.wf = true ∧ k < row.name.length + 1 ∧
      rejected s.params (portAddr s.params (s.regs.dst.toNat + k)) = true ∧
      ∀ j, j < k → rejected s.params (portAddr s.params (s.regs.dst.toNat + j)) = false) ∧
    (∃ (i : Instr) (s u : State) (f : Fmt) (Y K : Nat), (i = .fill ∨ i = .mono) ∧
      exec i s.unrejecting = .next u ∧ u.status.err = 0 ∧ decodeFmt s.regs.dfmt = some f ∧
      (destRect s.regs f).fits s.params ∧ (destRect s.regs f).rowsApart ∧
      (destRect s.regs f).stopsAt s.params (rowMajor Y K) Y K ∧
      (i = .mono → ∀ a,
        bitBytes s.params s.regs.src.toNat ((s.regs.w.toNat + 7) / 8) s.regs.w.toNat s.regs.h.toNat a →
        rejected s.params a = false)) ∧
    (∃ (i : Instr) (s u : State) (df sf : Fmt) (Y K : Nat), i ∈ [Instr.copy, .copyOvl, .copyNovl] ∧
      exec i s.unrejecting = .next u ∧ u.status.err = 0 ∧ s.formats df sf ∧
      (s.copyJob df sf).mode ≠ .alpha ∧ ¬ ((s.copyJob df sf).mode = .raw ∧ (s.copyJob df sf).coincide = true) ∧
      (destRect s.regs df).fits s.params ∧ (destRect s.regs df).rowsApart ∧
      (destRect s.regs df).stopsAt s.params ((s.copyJob df sf).storedBefore Y K) Y K ∧
      (∀ a, (s.copyJob df sf).sourceBytes s.params a → rejected s.params a = false) ∧ sf = .rgb8 ∧
      ∀ k, k < 1028 → rejected s.params (portAddr s.params (s.regs.pal.toNat + k)) = false) ∧
    (∃ (s u : State) (K : Nat), exec .glyph s.unrejecting = .next u ∧ u.status.err = 0 ∧
      s.regs.w.toNat * s.regs.h.toNat ≤ 2 ^ s.params.addrW ∧ K < s.regs.w.toNat * s.regs.h.toNat ∧
      rejected s.params (portAddr s.params (s.regs.dst.toNat + K)) = true ∧
      (∀ k, k < K → rejected s.params (portAddr s.params (s.regs.dst.toNat + k)) = false) ∧
      ∀ a, bitBytes s.params s.regs.src.toNat ((s.regs.w.toNat + 7) / 8) s.regs.w.toNat s.regs.h.toNat a →
        rejected s.params a = false) ∧
    ∃ (s : State) (f : Fmt) (Y K : Nat), decodeFmt s.regs.dfmt = some f ∧ f.packable = true ∧ s.regs.dst ≠ 0 ∧
      (destRect s.regs f).stopsAt s.params (rowMajor Y K) Y K :=
  ⟨⟨rejecting 0x2003 (having { r0 with sfmt := 0x20018888, src := 0x2000 } []), .argb32, 3, by decide +kernel⟩,
    ⟨rejecting 0x2003 (having { r0 with dfmt := 0x20018888, dst := 0x2000 } []), .argb32, 3, by decide +kernel⟩,
    ⟨rejecting 0x2012 (having { r0 with sfmt := 0x18010888, dst := 0x2000 } []),
      ⟨0x18010888#32, 24, 3, 0, "PIXEL_FORMAT_RGB24"⟩, 18, by decide +kernel⟩,
    ⟨.mono, rejecting 0x3007 (having (copying 0x10010565 0) []), _, .rgb16, 1, 3, .inr rfl, rfl, by decide +kernel,
      rfl, by decide +kernel, by decide +kernel, by decide +kernel, fun _ => bits_not_rejected (by decide +kernel)⟩,
    ⟨.copy, rejecting 0x2017 (having
        { copying 0x20018888 0x08008000 with
          dst := 0x2000, dx := 1, dy := 1, dstride := 16, sstride := 16, pal := 0x4000 } paletteImage),
      _, .argb32, .rgb8, 0, 3, by decide +kernel, rfl, by decide +kernel, by decide +kernel, by decide +kernel,
      (fun h => nomatch h.1), by decide +kernel, by decide +kernel, by decide +kernel,
      source_not_rejected (by decide +kernel), rfl, by decide +kernel⟩,
    ⟨rejecting 0x3003 (having (copying 0 0) []), _, 3, rfl, by decide +kernel, by decide +kernel, by decide +kernel,
      by decide +kernel, by decide +kernel, bits_not_rejected (by decide +kernel)⟩,
    ⟨rejecting 0x300F (having (copying 0x20018888 0) []), .argb32, 1, 7, by decide +kernel⟩⟩

theorem witness_CopyChecks :
    (∃ s : State, decodeFmt s.regs.dfmt = none ∨ decodeFmt s.regs.sfmt = none) ∧
    (∃ (s : State) (df sf : Fmt), s.formats df sf ∧
      (s.params.maxDim < s.regs.w.toNat ∨ s.params.maxDim < s.regs.h.toNat)) ∧
    (∃ (s : State) (df sf : Fmt), s.formats df sf ∧ s.regs.w.toNat ≤ s.params.maxDim ∧
      s.regs.h.toNat ≤ s.params.maxDim ∧ (s.regs.dst = 0 ∨ s.regs.src = 0)) ∧
    ∃ (s : State) (df sf : Fmt), s.formats df sf ∧ s.regs.w.toNat ≤ s.params.maxDim ∧
      s.regs.h.toNat ≤ s.params.maxDim ∧ s.regs.dst ≠ 0 ∧ s.regs.src ≠ 0 ∧ (s.regs.w = 0 ∨ s.regs.h = 0) :=
  ⟨⟨State.reset, by decide +kernel⟩,
    ⟨having { copying 0x20018888 0x10010565 with w := 2 ^ 31 } [], .argb32, .rgb16, by decide +kernel⟩,
    ⟨having { copying 0x20018888 0x10010565 with dst := 0, w := 2 ^ 31 - 1 } [], .argb32, .rgb16, by decide +kernel⟩,
    ⟨having { copying 0x20018888 0x10010565 with h := 0 } [], .argb32, .rgb16, by decide +kernel⟩⟩

/-- Ranges that overlap, and ranges that do not. -/
theorem witness_CopyDispatch :
    (∃ (s : State) (df sf : Fmt), s.formats df sf ∧ (s.copyJob df sf).overlap = true) ∧
    ∃ (s : State) (df sf : Fmt), s.formats df sf ∧ (s.copyJob df sf).overlap = false :=
  ⟨⟨having { copying 0x08008000 0x08008000 with dst := 0x2004 } [], .rgb8, .rgb8, by decide +kernel⟩,
    ⟨having { copying 0x08008000 0x08008000 with dst := 0x2005 } [], .rgb8, .rgb8, by decide +kernel⟩⟩

theorem witness_NonOverlappingPath :
    (∃ (s : State) (df sf : Fmt), s.formats df sf ∧ s.copyable ∧ s.params.backendCopyPresent = false) ∧
    (∃ (s : State) (df sf : Fmt), s.formats df sf ∧ s.copyable ∧ s.params.backendCopyPresent = true ∧
      (s.copyJob df sf).overlap = true) ∧
    ∃ (s t : State) (df sf : Fmt), s.formats df sf ∧ s.copyable ∧ s.params.backendCopyPresent = true ∧
      (s.copyJob df sf).overlap = false ∧ exec .copyOvl s = .next t :=
  ⟨⟨{ having (copying 0x08008000 0x08008000) [] with
      params := { Params.standard with backendCopyPresent := false } }, .rgb8, .rgb8, by decide +kernel⟩,
    ⟨having { copying 0x08008000 0x08008000 with dst := 0x2004 } [], .rgb8, .rgb8, by decide +kernel⟩,
    ⟨having { copying 0x08008000 0x08008000 with dst := 0x2005 } [], _, .rgb8, .rgb8, by decide +kernel, by decide +kernel, rfl, by decide +kernel, rfl⟩⟩

/-- A paletted copy is ready: the palette of `paletteImage`. -/
theorem ready_paletted : ((having { copying 0x20018888 0x08008000 with pal := 0x4000 } paletteImage).copyJob .argb32
    .rgb8).ready Params.standard paletteImage :=
  .inr ⟨rfl, rfl, fun _ => ⟨⟨.argb32, by decide +kernel⟩, by decide +kernel⟩⟩

theorem witness_CopiesComplete :
    (∃ (s : State) (df sf : Fmt), s.formats df sf ∧ s.copyable ∧ s.params.rejects = [] ∧
      (s.copyJob df sf).ready s.params s.mem ∧ (s.copyJob df sf).overlap = true) ∧
    ∃ (s : State) (df sf : Fmt), s.formats df sf ∧ s.copyable ∧ s.params.rejects = [] ∧
      (s.copyJob df sf).ready s.params s.mem ∧ (s.copyJob df sf).overlap = false ∧
      s.params.backendCopyPresent = true :=
  ⟨⟨having { copying 0x04004000 0x04004000 with dst := 0x2004 } [], .a4, .a4, by decide +kernel, by decide +kernel, rfl, .inl rfl, rfl⟩,
    ⟨having { copying 0x20018888 0x08008000 with pal := 0x4000 } paletteImage, .argb32, .rgb8, by decide +kernel, by decide +kernel, rfl,
      ready_paletted, by decide +kernel⟩⟩

theorem witness_ConversionChecks :
    (∃ (s : State) (df sf : Fmt), s.formats df sf ∧ s.copyable ∧ (s.copyJob df sf).mode ≠ .raw ∧ sf = .a4) ∧
    (∃ (s : State) (df sf : Fmt), s.formats df sf ∧ s.copyable ∧ (s.copyJob df sf).mode ≠ .raw ∧ sf = .rgb8 ∧
      s.regs.pal = 0) ∧
    (∃ (s : State) (df sf : Fmt), s.formats df sf ∧ s.copyable ∧ (s.copyJob df sf).mode ≠ .raw ∧ sf = .rgb8 ∧
      s.regs.pal ≠ 0 ∧ s.params.rejects = [] ∧
      decodeFmt (wordLeAt s.params s.mem s.regs.pal.toNat) = some .rgb8) ∧
    (∃ (s : State) (df sf : Fmt), s.formats df sf ∧ s.copyable ∧ (s.copyJob df sf).mode ≠ .raw ∧ sf = .rgb8 ∧
      s.regs.pal ≠ 0 ∧ s.params.rejects = [] ∧
      ∀ g, decodeFmt (wordLeAt s.params s.mem s.regs.pal.toNat) = some g → g.unpackable = false) ∧
    (∃ (s : State) (df sf g : Fmt), s.formats df sf ∧ s.copyable ∧ (s.copyJob df sf).mode ≠ .raw ∧ sf = .rgb8 ∧
      s.regs.pal ≠ 0 ∧ s.params.rejects = [] ∧ decodeFmt (wordLeAt s.params s.mem s.regs.pal.toNat) = some g ∧
      g ≠ .rgb8 ∧ g.unpackable = true ∧ df = .rgb8) ∧
    ∃ (s : State) (df sf : Fmt), s.formats df sf ∧ s.copyable ∧ (s.copyJob df sf).mode ≠ .raw ∧
      sf.unpackable = true ∧ sf ≠ .rgb8 ∧ df = .mono :=
  ⟨⟨having (copying 0x20018888 0x04004000) [], .argb32, .a4, by decide +kernel⟩,
    ⟨having (copying 0x20018888 0x08008000) [], .argb32, .rgb8, by decide +kernel⟩,
    ⟨having { copying 0x20018888 0x08008000 with pal := 0x4000 } (image 0x4000 [0x00, 0x80, 0x00, 0x08]), .argb32, .rgb8,
      by decide +kernel⟩,
    ⟨having { copying 0x20018888 0x08008000 with pal := 0x4000 } [], .argb32, .rgb8, by decide +kernel, by decide +kernel, by decide +kernel,
      rfl, by decide +kernel, rfl, by intro g h; exact absurd h (by revert h; cases g <;> decide +kernel)⟩,
    ⟨having { copying 0x08008000 0x08008000 with pal := 0x4000, flags := 4 } paletteImage, .rgb8, .rgb8, .argb32,
      by decide +kernel⟩,
    ⟨having (copying 0x01001000 0x20018888) [], .mono, .argb32, by decide +kernel⟩⟩

theorem witness_RawCopyContents : ∃ (s : State) (df sf : Fmt), s.formats df sf ∧ s.copyable ∧
    s.params.rejects = [] ∧ s.params.backendCopyPresent = true ∧ (s.copyJob df sf).mode = .raw ∧
    (destRect s.regs df).fits s.params ∧ (destRect s.regs df).rowsApart ∧
    (s.copyJob df sf).sourceApart s.params :=
  ⟨having { copying 0x04004000 0x04004000 with flags := 1, dstride := 3, dx := 1 } [], .a4, .a4, by decide +kernel⟩

theorem witness_ConvertingCopyContents :
    (∃ (s : State) (df sf : Fmt), s.formats df sf ∧ s.copyable ∧ s.params.rejects = [] ∧
      s.params.backendCopyPresent = true ∧ (s.copyJob df sf).mode ≠ .raw ∧ (s.copyJob df sf).ready s.params s.mem ∧
      (destRect s.regs df).fits s.params ∧ (destRect s.regs df).rowsApart ∧
      (s.copyJob df sf).sourceApart s.params ∧ (s.copyJob df sf).paletteApart s.params) ∧
    ∃ (s : State) (df sf : Fmt), s.formats df sf ∧ s.copyable ∧ s.params.rejects = [] ∧
      s.params.backendCopyPresent = true ∧ (s.copyJob df sf).mode = .alpha ∧
      (s.copyJob df sf).ready s.params s.mem ∧ (destRect s.regs df).fits s.params ∧
      (destRect s.regs df).rowsApart ∧ (s.copyJob df sf).sourceApart s.params ∧
      (s.copyJob df sf).paletteApart s.params :=
  ⟨⟨having { copying 0x20018888 0x08008000 with pal := 0x4000 } paletteImage, .argb32, .rgb8, by decide +kernel, by decide +kernel, rfl,
      rfl, by decide +kernel, ready_paletted, by decide +kernel, by decide +kernel, by decide +kernel,
      fun _ a h => by obtain rfl : 0x4000 = a := Palette.inMemory.inj h; decide +kernel⟩,
    ⟨having { copying 0x20048888 0x18020888 with flags := 4 } [], .bgra32, .bgr24, by decide +kernel, by decide +kernel, rfl, rfl,
      by decide +kernel, .inr ⟨rfl, rfl, fun h => by cases h⟩, by decide +kernel, by decide +kernel, by decide +kernel, fun h => by cases h⟩⟩

theorem witness_RawCopyStaging : ∃ (s : State) (df sf : Fmt), s.formats df sf ∧ s.copyable ∧
    s.params.rejects = [] ∧ s.params.backendCopyPresent = true ∧ (s.copyJob df sf).mode = .raw ∧
    (s.copyJob df sf).sameBuffer s.params ∧ ¬ (s.copyJob df sf).sourceApart s.params :=
  ⟨having { copying 0x08008000 0x08008000 with dst := 0x2000, dstride := 3, sstride := 3, dx := 1, dy := 1 } [], .rgb8,
    .rgb8, by decide +kernel⟩

theorem witness_ConvertingCopyStaging : ∃ (s : State) (df sf : Fmt), s.formats df sf ∧ s.copyable ∧
    s.params.rejects = [] ∧ s.params.backendCopyPresent = true ∧ (s.copyJob df sf).mode ≠ .raw ∧
    (s.copyJob df sf).ready s.params s.mem ∧ (s.copyJob df sf).sameBuffer s.params ∧
    (s.copyJob df sf).paletteApart s.params ∧ ¬ (s.copyJob df sf).sourceApart s.params :=
  ⟨having { copying 0x20018888 0x20038888 with dst := 0x2000, dstride := 12, sstride := 12, dx := 1 } [], .argb32,
    .rgba32, by decide +kernel, by decide +kernel, rfl, rfl, by decide +kernel, .inr ⟨rfl, rfl, fun h => by cases h⟩, by decide +kernel,
    (fun h => by cases h), by decide +kernel⟩

theorem witness_CopyKeepsAlpha :
    (∃ (s t : State) (df : Fmt), decodeFmt s.regs.dfmt = some df ∧ s.regs.flags.getLsbD 2 = true ∧
      s.params.rejects = [] ∧ (destRect s.regs df).fits s.params ∧ (destRect s.regs df).rowsApart ∧
      exec .copyOvl s = .next t ∧ 0 < s.regs.w.toNat ∧ 0 < s.regs.h.toNat ∧ df = .argb32) ∧
    ∃ (s t : State) (df : Fmt), decodeFmt s.regs.dfmt = some df ∧ s.regs.flags.getLsbD 2 = true ∧
      s.params.rejects = [] ∧ (destRect s.regs df).fits s.params ∧ (destRect s.regs df).rowsApart ∧
      exec .copyOvl s = .next t ∧ 0 < s.regs.w.toNat ∧ 0 < s.regs.h.toNat ∧ df = .bgra32 :=
  ⟨⟨having { copying 0x20018888 0x18020888 with flags := 4 } [], _, .argb32, by decide +kernel, by decide +kernel, rfl, by decide +kernel, by decide +kernel, rfl, by decide +kernel, by decide +kernel, rfl⟩,
    ⟨having { copying 0x20048888 0x18020888 with flags := 4 } [], _, .bgra32, by decide +kernel, by decide +kernel, rfl, by decide +kernel, by decide +kernel, rfl, by decide +kernel, by decide +kernel, rfl⟩⟩

theorem witness_FillsRectangle :
    (∃ s : State, ∀ f, decodeFmt s.regs.dfmt = some f → f = .a4 ∨ f = .mono) ∧
    (∃ (s : State) (f : Fmt), decodeFmt s.regs.dfmt = some f ∧ f ≠ .a4 ∧ f ≠ .mono ∧ (s.regs.w = 0 ∨ s.regs.h = 0)) ∧
    (∃ (s : State) (f : Fmt), decodeFmt s.regs.dfmt = some f ∧ f ≠ .a4 ∧ f ≠ .mono ∧ s.regs.w ≠ 0 ∧ s.regs.h ≠ 0 ∧
      s.regs.dst = 0) ∧
    ∃ (s : State) (f : Fmt), decodeFmt s.regs.dfmt = some f ∧ f ≠ .a4 ∧ f ≠ .mono ∧ s.regs.w ≠ 0 ∧ s.regs.h ≠ 0 ∧
      s.regs.dst ≠ 0 ∧ s.params.rejects = [] ∧ (destRect s.regs f).fits s.params ∧ (destRect s.regs f).rowsApart :=
  ⟨⟨having (copying 0x04004000 0) [], by intro f; cases f <;> decide⟩,
    ⟨having { copying 0x08008000 0 with w := 0 } [], .rgb8, by decide +kernel⟩,
    ⟨having { copying 0x08008000 0 with dst := 0 } [], .rgb8, by decide +kernel⟩,
    ⟨having { copying 0x08008000 0 with dst := 2 ^ 64 - 4 } [], .rgb8, by decide +kernel⟩⟩

/-- A scale whose source is 2 by 2 as well. -/
def scaling (df sf : Word) : OperandRegs :=
  { copying df sf with sw := 2, sh := 2 }

theorem witness_ScaleDispatch :
    (∃ s : State, decodeFmt s.regs.dfmt = none ∨ decodeFmt s.regs.sfmt = none) ∧
    (∃ (s t : State) (df sf : Fmt), s.formats df sf ∧ s.regs.w = s.regs.sw ∧ s.regs.h = s.regs.sh ∧
      exec .copyNovl { s with regs := { s.regs with pal := 0, flags := 0 } } = .next t) ∧
    ∃ (s : State) (df sf : Fmt), s.formats df sf ∧ ¬ (s.regs.w = s.regs.sw ∧ s.regs.h = s.regs.sh) ∧
      s.params.resamplerPresent = false :=
  ⟨⟨State.reset, by decide +kernel⟩, ⟨having (scaling 0x20018888 0x10010565) [], _, .argb32, .rgb16, by decide +kernel, rfl, rfl, rfl⟩,
    ⟨having { scaling 0x20018888 0x10010565 with sh := 3 } [], .argb32, .rgb16, by decide +kernel⟩⟩

theorem witness_ScaleCompletes :
    (∃ (s : State) (df sf : Fmt), s.formats df sf ∧ s.params.rejects = [] ∧ s.regs.w = s.regs.sw ∧
      s.regs.h = s.regs.sh ∧ s.copyable ∧ s.params.backendCopyPresent = true ∧
      ((scaleReq s.regs).job df sf).overlap = false ∧ ((scaleReq s.regs).job df sf).ready s.params s.mem) ∧
    (∃ (s : State) (df sf : Fmt), s.formats df sf ∧ s.params.rejects = [] ∧
      ¬ (s.regs.w = s.regs.sw ∧ s.regs.h = s.regs.sh) ∧ s.params.resamplerPresent = true ∧
      df ∉ [Fmt.argb32, .xrgb32, .abgr32, .xbgr32, .rgba32, .rgbx32, .bgra32, .bgrx32]) ∧
    (∃ (s : State) (df sf : Fmt), s.formats df sf ∧ s.params.rejects = [] ∧
      ¬ (s.regs.w = s.regs.sw ∧ s.regs.h = s.regs.sh) ∧ s.params.resamplerPresent = true ∧
      df ∈ [Fmt.argb32, .xrgb32, .abgr32, .xbgr32, .rgba32, .rgbx32, .bgra32, .bgrx32] ∧
      sf ∈ [Fmt.argb32, .xrgb32, .abgr32, .xbgr32, .rgba32, .rgbx32, .bgra32, .bgrx32] ∧ s.regs.dst = 0) ∧
    ∃ (s : State) (df sf : Fmt), s.formats df sf ∧ s.params.rejects = [] ∧
      ¬ (s.regs.w = s.regs.sw ∧ s.regs.h = s.regs.sh) ∧ s.params.resamplerPresent = true ∧
      df ∈ [Fmt.argb32, .xrgb32, .abgr32, .xbgr32, .rgba32, .rgbx32, .bgra32, .bgrx32] ∧
      sf ∈ [Fmt.argb32, .xrgb32, .abgr32, .xbgr32, .rgba32, .rgbx32, .bgra32, .bgrx32] ∧
      s.regs.dst ≠ 0 ∧ s.regs.src ≠ 0 :=
  ⟨⟨having (scaling 0x20018888 0x10010565) [], .argb32, .rgb16, by decide +kernel, rfl, rfl, rfl, by decide +kernel, rfl, by decide +kernel,
      .inr ⟨rfl, rfl, fun h => by cases h⟩⟩,
    ⟨{ having { scaling 0x20030AAA 0x20018888 with sw := 1 } [] with
      params := { Params.standard with resamplerPresent := true } }, .rgbx32Depth30, .argb32, by decide +kernel⟩,
    ⟨{ having { scaling 0x20040888 0x20018888 with sw := 1, dst := 0 } [] with
      params := { Params.standard with resamplerPresent := true } }, .bgrx32, .argb32, by decide +kernel⟩,
    ⟨{ having { scaling 0x20040888 0x20018888 with sw := 1 } [] with
      params := { Params.standard with resamplerPresent := true } }, .bgrx32, .argb32, by decide +kernel⟩⟩

theorem witness_GlyphWritesBytes :
    (∃ s : State, s.regs.dst = 0 ∨ s.regs.src = 0) ∧
    ∃ s : State, s.regs.dst ≠ 0 ∧ s.regs.src ≠ 0 ∧ s.params.rejects = [] ∧
      s.regs.w.toNat * s.regs.h.toNat ≤ 2 ^ s.params.addrW ∧
      bitsApart s.params s.regs.src.toNat ((s.regs.w.toNat + 7) / 8) s.regs.w.toNat s.regs.h.toNat
        (span s.params s.regs.dst.toNat (s.regs.w.toNat * s.regs.h.toNat)) ∧
      0 < s.regs.w.toNat ∧ 0 < s.regs.h.toNat :=
  ⟨⟨State.reset, .inl rfl⟩,
    ⟨having { r0 with dst := 0x3000, src := 0x2FFE, w := 9, h := 1 } [], by decide +kernel⟩⟩

theorem witness_MonoSelectsColors :
    (∃ s : State, ∀ f, decodeFmt s.regs.dfmt = some f → f = .a4 ∨ f = .mono) ∧
    (∃ (s : State) (f : Fmt), decodeFmt s.regs.dfmt = some f ∧ f ≠ .a4 ∧ f ≠ .mono ∧
      (s.regs.dst = 0 ∨ s.regs.src = 0)) ∧
    ∃ (s : State) (f : Fmt), decodeFmt s.regs.dfmt = some f ∧ f ≠ .a4 ∧ f ≠ .mono ∧ s.regs.dst ≠ 0 ∧ s.regs.src ≠ 0 ∧
      s.params.rejects = [] ∧ (destRect s.regs f).fits s.params ∧ (destRect s.regs f).rowsApart ∧
      bitsApart s.params s.regs.src.toNat ((s.regs.w.toNat + 7) / 8) s.regs.w.toNat s.regs.h.toNat
        ((destRect s.regs f).footprint s.params) :=
  ⟨⟨having (copying 0x01001000 0) [], by intro f; cases f <;> decide⟩,
    ⟨having { copying 0x08008000 0 with src := 0 } [], .rgb8, by decide +kernel⟩,
    ⟨having (copying 0x10010565 0) [], .rgb16, by decide +kernel⟩⟩

/-- An icon of 2 by 2 pixels with a mask, into BGRA32 (V14.1). -/
def iconRegs : OperandRegs :=
  { r0 with
    dst := 0x9000, src := 0x8000, msk := 0x8200, dfmt := 0x20048888, bpp := 24, w := 2, h := 2, srclen := 12
    msklen := 8 }

theorem witness_IconChecks :
    (∃ s : State, decodeFmt s.regs.dfmt = none) ∧
    (∃ (s : State) (f : Fmt), decodeFmt s.regs.dfmt = some f ∧ (s.regs.dst = 0 ∨ s.regs.src = 0)) ∧
    (∃ (s : State) (f : Fmt), decodeFmt s.regs.dfmt = some f ∧ s.regs.dst ≠ 0 ∧ s.regs.src ≠ 0 ∧
      s.regs.bpp.toNat ∉ [8, 16, 24, 32]) ∧
    (∃ (s : State) (f : Fmt), decodeFmt s.regs.dfmt = some f ∧ s.regs.dst ≠ 0 ∧ s.regs.src ≠ 0 ∧
      s.regs.bpp.toNat ∈ [8, 16, 24, 32] ∧
      s.regs.srclen.toNat < s.regs.w.toNat * s.regs.h.toNat * (s.regs.bpp.toNat / 8)) ∧
    (∃ (s : State) (f : Fmt), decodeFmt s.regs.dfmt = some f ∧ s.regs.dst ≠ 0 ∧ s.regs.src ≠ 0 ∧
      s.regs.bpp.toNat ∈ [8, 16, 24, 32] ∧
      s.regs.w.toNat * s.regs.h.toNat * (s.regs.bpp.toNat / 8) ≤ s.regs.srclen.toNat ∧ s.regs.tbl = 0 ∧
      s.regs.tbllen ≠ 0) ∧
    (∃ (s : State) (f : Fmt), decodeFmt s.regs.dfmt = some f ∧ s.regs.dst ≠ 0 ∧ s.regs.src ≠ 0 ∧
      s.regs.bpp.toNat ∈ [8, 16, 24, 32] ∧
      s.regs.w.toNat * s.regs.h.toNat * (s.regs.bpp.toNat / 8) ≤ s.regs.srclen.toNat ∧
      (s.regs.tbl ≠ 0 ∨ s.regs.tbllen = 0) ∧ s.params.rejects = [] ∧ f.hasAlpha = true ∧ s.regs.msk ≠ 0 ∧
      s.regs.msklen ≠ 0 ∧ f = .rgb8) ∧
    ∃ (s : State) (f : Fmt), decodeFmt s.regs.dfmt = some f ∧ s.regs.dst ≠ 0 ∧ s.regs.src ≠ 0 ∧
      s.regs.bpp.toNat ∈ [8, 16, 24, 32] ∧
      s.regs.w.toNat * s.regs.h.toNat * (s.regs.bpp.toNat / 8) ≤ s.regs.srclen.toNat ∧
      (s.regs.tbl ≠ 0 ∨ s.regs.tbllen = 0) ∧ s.params.rejects = [] ∧ f.hasAlpha = true ∧ s.regs.msk ≠ 0 ∧
      s.regs.msklen ≠ 0 ∧ f.packable = true ∧
      s.regs.msklen.toNat < (((s.regs.w.toNat + 7) / 8 + 3) / 4 * 4) * s.regs.h.toNat :=
  ⟨⟨State.reset, by decide +kernel⟩, ⟨having { iconRegs with src := 0 } [], .bgra32, by decide +kernel⟩,
    ⟨having { iconRegs with bpp := 15 } [], .bgra32, by decide +kernel⟩,
    ⟨having { iconRegs with srclen := 11 } [], .bgra32, by decide +kernel⟩,
    ⟨having { iconRegs with tbllen := 8 } [], .bgra32, by decide +kernel⟩,
    ⟨having { iconRegs with dfmt := 0x08008000 } [], .rgb8, by decide +kernel⟩,
    ⟨having { iconRegs with msklen := 7 } [], .bgra32, by decide +kernel⟩⟩

/-- ICON passes its own checks (43_bitmap_decoders R280 steps 1 to 7): the hypotheses of IconCompletes. -/
abbrev iconPasses (s : State) (f sf : Fmt) : Prop :=
  decodeFmt s.regs.dfmt = some f ∧ s.params.rejects = [] ∧ s.regs.dst ≠ 0 ∧ s.regs.src ≠ 0 ∧
  (s.regs.bpp.toNat, sf) ∈ [(8, Fmt.rgb8), (16, .rgb15), (24, .rgb24), (32, .bgra32)] ∧
  s.regs.w.toNat * s.regs.h.toNat * (s.regs.bpp.toNat / 8) ≤ s.regs.srclen.toNat ∧
  (s.regs.tbl ≠ 0 ∨ s.regs.tbllen = 0) ∧
  (f.hasAlpha = false ∨ s.regs.msk = 0 ∨ s.regs.msklen = 0 ∨
    (f.packable = true ∧ (((s.regs.w.toNat + 7) / 8 + 3) / 4 * 4) * s.regs.h.toNat ≤ s.regs.msklen.toNat))

/-- With a mask where the destination packs; without one where it does not. -/
theorem witness_IconCompletes :
    (∃ (s : State) (f sf : Fmt), iconPasses s f sf ∧ s.regs.msk ≠ 0 ∧ s.regs.msklen ≠ 0 ∧
      s.params.maxDim < s.regs.h.toNat) ∧
    (∃ (s : State) (f sf : Fmt), iconPasses s f sf ∧ s.regs.w.toNat ≤ s.params.maxDim ∧
      s.regs.h.toNat ≤ s.params.maxDim ∧ s.regs.w = 0) ∧
    (∃ (s : State) (f sf : Fmt), iconPasses s f sf ∧ s.regs.w.toNat ≤ s.params.maxDim ∧
      s.regs.h.toNat ≤ s.params.maxDim ∧ s.regs.w ≠ 0 ∧ s.regs.h ≠ 0 ∧ s.params.backendCopyPresent = false ∧
      ((iconReq s.regs sf .absent).job f sf).overlap = false) ∧
    (∃ (s : State) (f sf : Fmt), iconPasses s f sf ∧ s.regs.w.toNat ≤ s.params.maxDim ∧
      s.regs.h.toNat ≤ s.params.maxDim ∧ s.regs.w ≠ 0 ∧ s.regs.h ≠ 0 ∧ s.params.backendCopyPresent = true ∧
      f.packable = false ∧ f ≠ sf) ∧
    (∃ (s : State) (f sf : Fmt), iconPasses s f sf ∧ s.regs.w.toNat ≤ s.params.maxDim ∧
      s.regs.h.toNat ≤ s.params.maxDim ∧ s.regs.w ≠ 0 ∧ s.regs.h ≠ 0 ∧ s.params.backendCopyPresent = true ∧
      f.packable = true ∧ s.regs.msk ≠ 0 ∧ s.regs.msklen ≠ 0) ∧
    ∃ (s : State) (f sf : Fmt), iconPasses s f sf ∧ s.regs.w.toNat ≤ s.params.maxDim ∧
      s.regs.h.toNat ≤ s.params.maxDim ∧ s.regs.w ≠ 0 ∧ s.regs.h ≠ 0 ∧
      ((iconReq s.regs sf .absent).job f sf).overlap = true ∧ f = sf ∧ f = .rgb8 :=
  ⟨⟨{ having { iconRegs with h := 3, srclen := 18, msklen := 12 } [] with
      params := { Params.standard with maxDim := 2 } }, .bgra32, .rgb24, by decide +kernel⟩,
    ⟨having { iconRegs with w := 0, srclen := 0, msklen := 0, bpp := 8 } [], .bgra32, .rgb8, by decide +kernel⟩,
    ⟨{ having iconRegs [] with params := { Params.standard with backendCopyPresent := false } }, .bgra32, .rgb24,
      by decide +kernel⟩,
    ⟨having { iconRegs with dfmt := 0x01001000, msk := 0, bpp := 8 } [], .mono, .rgb8, by decide +kernel⟩,
    ⟨having iconRegs [], .bgra32, .rgb24, by decide +kernel⟩,
    ⟨having { iconRegs with dfmt := 0x08008000, msk := 0, bpp := 8, dst := 0x8004 } [], .rgb8, .rgb8,
      by decide +kernel⟩⟩

/-- A 24-bit icon whose mask is empty, and an 8-bit icon into RGB8 on a platform that rejects a byte of its bitmap. -/
theorem witness_IconIsFlippedCopy :
    (∃ (s t : State) (f : Fmt) (ident : Word), decodeFmt s.regs.dfmt = some f ∧ s.regs.dst ≠ 0 ∧ s.regs.src ≠ 0 ∧
      (s.regs.bpp.toNat, ident) ∈ [(16, 0x0F010555#32), (24, 0x18010888#32), (32, 0x20048888#32)] ∧
      s.regs.w.toNat * s.regs.h.toNat * (s.regs.bpp.toNat / 8) ≤ s.regs.srclen.toNat ∧
      (s.regs.tbl ≠ 0 ∨ s.regs.tbllen = 0) ∧ (f.hasAlpha = false ∨ s.regs.msk = 0 ∨ s.regs.msklen = 0) ∧
      (∀ a, span s.params s.regs.tbl.toNat s.regs.tbllen.toNat a → rejected s.params a = false) ∧
      exec .copy { s with regs := { s.regs with sfmt := ident, sstride := 0, sx := 0, sy := 0, flags := 1 } } =
        .next t) ∧
    ∃ (s t : State) (f : Fmt) (ident : Word), decodeFmt s.regs.dfmt = some f ∧ s.regs.dst ≠ 0 ∧ s.regs.src ≠ 0 ∧
      s.regs.bpp = 8 ∧ f = .rgb8 ∧ ident = 0x08008000#32 ∧
      s.regs.w.toNat * s.regs.h.toNat * (s.regs.bpp.toNat / 8) ≤ s.regs.srclen.toNat ∧
      (s.regs.tbl ≠ 0 ∨ s.regs.tbllen = 0) ∧ (f.hasAlpha = false ∨ s.regs.msk = 0 ∨ s.regs.msklen = 0) ∧
      (∀ a, span s.params s.regs.tbl.toNat s.regs.tbllen.toNat a → rejected s.params a = false) ∧
      exec .copy { s with regs := { s.regs with sfmt := ident, sstride := 0, sx := 0, sy := 0, flags := 1 } } =
        .next t :=
  ⟨⟨having { iconRegs with msklen := 0 } [], _, .bgra32, 0x18010888, by decide +kernel, by decide +kernel,
      by decide +kernel, by decide +kernel, by decide +kernel, by decide +kernel, by decide +kernel,
      fun _ _ => rfl, rfl⟩,
    ⟨rejecting 0x8001 (having { iconRegs with dfmt := 0x08008000, msk := 0, bpp := 8 } []), _, .rgb8, _,
      by decide +kernel, by decide +kernel, by decide +kernel, rfl, rfl, rfl, by decide +kernel, by decide +kernel,
      by decide +kernel, fun _ ⟨_, h, _⟩ => absurd h (Nat.not_lt_zero _), rfl⟩⟩

theorem witness_IconPaletted : ∃ (s : State) (f : Fmt), decodeFmt s.regs.dfmt = some f ∧ f.packable = true ∧
    s.params.rejects = [] ∧ s.params.backendCopyPresent = true ∧ s.copyable ∧ s.regs.bpp = 8 ∧
    s.regs.w.toNat * s.regs.h.toNat ≤ s.regs.srclen.toNat ∧ (s.regs.tbl ≠ 0 ∨ s.regs.tbllen = 0) ∧
    (f.hasAlpha = false ∨ s.regs.msk = 0 ∨ s.regs.msklen = 0) ∧
    (destRect s.regs f).fits s.params ∧ (destRect s.regs f).rowsApart ∧
    ∀ k, k < s.regs.w.toNat * s.regs.h.toNat →
      ¬ (destRect s.regs f).footprint s.params (portAddr s.params (s.regs.src.toNat + k)) :=
  ⟨having { iconRegs with msklen := 0, bpp := 8, srclen := 4, tbl := 0x8100, tbllen := 1024 } [], .bgra32, by decide +kernel⟩

theorem witness_IconMask : ∃ (s t : State) (f : Fmt), decodeFmt s.regs.dfmt = some f ∧ f.packable = true ∧
    f.hasAlpha = true ∧ s.params.rejects = [] ∧ s.regs.msk ≠ 0 ∧ s.regs.msklen ≠ 0 ∧
    (((s.regs.w.toNat + 7) / 8 + 3) / 4 * 4) * s.regs.h.toNat ≤ s.regs.msklen.toNat ∧
    (destRect s.regs f).fits s.params ∧ (destRect s.regs f).rowsApart ∧
    bitsApart s.params s.regs.msk.toNat (((s.regs.w.toNat + 7) / 8 + 3) / 4 * 4) s.regs.w.toNat s.regs.h.toNat
      ((destRect s.regs f).footprint s.params) ∧
    exec .icon { s with regs := { s.regs with msklen := 0 } } = .next t ∧ t.status.err = 0 :=
  ⟨having iconRegs [], _, .bgra32, by decide +kernel, rfl, rfl, rfl, by decide +kernel, by decide +kernel, by decide +kernel, by decide +kernel, by decide +kernel, by decide +kernel, rfl, by decide +kernel⟩

/-- A cursor of 2 by 2 pixels with both masks, into ARGB32 (R298). -/
def cursorRegs : OperandRegs :=
  { r0 with
    dst := 0x7000, src := 0x6000, msk := 0x6100, dfmt := 0x20018888, bpp := 1, w := 2, h := 2, srclen := 4
    msklen := 4 }

theorem witness_CursorChecks :
    (∃ s : State, ∀ f, decodeFmt s.regs.dfmt = some f → f = .rgb8 ∨ f = .a4 ∨ f = .mono) ∧
    ∃ (s : State) (f : Fmt), decodeFmt s.regs.dfmt = some f ∧ f.packable = true ∧ s.regs.dst = 0 :=
  ⟨⟨having { cursorRegs with dfmt := 0x08008000 } [], by intro f; cases f <;> decide⟩,
    ⟨having { cursorRegs with dst := 0 } [], .argb32, by decide +kernel⟩⟩

/-- A color cursor with a bitmap, no access rejected: hypotheses that clauses of CursorFailure share. -/
abbrev cursorBitmap (s : State) (f : Fmt) : Prop :=
  decodeFmt s.regs.dfmt = some f ∧ f.packable = true ∧ s.regs.dst ≠ 0 ∧ s.params.rejects = [] ∧
  s.regs.bpp.toNat ∈ [8, 16, 24, 32] ∧ s.regs.src ≠ 0 ∧ s.regs.srclen ≠ 0

theorem witness_CursorFailure :
    (∃ (s : State) (f : Fmt), decodeFmt s.regs.dfmt = some f ∧ f.packable = true ∧ s.regs.dst ≠ 0 ∧
      s.params.rejects = [] ∧ s.regs.bpp.toNat ∉ [1, 8, 16, 24, 32]) ∧
    (∃ (s : State) (f : Fmt), decodeFmt s.regs.dfmt = some f ∧ f.packable = true ∧ s.regs.dst ≠ 0 ∧
      s.params.rejects = [] ∧ s.regs.bpp.toNat ∈ [8, 16, 24, 32] ∧ (s.regs.src = 0 ∨ s.regs.srclen = 0)) ∧
    (∃ (s : State) (f : Fmt), decodeFmt s.regs.dfmt = some f ∧ f.packable = true ∧ s.regs.dst ≠ 0 ∧
      s.params.rejects = [] ∧ s.regs.bpp = 8 ∧ s.regs.src ≠ 0 ∧ s.regs.srclen ≠ 0 ∧ s.regs.pal = 0) ∧
    (∃ (s : State) (f : Fmt), decodeFmt s.regs.dfmt = some f ∧ f.packable = true ∧ s.regs.dst ≠ 0 ∧
      s.params.rejects = [] ∧ s.regs.bpp = 1 ∧
      s.regs.srclen.toNat < (((s.regs.w.toNat + 7) / 8 + 1) / 2 * 2) * s.regs.h.toNat) ∧
    (∃ (s : State) (f : Fmt), cursorBitmap s f ∧ s.regs.bpp = 8 ∧ s.regs.pal ≠ 0 ∧ paletteApart s ∧
      decodeFmt (wordLeAt s.params s.mem s.regs.pal.toNat) = some .rgb8) ∧
    (∃ (s : State) (f : Fmt), cursorBitmap s f ∧ s.regs.bpp = 8 ∧ s.regs.pal ≠ 0 ∧ paletteApart s ∧
      decodeFmt (wordLeAt s.params s.mem s.regs.pal.toNat) = some .a4) ∧
    (∃ (s : State) (f : Fmt), cursorBitmap s f ∧ s.regs.bpp = 8 ∧ s.regs.pal ≠ 0 ∧ paletteApart s ∧
      decodeFmt (wordLeAt s.params s.mem s.regs.pal.toNat) = none) ∧
    (∃ (s : State) (f : Fmt), cursorBitmap s f ∧ s.regs.bpp = 8 ∧ s.regs.pal ≠ 0 ∧ paletteApart s ∧
      decodeFmt (wordLeAt s.params s.mem s.regs.pal.toNat) = some .argb32 ∧
      s.regs.srclen.toNat < ((s.regs.w.toNat * (s.regs.bpp.toNat / 8) + 1) / 2 * 2) * s.regs.h.toNat) ∧
    (∃ (s : State) (f : Fmt), cursorBitmap s f ∧ s.regs.bpp ≠ 8 ∧ s.regs.msk ≠ 0 ∧
      s.regs.msklen.toNat < (((s.regs.w.toNat + 7) / 8 + 1) / 2 * 2) * s.regs.h.toNat) ∧
    ∃ (s t : State) (f : Fmt), decodeFmt s.regs.dfmt = some f ∧ f.packable = true ∧ s.regs.dst ≠ 0 ∧
      s.params.rejects = [] ∧ exec .cursor s = .next t ∧ t.status.err ≠ 0 ∧ s.regs.bpp = 8 ∧ paletteApart s :=
  ⟨⟨having { cursorRegs with bpp := 2 } [], .argb32, by decide +kernel⟩,
    ⟨having { cursorRegs with bpp := 32, srclen := 0 } [], .argb32, by decide +kernel⟩,
    ⟨having { cursorRegs with bpp := 8 } [], .argb32, by decide +kernel⟩,
    ⟨having { cursorRegs with srclen := 3 } [], .argb32, by decide +kernel⟩,
    ⟨having { cursorRegs with bpp := 8, pal := 0x4000 } (image 0x4000 [0x00, 0x80, 0x00, 0x08]), .argb32,
      by decide +kernel⟩,
    ⟨having { cursorRegs with bpp := 8, pal := 0x4000 } (image 0x4000 [0x00, 0x40, 0x00, 0x04]), .argb32,
      by decide +kernel⟩,
    ⟨having { cursorRegs with bpp := 8, pal := 0x4000 } [], .argb32, by decide +kernel⟩,
    ⟨having { cursorRegs with bpp := 8, pal := 0x4000, srclen := 3 } paletteImage, .argb32, by decide +kernel⟩,
    ⟨having { cursorRegs with bpp := 32, srclen := 16, msklen := 3 } [], .argb32, by decide +kernel⟩,
    ⟨having { cursorRegs with bpp := 8, pal := 0x4000 } [], _, .argb32, by decide +kernel, rfl, by decide +kernel, rfl, rfl, by decide +kernel, rfl, by decide +kernel⟩⟩

theorem witness_CursorOneBit : ∃ (s : State) (f : Fmt), decodeFmt s.regs.dfmt = some f ∧ f.packable = true ∧
    s.params.rejects = [] ∧ s.regs.dst ≠ 0 ∧ s.regs.bpp = 1 ∧ s.regs.src ≠ 0 ∧ s.regs.srclen ≠ 0 ∧
    s.regs.msk ≠ 0 ∧ s.regs.msklen ≠ 0 ∧
    (((s.regs.w.toNat + 7) / 8 + 1) / 2 * 2) * s.regs.h.toNat ≤ s.regs.srclen.toNat ∧
    (((s.regs.w.toNat + 7) / 8 + 1) / 2 * 2) * s.regs.h.toNat ≤ s.regs.msklen.toNat ∧
    (destRect s.regs f).fits s.params ∧ (destRect s.regs f).rowsApart ∧
    bitsApart s.params s.regs.src.toNat (((s.regs.w.toNat + 7) / 8 + 1) / 2 * 2) s.regs.w.toNat s.regs.h.toNat
      ((destRect s.regs f).footprint s.params) ∧
    bitsApart s.params s.regs.msk.toNat (((s.regs.w.toNat + 7) / 8 + 1) / 2 * 2) s.regs.w.toNat s.regs.h.toNat
      ((destRect s.regs f).footprint s.params) :=
  ⟨having cursorRegs [], .argb32, by decide +kernel⟩

/-- For the 8-bit depth, with its palette, and for the 32-bit depth without an AND mask. -/
theorem witness_CursorColor :
    (∃ (s : State) (f xf : Fmt), decodeFmt s.regs.dfmt = some f ∧ f.packable = true ∧ s.params.rejects = [] ∧
      s.regs.dst ≠ 0 ∧ (s.regs.bpp.toNat, xf) ∈ [(8, Fmt.rgb8), (16, .rgb15), (24, .bgr24), (32, .bgra32)] ∧
      s.regs.src ≠ 0 ∧ s.regs.srclen ≠ 0 ∧
      ((s.regs.w.toNat * (s.regs.bpp.toNat / 8) + 1) / 2 * 2) * s.regs.h.toNat ≤ s.regs.srclen.toNat ∧
      (((s.regs.w.toNat + 7) / 8 + 1) / 2 * 2) * s.regs.h.toNat ≤ s.regs.msklen.toNat ∧
      (destRect s.regs f).fits s.params ∧ (destRect s.regs f).rowsApart ∧ xf = .rgb8 ∧ s.regs.pal ≠ 0 ∧
      decodeFmt (wordLeAt s.params s.mem s.regs.pal.toNat) = some .argb32 ∧
      (∀ k, k < 1028 → ¬ (destRect s.regs f).footprint s.params (portAddr s.params (s.regs.pal.toNat + k))) ∧
      (∀ y, y < s.regs.h.toNat → ∀ k, k < s.regs.w.toNat * (s.regs.bpp.toNat / 8) →
        ¬ (destRect s.regs f).footprint s.params (portAddr s.params
          (s.regs.src.toNat + ((s.regs.w.toNat * (s.regs.bpp.toNat / 8) + 1) / 2 * 2) * y + k))) ∧
      s.regs.msk ≠ 0 ∧ bitsApart s.params s.regs.msk.toNat (((s.regs.w.toNat + 7) / 8 + 1) / 2 * 2)
        s.regs.w.toNat s.regs.h.toNat ((destRect s.regs f).footprint s.params)) ∧
    ∃ (s : State) (f xf : Fmt), decodeFmt s.regs.dfmt = some f ∧ f.packable = true ∧ s.params.rejects = [] ∧
      s.regs.dst ≠ 0 ∧ (s.regs.bpp.toNat, xf) ∈ [(8, Fmt.rgb8), (16, .rgb15), (24, .bgr24), (32, .bgra32)] ∧
      s.regs.src ≠ 0 ∧ s.regs.srclen ≠ 0 ∧
      ((s.regs.w.toNat * (s.regs.bpp.toNat / 8) + 1) / 2 * 2) * s.regs.h.toNat ≤ s.regs.srclen.toNat ∧
      s.regs.msk = 0 ∧ (destRect s.regs f).fits s.params ∧ (destRect s.regs f).rowsApart ∧ xf ≠ .rgb8 ∧
      ∀ y, y < s.regs.h.toNat → ∀ k, k < s.regs.w.toNat * (s.regs.bpp.toNat / 8) →
        ¬ (destRect s.regs f).footprint s.params (portAddr s.params
          (s.regs.src.toNat + ((s.regs.w.toNat * (s.regs.bpp.toNat / 8) + 1) / 2 * 2) * y + k)) :=
  ⟨⟨having { cursorRegs with bpp := 8, pal := 0x4000 } paletteImage, .argb32, .rgb8, by decide +kernel⟩,
    ⟨having { cursorRegs with bpp := 32, srclen := 16, msk := 0 } [], .argb32, .bgra32, by decide +kernel⟩⟩

/-- CURSOR with a byte of its AND mask rejected; FILL with a byte of its rectangle rejected. -/
theorem witness_RejectedByteFaults :
    (∃ (i : Instr) (s u : State) (a : Nat), exec i s.unrejecting = .next u ∧ u.status.err = 0 ∧ mustTouch i s a ∧
      rejected s.params a = true) ∧
    ∃ (i : Instr) (s t : State) (a : Nat), exec i s = .next t ∧ rejected s.params a = true ∧ mustTouch i s a :=
  ⟨⟨.cursor, rejecting 0x6102 (having cursorRegs []), _, 0x6102, rfl, by decide +kernel,
      ⟨.argb32, by decide, rfl, .inr (.inr (.inr (.inl ⟨by decide +kernel, 1, by decide +kernel, 0, by decide +kernel,
        by decide +kernel⟩)))⟩, by decide +kernel⟩,
    ⟨.fill, rejecting 0x3000 (having (copying 0x10010565 0) []), _, 0x3000, rfl, by decide +kernel,
      ⟨.rgb16, by decide, rfl, 0, by decide +kernel, 0, by decide +kernel, by decide +kernel⟩⟩⟩

end Sys2Proof.Tests
end

section
/-! The host's side of a step, and what every command has in common: it ends by one of the three operations that
run a command to its end, so it answers a next state and leaves what those operations leave. -/

namespace Sys2Proof.Machine

/-! ### One step of the host -/

/-- With nothing pending from the host the block waits (10_state R24). -/
theorem step_of_script_nil {s : State} (h : s.script = []) : step s = .next s := by
  simp [step, h]

/-- The host's next event is taken off its script and happens (00_scope R8). -/
theorem step_of_script_cons {s : State} {e : HostEvent} {rest : List HostEvent} (h : s.script = e :: rest) :
    step s = hostEvent e { s with script := rest } := by
  simp [step, h]

theorem hostEvent_memWrite_of_lt {s : State} {a : Nat} (b : Byte) (h : a < 2 ^ s.params.addrW) :
    hostEvent (.memWrite a b) s = .next { s with mem := s.mem.write a b } :=
  if_pos h

theorem hostEvent_memWrite_of_le {s : State} {a : Nat} (b : Byte) (h : 2 ^ s.params.addrW ≤ a) :
    hostEvent (.memWrite a b) s = .fault (.noSuchAddress a) :=
  if_neg (Nat.not_lt.2 h)

theorem hostEvent_memRead_of_lt {s : State} {a : Nat} (h : a < 2 ^ s.params.addrW) :
    hostEvent (.memRead a) s = .next { s with readData := (s.mem.read a).setWidth 64 } :=
  if_pos h

theorem hostEvent_memRead_of_le {s : State} {a : Nat} (h : 2 ^ s.params.addrW ≤ a) :
    hostEvent (.memRead a) s = .fault (.noSuchAddress a) :=
  if_neg (Nat.not_lt.2 h)

/-- Part of a register slot cannot be written (10_state R37). -/
theorem hostEvent_write_partial (s : State) {o : Nat} (v : Slot) (h : o % 8 ≠ 0) :
    hostEvent (.write o v) s = .refused (.partialSlot o) :=
  if_neg h

/-- Part of a register slot cannot be read (10_state R37). -/
theorem hostEvent_read_partial (s : State) {o : Nat} (h : o % 8 ≠ 0) :
    hostEvent (.read o) s = .refused (.partialSlot o) :=
  if_neg h

/-- Settles O8: each clause is the step taking its event off the script, then the rule of that event; what the
written memory holds is `Memory.read_write`. -/
theorem hostAccesses : Obligations.HostAccesses := by
  intro s rest
  refine ⟨step_of_script_nil, fun a b hs => ⟨fun ha => ?inRange, fun ha => ?outOfRange⟩,
    fun a hs => ⟨fun ha => ?readInRange, fun ha => ?readOutOfRange⟩, fun o v ho hs => ?writePart,
    fun o ho hs => ?readPart⟩
  case inRange =>
    exact ⟨s.mem.write a b, (step_of_script_cons hs).trans (hostEvent_memWrite_of_lt b ha),
      Memory.read_write_same s.mem a b, fun _ hx => Memory.read_write_ne s.mem b hx⟩
  case outOfRange => exact (step_of_script_cons hs).trans (hostEvent_memWrite_of_le b ha)
  case readInRange => exact (step_of_script_cons hs).trans (hostEvent_memRead_of_lt ha)
  case readOutOfRange => exact (step_of_script_cons hs).trans (hostEvent_memRead_of_le ha)
  case writePart => exact (step_of_script_cons hs).trans (hostEvent_write_partial _ v ho)
  case readPart => exact (step_of_script_cons hs).trans (hostEvent_read_partial _ ho)

/-! ### Every command is run to its end -/

/-- How any command runs (10_state R31): a producer of RES by `runRes`, SPLITCOLOR by `runRchan`, every other
command by `runPlain`. -/
theorem exec_runs (i : Instr) (s : State) :
    (i.producesRes = true ∧ ∃ c, exec i s = .next (s.runRes c)) ∨
    (i.producesRchan = true ∧ ∃ c, exec i s = .next (s.runRchan c)) ∨
    (i.producesRes = false ∧ i.producesRchan = false ∧ ∃ c, exec i s = .next (s.runPlain c)) := by
  cases i with
  | fmtBpp | fmtBytes | fmtHasAlpha | fmtEqna | fmtName | getColor | readColor | convertColor =>
    exact .inl ⟨rfl, _, rfl⟩
  | splitColor => exact .inr (.inl ⟨rfl, _, rfl⟩)
  | nop | writeColor | writeColorIa | copy | copyOvl | copyNovl | fill | scale | glyph | mono | icon | cursor =>
    exact .inr (.inr ⟨rfl, rfl, _, rfl⟩)

/-- Settles O12, by the operation that runs the command to its end: each of the three leaves these fields. -/
theorem commandsEnd : Obligations.CommandsEnd := by
  intro i s
  obtain ⟨-, c, h⟩ | ⟨-, c, h⟩ | ⟨-, -, c, h⟩ := exec_runs i s
  · exact ⟨_, h, runRes_regs s c, runRes_params s c, runRes_script s c, runRes_readData s c⟩
  · exact ⟨_, h, runRchan_regs s c, runRchan_params s c, runRchan_script s c, runRchan_readData s c⟩
  · exact ⟨_, h, runPlain_regs s c, runPlain_params s c, runPlain_script s c, runPlain_readData s c⟩

end Sys2Proof.Machine
end

section
/-! The register window and the machine's invariant. First what a host access to the window does and what a step
can be; then the operations that run a command to its end, what every command's pieces keep, and which operand
registers its body looks at. Each statement about the state rests on one of these. -/

namespace Sys2Proof.Machine

/-! ### The register window -/

/-- From number 25 on there is no operand register (10_state R21). -/
theorem operandReg_of_le {n : Nat} (h : 25 ≤ n) : operandReg n = none :=
  List.getElem?_eq_none h

/-- What a write to an address register keeps of the value (10_state R21). -/
theorem addressBits_toNat (p : Params) (v : Slot) : (addressBits p v).toNat = v.toNat % 2 ^ p.addrW :=
  Nat.mod_eq_of_lt (Nat.lt_of_le_of_lt (Nat.mod_le _ _) v.isLt)

theorem addressBits_lt (p : Params) (v : Slot) : (addressBits p v).toNat < 2 ^ p.addrW := by
  rw [addressBits_toNat]
  exact Nat.mod_lt _ (Nat.two_pow_pos _)

/-- A written operand register reads back as the value modulo its width (10_state R21). -/
theorem get_set_same_toNat (p : Params) (rs : OperandRegs) (r : OperandReg) (v : Slot) :
    ((rs.set p r v).get r).toNat =
      v.toNat % (if r ∈ [OperandReg.dst, .src, .pal, .msk, .tbl] then 2 ^ p.addrW else 2 ^ 32) := by
  rw [get_set_same]
  split
  · exact addressBits_toNat p v
  · simp only [BitVec.toNat_setWidth]
    omega

/-- A whole-slot write goes to the register of its number (10_state R21). -/
theorem hostEvent_write_slot (s : State) (n : Nat) (v : Slot) :
    hostEvent (.write (8 * n) v) s = writeRegister s n v := by
  simp [hostEvent]

/-- A whole-slot read returns the register of its number (10_state R21). -/
theorem hostEvent_read_slot (s : State) (n : Nat) :
    hostEvent (.read (8 * n)) s = .next { s with readData := registerValue s n } := by
  simp [hostEvent]

theorem writeRegister_operand (s : State) (r : OperandReg) (v : Slot) :
    writeRegister s r.number v = .next { s with regs := s.regs.set s.params r v } := by
  simp [writeRegister]

theorem writeRegister_cmd (s : State) (v : Slot) : writeRegister s 28 v = command (v.setWidth 32) s := rfl

/-- No register from 25 on but CMD takes a write (10_state R30, R32, R36, R37). -/
theorem writeRegister_ignored (s : State) {n : Nat} (v : Slot) (h : 25 ≤ n) (hcmd : n ≠ 28) :
    writeRegister s n v = .next s := by
  simp [writeRegister, operandReg_of_le h, hcmd]

theorem registerValue_operand (s : State) (r : OperandReg) : registerValue s r.number = s.regs.get r := by
  simp [registerValue]

/-- A decoded command word written to CMD runs its command (10_state R34). -/
theorem command_of_decode {c : Word} {i : Instr} (h : decode c = .ok i) (s : State) : command c s = exec i s := by
  simp [command, h]

/-- The layout of STATUS (10_state R32) in numbers. -/
theorem status_word_toNat (st : Status) :
    st.word.toNat = st.err.toNat + (if st.fault then 2 ^ 8 else 0) + (if st.binit then 2 ^ 9 else 0) := by
  obtain ⟨err, fault, binit⟩ := st
  revert err fault binit
  decide

/-- The layout of CAP (10_state R36) in numbers. -/
theorem capWord_toNat (p : Params) :
    (capWord p).toNat =
      (if p.backendCopyPresent then 1 else 0) + (if p.resamplerPresent then 2 else 0) + 7 * 2 ^ 8 := by
  unfold capWord
  cases p.resamplerPresent <;> cases p.backendCopyPresent <;> decide

/-- What the registers from 25 on read as (10_state R30, R32, R34, R36, R37). -/
theorem registerValue_toNat (s : State) {n : Nat} (h : 25 ≤ n) :
    (registerValue s n).toNat =
      if n = 25 then s.res.toNat
      else if n = 26 then s.rchan.toNat
      else if n = 27 then
        s.status.err.toNat + (if s.status.fault then 2 ^ 8 else 0) + (if s.status.binit then 2 ^ 9 else 0)
      else if n = 29 then
        (if s.params.backendCopyPresent then 1 else 0) + (if s.params.resamplerPresent then 2 else 0) + 7 * 2 ^ 8
      else 0 := by
  have widen (v : Word) : (v.setWidth 64).toNat = v.toNat := BitVec.toNat_setWidth_of_le (by decide)
  rw [← status_word_toNat, ← capWord_toNat]
  simp only [registerValue, operandReg_of_le h, apply_ite BitVec.toNat, widen]
  rfl

/-- Every operand register is 0 after reset (10_state R45). -/
theorem reset_get (r : OperandReg) : OperandRegs.reset.get r = 0 := by
  cases r <;> rfl

theorem reset_get_lt (p : Params) (r : OperandReg) : (OperandRegs.reset.get r).toNat < 2 ^ p.addrW := by
  rw [reset_get]
  exact Nat.two_pow_pos _

/-! ### What a step can be -/

/-- What the host's next event can leave of a state. -/
inductive Happens (s : State) : State → Prop
  /-- a command runs -/
  | command {i : Instr} {t : State} (h : exec i s = .next t) : Happens s t
  /-- a reserved command word (30_encoding R95) -/
  | reserved : Happens s (s.runPlain (throw .illegalCmd))
  /-- an operand register is written -/
  | operand (r : OperandReg) (v : Slot) : Happens s { s with regs := s.regs.set s.params r v }
  /-- a write is ignored -/
  | ignored : Happens s s
  /-- the host reads a register or a byte -/
  | readsBack (d : Slot) : Happens s { s with readData := d }
  /-- the host writes a byte of memory -/
  | memory {a : Nat} (b : Byte) (h : a < 2 ^ s.params.addrW) : Happens s { s with mem := s.mem.write a b }
  /-- the external reset -/
  | reset : Happens s (resetBlock s)

theorem command_happens {c : Word} {s t : State} (h : command c s = .next t) : Happens s t := by
  unfold command at h
  split at h
  · exact .command h
  · cases h
    exact .reserved

theorem writeRegister_happens {s t : State} {n : Nat} {v : Slot} (h : writeRegister s n v = .next t) :
    Happens s t := by
  unfold writeRegister at h
  split at h
  · cases h
    exact .operand _ v
  · split at h
    · exact command_happens h
    · cases h
      exact .ignored

theorem hostEvent_happens {e : HostEvent} {s t : State} (h : hostEvent e s = .next t) : Happens s t := by
  cases e with
  | write o v =>
    simp only [hostEvent] at h
    split at h
    · exact writeRegister_happens h
    · cases h
  | read o =>
    simp only [hostEvent] at h
    split at h <;> cases h
    exact .readsBack _
  | memWrite a b =>
    simp only [hostEvent] at h
    split at h <;> cases h
    exact .memory b ‹_›
  | memRead a =>
    simp only [hostEvent] at h
    split at h <;> cases h
    exact .readsBack _
  | reset =>
    cases h
    exact .reset

/-- A step waits, or takes an event off the script and lets it happen. -/
theorem step_happens {s t : State} (h : step s = .next t) :
    t = s ∨ ∃ e rest, s.script = e :: rest ∧ Happens { s with script := rest } t := by
  cases hs : s.script with
  | nil =>
    rw [step_of_script_nil hs] at h
    cases h
    exact .inl rfl
  | cons e rest =>
    rw [step_of_script_cons hs] at h
    exact .inr ⟨e, rest, rfl, hostEvent_happens h⟩

/-! ### Ending a command -/

/-- The working state a command ends with is what the next one starts with. -/
@[simp] theorem endCommand_work (s : State) (w : Work) (o : Option Err) : (s.endCommand w o).work = w := by
  cases o <;> rfl

theorem runPlain_work (s : State) (c : Cmd Unit) : (s.runPlain c).work = endWork (c s.work) := by
  unfold State.runPlain
  cases c s.work <;> exact endCommand_work _ _ _

theorem runRes_work (s : State) (c : Cmd Word) : (s.runRes c).work = endWork (c s.work) := by
  unfold State.runRes
  cases c s.work <;> exact endCommand_work _ _ _

theorem runRchan_work (s : State) (c : Cmd Word) : (s.runRchan c).work = endWork (c s.work) := by
  unfold State.runRchan
  cases c s.work <;> exact endCommand_work _ _ _

theorem runPlain_ends (s : State) (c : Cmd Unit) : ∃ w o, s.runPlain c = s.endCommand w o := by
  unfold State.runPlain
  cases c s.work with
  | ok a w => exact ⟨w, none, rfl⟩
  | error e w => exact ⟨w, some e, rfl⟩

theorem runRes_ends (s : State) (c : Cmd Word) : ∃ w o v, s.runRes c = { s.endCommand w o with res := v } := by
  unfold State.runRes
  cases c s.work with
  | ok v w => exact ⟨w, none, v, rfl⟩
  | error e w => exact ⟨w, some e, 0, rfl⟩

theorem runRchan_ends (s : State) (c : Cmd Word) :
    ∃ w o v, s.runRchan c = { s.endCommand w o with rchan := v } := by
  unfold State.runRchan
  cases c s.work with
  | ok v w => exact ⟨w, none, v, rfl⟩
  | error e w => exact ⟨w, some e, 0, rfl⟩

/-- Every command ends by `State.endCommand`, RES and RCHAN aside (60_exceptions R320). -/
theorem exec_ends {i : Instr} {s t : State} (h : exec i s = .next t) :
    ∃ w o, t = { s.endCommand w o with res := t.res, rchan := t.rchan } := by
  obtain ⟨-, c, hc⟩ | ⟨-, c, hc⟩ | ⟨-, -, c, hc⟩ := exec_runs i s <;> rw [hc] at h <;> cases h
  · obtain ⟨w, o, v, he⟩ := runRes_ends s c
    exact ⟨w, o, by rw [he]⟩
  · obtain ⟨w, o, v, he⟩ := runRchan_ends s c
    exact ⟨w, o, by rw [he]⟩
  · obtain ⟨w, o, he⟩ := runPlain_ends s c
    exact ⟨w, o, by rw [he]⟩

/-- A producer of RES that does not succeed leaves 0 there (60_exceptions R325). -/
theorem runRes_res_of_err {s : State} {c : Cmd Word} (h : (s.runRes c).status.err ≠ 0) : (s.runRes c).res = 0 := by
  cases hr : c s.work with
  | ok v w => exact absurd (by rw [runRes_of_ok hr]; rfl) h
  | error e w => rw [runRes_of_error hr]

/-- A producer of RCHAN that does not succeed leaves 0 there (60_exceptions R325). -/
theorem runRchan_rchan_of_err {s : State} {c : Cmd Word} (h : (s.runRchan c).status.err ≠ 0) :
    (s.runRchan c).rchan = 0 := by
  cases hr : c s.work with
  | ok v w => exact absurd (by rw [runRchan_of_ok hr]; rfl) h
  | error e w => rw [runRchan_of_error hr]

/-! ### What every command's pieces keep, the command keeps -/

theorem queryFmt_same (w : Word) (answer : Fmt → Nat) : Moves Same (queryFmt w answer) := by
  unfold queryFmt
  cases decodeFmt w with
  | none => exact Moves.throw same_step _
  | some f => exact Moves.pure same_step _

theorem fmtEqnaCmd_same (s : State) : Moves Same (fmtEqnaCmd s) := by
  unfold fmtEqnaCmd
  split
  · exact Moves.pure same_step _
  · exact Moves.throw same_step _

theorem getColorCmd_same (s : State) : Moves Same (getColorCmd s) := by
  unfold getColorCmd
  cases decodeFmt s.regs.dfmt with
  | none => exact Moves.throw same_step _
  | some f => exact Moves.bind same_step (Moves.failIf same_step _ _) fun _ => Moves.ofExcept same_step _

theorem splitColorCmd_same (s : State) : Moves Same (splitColorCmd s) := by
  unfold splitColorCmd
  cases decodeFmt s.regs.sfmt with
  | none => exact Moves.throw same_step _
  | some f => exact Moves.bind same_step (split_same _ _ _ _) fun _ => Moves.pure same_step _

theorem readColorCmd_same (s : State) : Moves Same (readColorCmd s) := by
  unfold readColorCmd
  cases decodeFmt s.regs.sfmt with
  | none => exact Moves.throw same_step _
  | some f => exact Moves.bind same_step (Moves.failIf same_step _ _) fun _ => loadPx_same _ _ _

theorem convertColorCmd_same (s : State) : Moves Same (convertColorCmd s) := by
  unfold convertColorCmd
  split
  · exact convert_same _ _ _ _ _
  · exact Moves.throw same_step _

section
variable {R : Work → Work → Prop} {p : Params} {s t : State}

theorem rawCopy_moves (hR : Step R) (hw : ∀ a bs, Moves R (memWrite p a bs)) (j : CopyJob) :
    Moves R (rawCopy p j) :=
  Moves.ite (fun _ => Moves.pure hR _) fun _ => Moves.forEach hR fun _ _ =>
    Moves.bind hR (moves_of_same hR (memRead_same p _ _)) fun _ => hw _ _

theorem overlapSafe_moves (hR : Step R) (hw : ∀ a bs, Moves R (memWrite p a bs)) (j : CopyJob) :
    Moves R (overlapSafe p j) := by
  unfold overlapSafe
  cases j.mode with
  | raw => exact rawCopy_moves hR hw j
  | conv => exact pixelCopy_moves hR fun _ _ _ _ v => hw _ _
  | alpha => exact pixelCopy_moves hR fun _ _ _ _ v => storePxIa_moves hR (fun _ => hw _ _) v

theorem fillRect_moves (hR : Step R) (hw : ∀ a bs, Moves R (memWrite p a bs)) (t : Rect) (c : Word) :
    Moves R (fillRect p t c) :=
  Moves.bind hR (Moves.forEach hR fun _ _ => hw _ _) fun _ => Moves.forEach hR fun _ _ =>
    Moves.bind hR (moves_of_same hR (memRead_same p _ _)) fun _ => hw _ _

theorem fmtNameCmd_moves (hR : Step R) (hw : ∀ a bs, Moves R (memWrite s.params a bs)) :
    Moves R (fmtNameCmd s) :=
  Moves.bind hR (Moves.failIf hR _ _) fun _ => Moves.bind hR (hw _ _) fun _ => Moves.pure hR _

theorem runPlain_moves {c : Cmd Unit} (hc : Moves R c) : R s.work (s.runPlain c).work := by
  rw [runPlain_work]
  exact hc s.work

theorem runRes_moves {c : Cmd Word} (hc : Moves R c) : R s.work (s.runRes c).work := by
  rw [runRes_work]
  exact hc s.work

theorem runRchan_moves {c : Cmd Word} (hc : Moves R c) : R s.work (s.runRchan c).work := by
  rw [runRchan_work]
  exact hc s.work

/-- A relation kept by a write to memory, by a draw of the oracle and, for the four commands that can take the
non-overlapping path, by setting BINIT is kept by the command: nothing else changes the working state. -/
theorem exec_moves {i : Instr} (hR : Step R) (hw : ∀ a bs, Moves R (memWrite s.params a bs)) (hd : Moves R takeDraw)
    (hb : i ∈ [Instr.copy, .copyNovl, .scale, .icon] → Moves R setBinit) (h : exec i s = .next t) :
    R s.work t.work := by
  have hcopy := overlapSafe_moves hR hw
  cases i <;> cases h
  case nop => exact runPlain_moves (Moves.pure hR _)
  case fmtBpp | fmtBytes | fmtHasAlpha => exact runRes_moves (moves_of_same hR (queryFmt_same _ _))
  case fmtEqna => exact runRes_moves (moves_of_same hR (fmtEqnaCmd_same s))
  case fmtName => exact runRes_moves (fmtNameCmd_moves hR hw)
  case getColor => exact runRes_moves (moves_of_same hR (getColorCmd_same s))
  case splitColor => exact runRchan_moves (moves_of_same hR (splitColorCmd_same s))
  case readColor => exact runRes_moves (moves_of_same hR (readColorCmd_same s))
  case writeColor => exact runPlain_moves (writeColorWith_moves hR fun _ _ => hw _ _)
  case writeColorIa =>
    exact runPlain_moves (writeColorWith_moves hR fun _ _ => storePxIa_moves hR (fun _ => hw _ _) _)
  case convertColor => exact runRes_moves (moves_of_same hR (convertColorCmd_same s))
  case copy => exact runPlain_moves (copyWith_moves hR fun _ _ _ _ => dispatchCopy_moves hR (hb (by simp)) (hcopy _))
  case copyOvl => exact runPlain_moves (copyWith_moves hR fun _ _ _ _ => hcopy _)
  case copyNovl =>
    exact runPlain_moves (copyWith_moves hR fun _ _ _ _ => nonOverlapping_moves hR (hb (by simp)) (hcopy _))
  case fill => exact runPlain_moves (fillCmd_moves hR fun _ _ _ => fillRect_moves hR hw _ _)
  case scale =>
    exact runPlain_moves (scaleCmd_moves hR (fun _ _ _ => nonOverlapping_moves hR (hb (by simp)) (hcopy _))
      fun _ _ _ => resample_moves hR hd fun _ _ _ _ => hw _ _)
  case glyph => exact runPlain_moves (glyphCmd_moves hR fun _ _ _ _ _ => hw _ _)
  case mono => exact runPlain_moves (monoCmd_moves hR fun _ _ _ _ _ _ _ => hw _ _)
  case icon =>
    exact runPlain_moves (iconCmd_moves hR
      (fun _ _ _ _ => copyWith_moves hR fun _ _ _ _ => dispatchCopy_moves hR (hb (by simp)) (hcopy _))
      fun _ _ => iconMaskPass_moves hR fun _ _ _ _ _ => hw _ _)
  case cursor =>
    exact runPlain_moves (cursorCmd_moves hR (fun _ _ => zeroFill_moves hR fun _ _ _ _ => hw _ _)
      fun _ _ _ _ _ _ _ => hw _ _)

end

/-- Every command keeps memory's form, a set BINIT, and the count of draws from going back. -/
theorem exec_keepsForm {i : Instr} {s t : State} (h : exec i s = .next t) : KeepsForm s.params s.work t.work :=
  exec_moves (keepsForm_step _) (memWrite_form _) (takeDraw_form _) (fun _ => setBinit_form _) h

/-- The backend handle's bit is as it was. -/
def SameHandle (w w' : Work) : Prop :=
  w'.binit = w.binit

theorem sameHandle_step : Step SameHandle where
  refl _ := rfl
  trans h1 h2 := Eq.trans h2 h1

theorem memWrite_sameHandle (p : Params) (a : Nat) (bs : List Byte) : Moves SameHandle (memWrite p a bs) :=
  Moves.mono (fun _ _ h => h.1) (memWrite_aside p a bs)

theorem takeDraw_sameHandle : Moves SameHandle takeDraw := fun _ => rfl

/-! ### The invariant -/

theorem Err.code_le (e : Err) : e.code.toNat ≤ 7 := by
  cases e <;> decide

/-- The codes of the faults are those from 6 on (60_exceptions R321). -/
theorem Err.isFault_of_code {e : Err} (h : 6 ≤ e.code.toNat) : e.isFault = true := by
  cases e with
  | bus | assertion => rfl
  | invalidArg | unsupported | missingContext | backend | illegalCmd => exact absurd h (by decide)

/-- STATUS after any command holds a code that is written, and a fault's code only with FAULT (60_exceptions
R321, R330). -/
theorem conclude_lawful (st : Status) (b : Bool) (o : Option Err) :
    (st.conclude b o).err.toNat ≤ 7 ∧ (6 ≤ (st.conclude b o).err.toNat → (st.conclude b o).fault = true) := by
  cases o with
  | none => exact ⟨by simp, fun h => absurd h (by simp)⟩
  | some e => exact ⟨Err.code_le e, fun h => by simp [Err.isFault_of_code h]⟩

/-- A write of the host to an operand register leaves every address register `ADDR_W` bits wide. -/
theorem set_addressRegs_lt {p : Params} {rs : OperandRegs} (h : ∀ q ∈ addressRegs, (rs.get q).toNat < 2 ^ p.addrW)
    (r : OperandReg) (v : Slot) : ∀ q ∈ addressRegs, ((rs.set p r v).get q).toNat < 2 ^ p.addrW := by
  intro q hq
  by_cases hqr : q = r
  · subst hqr
    rw [get_set_same]
    exact (if_pos hq).symm ▸ addressBits_lt p v
  · rw [get_set_ne p rs r q v hqr]
    exact h q hq

/-- A command's end keeps the invariant where what it has done to memory does. -/
theorem lawful_of_ended {s t : State} {w : Work} {o : Option Err} (hs : State.Lawful s)
    (ht : t = { s.endCommand w o with res := t.res, rchan := t.rchan }) (hw : KeepsForm s.params s.work w) :
    State.Lawful t := by
  obtain ⟨hp, hmem, hin, hregs, -, -⟩ := hs
  obtain ⟨hform, hrange, -, -⟩ := hw
  rw [ht]
  exact ⟨hp, hform hmem, hrange hin, hregs, conclude_lawful s.status w.binit o⟩

theorem exec_lawful {i : Instr} {s t : State} (hs : State.Lawful s) (h : exec i s = .next t) : State.Lawful t := by
  obtain ⟨w, o, ht⟩ := exec_ends h
  have hw := exec_keepsForm h
  rw [show t.work = w by rw [ht]; exact endCommand_work s w o] at hw
  exact lawful_of_ended hs ht hw

/-- Whatever the host does next keeps the invariant. -/
theorem happens_lawful {s t : State} (hs : State.Lawful s) (h : Happens s t) : State.Lawful t := by
  cases h with
  | command h => exact exec_lawful hs h
  | reserved => exact lawful_of_ended (w := s.work) (o := some .illegalCmd) hs rfl ((keepsForm_step _).refl _)
  | operand r v =>
    obtain ⟨hp, hmem, hin, hregs, hstatus⟩ := hs
    exact ⟨hp, hmem, hin, set_addressRegs_lt hregs r v, hstatus⟩
  | ignored => exact hs
  | readsBack d => exact hs
  | memory b ha =>
    obtain ⟨hp, hmem, hin, hrest⟩ := hs
    refine ⟨hp, Memory.wf_write hmem _ b, fun c hc => ?_, hrest⟩
    rcases Memory.mem_write hc with rfl | hc
    · exact ha
    · exact hin c hc
  | reset =>
    obtain ⟨hp, hmem, hin, -⟩ := hs
    exact ⟨hp, hmem, hin, fun r _ => reset_get_lt _ r, by simp, fun h => absurd h (by simp)⟩

/-- Settles O10: a step waits or lets the host's next event happen, and either keeps the invariant. -/
theorem stepKeepsLawful : Obligations.StepKeepsLawful := by
  intro s t hs h
  obtain rfl | ⟨e, rest, -, ht⟩ := step_happens h
  · exact hs
  · exact happens_lawful (s := { s with script := rest }) hs ht

/-! ### The statements about the registers -/

/-- Settles O5, by the rules of a slot write, of `OperandRegs.set`, of a slot read, and of a command's end. -/
theorem operandRegisters : Obligations.OperandRegisters := by
  refine ⟨by decide, fun s r v rest hs => ?write, fun s r rest hs => ?read, fun i s t h => ?commands⟩
  case write =>
    refine ⟨s.regs.set s.params r v, ?_, get_set_same_toNat _ _ r v, fun q hq => get_set_ne _ _ r q v hq⟩
    rw [step_of_script_cons hs, hostEvent_write_slot, writeRegister_operand]
  case read => rw [step_of_script_cons hs, hostEvent_read_slot, registerValue_operand]
  case commands =>
    obtain ⟨w, o, ht⟩ := exec_ends h
    rw [ht, endCommand_regs]

/-- Settles O6, by the rules of a slot write and a slot read beyond the operand registers. -/
theorem readOnlyRegisters : Obligations.ReadOnlyRegisters := by
  refine fun s rest => ⟨fun n v hn hs => ?write, fun n hs hn => ?read⟩
  case write =>
    have hwindow : 25 ≤ n ∧ n ≠ 28 := by
      simp only [List.mem_cons, List.not_mem_nil, or_false] at hn
      omega
    rw [step_of_script_cons hs, hostEvent_write_slot, writeRegister_ignored _ v hwindow.1 hwindow.2]
  case read =>
    exact ⟨_, (step_of_script_cons hs).trans (hostEvent_read_slot _ n), registerValue_toNat _ hn⟩

/-! ### The operand registers a command looks at -/

/-- A register's value if the list names the register, 0 if not. -/
def keptIn {n : Nat} (l : List OperandReg) (r : OperandReg) (v : BitVec n) : BitVec n :=
  bif l.contains r then v else 0

/-- The operand registers of the list as they are, every other one at 0. -/
def OperandRegs.keepOnly (rs : OperandRegs) (l : List OperandReg) : OperandRegs where
  dst := keptIn l .dst rs.dst
  src := keptIn l .src rs.src
  pal := keptIn l .pal rs.pal
  msk := keptIn l .msk rs.msk
  tbl := keptIn l .tbl rs.tbl
  dfmt := keptIn l .dfmt rs.dfmt
  sfmt := keptIn l .sfmt rs.sfmt
  dstride := keptIn l .dstride rs.dstride
  sstride := keptIn l .sstride rs.sstride
  dx := keptIn l .dx rs.dx
  dy := keptIn l .dy rs.dy
  sx := keptIn l .sx rs.sx
  sy := keptIn l .sy rs.sy
  w := keptIn l .w rs.w
  h := keptIn l .h rs.h
  sw := keptIn l .sw rs.sw
  sh := keptIn l .sh rs.sh
  flags := keptIn l .flags rs.flags
  color0 := keptIn l .color0 rs.color0
  color1 := keptIn l .color1 rs.color1
  chan := keptIn l .chan rs.chan
  srclen := keptIn l .srclen rs.srclen
  msklen := keptIn l .msklen rs.msklen
  tbllen := keptIn l .tbllen rs.tbllen
  bpp := keptIn l .bpp rs.bpp

theorem keptIn_congr {n : Nat} {l : List OperandReg} {r : OperandReg} {v v' : BitVec n} (h : r ∈ l → v = v') :
    keptIn l r v = keptIn l r v' := by
  unfold keptIn
  cases hr : l.contains r with
  | false => rfl
  | true => exact h (List.contains_iff_mem.1 hr)

/-- A word that is to agree may be compared as the host reads it: zero-extending it to a slot loses nothing. -/
theorem keptIn_word_congr {l : List OperandReg} {r : OperandReg} {v v' : Word}
    (h : r ∈ l → v.setWidth 64 = v'.setWidth 64) : keptIn l r v = keptIn l r v' :=
  keptIn_congr fun hr => by simpa using congrArg (BitVec.setWidth 32) (h hr)

/-- Operand registers that agree on a row are the same once every other register is cleared. -/
theorem keepOnly_congr {a b : OperandRegs} {l : List OperandReg} (h : ∀ r ∈ l, a.get r = b.get r) :
    a.keepOnly l = b.keepOnly l := by
  unfold OperandRegs.keepOnly
  congr 1
  exacts [keptIn_congr (h .dst), keptIn_congr (h .src), keptIn_congr (h .pal), keptIn_congr (h .msk),
    keptIn_congr (h .tbl), keptIn_word_congr (h .dfmt), keptIn_word_congr (h .sfmt), keptIn_word_congr (h .dstride),
    keptIn_word_congr (h .sstride), keptIn_word_congr (h .dx), keptIn_word_congr (h .dy), keptIn_word_congr (h .sx),
    keptIn_word_congr (h .sy), keptIn_word_congr (h .w), keptIn_word_congr (h .h), keptIn_word_congr (h .sw),
    keptIn_word_congr (h .sh), keptIn_word_congr (h .flags), keptIn_word_congr (h .color0),
    keptIn_word_congr (h .color1), keptIn_word_congr (h .chan), keptIn_word_congr (h .srclen),
    keptIn_word_congr (h .msklen), keptIn_word_congr (h .tbllen), keptIn_word_congr (h .bpp)]

/-- `c` is a body that looks at the operand registers of the row `l` only. -/
def RowOnly {α : Type} (l : List OperandReg) (c : OperandRegs → Cmd α) : Prop :=
  ∀ rs, c rs = c (rs.keepOnly l)

theorem RowOnly.congr {α : Type} {l : List OperandReg} {c : OperandRegs → Cmd α} (hc : RowOnly l c)
    {a b : OperandRegs} (h : ∀ r ∈ l, a.get r = b.get r) : c a = c b := by
  rw [hc a, hc b, keepOnly_congr h]

/-- A state with other operand registers. -/
def State.withRegs (s : State) (rs : OperandRegs) : State :=
  { s with regs := rs }

/-- Every command's body, as a function of the operand registers, looks at its row of 10_state R22 only: with every
other register cleared each body unfolds to the same piece. -/
theorem exec_row (i : Instr) (s : State) :
    (∃ c, (∀ rs, exec i (s.withRegs rs) = .next ((s.withRegs rs).runRes (c rs))) ∧ RowOnly i.reads c) ∨
    (∃ c, (∀ rs, exec i (s.withRegs rs) = .next ((s.withRegs rs).runRchan (c rs))) ∧ RowOnly i.reads c) ∨
    (∃ c, (∀ rs, exec i (s.withRegs rs) = .next ((s.withRegs rs).runPlain (c rs))) ∧ RowOnly i.reads c) := by
  cases i with
  | fmtBpp | fmtBytes | fmtHasAlpha | fmtEqna | fmtName | getColor | readColor | convertColor =>
    exact .inl ⟨_, fun _ => rfl, fun _ => rfl⟩
  | splitColor => exact .inr (.inl ⟨_, fun _ => rfl, fun _ => rfl⟩)
  | nop | writeColor | writeColorIa | copy | copyOvl | copyNovl | fill | scale | glyph | mono | icon | cursor =>
    exact .inr (.inr ⟨_, fun _ => rfl, fun _ => rfl⟩)

@[simp] theorem withRegs_work (s : State) (rs : OperandRegs) : (s.withRegs rs).work = s.work := rfl

theorem runPlain_withRegs (s : State) (rs : OperandRegs) (c : Cmd Unit) :
    (s.withRegs rs).runPlain c = (s.runPlain c).withRegs rs := by
  simp only [State.runPlain, withRegs_work]
  cases c s.work <;> rfl

theorem runRes_withRegs (s : State) (rs : OperandRegs) (c : Cmd Word) :
    (s.withRegs rs).runRes c = (s.runRes c).withRegs rs := by
  simp only [State.runRes, withRegs_work]
  cases c s.work <;> rfl

theorem runRchan_withRegs (s : State) (rs : OperandRegs) (c : Cmd Word) :
    (s.withRegs rs).runRchan c = (s.runRchan c).withRegs rs := by
  simp only [State.runRchan, withRegs_work]
  cases c s.work <;> rfl

/-- Settles O13: the body is the same piece for registers that agree on its row, and running a piece to its end
carries the operand registers along. -/
theorem readsOnlyItsOperands : Obligations.ReadsOnlyItsOperands := by
  intro i s t rs hrow h
  show exec i (s.withRegs rs) = .next (t.withRegs rs)
  obtain ⟨c, hc, hreads⟩ | ⟨c, hc, hreads⟩ | ⟨c, hc, hreads⟩ := exec_row i s
  · cases h.symm.trans (hc s.regs)
    rw [hc, hreads.congr hrow, runRes_withRegs]
    rfl
  · cases h.symm.trans (hc s.regs)
    rw [hc, hreads.congr hrow, runRchan_withRegs]
    rfl
  · cases h.symm.trans (hc s.regs)
    rw [hc, hreads.congr hrow, runPlain_withRegs]
    rfl

/-! ### BINIT, RES and RCHAN -/

/-- Settles O16: only the four commands named reach the piece that sets BINIT, and no piece clears it. -/
theorem backendHandle : Obligations.BackendHandle := by
  intro i s t h
  obtain ⟨-, -, hset, -⟩ := exec_keepsForm h
  exact ⟨fun hi => exec_moves sameHandle_step (memWrite_sameHandle _) takeDraw_sameHandle (fun hb => absurd hb hi) h,
    hset⟩

theorem producesRes_iff (i : Instr) : i.producesRes = true ↔
    i ∈ [Instr.fmtBpp, .fmtBytes, .fmtHasAlpha, .fmtEqna, .fmtName, .getColor, .readColor, .convertColor] :=
  List.contains_iff_mem

theorem producesRchan_iff (i : Instr) : i.producesRchan = true ↔ i = .splitColor :=
  beq_iff_eq

/-- Settles O17, by the operation that runs the command to its end: it leaves the register it does not produce, and
0 in the one it produces when ERR is not 0. -/
theorem producers : Obligations.Producers := by
  intro i s t h
  simp only [← producesRes_iff, ← producesRchan_iff, ne_eq]
  have failed {st : Status} (h1 : 1 ≤ st.err.toNat) : st.err ≠ 0 := fun h0 => by simp [h0] at h1
  obtain ⟨hi, c, hc⟩ | ⟨hi, c, hc⟩ | ⟨hi, hi', c, hc⟩ := exec_runs i s <;> rw [hc] at h <;> cases h
  · refine ⟨fun hn => absurd hi hn, fun _ => runRes_rchan s c,
      fun h1 _ => ⟨fun _ => runRes_res_of_err (failed h1), fun hs => ?_⟩⟩
    rw [(producesRchan_iff i).1 hs] at hi
    cases hi
  · refine ⟨fun _ => runRchan_res s c, fun hn => absurd hi hn,
      fun h1 _ => ⟨fun hr => ?_, fun _ => runRchan_rchan_of_err (failed h1)⟩⟩
    rw [(producesRchan_iff i).1 hi] at hr
    cases hr
  · exact ⟨fun _ => runPlain_res s c, fun _ => runPlain_rchan s c,
      fun _ _ => ⟨fun hr => by simp [hi] at hr, fun hr => by simp [hi'] at hr⟩⟩

/-! ### CMD and reset -/

/-- Settles O3: 0xE0 is CMD's slot, whose write runs the command that the low 32 bits decode to. -/
theorem stepRunsCommand : Obligations.StepRunsCommand := by
  intro s v rest i hs hi
  rw [step_of_script_cons hs, hostEvent_write_slot _ 28 v, writeRegister_cmd, command_of_decode hi]

/-- Settles O7, by `resetBlock`'s lemmas field by field. -/
theorem resetValues : Obligations.ResetValues := by
  refine ⟨⟨reset_get, rfl, rfl, by decide, by decide⟩, fun s rest hs => ?_⟩
  exact ⟨resetBlock { s with script := rest }, step_of_script_cons hs, reset_get, rfl, rfl, rfl, rfl, rfl, rfl⟩

theorem Memory.wf_nil : Memory.wf [] :=
  ⟨List.Pairwise.nil, fun _ hc => absurd hc List.not_mem_nil⟩

/-- Settles O9: memory lists nothing after reset, and every register is 0. -/
theorem resetLawful : Obligations.ResetLawful :=
  ⟨by decide, Memory.wf_nil, fun _ hc => absurd hc List.not_mem_nil, fun r _ => reset_get_lt _ r,
    by decide, by decide⟩

end Sys2Proof.Machine
end

section
/-! Pixel addresses and the modes of a copy in terms of the operand registers; what `store_px` leaves and what
`load_px` makes of it again. -/

namespace Sys2Proof.Machine

/-! ### Addresses and modes -/

/-- Effective stride (20_memory R68). -/
theorem effStride_eq (stride w : Nat) (f : Fmt) :
    effStride stride w f = if stride = 0 then w * f.bytes else stride :=
  ite_not _ _ _

/-- FLIP_VERTICAL in numbers (30_encoding R105). -/
theorem flipVertical_iff (flags : Word) : flipVertical flags = true ↔ flags.toNat % 2 = 1 := by
  simp [flipVertical, BitVec.getLsbD, Nat.testBit_zero]

/-- KEEP_DST_ALPHA in numbers (30_encoding R105). -/
theorem keepDstAlpha_iff (flags : Word) : keepDstAlpha flags = true ↔ flags.toNat / 4 % 2 = 1 := by
  simp [keepDstAlpha, BitVec.getLsbD, Nat.testBit_eq_decide_div_mod_eq]

/-- Formats are equal ignoring alpha when their identifiers are equal apart from bit 15 (40_format_metadata R126). -/
theorem eqna_iff (a b : Fmt) : eqna b a = true ↔ a.ident &&& 0xFFFF7FFF#32 = b.ident &&& 0xFFFF7FFF#32 := by
  have all : ∀ a ∈ Fmt.all, ∀ b ∈ Fmt.all,
      (eqna b a = true ↔ a.ident &&& 0xFFFF7FFF#32 = b.ident &&& 0xFFFF7FFF#32) := by decide
  exact all a a.mem_all b b.mem_all

/-- Mode selection (42_blit_engine R204), the identifiers compared in numbers. -/
theorem CopyJob.mode_eq (j : CopyJob) :
    j.mode = if j.keep = true ∧ j.df.hasAlpha = true then .alpha
      else if j.df.ident &&& 0xFFFF7FFF#32 = j.sf.ident &&& 0xFFFF7FFF#32 then .raw else .conv := by
  simp only [CopyJob.mode, Bool.and_eq_true, eqna_iff]

/-- Settles O35, by `effStride_eq`, the two flags in numbers and `CopyJob.mode_eq`. -/
theorem pixelAddressesAndModes : Obligations.PixelAddressesAndModes := by
  refine ⟨fun r f x y => ?dest, fun s df sf x y => ⟨?copySource, ?scaleSource⟩, fun s df sf => ⟨?copyMode, ?scaleMode⟩⟩
  case dest => simp only [destRect, Rect.pixel, pxAddr, effStride_eq]
  case copySource =>
    simp only [State.copyJob, CopyReq.job, copyReq, CopyJob.srcPixel, CopyJob.srow, pxAddr, effStride_eq,
      flipVertical_iff]
  case scaleSource =>
    simp only [CopyReq.job, scaleReq, copyReq, CopyJob.srcPixel, CopyJob.srow, pxAddr, effStride_eq,
      Bool.false_eq_true, if_false]
  case copyMode =>
    simp only [CopyJob.mode_eq, State.copyJob, CopyReq.job, copyReq, keepDstAlpha_iff]
  case scaleMode =>
    simp only [CopyJob.mode_eq, CopyReq.job, scaleReq, Bool.false_eq_true, false_and, if_false]

/-! ### What WRITECOLOR stores and READCOLOR loads -/

/-- A row of the format table is its format's: identifier, bits and bytes per pixel (30_encoding R100). -/
theorem formatRow_fmt {row : FormatRow} (h : row ∈ formatRows) :
    ∃ f, decodeFmt row.ident = some f ∧ f.bpp = row.bpp ∧ f.bytes = row.bytes := by
  revert row
  decide

theorem Fmt.writable_iff (f : Fmt) : f.writable = true ↔ 8 ≤ f.bpp := by
  cases f <;> decide

/-- WRITECOLOR's and WRITECOLOR_IA's checks passed, the color is stored (41_color_codec R174). -/
theorem writeColorWith_stores {s : State} {f : Fmt} (hf : decodeFmt s.regs.dfmt = some f) (hw : f.writable = true)
    (hd : s.regs.dst ≠ 0) (store : Params → Nat → Fmt → Word → Cmd Unit) :
    writeColorWith s store = store s.params s.regs.dst.toNat f s.regs.color0 := by
  simp only [writeColorWith, hf, hw, beq_false_of_ne hd]
  rfl

/-- READCOLOR's checks passed, the pixel is loaded (41_color_codec R170). -/
theorem readColorCmd_loads {s : State} {f : Fmt} (hf : decodeFmt s.regs.sfmt = some f) (hs : s.regs.src ≠ 0) :
    readColorCmd s = loadPx s.params s.regs.src.toNat f := by
  simp only [readColorCmd, hf, beq_false_of_ne hs]
  rfl

theorem Fmt.bpp_of_writable {f : Fmt} (h : f.writable = true) :
    f.bpp = 32 ∨ f.bpp = 24 ∨ f.bpp = 16 ∨ f.bpp = 15 ∨ f.bpp = 8 := by
  revert h
  cases f <;> decide

/-- READCOLOR on a platform that rejects nothing: RES holds the pixel (41_color_codec R170). -/
theorem exec_readColor_runs {s : State} {f : Fmt} (hf : decodeFmt s.regs.sfmt = some f) (hs : s.regs.src ≠ 0)
    (hrej : s.params.rejects = []) :
    exec .readColor s =
      .next { s.endCommand s.work none with res := pixelAt s.params s.mem s.regs.src.toNat f } := by
  show Host.Outcome.next (s.runRes (readColorCmd s)) = _
  rw [readColorCmd_loads hf hs, runRes_of_ok (loadPx_runs hrej _ _ _)]
  rfl

/-- `load_px` undoes `store_px` up to the bits the format does not store (20_memory R67). -/
theorem pixelValue_pxBytes {f : Fmt} (h : f.writable = true) (v : Word) :
    pixelValue f (pxBytes f v) = BitVec.ofNat 32 (v.toNat % 2 ^ f.bpp) := by
  have low (n : Nat) : BitVec.ofNat 32 (v.toNat % 2 ^ n) = (v.setWidth n).setWidth 32 :=
    BitVec.eq_of_toNat_eq (by simp)
  rw [low]
  unfold pixelValue pxBytes
  obtain h | h | h | h | h := Fmt.bpp_of_writable h <;> rw [h] <;>
    simp only [byteAt, place, List.getD_cons_zero, List.getD_cons_succ] <;> ext i hi <;>
    interval_cases i <;> simp

/-- Settles O33: the store's bytes are in memory, the load delivers them, and `pixelValue_pxBytes` says what they
are as a value. -/
theorem writeThenRead : Obligations.WriteThenRead := by
  intro s t row hrow hid hbpp hdst hwf hrej h
  obtain ⟨f, hf, hfb, -⟩ := formatRow_fmt hrow
  rw [← hid] at hf
  have hw : f.writable = true := (Fmt.writable_iff f).2 (hfb ▸ hbpp)
  have hlen := pxBytes_length hw s.regs.color0
  have hspace : (pxBytes f s.regs.color0).length ≤ 2 ^ s.params.addrW := by
    have h32 : 32 ≤ s.params.addrW := (of_decide_eq_true hwf).1
    have := Nat.pow_le_pow_right (by decide : 0 < 2) h32
    have := f.bytes_le
    omega
  have hwrite : writeColorWith s storePx s.work =
      .ok () ⟨writeBytes s.params s.mem s.regs.dst.toNat (pxBytes f s.regs.color0), s.status.binit, s.draws⟩ := by
    rw [writeColorWith_stores hf hw hdst]
    exact storePx_runs hrej _ _ _ _
  obtain rfl : s.runPlain (writeColorWith s storePx) = t := Host.Outcome.next.inj h
  rw [runPlain_of_ok hwrite]
  have hload : pixelAt s.params (writeBytes s.params s.mem s.regs.dst.toNat (pxBytes f s.regs.color0))
      s.regs.dst.toNat f = BitVec.ofNat 32 (s.regs.color0.toNat % 2 ^ row.bpp) := by
    rw [pixelAt, ← hlen, bytesAt_eq fun k hk => read_writeBytes_inside _ _ _ _ hspace hk, pixelValue_pxBytes hw, hfb]
  rw [← hload]
  exact exec_readColor_runs hf hdst hrej

end Sys2Proof.Machine
end

section
/-! A platform that rejects addresses (20_memory R84) beside one that rejects none: every piece of a command does the
same on both, unless a rejected byte among those it may access ends it with BUS. -/

namespace Sys2Proof.Machine

/-- A build on a platform that rejects no access (20_memory R84: the default one). -/
def Params.unrejecting (p : Params) : Params :=
  { p with rejects := [] }

@[simp] theorem unrejecting_rejects (p : Params) : (Params.unrejecting p).rejects = [] := rfl

@[simp] theorem unrejecting_params (s : State) : s.unrejecting.params = Params.unrejecting s.params := rfl

@[simp] theorem unrejecting_regs (s : State) : s.unrejecting.regs = s.regs := rfl

@[simp] theorem unrejecting_work (s : State) : s.unrejecting.work = s.work := rfl

/-- On platform `p` the piece `c` does what `c₀` does, or a rejected byte of `F` ends it with BUS. -/
def Follows {α : Type} (p : Params) (F : Nat → Prop) (c c₀ : Cmd α) : Prop :=
  ∀ w, c w = c₀ w ∨ ∃ a w', F a ∧ rejected p a = true ∧ c w = .error .bus w'

/-- The bytes of a palette in memory: its tag and 256 entries (20_memory R72). -/
abbrev Palette.bytes (p : Params) (pal : Palette) (b : Nat) : Prop :=
  ∃ a, pal = .inMemory a ∧ span p a 1028 b

section
variable {α β : Type} {p : Params} {F : Nat → Prop}

/-! ### Composing -/

theorem Follows.refl (c : Cmd α) : Follows p F c c := fun _ => .inl rfl

theorem Follows.bind {c c₀ : Cmd α} {f f₀ : α → Cmd β} (hc : Follows p F c c₀)
    (hf : ∀ v, Follows p F (f v) (f₀ v)) : Follows p F (c >>= f) (c₀ >>= f₀) := by
  intro w
  rcases hc w with hw | ⟨a, w', hF, hr, hw⟩
  · cases h0 : c₀ w with
    | ok v w' =>
      rw [bind_runs_ok (hw.trans h0), bind_runs_ok h0]
      exact hf v w'
    | error e w' =>
      rw [bind_runs_error (hw.trans h0), bind_runs_error h0]
      exact .inl rfl
  · exact .inr ⟨a, w', hF, hr, bind_runs_error hw⟩

theorem Follows.failIf_bind {b : Bool} {e : Err} {c c₀ : Cmd α} (h : b = false → Follows p F c c₀) :
    Follows p F (do failIf b e; c) (do failIf b e; c₀) := by
  cases b with
  | true => exact .refl (throw e)
  | false => exact h rfl

theorem Follows.onlyIf {b : Bool} {c c₀ : Cmd Unit} (h : b = true → Follows p F c c₀) :
    Follows p F (Machine.onlyIf b c) (Machine.onlyIf b c₀) := by
  cases b with
  | true => exact h rfl
  | false => exact .refl (pure ())

theorem Follows.ite {P : Prop} [Decidable P] {c c₀ d d₀ : Cmd α} (hc : P → Follows p F c c₀)
    (hd : ¬ P → Follows p F d d₀) : Follows p F (if P then c else d) (if P then c₀ else d₀) := by
  split
  · exact hc ‹_›
  · exact hd ‹_›

theorem Follows.forEach {ns : List Nat} {body body₀ : Nat → Cmd Unit}
    (h : ∀ n ∈ ns, Follows p F (body n) (body₀ n)) : Follows p F (Machine.forEach ns body) (Machine.forEach ns body₀) := by
  induction ns with
  | nil => exact .refl _
  | cons n ns ih => exact .bind (h n (by simp)) fun _ => ih fun k hk => h k (by simp [hk])

/-- Where no byte of `F` is rejected the two do the same. -/
theorem Follows.eq_of_free {c c₀ : Cmd α} (h : Follows p F c c₀) (hF : ∀ a, F a → rejected p a = false) (w : Work) :
    c w = c₀ w := by
  rcases h w with hw | ⟨a, -, ha, hr, -⟩
  · exact hw
  · rw [hF a ha] at hr
    cases hr

/-! ### Accessing memory -/

theorem readByte_follows {a : Nat} (h : F (portAddr p a)) :
    Follows p F (readByte p a) (readByte (Params.unrejecting p) a) := by
  intro w
  rw [readByte_runs (unrejecting_rejects p)]
  unfold readByte
  split
  · exact .inr ⟨_, w, h, ‹_›, rfl⟩
  · exact .inl rfl

theorem writeByte_follows {a : Nat} {b : Byte} (h : F (portAddr p a)) :
    Follows p F (writeByte p a b) (writeByte (Params.unrejecting p) a b) := by
  intro w
  rw [writeByte_runs (unrejecting_rejects p)]
  unfold writeByte
  split
  · exact .inr ⟨_, w, h, ‹_›, rfl⟩
  · exact .inl rfl

theorem span_head {a n : Nat} (h : 0 < n) : span p a n (portAddr p a) := ⟨0, h, rfl⟩

theorem span_tail {a n b : Nat} (h : span p (a + 1) n b) : span p a (n + 1) b := by
  obtain ⟨k, hk, rfl⟩ := h
  exact ⟨k + 1, by omega, by congr 1; omega⟩

theorem memRead_follows {a n : Nat} (h : ∀ b, span p a n b → F b) :
    Follows p F (memRead p a n) (memRead (Params.unrejecting p) a n) := by
  induction n generalizing a with
  | zero => exact .refl _
  | succ n ih =>
    exact .bind (readByte_follows (h _ (span_head (by omega)))) fun _ =>
      .bind (ih fun b hb => h b (span_tail hb)) fun _ => .refl _

theorem memWrite_follows {a : Nat} {bs : List Byte} (h : ∀ b, span p a bs.length b → F b) :
    Follows p F (memWrite p a bs) (memWrite (Params.unrejecting p) a bs) := by
  induction bs generalizing a with
  | nil => exact .refl _
  | cons b bs ih =>
    exact .bind (writeByte_follows (h _ (span_head (by simp)))) fun _ => ih fun b hb => h b (span_tail hb)

theorem readBit_follows {base stride row x : Nat} (h : F (portAddr p (base + stride * row + x / 8))) :
    Follows p F (readBit p base stride row x) (readBit (Params.unrejecting p) base stride row x) :=
  .bind (readByte_follows h) fun _ => .refl _

theorem loadPx_follows {a : Nat} {f : Fmt} (h : ∀ b, span p a f.bytes b → F b) :
    Follows p F (loadPx p a f) (loadPx (Params.unrejecting p) a f) :=
  .bind (memRead_follows h) fun _ => .refl _

theorem storePx_follows {a : Nat} {f : Fmt} {v : Word} (h : ∀ b, span p a f.bytes b → F b) :
    Follows p F (storePx p a f v) (storePx (Params.unrejecting p) a f v) :=
  memWrite_follows fun b ⟨k, hk, hb⟩ => h b ⟨k, Nat.lt_of_lt_of_le hk (pxBytes_length_le f v), hb⟩

theorem readWordLe_follows {a : Nat} (h : ∀ b, span p a 4 b → F b) :
    Follows p F (readWordLe p a) (readWordLe (Params.unrejecting p) a) :=
  .bind (memRead_follows h) fun _ => .refl _

/-! ### Palettes and conversions -/

theorem Palette.tag_bytes {a b : Nat} (h : span p a 4 b) : Palette.bytes p (.inMemory a) b := by
  obtain ⟨k, hk, rfl⟩ := h
  exact ⟨a, rfl, k, by omega, rfl⟩

theorem Palette.entry_bytes {a b i : Nat} (hi : i ≤ 255) (h : span p (a + 4 + 4 * i) 4 b) :
    Palette.bytes p (.inMemory a) b := by
  obtain ⟨k, hk, rfl⟩ := h
  exact ⟨a, rfl, 4 + 4 * i + k, by omega, by congr 1; omega⟩

theorem paletteFmt_follows {pal : Palette} (h : ∀ b, pal.bytes p b → F b) :
    Follows p F (paletteFmt p pal) (paletteFmt (Params.unrejecting p) pal) := by
  cases pal with
  | absent => exact .refl _
  | built es => exact .refl _
  | inMemory a => exact .bind (readWordLe_follows fun b hb => h b (Palette.tag_bytes hb)) fun _ => .refl _

theorem paletteEntry_follows {pal : Palette} {i : Nat} (hi : i ≤ 255) (h : ∀ b, pal.bytes p b → F b) :
    Follows p F (paletteEntry p pal i) (paletteEntry (Params.unrejecting p) pal i) := by
  cases pal with
  | absent => exact .refl _
  | built es => exact .refl _
  | inMemory a => exact readWordLe_follows fun b hb => h b (Palette.entry_bytes hi hb)

theorem split_follows {v : Word} {f : Fmt} {pal : Palette} (h : f = .rgb8 → ∀ b, pal.bytes p b → F b) :
    Follows p F (split p v f pal) (split (Params.unrejecting p) v f pal) := by
  unfold split
  refine .ite (fun h8 => ?_) fun _ => .refl _
  refine .bind (.refl _) fun _ => .failIf_bind fun hv => ?_
  refine .bind (paletteEntry_follows (by simpa using hv) (h h8)) fun e => .bind (paletteFmt_follows (h h8)) fun pf => ?_
  cases pf with
  | none => exact .refl _
  | some g => exact .refl _

theorem convert_follows {v : Word} {sf df : Fmt} {pal : Palette} (h : sf = .rgb8 → ∀ b, pal.bytes p b → F b) :
    Follows p F (convert p v sf df pal) (convert (Params.unrejecting p) v sf df pal) :=
  .bind (split_follows h) fun _ => .refl _

theorem convChecks_follows {sf df : Fmt} {pal : Palette} (h : sf = .rgb8 → ∀ b, pal.bytes p b → F b) :
    Follows p F (convChecks p sf df pal) (convChecks (Params.unrejecting p) sf df pal) := by
  refine .bind (.refl _) fun _ => .bind (.onlyIf fun h8 => ?_) fun _ => .refl _
  refine .bind (.refl _) fun _ => .bind (paletteFmt_follows (h (beq_iff_eq.1 h8))) fun pf => ?_
  cases pf with
  | none => exact .refl _
  | some g => exact .refl _

end

/-! ### The bodies of the commands -/

/-- On platform `p` the piece `c` does what `c₀` does, or ends with BUS. -/
abbrev FollowsOrFaults {α : Type} (p : Params) (c c₀ : Cmd α) : Prop :=
  Follows p (fun _ => True) c c₀

section
variable {p : Params} {s : State}

theorem storePxIa_follows (a : Nat) (f : Fmt) (v : Word) :
    FollowsOrFaults p (storePxIa p a f v) (storePxIa (Params.unrejecting p) a f v) := by
  unfold storePxIa
  refine .ite (fun _ => ?_) fun _ => .ite (fun _ => ?_) fun _ => storePx_follows fun _ _ => trivial
  · exact .bind (readByte_follows trivial) fun _ => storePx_follows fun _ _ => trivial
  · exact .bind (readByte_follows trivial) fun _ => storePx_follows fun _ _ => trivial

theorem rawCopy_follows (j : CopyJob) : FollowsOrFaults p (rawCopy p j) (rawCopy (Params.unrejecting p) j) :=
  .ite (fun _ => .refl _) fun _ => .forEach fun _ _ =>
    .bind (memRead_follows fun _ _ => trivial) fun _ => memWrite_follows fun _ _ => trivial

theorem pixelCopy_follows {j : CopyJob} {store store₀ : Nat → Word → Cmd Unit}
    (h : ∀ a v, FollowsOrFaults p (store a v) (store₀ a v)) :
    FollowsOrFaults p (pixelCopy p j store) (pixelCopy (Params.unrejecting p) j store₀) :=
  .bind (convChecks_follows fun _ _ _ => trivial) fun _ => .forEach fun _ _ => .forEach fun _ _ =>
    .bind (loadPx_follows fun _ _ => trivial) fun _ => .bind (convert_follows fun _ _ _ => trivial) fun _ => h _ _

theorem overlapSafe_follows (j : CopyJob) :
    FollowsOrFaults p (overlapSafe p j) (overlapSafe (Params.unrejecting p) j) := by
  unfold overlapSafe
  cases j.mode with
  | raw => exact rawCopy_follows j
  | conv => exact pixelCopy_follows fun _ _ => storePx_follows fun _ _ => trivial
  | alpha => exact pixelCopy_follows fun _ _ => storePxIa_follows _ _ _

theorem nonOverlapping_follows (j : CopyJob) :
    FollowsOrFaults p (nonOverlapping p j) (nonOverlapping (Params.unrejecting p) j) :=
  .bind (.refl _) fun _ => .bind (.refl _) fun _ => .bind (.refl _) fun _ => overlapSafe_follows j

theorem dispatchCopy_follows (j : CopyJob) :
    FollowsOrFaults p (dispatchCopy p j) (dispatchCopy (Params.unrejecting p) j) :=
  .ite (fun _ => overlapSafe_follows j) fun _ => nonOverlapping_follows j

theorem copyWith_follows {q : CopyReq} {path path₀ : CopyJob → Cmd Unit}
    (h : ∀ j, FollowsOrFaults p (path j) (path₀ j)) :
    FollowsOrFaults p (copyWith p q path) (copyWith (Params.unrejecting p) q path₀) := by
  unfold copyWith
  rw [show copyChecks (Params.unrejecting p) q = copyChecks p q from rfl]
  cases copyChecks p q with
  | error e => exact .refl _
  | ok j =>
    cases j with
    | none => exact .refl _
    | some j => exact h j

theorem fmtNameCmd_follows : FollowsOrFaults s.params (fmtNameCmd s) (fmtNameCmd s.unrejecting) :=
  .bind (.refl _) fun _ => .bind (memWrite_follows fun _ _ => trivial) fun _ => .refl _

theorem splitColorCmd_follows : FollowsOrFaults s.params (splitColorCmd s) (splitColorCmd s.unrejecting) := by
  unfold splitColorCmd
  simp only [unrejecting_regs, unrejecting_params]
  cases decodeFmt s.regs.sfmt with
  | none => exact .refl _
  | some f => exact .bind (split_follows fun _ _ _ => trivial) fun _ => .refl _

theorem readColorCmd_follows : FollowsOrFaults s.params (readColorCmd s) (readColorCmd s.unrejecting) := by
  unfold readColorCmd
  simp only [unrejecting_regs, unrejecting_params]
  cases decodeFmt s.regs.sfmt with
  | none => exact .refl _
  | some f => exact .bind (.refl _) fun _ => loadPx_follows fun _ _ => trivial

theorem writeColorWith_follows {store : Params → Nat → Fmt → Word → Cmd Unit}
    (h : ∀ a f v, FollowsOrFaults s.params (store s.params a f v) (store (Params.unrejecting s.params) a f v)) :
    FollowsOrFaults s.params (writeColorWith s store) (writeColorWith s.unrejecting store) := by
  unfold writeColorWith
  simp only [unrejecting_regs, unrejecting_params]
  cases decodeFmt s.regs.dfmt with
  | none => exact .refl _
  | some f => exact .bind (.refl _) fun _ => .bind (.refl _) fun _ => h _ _ _

theorem convertColorCmd_follows : FollowsOrFaults s.params (convertColorCmd s) (convertColorCmd s.unrejecting) := by
  unfold convertColorCmd
  simp only [unrejecting_regs, unrejecting_params]
  cases decodeFmt s.regs.sfmt with
  | none => exact .refl _
  | some sf =>
    cases decodeFmt s.regs.dfmt with
    | none => exact .refl _
    | some df => exact convert_follows fun _ _ _ => trivial

theorem fillRect_follows (t : Rect) (c : Word) :
    FollowsOrFaults p (fillRect p t c) (fillRect (Params.unrejecting p) t c) :=
  .bind (.forEach fun _ _ => storePx_follows fun _ _ => trivial) fun _ => .forEach fun _ _ =>
    .bind (memRead_follows fun _ _ => trivial) fun _ => memWrite_follows fun _ _ => trivial

theorem fillCmd_follows : FollowsOrFaults s.params (fillCmd s) (fillCmd s.unrejecting) := by
  unfold fillCmd
  simp only [unrejecting_regs, unrejecting_params]
  cases decodeFmt s.regs.dfmt with
  | none => exact .refl _
  | some f =>
    exact .bind (.refl _) fun _ => .ite (fun _ => .refl _) fun _ => .bind (.refl _) fun _ => fillRect_follows _ _

theorem scaleCmd_follows : FollowsOrFaults s.params (scaleCmd s) (scaleCmd s.unrejecting) := by
  unfold scaleCmd
  simp only [unrejecting_regs, unrejecting_params]
  cases decodeFmt s.regs.dfmt with
  | none => exact .refl _
  | some df =>
    cases decodeFmt s.regs.sfmt with
    | none => exact .refl _
    | some sf =>
      refine .ite (fun _ => copyWith_follows nonOverlapping_follows) fun _ => .bind (.refl _) fun _ => ?_
      exact .bind (.refl _) fun _ => .bind (.refl _) fun _ => .bind (.refl _) fun _ => .forEach fun _ _ =>
        memWrite_follows fun _ _ => trivial

theorem forPixels_follows {w h : Nat} {body body₀ : Nat → Nat → Cmd Unit}
    (hb : ∀ x y, FollowsOrFaults p (body x y) (body₀ x y)) :
    FollowsOrFaults p (forPixels w h body) (forPixels w h body₀) :=
  .forEach fun y _ => .forEach fun x _ => hb x y

theorem glyphCmd_follows : FollowsOrFaults s.params (glyphCmd s) (glyphCmd s.unrejecting) :=
  .bind (.refl _) fun _ => forPixels_follows fun _ _ => .bind (readBit_follows trivial) fun _ =>
    memWrite_follows fun _ _ => trivial

theorem monoCmd_follows : FollowsOrFaults s.params (monoCmd s) (monoCmd s.unrejecting) := by
  unfold monoCmd
  simp only [unrejecting_regs, unrejecting_params]
  cases decodeFmt s.regs.dfmt with
  | none => exact .refl _
  | some f =>
    exact .bind (.refl _) fun _ => .bind (.refl _) fun _ => forPixels_follows fun _ _ =>
      .bind (readBit_follows trivial) fun _ => storePx_follows fun _ _ => trivial

theorem readTable_follows (a n : Nat) :
    FollowsOrFaults p (readTable p a n) (readTable (Params.unrejecting p) a n) := by
  induction n generalizing a with
  | zero => exact .refl _
  | succ n ih => exact .bind (loadPx_follows fun _ _ => trivial) fun _ => .bind (ih _) fun _ => .refl _

theorem iconPalette_follows (a n : Nat) :
    FollowsOrFaults p (iconPalette p a n) (iconPalette (Params.unrejecting p) a n) :=
  .ite (fun _ => .bind (readTable_follows _ _) fun _ => .refl _) fun _ => .refl _

theorem iconMaskPass_follows (t : Rect) (msk : Nat) :
    FollowsOrFaults p (iconMaskPass p t msk) (iconMaskPass (Params.unrejecting p) t msk) :=
  forPixels_follows fun _ _ => .bind (readBit_follows trivial) fun _ => .bind (loadPx_follows fun _ _ => trivial)
    fun _ => .bind (split_follows fun _ _ _ => trivial) fun _ => .bind (.refl _) fun _ =>
    storePx_follows fun _ _ => trivial

theorem iconCmd_follows : FollowsOrFaults s.params (iconCmd s) (iconCmd s.unrejecting) := by
  unfold iconCmd
  simp only [unrejecting_regs, unrejecting_params]
  cases decodeFmt s.regs.dfmt with
  | none => exact .refl _
  | some f =>
    refine .bind (.refl _) fun _ => ?_
    cases iconFmt s.regs.bpp with
    | none => exact .refl _
    | some sf =>
      exact .bind (.refl _) fun _ => .bind (.refl _) fun _ => .bind (iconPalette_follows _ _) fun pal =>
        .bind (.refl _) fun _ => .bind (.refl _) fun _ => .bind (copyWith_follows dispatchCopy_follows) fun _ =>
        .onlyIf fun _ => iconMaskPass_follows _ _

theorem zeroFill_follows (t : Rect) : FollowsOrFaults p (zeroFill p t) (zeroFill (Params.unrejecting p) t) :=
  .forEach fun _ _ => memWrite_follows fun _ _ => trivial

theorem cursorMonoCmd_follows (t : Rect) :
    FollowsOrFaults s.params (cursorMonoCmd s t) (cursorMonoCmd s.unrejecting t) :=
  .bind (.refl _) fun _ => .bind (.refl _) fun _ => forPixels_follows fun _ _ =>
    .bind (readBit_follows trivial) fun _ => .bind (readBit_follows trivial) fun _ => .bind (.refl _) fun _ =>
    storePx_follows fun _ _ => trivial

theorem cursorAndBit_follows (t : Rect) (row x : Nat) :
    FollowsOrFaults s.params (cursorAndBit s t row x) (cursorAndBit s.unrejecting t row x) :=
  .ite (fun _ => .refl _) fun _ => readBit_follows trivial

theorem cursorColorCmd_follows (t : Rect) (xf : Fmt) :
    FollowsOrFaults s.params (cursorColorCmd s t xf) (cursorColorCmd s.unrejecting t xf) :=
  .bind (.refl _) fun _ => .bind (convChecks_follows fun _ _ _ => trivial) fun _ => .bind (.refl _) fun _ =>
    .bind (.refl _) fun _ => forPixels_follows fun _ _ => .bind (loadPx_follows fun _ _ => trivial) fun _ =>
    .bind (convert_follows fun _ _ _ => trivial) fun _ => .bind (cursorAndBit_follows _ _ _) fun _ =>
    .bind (.refl _) fun _ => .bind (convert_follows fun _ _ _ => trivial) fun _ => storePx_follows fun _ _ => trivial

theorem cursorCmd_follows : FollowsOrFaults s.params (cursorCmd s) (cursorCmd s.unrejecting) := by
  unfold cursorCmd
  simp only [unrejecting_regs, unrejecting_params]
  cases decodeFmt s.regs.dfmt with
  | none => exact .refl _
  | some f =>
    refine .bind (.refl _) fun _ => .bind (.refl _) fun _ => .bind (zeroFill_follows _) fun _ =>
      .ite (fun _ => cursorMonoCmd_follows _) fun _ => ?_
    cases cursorFmt s.regs.bpp with
    | none => exact .refl _
    | some xf => exact cursorColorCmd_follows _ _

end

end Sys2Proof.Machine
end

section
/-! Which bytes a command has accessed once it has succeeded: none of them is rejected (20_memory R84). With the
comparison of platforms before it, a command that would access a rejected byte ends with BUS. -/

namespace Sys2Proof.Machine

/-- A success of the piece has accessed the byte at `a`, which the platform therefore does not reject. -/
def Clears {α : Type} (p : Params) (a : Nat) (c : Cmd α) : Prop :=
  ∀ w v w', c w = .ok v w' → rejected p a = false

section
variable {α β : Type} {p : Params} {a : Nat}

/-! ### Composing -/

theorem Clears.throw (e : Err) : Clears p a (throw e : Cmd α) := by
  intro w v w' h
  cases h

theorem Clears.first {c : Cmd α} (h : Clears p a c) (f : α → Cmd β) : Clears p a (c >>= f) := by
  intro w v w' hr
  obtain ⟨u, w1, h1, -⟩ := bind_ok hr
  exact h w u w1 h1

theorem Clears.then {c : Cmd α} {f : α → Cmd β} (h : ∀ v, Clears p a (f v)) : Clears p a (c >>= f) := by
  intro w v w' hr
  obtain ⟨u, w1, -, h2⟩ := bind_ok hr
  exact h u w1 v w' h2

theorem Clears.then_of {c : Cmd α} {f : α → Cmd β} (h : ∀ w v w', c w = .ok v w' → Clears p a (f v)) :
    Clears p a (c >>= f) := by
  intro w v w' hr
  obtain ⟨u, w1, h1, h2⟩ := bind_ok hr
  exact h w u w1 h1 w1 v w' h2

theorem Clears.failIf_bind {b : Bool} {e : Err} {c : Cmd α} (h : b = false → Clears p a c) :
    Clears p a (do failIf b e; c) := by
  cases b with
  | true => exact .throw e
  | false => exact h rfl

theorem Clears.forEach {ns : List Nat} {body : Nat → Cmd Unit} {n : Nat} (hn : n ∈ ns) (h : Clears p a (body n)) :
    Clears p a (Machine.forEach ns body) := by
  induction ns with
  | nil => cases hn
  | cons m ns ih =>
    rcases List.mem_cons.1 hn with rfl | hn
    · exact h.first _
    · exact .then fun _ => ih hn

theorem Clears.forPixels {w h : Nat} {body : Nat → Nat → Cmd Unit} {x y : Nat} (hx : x < w) (hy : y < h)
    (hb : Clears p a (body x y)) : Clears p a (Machine.forPixels w h body) :=
  .forEach (List.mem_range.2 hy) (.forEach (List.mem_range.2 hx) hb)

/-! ### Accessing memory -/

theorem readByte_clears {b : Nat} (h : a = portAddr p b) : Clears p a (readByte p b) := by
  intro w v w' hr
  unfold readByte at hr
  split at hr
  · cases hr
  · next hn => rw [h, Bool.eq_false_iff.2 hn]

theorem writeByte_clears {b : Nat} {v : Byte} (h : a = portAddr p b) : Clears p a (writeByte p b v) := by
  intro w u w' hr
  unfold writeByte at hr
  split at hr
  · cases hr
  · next hn => rw [h, Bool.eq_false_iff.2 hn]

theorem span_cons {b n : Nat} (h : span p b (n + 1) a) : a = portAddr p b ∨ span p (b + 1) n a := by
  obtain ⟨k, hk, rfl⟩ := h
  cases k with
  | zero => exact .inl rfl
  | succ k => exact .inr ⟨k, by omega, by congr 1; omega⟩

theorem memRead_clears {b n : Nat} (h : span p b n a) : Clears p a (memRead p b n) := by
  induction n generalizing b with
  | zero =>
    obtain ⟨k, hk, -⟩ := h
    cases hk
  | succ n ih =>
    rcases span_cons h with h | h
    · exact (readByte_clears h).first _
    · exact .then fun _ => (ih h).first _

theorem memWrite_clears {b : Nat} {bs : List Byte} (h : span p b bs.length a) : Clears p a (memWrite p b bs) := by
  induction bs generalizing b with
  | nil =>
    obtain ⟨k, hk, -⟩ := h
    cases hk
  | cons c bs ih =>
    rcases span_cons h with h | h
    · exact (writeByte_clears h).first _
    · exact .then fun _ => ih h

theorem readBit_clears {base stride row x : Nat} (h : a = portAddr p (base + stride * row + x / 8)) :
    Clears p a (readBit p base stride row x) :=
  (readByte_clears h).first _

theorem loadPx_clears {b : Nat} {f : Fmt} (h : span p b f.bytes a) : Clears p a (loadPx p b f) :=
  (memRead_clears h).first _

theorem readWordLe_clears {b : Nat} (h : span p b 4 a) : Clears p a (readWordLe p b) :=
  (memRead_clears h).first _

theorem storePx_clears {b : Nat} {f : Fmt} {v : Word} (hf : f.writable = true) (h : span p b f.bytes a) :
    Clears p a (storePx p b f v) :=
  memWrite_clears (by rwa [pxBytes_length hf])

theorem storePxIa_clears {b : Nat} {f : Fmt} {v : Word} (hf : f.writable = true) (h : span p b f.bytes a) :
    Clears p a (storePxIa p b f v) := by
  unfold storePxIa
  split
  · exact .then fun _ => storePx_clears hf h
  · split
    · exact .then fun _ => storePx_clears hf h
    · exact storePx_clears hf h

/-! ### Palettes and conversions -/

theorem split_clears {v : Word} {b : Nat} (h : span p b 4 a ∨ span p (b + 4 + 4 * v.toNat) 4 a) :
    Clears p a (split p v .rgb8 (.inMemory b)) := by
  unfold split
  rw [if_pos rfl]
  refine .then fun _ => .then fun _ => ?_
  rcases h with h | h
  · exact .then fun _ => .first ((readWordLe_clears h).first _) _
  · exact (readWordLe_clears h).first _

theorem convChecks_clears {df : Fmt} {b : Nat} (h : span p b 4 a) : Clears p a (convChecks p .rgb8 df (.inMemory b)) :=
  .then fun _ => .first (.then fun _ => .first ((readWordLe_clears h).first _) _) _

/-! ### Copies -/

/-- A byte of `w` items of `n` bytes is a byte of one of them. -/
theorem span_items {b w n : Nat} (hn : 0 < n) (h : span p b (w * n) a) : ∃ x, x < w ∧ span p (b + x * n) n a := by
  obtain ⟨k, hk, rfl⟩ := h
  refine ⟨k / n, (Nat.div_lt_iff_lt_mul hn).2 hk, k % n, Nat.mod_lt _ hn, ?_⟩
  rw [Nat.add_assoc, Nat.div_add_mod']

theorem CopyJob.srcPixel_eq (j : CopyJob) (x y : Nat) : j.srcPixel x y = j.srcPixel 0 y + x * j.sf.bytes := by
  simp only [CopyJob.srcPixel, pxAddr, Nat.add_zero, Nat.add_mul]
  omega

theorem CopyJob.sourceBytes_pixel {j : CopyJob} (h : j.sourceBytes p a) :
    ∃ x y, x < j.w ∧ y < j.h ∧ span p (j.srcPixel x y) j.sf.bytes a := by
  obtain ⟨y, hy, hs⟩ := h
  obtain ⟨x, hx, hs⟩ := span_items j.sf.bytes_pos hs
  exact ⟨x, y, hx, hy, by rwa [j.srcPixel_eq x y]⟩

theorem CopyJob.mem_rowOrder_of_lt {j : CopyJob} {y : Nat} (h : y < j.h) : y ∈ j.rowOrder :=
  j.rowOrder_perm.mem_iff.2 (List.mem_range.2 h)

theorem CopyJob.mem_colOrder_of_lt {j : CopyJob} {x : Nat} (h : x < j.w) : x ∈ j.colOrder :=
  j.colOrder_perm.mem_iff.2 (List.mem_range.2 h)

/-- Only a copy of some area has bytes to access. -/
theorem CopyJob.touches_area {j : CopyJob} (h : j.touches p a) : 0 < j.w ∧ 0 < j.h := by
  obtain ⟨-, h | h | ⟨-, -, hw, hh, -⟩⟩ := h
  · obtain ⟨x, y, hx, hy, -⟩ := Rect.footprint_pixel h
    exact ⟨Nat.zero_lt_of_lt hx, Nat.zero_lt_of_lt hy⟩
  · obtain ⟨x, y, hx, hy, -⟩ := CopyJob.sourceBytes_pixel h
    exact ⟨Nat.zero_lt_of_lt hx, Nat.zero_lt_of_lt hy⟩
  · exact ⟨hw, hh⟩

/-- RAW mode copies between pixels of one size (40_format_metadata R126). -/
theorem CopyJob.bytes_of_raw {j : CopyJob} (h : j.mode = .raw) : j.sf.bytes = j.df.bytes := by
  refine bytes_of_eqna ?_
  by_contra hn
  simp only [CopyJob.mode, hn] at h
  split at h <;> cases h

theorem rawCopy_clears {j : CopyJob} (hc : j.coincide = false) (hb : j.sf.bytes = j.df.bytes)
    (h : j.rect.footprint p a ∨ j.sourceBytes p a) : Clears p a (rawCopy p j) := by
  unfold rawCopy
  rw [hc, if_neg Bool.false_ne_true]
  rcases h with ⟨y, hy, h⟩ | ⟨y, hy, h⟩
  · refine .forEach (CopyJob.mem_rowOrder_of_lt hy) (.then_of fun w bs w' hr => memWrite_clears ?_)
    obtain ⟨rfl, -⟩ := memRead_ok hr
    rwa [bytesAt_length]
  · rw [hb] at h
    exact .forEach (CopyJob.mem_rowOrder_of_lt hy) ((memRead_clears h).first _)

/-- A per-pixel loop accesses its rectangle if the mode's store accesses the pixel, its source, and the tag of an
RGB8 source's palette. -/
theorem pixelCopy_clears {j : CopyJob} {store : Nat → Word → Cmd Unit}
    (hstore : j.df.packable = true → ∀ b v, span p b j.df.bytes a → Clears p a (store b v))
    (h : j.rect.footprint p a ∨ j.sourceBytes p a ∨ (j.sf = .rgb8 ∧ ∃ b, j.pal = .inMemory b ∧ span p b 4 a)) :
    Clears p a (pixelCopy p j store) := by
  rcases h with h | h | ⟨h8, b, hb, h⟩
  · refine .then_of fun w _ w' hr => ?_
    obtain ⟨-, hd, -⟩ := convChecks_ok hr
    obtain ⟨x, y, hx, hy, h⟩ := Rect.footprint_pixel h
    exact .forEach (CopyJob.mem_rowOrder_of_lt hy) (.forEach (CopyJob.mem_colOrder_of_lt hx)
      (.then fun v => .then fun c => hstore hd _ c h))
  · obtain ⟨x, y, hx, hy, h⟩ := CopyJob.sourceBytes_pixel h
    exact .then fun _ => .forEach (CopyJob.mem_rowOrder_of_lt hy) (.forEach (CopyJob.mem_colOrder_of_lt hx)
      ((loadPx_clears h).first _))
  · unfold pixelCopy
    rw [h8, hb]
    exact (convChecks_clears h).first _

theorem overlapSafe_clears {j : CopyJob} (h : j.touches p a) : Clears p a (overlapSafe p j) := by
  obtain ⟨hc, h⟩ := h
  unfold overlapSafe
  by_cases hraw : j.mode = .raw
  · rw [hraw]
    refine rawCopy_clears (Bool.eq_false_iff.2 fun h => hc ⟨hraw, h⟩) (CopyJob.bytes_of_raw hraw) ?_
    rcases h with h | h | ⟨hn, -⟩
    · exact .inl h
    · exact .inr h
    · exact absurd hraw hn
  · have hall : j.rect.footprint p a ∨ j.sourceBytes p a ∨
        (j.sf = .rgb8 ∧ ∃ b, j.pal = .inMemory b ∧ span p b 4 a) := by
      rcases h with h | h | ⟨-, h8, -, -, h⟩
      · exact .inl h
      · exact .inr (.inl h)
      · exact .inr (.inr ⟨h8, h⟩)
    cases hm : j.mode with
    | raw => exact absurd hm hraw
    | conv => exact pixelCopy_clears (fun hd _ _ hb => storePx_clears (Fmt.writable_of_packable hd) hb) hall
    | alpha => exact pixelCopy_clears (fun hd _ _ hb => storePxIa_clears (Fmt.writable_of_packable hd) hb) hall

theorem nonOverlapping_clears {j : CopyJob} (h : j.touches p a) : Clears p a (nonOverlapping p j) :=
  .then fun _ => .then fun _ => .then fun _ => overlapSafe_clears h

theorem dispatchCopy_clears {j : CopyJob} (h : j.touches p a) : Clears p a (dispatchCopy p j) := by
  unfold dispatchCopy
  split
  · exact overlapSafe_clears h
  · exact nonOverlapping_clears h

/-- The checks of a request of some area, its formats enumerated, fail or let it go on (42_blit_engine R202). -/
theorem copyChecks_of_area {q : CopyReq} {df sf : Fmt} (hd : q.dfmt = some df) (hs : q.sfmt = some sf)
    (hw : 0 < q.w) (hh : 0 < q.h) :
    copyChecks p q = .error .invalidArg ∨ copyChecks p q = .ok (some (q.job df sf)) := by
  have harea : ¬ (q.w = 0 ∨ q.h = 0) := by omega
  simp only [copyChecks, hd, hs, if_neg harea]
  split
  · exact .inl rfl
  · split
    · exact .inl rfl
    · exact .inr rfl

/-- A request of some area that succeeds has taken its path. -/
theorem copyWith_clears {q : CopyReq} {df sf : Fmt} {path : CopyJob → Cmd Unit} (hd : q.dfmt = some df)
    (hs : q.sfmt = some sf) (h : (q.job df sf).touches p a) (hpath : Clears p a (path (q.job df sf))) :
    Clears p a (copyWith p q path) := by
  obtain ⟨hw, hh⟩ := CopyJob.touches_area h
  unfold copyWith
  rcases copyChecks_of_area (p := p) hd hs hw hh with hc | hc <;> rw [hc]
  · exact .throw _
  · exact hpath

/-! ### The commands -/

/-- The bytes of a bit-packed input are read where each of its bits is. -/
theorem bits_clear {base stride w h : Nat} {body : Nat → Nat → Cmd Unit} (ha : bitBytes p base stride w h a)
    (hb : ∀ x y, x < w → y < h → a = portAddr p (base + stride * y + x / 8) → Clears p a (body x y)) :
    Clears p a (Machine.forPixels w h body) := by
  obtain ⟨y, hy, x, hx, ha⟩ := ha
  exact .forPixels hx hy (hb x y hx hy ha)

/-- The same, rows taken from the last one up. -/
theorem bits_clear_flipped {base stride w h : Nat} {body : Nat → Nat → Cmd Unit} (ha : bitBytes p base stride w h a)
    (hb : ∀ x y, a = portAddr p (base + stride * (h - 1 - y) + x / 8) → Clears p a (body x y)) :
    Clears p a (Machine.forPixels w h body) := by
  obtain ⟨y, hy, x, hx, ha⟩ := ha
  exact .forPixels (y := h - 1 - y) hx (by omega) (hb x _ (by rwa [show h - 1 - (h - 1 - y) = y by omega]))

variable {s : State}

theorem fmtNameCmd_clears (h : span s.params s.regs.dst.toNat ((fmtName (decodeFmt s.regs.sfmt)).length + 1) a) :
    Clears s.params a (fmtNameCmd s) :=
  .then fun _ => (memWrite_clears (by simpa using h)).first _

/-- The palette at PAL, if there is one, lies in memory. -/
theorem paletteAt_cases (pal : Slot) : paletteAt pal = .absent ∨ paletteAt pal = .inMemory pal.toNat := by
  unfold paletteAt
  split
  · exact .inl rfl
  · exact .inr rfl

/-- Splitting an RGB8 value reads the tag and the entry of the palette at PAL (41_color_codec R162). -/
theorem split_paletteAt_clears {v : Word} {pal : Slot}
    (h : span p pal.toNat 4 a ∨ span p (pal.toNat + 4 + 4 * v.toNat) 4 a) :
    Clears p a (split p v .rgb8 (paletteAt pal)) := by
  rcases paletteAt_cases pal with hp | hp <;> rw [hp]
  · exact .throw _
  · exact split_clears h

theorem splitColorCmd_clears (h : mustTouch .splitColor s a) : Clears s.params a (splitColorCmd s) := by
  obtain ⟨hf, h⟩ := h
  unfold splitColorCmd
  rw [hf]
  exact (split_paletteAt_clears h).first _

theorem convertColorCmd_clears (h : mustTouch .convertColor s a) : Clears s.params a (convertColorCmd s) := by
  obtain ⟨hf, h⟩ := h
  unfold convertColorCmd
  rw [hf]
  cases decodeFmt s.regs.dfmt with
  | none => exact .throw _
  | some df => exact (split_paletteAt_clears h).first _

theorem readColorCmd_clears (h : mustTouch .readColor s a) : Clears s.params a (readColorCmd s) := by
  obtain ⟨f, -, hf, h⟩ := h
  unfold readColorCmd
  rw [hf]
  exact .then fun _ => loadPx_clears h

theorem writeColorWith_clears {store : Params → Nat → Fmt → Word → Cmd Unit} (h : mustTouch .writeColor s a)
    (hstore : ∀ b f v, f.writable = true → span s.params b f.bytes a → Clears s.params a (store s.params b f v)) :
    Clears s.params a (writeColorWith s store) := by
  obtain ⟨f, -, hf, h⟩ := h
  unfold writeColorWith
  rw [hf]
  exact .failIf_bind fun hw => .then fun _ => hstore _ _ _ (by simpa using hw) h

/-- Every row of a filled rectangle is written: the first by its pixels, the others whole (42_blit_engine R225). -/
theorem fillRect_clears {t : Rect} {c : Word} (hw : t.fmt.writable = true) (h : t.footprint p a) :
    Clears p a (fillRect p t c) := by
  obtain ⟨y, hy, h⟩ := h
  by_cases hy0 : y = 0
  · subst hy0
    obtain ⟨x, hx, h⟩ := span_items t.fmt.bytes_pos h
    rw [← t.pixel_eq x 0] at h
    exact .first (.forEach (List.mem_range.2 hx) (storePx_clears hw h)) _
  · refine .then fun _ => .forEach (List.mem_range'_1.2 (by omega : 1 ≤ y ∧ y < 1 + (t.h - 1)))
      (.then_of fun w bs w' hr => memWrite_clears ?_)
    obtain ⟨rfl, -⟩ := memRead_ok hr
    rwa [bytesAt_length]

theorem fillCmd_clears (h : mustTouch .fill s a) : Clears s.params a (fillCmd s) := by
  obtain ⟨f, -, hf, h⟩ := h
  obtain ⟨x, y, hx, hy, -⟩ := Rect.footprint_pixel h
  have harea : ¬ (s.regs.w = 0 ∨ s.regs.h = 0) := by
    rintro (h0 | h0)
    · exact absurd hx (by simp [destRect, h0])
    · exact absurd hy (by simp [destRect, h0])
  unfold fillCmd
  rw [hf]
  refine .failIf_bind fun hw => ?_
  rw [if_neg harea]
  exact .then fun _ => fillRect_clears (t := destRect s.regs f) (by simpa [destRect] using hw) h

theorem resample_clears {df sf : Fmt} (h : (destRect s.regs df).footprint s.params a) :
    Clears s.params a (resample s df sf) := by
  obtain ⟨y, hy, h⟩ := h
  exact .then fun _ => .then fun _ => .then fun draw => .forEach (List.mem_range.2 hy)
    (memWrite_clears (by simpa [resampledRow] using h))

theorem scaleCmd_clears (h : mustTouch .scale s a) : Clears s.params a (scaleCmd s) := by
  obtain ⟨df, -, sf, -, ⟨hd, hs⟩, h⟩ := h
  unfold scaleCmd
  rw [hd, hs]
  simp only
  split at h
  · rw [if_pos ‹_›]
    exact copyWith_clears hd hs h (nonOverlapping_clears h)
  · rw [if_neg ‹_›]
    exact .then fun _ => resample_clears h

theorem glyphCmd_clears (h : mustTouch .glyph s a) : Clears s.params a (glyphCmd s) := by
  refine .then fun _ => ?_
  rcases h with ⟨k, hk, ha⟩ | h
  · rw [Nat.mul_comm] at hk
    have hw : 0 < s.regs.w.toNat := Nat.pos_of_ne_zero fun h0 => by simp [h0] at hk
    refine .forPixels (Nat.mod_lt k hw) ((Nat.div_lt_iff_lt_mul hw).2 hk) (.then fun b => memWrite_clears ⟨0, by simp, ?_⟩)
    rw [Nat.add_zero, Nat.add_assoc, Nat.div_add_mod', ha]
  · exact bits_clear h fun x y _ _ ha => (readBit_clears ha).first _

theorem monoCmd_clears (h : mustTouch .mono s a) : Clears s.params a (monoCmd s) := by
  obtain ⟨f, -, hf, h⟩ := h
  unfold monoCmd
  rw [hf]
  refine .failIf_bind fun hw => .then fun _ => ?_
  rcases h with h | h
  · obtain ⟨x, y, hx, hy, h⟩ := Rect.footprint_pixel h
    exact .forPixels hx hy (.then fun b => storePx_clears (by simpa using hw) h)
  · exact bits_clear h fun x y _ _ ha => (readBit_clears ha).first _

/-! ### ICON -/

theorem readTable_clears {b n : Nat} (h : span p b (4 * n) a) : Clears p a (readTable p b n) := by
  induction n generalizing b with
  | zero =>
    obtain ⟨k, hk, -⟩ := h
    cases hk
  | succ n ih =>
    obtain ⟨k, hk, ha⟩ := h
    by_cases hk4 : k < 4
    · exact (loadPx_clears (f := .bgrx32) ⟨k, hk4, ha⟩).first _
    · exact .then fun _ => (ih ⟨k - 4, by omega, by rw [ha]; congr 1; omega⟩).first _

theorem iconPalette_clears {b n : Nat} (h4 : n % 4 = 0) (hn : n ≤ 1024) (h : span p b n a) :
    Clears p a (iconPalette p b n) := by
  have hpos : n ≠ 0 := by
    obtain ⟨k, hk, -⟩ := h
    omega
  unfold iconPalette
  rw [if_pos ⟨hpos, h4, by omega⟩]
  exact (readTable_clears (by rwa [Nat.mul_div_cancel' (Nat.dvd_of_mod_eq_zero h4)])).first _

theorem iconMaskPass_clears {t : Rect} {msk : Nat}
    (h : bitBytes p msk (((t.w + 7) / 8 + 3) / 4 * 4) t.w t.h a) : Clears p a (iconMaskPass p t msk) :=
  bits_clear_flipped h fun _ _ ha => (readBit_clears ha).first _

/-- The depths of an icon's color bitmap and their formats (43_bitmap_decoders R281). -/
theorem iconFmt_of_mem {bpp : Word} {sf : Fmt}
    (h : (bpp.toNat, sf) ∈ [(8, Fmt.rgb8), (16, .rgb15), (24, .rgb24), (32, .bgra32)]) : iconFmt bpp = some sf := by
  simp only [List.mem_cons, Prod.mk.injEq, List.not_mem_nil, or_false] at h
  rcases h with ⟨h, rfl⟩ | ⟨h, rfl⟩ | ⟨h, rfl⟩ | ⟨h, rfl⟩ <;>
    simp [iconFmt, ← BitVec.toNat_inj, h]

/-- What an icon's copy must access does not rest on the palette built for it. -/
theorem iconReq_touches {r : OperandRegs} {f sf : Fmt} (es : List Word)
    (h : ((iconReq r sf .absent).job f sf).touches p a) : ((iconReq r sf (.built es)).job f sf).touches p a := by
  obtain ⟨hc, h | h | ⟨-, -, -, -, b, hb, -⟩⟩ := h
  · exact ⟨hc, .inl h⟩
  · exact ⟨hc, .inr (.inl h)⟩
  · cases hb

theorem iconPalette_built {b n : Nat} {w w' : Work} {pal : Palette} (h : iconPalette p b n w = .ok pal w') :
    ∃ es, pal = .built es := by
  unfold iconPalette at h
  split at h
  · obtain ⟨es, w1, -, h⟩ := bind_ok h
    cases h
    exact ⟨es, rfl⟩
  · cases h
    exact ⟨[], rfl⟩

theorem iconCmd_clears (h : mustTouch .icon s a) : Clears s.params a (iconCmd s) := by
  obtain ⟨f, -, hf, sf, -, hbpp, h⟩ := h
  unfold iconCmd
  rw [hf]
  refine .then fun _ => ?_
  rw [iconFmt_of_mem hbpp]
  refine .then fun _ => .then fun _ => ?_
  rcases h with ⟨h4, hn, h⟩ | h | ⟨ha, hm, hml, h⟩
  · exact (iconPalette_clears h4 hn h).first _
  · refine .then_of fun w pal w' hr => .then fun _ => .then fun _ => .first ?_ _
    obtain ⟨es, rfl⟩ := iconPalette_built hr
    have h' := iconReq_touches es h
    exact copyWith_clears hf rfl h' (dispatchCopy_clears h')
  · have huse : iconUsesMask s.regs f = true := by
      simp only [iconUsesMask, ha, bne_iff_ne.2 hm, bne_iff_ne.2 hml, Bool.and_self]
    refine .then fun pal => .then fun _ => .then fun _ => .then fun _ => ?_
    rw [huse]
    exact iconMaskPass_clears h

/-! ### CURSOR -/

theorem zeroFill_clears {t : Rect} (h : t.footprint p a) : Clears p a (zeroFill p t) := by
  obtain ⟨y, hy, h⟩ := h
  exact .forEach (List.mem_range.2 hy) (memWrite_clears (by simpa using h))

theorem cursorMonoCmd_clears {t : Rect}
    (h : bitBytes s.params s.regs.src.toNat (((t.w + 7) / 8 + 1) / 2 * 2) t.w t.h a ∨
      bitBytes s.params s.regs.msk.toNat (((t.w + 7) / 8 + 1) / 2 * 2) t.w t.h a) :
    Clears s.params a (cursorMonoCmd s t) := by
  refine .then fun _ => .then fun _ => ?_
  rcases h with h | h
  · exact bits_clear h fun x y _ _ ha => (readBit_clears ha).first _
  · exact bits_clear h fun x y _ _ ha => .then fun _ => (readBit_clears ha).first _

/-- The depths of a cursor's color pixels, their formats and sizes (43_bitmap_decoders R296). -/
theorem bytes_of_cursorFmt {bpp : Word} {xf : Fmt} (h : cursorFmt bpp = some xf) :
    xf.bytes = bpp.toNat / 8 ∧ (bpp = 8 → xf = .rgb8) := by
  unfold cursorFmt at h
  split_ifs at h with hb hb hb hb <;> cases h <;> rw [hb] <;> decide

theorem cursorColorCmd_clears {t : Rect} {xf : Fmt} (hxf : cursorFmt s.regs.bpp = some xf)
    (h : (∃ y, y < t.h ∧ span s.params
        (s.regs.src.toNat + ((t.w * (s.regs.bpp.toNat / 8) + 1) / 2 * 2) * y) (t.w * (s.regs.bpp.toNat / 8)) a) ∨
      (s.regs.msk ≠ 0 ∧ bitBytes s.params s.regs.msk.toNat (((t.w + 7) / 8 + 1) / 2 * 2) t.w t.h a) ∨
      (s.regs.bpp = 8 ∧ span s.params s.regs.pal.toNat 4 a)) :
    Clears s.params a (cursorColorCmd s t xf) := by
  obtain ⟨hbytes, h8⟩ := bytes_of_cursorFmt hxf
  refine .then fun _ => ?_
  rcases h with ⟨y, hy, h⟩ | ⟨hm, h⟩ | ⟨hb, h⟩
  · refine .then fun _ => .then fun _ => .then fun _ => ?_
    rw [← hbytes] at h
    obtain ⟨x, hx, h⟩ := span_items xf.bytes_pos h
    refine .forPixels (y := t.h - 1 - y) hx (by omega) ((loadPx_clears ?_).first _)
    rw [show t.h - 1 - (t.h - 1 - y) = y by omega, ← hbytes]
    exact h
  · refine .then fun _ => .then fun _ => .then fun _ =>
      bits_clear_flipped h fun x y ha => .then fun v => .then fun c => .first ?_ _
    unfold cursorAndBit
    rw [if_neg hm]
    exact readBit_clears ha
  · refine .first ?_ _
    rw [h8 hb]
    rcases paletteAt_cases s.regs.pal with hp | hp <;> rw [hp]
    · exact .throw _
    · exact convChecks_clears h

theorem cursorCmd_clears (h : mustTouch .cursor s a) : Clears s.params a (cursorCmd s) := by
  obtain ⟨f, -, hf, h⟩ := h
  unfold cursorCmd
  rw [hf]
  refine .then fun _ => .then fun _ => ?_
  rcases h with h | h
  · exact (zeroFill_clears h).first _
  refine .then fun _ => ?_
  split
  · next h1 =>
    refine cursorMonoCmd_clears ?_
    rcases h with ⟨-, h⟩ | ⟨hn, -⟩ | ⟨-, h⟩ | ⟨h8, -⟩
    · exact .inl h
    · exact absurd h1 hn
    · exact .inr h
    · rw [h8] at h1
      cases h1
  · next h1 =>
    cases hxf : cursorFmt s.regs.bpp with
    | none => exact .throw _
    | some xf =>
      refine cursorColorCmd_clears hxf ?_
      rcases h with ⟨h, -⟩ | ⟨-, h⟩ | h | h
      · exact absurd h h1
      · exact .inl h
      · exact .inr (.inl h)
      · exact .inr (.inr h)

end

end Sys2Proof.Machine
end

section
/-! Every command on a platform that rejects an address it would access, and the rejected bytes themselves. -/

namespace Sys2Proof.Machine

/-! ### A rejected byte never changes -/

theorem writeByte_spares (p : Params) (a : Nat) (b : Byte) :
    Moves (KeepsOutside fun x => rejected p x = false) (writeByte p a b) := by
  intro w x hx
  unfold writeByte
  split
  · rfl
  · next hn => exact Memory.read_write_ne _ _ fun h => hx (h ▸ Bool.eq_false_iff.2 hn)

theorem memWrite_spares (p : Params) (a : Nat) (bs : List Byte) :
    Moves (KeepsOutside fun x => rejected p x = false) (memWrite p a bs) := by
  induction bs generalizing a with
  | nil => exact Moves.pure (keepsOutside_step _) _
  | cons b bs ih => exact Moves.bind (keepsOutside_step _) (writeByte_spares p a b) fun _ => ih (a + 1)

theorem exec_spares {i : Instr} {s t : State} (h : exec i s = .next t) :
    KeepsOutside (fun a => rejected s.params a = false) s.work t.work :=
  exec_moves (keepsOutside_step _) (memWrite_spares _) (takeDraw_keeps _) (fun _ => setBinit_keeps _) h

/-! ### A command that would access a rejected byte -/

/-- A piece that would succeed where nothing is rejected, and that accesses a rejected byte, ends with BUS. -/
theorem FollowsOrFaults.bus {α : Type} {p : Params} {c c₀ : Cmd α} {w w₀ : Work} {v : α} {a : Nat}
    (hf : FollowsOrFaults p c c₀) (h₀ : c₀ w = .ok v w₀) (hc : Clears p a c) (hr : rejected p a = true) :
    ∃ w', c w = .error .bus w' := by
  rcases hf w with hw | ⟨_, w', -, -, hw⟩
  · exact absurd (hc w v w₀ (hw.trans h₀)) (by simp [hr])
  · exact ⟨w', hw⟩

theorem Err.code_ne_zero (e : Err) : e.code ≠ 0 := by
  cases e <;> decide

/-- ERR is 0 only after a success (60_exceptions R321). -/
theorem runPlain_ok_of_err {s : State} {c : Cmd Unit} (h : (s.runPlain c).status.err = 0) :
    ∃ w, c s.work = .ok () w := by
  cases hr : c s.work with
  | ok v w => exact ⟨w, rfl⟩
  | error e w =>
    rw [runPlain_of_error hr] at h
    exact absurd h e.code_ne_zero

theorem runRes_ok_of_err {s : State} {c : Cmd Word} (h : (s.runRes c).status.err = 0) :
    ∃ v w, c s.work = .ok v w := by
  cases hr : c s.work with
  | ok v w => exact ⟨v, w, rfl⟩
  | error e w =>
    rw [runRes_of_error hr] at h
    exact absurd h e.code_ne_zero

theorem runRchan_ok_of_err {s : State} {c : Cmd Word} (h : (s.runRchan c).status.err = 0) :
    ∃ v w, c s.work = .ok v w := by
  cases hr : c s.work with
  | ok v w => exact ⟨v, w, rfl⟩
  | error e w =>
    rw [runRchan_of_error hr] at h
    exact absurd h e.code_ne_zero

/-- What BUS leaves in STATUS (60_exceptions R321, R330). -/
@[simp] theorem conclude_bus (st : Status) (b : Bool) : st.conclude b (some .bus) = ⟨6, true, b⟩ := by
  simp [Status.conclude, Err.code, Err.isFault]

section
variable {s : State} {a : Nat} (hr : rejected s.params a = true)
include hr

/-- A command without a result register that would access a rejected byte. -/
theorem runPlain_faults {c c₀ : Cmd Unit} (hf : FollowsOrFaults s.params c c₀) (hc : Clears s.params a c)
    (h : (s.unrejecting.runPlain c₀).status.err = 0) :
    (s.runPlain c).status.err = 6 ∧ (s.runPlain c).status.fault = true ∧ (s.runPlain c).res = s.res ∧
      (s.runPlain c).rchan = s.rchan := by
  obtain ⟨w₀, h₀⟩ := runPlain_ok_of_err h
  obtain ⟨w', h'⟩ := hf.bus h₀ hc hr
  rw [show s.unrejecting.work = s.work from rfl] at h'
  rw [runPlain_of_error h']
  simp

/-- A producer of RES that would access a rejected byte leaves 0 there (60_exceptions R325, log entry 6). -/
theorem runRes_faults {c c₀ : Cmd Word} (hf : FollowsOrFaults s.params c c₀) (hc : Clears s.params a c)
    (h : (s.unrejecting.runRes c₀).status.err = 0) :
    (s.runRes c).status.err = 6 ∧ (s.runRes c).status.fault = true ∧ (s.runRes c).res = 0 ∧
      (s.runRes c).rchan = s.rchan := by
  obtain ⟨v, w₀, h₀⟩ := runRes_ok_of_err h
  obtain ⟨w', h'⟩ := hf.bus h₀ hc hr
  rw [show s.unrejecting.work = s.work from rfl] at h'
  rw [runRes_of_error h']
  simp

/-- SPLITCOLOR, where it would access a rejected byte, leaves 0 in RCHAN (60_exceptions R325, log entry 6). -/
theorem runRchan_faults {c c₀ : Cmd Word} (hf : FollowsOrFaults s.params c c₀) (hc : Clears s.params a c)
    (h : (s.unrejecting.runRchan c₀).status.err = 0) :
    (s.runRchan c).status.err = 6 ∧ (s.runRchan c).status.fault = true ∧ (s.runRchan c).res = s.res ∧
      (s.runRchan c).rchan = 0 := by
  obtain ⟨v, w₀, h₀⟩ := runRchan_ok_of_err h
  obtain ⟨w', h'⟩ := hf.bus h₀ hc hr
  rw [show s.unrejecting.work = s.work from rfl] at h'
  rw [runRchan_of_error h']
  simp

end

/-- Settles O60: each command's body does what it does where nothing is rejected or ends with BUS, and has accessed
every byte of `mustTouch` once it has succeeded; the second part is `exec_spares`. -/
theorem rejectedByteFaults : Obligations.RejectedByteFaults := by
  refine ⟨fun i s u a h he hm hr => ?_, fun i s t a h hr => exec_spares h a (by simp [hr])⟩
  cases i <;> cases h
  case nop | fmtBpp | fmtBytes | fmtHasAlpha | fmtEqna | getColor => exact hm.elim
  case fmtName => exact ⟨_, rfl, runRes_faults hr fmtNameCmd_follows (fmtNameCmd_clears hm) he⟩
  case readColor => exact ⟨_, rfl, runRes_faults hr readColorCmd_follows (readColorCmd_clears hm) he⟩
  case convertColor =>
    exact ⟨_, rfl, runRes_faults hr convertColorCmd_follows (convertColorCmd_clears hm) he⟩
  case splitColor =>
    exact ⟨_, rfl, runRchan_faults hr splitColorCmd_follows (splitColorCmd_clears hm) he⟩
  case writeColor =>
    exact ⟨_, rfl, runPlain_faults hr (writeColorWith_follows fun _ _ _ => storePx_follows fun _ _ => trivial)
      (writeColorWith_clears hm fun _ _ _ hw hb => storePx_clears hw hb) he⟩
  case writeColorIa =>
    exact ⟨_, rfl, runPlain_faults hr (writeColorWith_follows fun _ _ _ => storePxIa_follows _ _ _)
      (writeColorWith_clears hm fun _ _ _ hw hb => storePxIa_clears hw hb) he⟩
  case copy =>
    obtain ⟨df, -, sf, -, ⟨hd, hs⟩, hm⟩ := hm
    exact ⟨_, rfl, runPlain_faults hr (copyWith_follows dispatchCopy_follows)
      (copyWith_clears hd hs hm (dispatchCopy_clears hm)) he⟩
  case copyOvl =>
    obtain ⟨df, -, sf, -, ⟨hd, hs⟩, hm⟩ := hm
    exact ⟨_, rfl, runPlain_faults hr (copyWith_follows overlapSafe_follows)
      (copyWith_clears hd hs hm (overlapSafe_clears hm)) he⟩
  case copyNovl =>
    obtain ⟨df, -, sf, -, ⟨hd, hs⟩, hm⟩ := hm
    exact ⟨_, rfl, runPlain_faults hr (copyWith_follows nonOverlapping_follows)
      (copyWith_clears hd hs hm (nonOverlapping_clears hm)) he⟩
  case fill => exact ⟨_, rfl, runPlain_faults hr fillCmd_follows (fillCmd_clears hm) he⟩
  case scale => exact ⟨_, rfl, runPlain_faults hr scaleCmd_follows (scaleCmd_clears hm) he⟩
  case glyph => exact ⟨_, rfl, runPlain_faults hr glyphCmd_follows (glyphCmd_clears hm) he⟩
  case mono => exact ⟨_, rfl, runPlain_faults hr monoCmd_follows (monoCmd_clears hm) he⟩
  case icon => exact ⟨_, rfl, runPlain_faults hr iconCmd_follows (iconCmd_clears hm) he⟩
  case cursor => exact ⟨_, rfl, runPlain_faults hr cursorCmd_follows (cursorCmd_clears hm) he⟩

end Sys2Proof.Machine
end

section
/-! A command stopped in the middle of its writes (20_memory R84): which bytes it has stored by then, and that they
hold what the command leaves there on a platform that rejects nothing. First one access, then loops whose turns store
to places that do not meet, then the loops over a rectangle's pixels and rows. -/

namespace Sys2Proof.Machine

/-! ### One access -/

@[simp] theorem writeBytes_unrejecting (p : Params) (m : Memory) (a : Nat) (bs : List Byte) :
    writeBytes (Params.unrejecting p) m a bs = writeBytes p m a bs := by
  induction bs generalizing m a with
  | nil => rfl
  | cons b bs ih => exact ih _ _

theorem memWrite_unrejecting_runs (p : Params) (a : Nat) (bs : List Byte) (w : Work) :
    memWrite (Params.unrejecting p) a bs w = .ok () ⟨writeBytes p w.mem a bs, w.binit, w.draws⟩ := by
  rw [memWrite_runs (unrejecting_rejects p), writeBytes_unrejecting]

/-- `MemWrite` of bytes none of which is rejected. -/
theorem memWrite_of_free {p : Params} {a : Nat} {bs : List Byte}
    (h : ∀ k, k < bs.length → rejected p (portAddr p (a + k)) = false) (w : Work) :
    memWrite p a bs w = .ok () ⟨writeBytes p w.mem a bs, w.binit, w.draws⟩ := by
  rw [← memWrite_unrejecting_runs]
  refine (memWrite_follows fun _ hb => hb).eq_of_free ?_ w
  rintro b ⟨k, hk, rfl⟩
  exact h k hk

/-- `MemWrite` whose byte `k` is the first rejected one has stored the bytes before it. -/
theorem memWrite_stops {p : Params} {a k : Nat} {bs : List Byte} (hk : k < bs.length)
    (hfree : ∀ j, j < k → rejected p (portAddr p (a + j)) = false) (hr : rejected p (portAddr p (a + k)) = true)
    (w : Work) : memWrite p a bs w = .error .bus ⟨writeBytes p w.mem a (bs.take k), w.binit, w.draws⟩ := by
  induction bs generalizing a k w with
  | nil => cases hk
  | cons b bs ih =>
    cases k with
    | zero =>
      refine bind_runs_error ?_
      simp [writeByte, show rejected p (portAddr p a) = true from hr, writeBytes]
    | succ k =>
      have hb : writeByte p a b w = .ok () ⟨w.mem.write (portAddr p a) b, w.binit, w.draws⟩ := by
        simp [writeByte, show rejected p (portAddr p a) = false from hfree 0 (by omega)]
      rw [memWrite, bind_runs_ok hb]
      refine (ih (by simpa using hk) (fun j hj => ?_) ?_ _).trans rfl
      · rw [show a + 1 + j = a + (j + 1) by omega]
        exact hfree _ (by omega)
      · rwa [show a + 1 + k = a + (k + 1) by omega]

/-- The first `k` bytes written are there, and nothing else is changed. -/
theorem writeBytes_take (p : Params) (m : Memory) (a : Nat) {bs : List Byte} {k : Nat} (hk : k ≤ bs.length)
    (hn : bs.length ≤ 2 ^ p.addrW) :
    (∀ x, span p a k x → Memory.read (writeBytes p m a (bs.take k)) x = Memory.read (writeBytes p m a bs) x) ∧
    ∀ x, ¬ span p a k x → Memory.read (writeBytes p m a (bs.take k)) x = Memory.read m x := by
  have hlen : (bs.take k).length = k := by simpa using hk
  refine ⟨?_, fun x hx => read_writeBytes_outside p m a _ x (by rwa [hlen])⟩
  rintro x ⟨j, hj, rfl⟩
  rw [read_writeBytes_inside p m a (bs.take k) (by omega) (hlen.symm ▸ hj),
    read_writeBytes_inside p m a bs hn (by omega), List.getElem_take]

/-- The bytes written are held, as numbers. -/
theorem holds_writeBytes (p : Params) (m : Memory) (a : Nat) {bs : List Byte} (hn : bs.length ≤ 2 ^ p.addrW) :
    holds p (writeBytes p m a bs) a (bs.map BitVec.toNat) := by
  rw [holds, List.length_map, bytesAt_eq fun k hk => read_writeBytes_inside p m a bs hn hk]

/-! ### Stopped short of a success -/

/-- A run from `w` was stopped by BUS having stored just the bytes of `B`, which hold what they hold in `u`. -/
def StopsShort (r : EStateM.Result Err Work Unit) (w u : Work) (B : Nat → Prop) : Prop :=
  ∃ m, r = .error .bus ⟨m, w.binit, w.draws⟩ ∧ (∀ a, B a → Memory.read m a = Memory.read u.mem a) ∧
    ∀ a, ¬ B a → Memory.read m a = Memory.read w.mem a

theorem StopsShort.congr {r : EStateM.Result Err Work Unit} {w u : Work} {B C : Nat → Prop}
    (h : StopsShort r w u B) (hBC : ∀ a, B a ↔ C a) : StopsShort r w u C := by
  rwa [show C = B from funext fun a => propext (hBC a).symm]

/-- Stopped in the first part of a sequence whose second part leaves the bytes stored by then. -/
theorem StopsShort.first {c d : Cmd Unit} {w w₁ u : Work} {B T : Nat → Prop} (h : StopsShort (c w) w w₁ B)
    (hk : KeepsOutside T w₁ u) (hBT : ∀ a, B a → ¬ T a) : StopsShort ((do c; d) w) w u B := by
  obtain ⟨m, hm, hin, hout⟩ := h
  exact ⟨m, bind_runs_error hm, fun a ha => (hin a ha).trans (hk a (hBT a ha)).symm, hout⟩

/-- Stopped in the second part of a sequence that does not store again to the bytes `S` of the first. -/
theorem StopsShort.second {c d : Cmd Unit} {w w₁ u : Work} {S T B : Nat → Prop} (hc : c w = .ok () w₁)
    (hs : Stores S w w₁) (h : StopsShort (d w₁) w₁ u B) (hk : KeepsOutside T w₁ u) (hBT : ∀ a, B a → T a)
    (hST : ∀ a, S a → ¬ T a) : StopsShort ((do c; d) w) w u (fun a => S a ∨ B a) := by
  obtain ⟨m, hm, hin, hout⟩ := h
  obtain ⟨hkeep, hb, hd⟩ := hs
  refine ⟨m, by rw [bind_runs_ok hc, hm, hb, hd], ?_, fun a ha => ?_⟩
  · rintro a (ha | ha)
    · rw [hout a fun hB => hST a ha (hBT a hB), hk a (hST a ha)]
    · exact hin a ha
  · rw [hout a fun hB => ha (.inr hB), hkeep a fun hS => ha (.inl hS)]

theorem memWrite_stopsShort {p : Params} {a k : Nat} {bs : List Byte} (hk : k < bs.length)
    (hn : bs.length ≤ 2 ^ p.addrW) (hfree : ∀ j, j < k → rejected p (portAddr p (a + j)) = false)
    (hr : rejected p (portAddr p (a + k)) = true) (w : Work) :
    StopsShort (memWrite p a bs w) w ⟨writeBytes p w.mem a bs, w.binit, w.draws⟩ (span p a k) := by
  obtain ⟨hin, hout⟩ := writeBytes_take p w.mem a (Nat.le_of_lt hk) hn
  exact ⟨_, memWrite_stops hk hfree hr w, hin, hout⟩

/-! ### Loops whose turns store -/

/-- A turn stores: where nothing is rejected, a success of `c₀` has written `n` bytes from `a` on; where `here`
holds, `c` on platform `p` is the same write. -/
def StoreTurn (p : Params) (a n : Nat) (here : Prop) (c c₀ : Cmd Unit) : Prop :=
  ∀ w w', c₀ w = .ok () w' → ∃ bs : List Byte, bs.length = n ∧
    w' = ⟨writeBytes p w.mem a bs, w.binit, w.draws⟩ ∧ (here → c w = memWrite p a bs w)

theorem StoreTurn.imp {p : Params} {a n : Nat} {P Q : Prop} {c c₀ : Cmd Unit} (h : StoreTurn p a n P c c₀)
    (hQP : Q → P) : StoreTurn p a n Q c c₀ := by
  intro w w' hw
  obtain ⟨bs, hlen, hw', hc⟩ := h w w' hw
  exact ⟨bs, hlen, hw', fun hQ => hc (hQP hQ)⟩

theorem writeBytes_stores (p : Params) (a : Nat) (bs : List Byte) (w : Work) :
    Stores (span p a bs.length) w ⟨writeBytes p w.mem a bs, w.binit, w.draws⟩ :=
  ⟨fun x hx => read_writeBytes_outside p w.mem a bs x hx, rfl, rfl⟩

section
variable {ι : Type} {p : Params} {A n : ι → Nat} {body body₀ : ι → Cmd Unit} {l : List ι} {w u : Work}

/-- What the turns of a loop that succeeds have left. -/
theorem forList_turns_keep {here : ι → Prop}
    (hturn : ∀ j ∈ l, StoreTurn p (A j) (n j) (here j) (body j) (body₀ j)) (hrun : forList l body₀ w = .ok () u) :
    KeepsOutside (fun a => ∃ j ∈ l, span p (A j) (n j) a) w u := by
  induction l generalizing w with
  | nil =>
    cases hrun
    exact fun _ _ => rfl
  | cons i l ih =>
    obtain ⟨_, w₁, h1, h2⟩ := bind_ok hrun
    obtain ⟨bs, hlen, rfl, -⟩ := hturn i (by simp) w w₁ h1
    intro a ha
    rw [ih (fun j hj => hturn j (by simp [hj])) h2 a fun ⟨j, hj, hs⟩ => ha ⟨j, by simp [hj], hs⟩]
    exact read_writeBytes_outside p w.mem (A i) bs a fun hs => ha ⟨i, by simp, hlen ▸ hs⟩

/-- A loop in the order `r` whose turns store to places that do not meet, stopped at byte `k` of turn `i`: it has
stored the turns before `i` and the bytes of `i` before `k`, with what the loop leaves there where nothing is
rejected. -/
theorem forList_stopsShort {r : ι → ι → Prop} {i : ι} {k : Nat} (hsorted : l.Pairwise r)
    (hasymm : ∀ x y, r x y → ¬ r y x) (hi : i ∈ l) (hlen : ∀ j ∈ l, n j ≤ 2 ^ p.addrW)
    (hapart : ∀ j ∈ l, ∀ j' ∈ l, r j j' → ∀ a, span p (A j) (n j) a → ¬ span p (A j') (n j') a)
    (hturn : ∀ j ∈ l, StoreTurn p (A j) (n j) (r j i ∨ j = i) (body j) (body₀ j))
    (hk : k < n i) (hr : rejected p (portAddr p (A i + k)) = true)
    (hfree : ∀ j ∈ l, r j i → ∀ k', k' < n j → rejected p (portAddr p (A j + k')) = false)
    (hfree' : ∀ k', k' < k → rejected p (portAddr p (A i + k')) = false)
    (hrun : forList l body₀ w = .ok () u) :
    StopsShort (forList l body w) w u fun a => (∃ j ∈ l, r j i ∧ span p (A j) (n j) a) ∨ span p (A i) k a := by
  induction l generalizing w with
  | nil => cases hi
  | cons j l ih =>
    obtain ⟨hfirst, hsorted⟩ := List.pairwise_cons.1 hsorted
    obtain ⟨_, w₁, h1, h2⟩ := bind_ok hrun
    obtain ⟨bs, hbs, rfl, hbody⟩ := hturn j (by simp) w w₁ h1
    have hrest := forList_turns_keep (fun j' hj' => hturn j' (by simp [hj'])) h2
    have hmeet : ∀ a, span p (A j) (n j) a → ¬ ∃ j' ∈ l, span p (A j') (n j') a := by
      rintro a ha ⟨j', hj', ha'⟩
      exact hapart j (by simp) j' (by simp [hj']) (hfirst j' hj') a ha ha'
    by_cases hij : j = i
    · -- the turn that is stopped
      subst hij
      have hstop := memWrite_stopsShort (p := p) (a := A j) (bs := bs) (hbs ▸ hk) (hbs ▸ hlen j (by simp)) hfree' hr w
      rw [← hbody (.inr rfl)] at hstop
      refine (hstop.first hrest ?_).congr fun a => ?_
      · rintro a ⟨k', hk', rfl⟩
        exact hmeet _ ⟨k', by omega, rfl⟩
      · refine ⟨.inr, ?_⟩
        rintro (⟨j', hj', hrj, -⟩ | ha)
        · rcases List.mem_cons.1 hj' with rfl | hj'
          · exact absurd hrj (hasymm _ _ hrj)
          · exact absurd hrj (hasymm _ _ (hfirst j' hj'))
        · exact ha
    · -- a turn before it
      have hi' : i ∈ l := (List.mem_cons.1 hi).resolve_left (Ne.symm hij)
      have hji := hfirst i hi'
      have hrun1 := (hbody (.inl hji)).trans (memWrite_of_free (hbs ▸ hfree j (by simp) hji) w)
      have hstop := ih hsorted hi' (fun j' hj' => hlen j' (by simp [hj']))
        (fun x hx y hy => hapart x (by simp [hx]) y (by simp [hy])) (fun j' hj' => hturn j' (by simp [hj']))
        (fun j' hj' => hfree j' (by simp [hj'])) h2
      refine (StopsShort.second hrun1 (writeBytes_stores p (A j) bs w) hstop hrest ?_ (hbs ▸ hmeet)).congr fun a => ?_
      · rintro a (⟨j', hj', -, ha⟩ | ⟨k', hk', rfl⟩)
        · exact ⟨j', hj', ha⟩
        · exact ⟨i, hi', k', by omega, rfl⟩
      · rw [hbs]
        simp only [List.mem_cons, exists_eq_or_imp, hji, true_and, or_assoc]

end

/-! ### The rows of a rectangle -/

/-- Byte `k` of row `y` comes before byte `K` of row `Y`, rows in the order `ry`. -/
abbrev rowwise (ry : Nat → Nat → Prop) (Y K y k : Nat) : Prop :=
  ry y Y ∨ (y = Y ∧ k < K)

/-- Byte `k` of row `y` comes before byte `K` of row `Y`, rows in the order `ry`, their pixels of `b` bytes in the
order `rx`. -/
abbrev pixelwise (b : Nat) (rx ry : Nat → Nat → Prop) (Y K y k : Nat) : Prop :=
  ry y Y ∨ (y = Y ∧ (rx (k / b) (K / b) ∨ (k / b = K / b ∧ k < K)))

section
variable {p : Params} {t : Rect} {ry : Nat → Nat → Prop} {ys : List Nat} {Y K : Nat} {w u : Work}

/-- A loop over the rows of a rectangle, stopped at byte `K` of row `Y`. -/
theorem rows_stopShort {body body₀ : Nat → Cmd Unit} (hf : t.fits p) (ha : t.rowsApart)
    (hys : ys.Perm (List.range t.h)) (hsorted : ys.Pairwise ry) (hasymm : ∀ x y, ry x y → ¬ ry y x)
    (hstop : t.stopsAt p (rowwise ry Y K) Y K)
    (hturn : ∀ y, y < t.h → StoreTurn p (t.pixel 0 y) t.rowBytes (ry y Y ∨ y = Y) (body y) (body₀ y))
    (hrun : forEach ys body₀ w = .ok () u) :
    StopsShort (forEach ys body w) w u (t.bytesBefore p (rowwise ry Y K)) := by
  obtain ⟨hY, hK, hr, hfree⟩ := hstop
  have hmem : ∀ {y}, y ∈ ys ↔ y < t.h := hys.mem_iff.trans List.mem_range
  rw [forEach_eq_forList] at hrun ⊢
  refine (forList_stopsShort (A := fun y => t.pixel 0 y) (n := fun _ => t.rowBytes) hsorted hasymm (hmem.2 hY)
    (fun _ _ => Rect.rowBytes_le_of_fits hf) (fun y hy y' hy' hyy _ h => ?_) (fun y hy => hturn y (hmem.1 hy)) hK hr
    (fun y hy hyY k hk => hfree y (hmem.1 hy) k hk (.inl hyY))
    (fun k hk => hfree Y hY k (by omega) (.inr ⟨rfl, hk⟩)) hrun).congr fun a => ?_
  · refine Rect.rows_apart hf ha (hmem.1 hy) (hmem.1 hy') ?_ h
    rintro rfl
    exact hasymm _ _ hyy hyy
  · constructor
    · rintro (⟨y, hy, hyY, k, hk, rfl⟩ | ⟨k, hk, rfl⟩)
      · exact ⟨y, hmem.1 hy, k, hk, .inl hyY, rfl⟩
      · exact ⟨Y, hY, k, by omega, .inr ⟨rfl, hk⟩, rfl⟩
    · rintro ⟨y, hy, k, hk, hyY | ⟨rfl, hkK⟩, rfl⟩
      · exact .inl ⟨y, hmem.2 hy, hyY, k, hk, rfl⟩
      · exact .inr ⟨k, hkK, rfl⟩

/-! ### The pixels of a rectangle -/

/-- Pixel `q` comes before pixel `q'`, rows in the order `ry`, columns in the order `rx`. -/
abbrev pixelBefore (rx ry : Nat → Nat → Prop) (q q' : Nat × Nat) : Prop :=
  ry q.2 q'.2 ∨ (q.2 = q'.2 ∧ rx q.1 q'.1)

theorem pixelOrder_pairwise {xs ys : List Nat} {rx ry : Nat → Nat → Prop} (hx : xs.Pairwise rx) (hy : ys.Pairwise ry) :
    (pixelOrder xs ys).Pairwise (pixelBefore rx ry) := by
  induction ys with
  | nil => exact List.Pairwise.nil
  | cons y ys ih =>
    obtain ⟨h1, h2⟩ := List.pairwise_cons.1 hy
    rw [pixelOrder, List.flatMap_cons]
    refine List.pairwise_append.2 ⟨List.pairwise_map.2 (hx.imp fun h => .inr ⟨rfl, h⟩), ih h2, ?_⟩
    intro q hq q' hq'
    obtain ⟨x, -, rfl⟩ := List.mem_map.1 hq
    exact .inl (h1 _ (mem_pixelOrder.1 hq').2)

theorem pixelBefore_asymm {rx ry : Nat → Nat → Prop} (hrx : ∀ x y, rx x y → ¬ rx y x) (hry : ∀ x y, ry x y → ¬ ry y x)
    (q q' : Nat × Nat) (h : pixelBefore rx ry q q') : ¬ pixelBefore rx ry q' q := by
  rintro (h' | ⟨he, h'⟩) <;> rcases h with h | ⟨he', h⟩
  · exact hry _ _ h h'
  · exact hry _ _ h' (he' ▸ h')
  · exact hry _ _ h (he ▸ h)
  · exact hrx _ _ h h'

/-- Byte `k` of pixel `x` of a row is that row's byte at its column's offset. -/
theorem Rect.pixel_add (t : Rect) (x y k : Nat) : t.pixel x y + k = t.pixel 0 y + (x * t.fmt.bytes + k) := by
  rw [t.pixel_eq x y, Nat.add_assoc]

/-- Byte `k` of pixel `q` comes before byte `K` of pixel `Q`. -/
theorem pixelwise_iff {b : Nat} {rx ry : Nat → Nat → Prop} {q Q : Nat × Nat} {k K : Nat} (hk : k < b) (hK : K < b) :
    pixelwise b rx ry Q.2 (Q.1 * b + K) q.2 (q.1 * b + k) ↔ pixelBefore rx ry q Q ∨ (q = Q ∧ k < K) := by
  obtain ⟨x, y⟩ := q
  obtain ⟨X, Y⟩ := Q
  have hdiv {x k : Nat} (hk : k < b) : (x * b + k) / b = x := by
    rw [Nat.add_comm, Nat.add_mul_div_right _ _ (Nat.zero_lt_of_lt hk), Nat.div_eq_of_lt hk, Nat.zero_add]
  simp only [pixelwise, pixelBefore, hdiv hk, hdiv hK, Prod.mk.injEq]
  constructor
  · rintro (h | ⟨rfl, h | ⟨rfl, h⟩⟩)
    · exact .inl (.inl h)
    · exact .inl (.inr ⟨rfl, h⟩)
    · exact .inr ⟨⟨rfl, rfl⟩, by omega⟩
  · rintro ((h | ⟨rfl, h⟩) | ⟨⟨rfl, rfl⟩, h⟩)
    · exact .inl h
    · exact .inr ⟨rfl, .inl h⟩
    · exact .inr ⟨rfl, .inr ⟨rfl, by omega⟩⟩

/-- A loop over the pixels of a rectangle, stopped at byte `K` of pixel `Q`. -/
theorem pixels_stopShort_at {rx : Nat → Nat → Prop} {xs : List Nat} {body body₀ : Nat → Nat → Cmd Unit} {Q : Nat × Nat}
    (hf : t.fits p) (ha : t.rowsApart) (hxs : xs.Perm (List.range t.w)) (hys : ys.Perm (List.range t.h))
    (hxs' : xs.Pairwise rx) (hys' : ys.Pairwise ry) (hrx : ∀ x y, rx x y → ¬ rx y x) (hry : ∀ x y, ry x y → ¬ ry y x)
    (hQ : Q.1 < t.w) (hK : K < t.fmt.bytes)
    (hstop : t.stopsAt p (pixelwise t.fmt.bytes rx ry Q.2 (Q.1 * t.fmt.bytes + K)) Q.2 (Q.1 * t.fmt.bytes + K))
    (hturn : ∀ x y, x < t.w → y < t.h → StoreTurn p (t.pixel x y) t.fmt.bytes True (body x y) (body₀ x y))
    (hrun : (forEach ys fun y => forEach xs fun x => body₀ x y) w = .ok () u) :
    StopsShort ((forEach ys fun y => forEach xs fun x => body x y) w) w u
      (t.bytesBefore p (pixelwise t.fmt.bytes rx ry Q.2 (Q.1 * t.fmt.bytes + K))) := by
  obtain ⟨hY, -, hr, hfree⟩ := hstop
  have hb := t.fmt.bytes_pos
  have hmem {q : Nat × Nat} : q ∈ pixelOrder xs ys ↔ q.1 < t.w ∧ q.2 < t.h := by
    rw [mem_pixelOrder, hxs.mem_iff, hys.mem_iff, List.mem_range, List.mem_range]
  have hbefore {q : Nat × Nat} {k : Nat} (hq : q.1 < t.w ∧ q.2 < t.h) (hk : k < t.fmt.bytes)
      (h : pixelBefore rx ry q Q ∨ (q = Q ∧ k < K)) : rejected p (portAddr p (t.pixel q.1 q.2 + k)) = false := by
    rw [t.pixel_add]
    exact hfree q.2 hq.2 _ (Rect.column_end hq.1 hk) ((pixelwise_iff hk hK).2 h)
  rw [nested_eq] at hrun ⊢
  have hturn' : ∀ q ∈ pixelOrder xs ys, StoreTurn p (t.pixel q.1 q.2) t.fmt.bytes (pixelBefore rx ry q Q ∨ q = Q)
      (body q.1 q.2) (body₀ q.1 q.2) := fun q hq =>
    (hturn q.1 q.2 (hmem.1 hq).1 (hmem.1 hq).2).imp fun _ => trivial
  have hr' : rejected p (portAddr p (t.pixel Q.1 Q.2 + K)) = true := by rwa [t.pixel_add]
  refine (forList_stopsShort (p := p) (i := Q) (A := fun q : Nat × Nat => t.pixel q.1 q.2) (n := fun _ => t.fmt.bytes)
    (pixelOrder_pairwise hxs' hys') (pixelBefore_asymm hrx hry) (hmem.2 ⟨hQ, hY⟩) (fun q hq => ?_)
    (fun q hq q' hq' hqq _ h => ?_) hturn' hK hr' (fun q hq hqQ k hk => hbefore (hmem.1 hq) hk (.inl hqQ))
    (fun k hk => hbefore ⟨hQ, hY⟩ (by omega) (.inr ⟨rfl, hk⟩)) hrun).congr fun a => ?_
  · exact Nat.le_trans (Nat.le_mul_of_pos_left _ (Nat.zero_lt_of_lt (hmem.1 hq).1)) (Rect.rowBytes_le_of_fits hf)
  · refine Rect.pixels_apart hf ha (hmem.1 hq) (hmem.1 hq') ?_ h
    rintro rfl
    exact pixelBefore_asymm hrx hry _ _ hqq hqq
  · constructor
    · rintro (⟨q, hq, hqQ, k, hk, rfl⟩ | ⟨k, hk, rfl⟩)
      · exact ⟨q.2, (hmem.1 hq).2, _, Rect.column_end (hmem.1 hq).1 hk, (pixelwise_iff hk hK).2 (.inl hqQ),
          by rw [t.pixel_add]⟩
      · have hk' : k < t.fmt.bytes := by omega
        exact ⟨Q.2, hY, _, Rect.column_end hQ hk', (pixelwise_iff hk' hK).2 (.inr ⟨rfl, hk⟩), by rw [t.pixel_add]⟩
    · rintro ⟨y, hy, k, hk, h, rfl⟩
      have hk' := Nat.mod_lt k hb
      rw [← Nat.div_add_mod' k t.fmt.bytes] at h ⊢
      rw [← t.pixel_add]
      rcases (pixelwise_iff (q := (k / t.fmt.bytes, y)) hk' hK).1 h with hq | ⟨rfl, hlt⟩
      · exact .inl ⟨(k / t.fmt.bytes, y), hmem.2 ⟨(Nat.div_lt_iff_lt_mul hb).2 hk, hy⟩, hq, _, hk', rfl⟩
      · exact .inr ⟨_, hlt, rfl⟩

/-- A loop over the pixels of a rectangle, stopped at byte `K` of row `Y`. -/
theorem pixels_stopShort {rx : Nat → Nat → Prop} {xs : List Nat} {body body₀ : Nat → Nat → Cmd Unit} (hf : t.fits p)
    (ha : t.rowsApart) (hxs : xs.Perm (List.range t.w)) (hys : ys.Perm (List.range t.h)) (hxs' : xs.Pairwise rx)
    (hys' : ys.Pairwise ry) (hrx : ∀ x y, rx x y → ¬ rx y x) (hry : ∀ x y, ry x y → ¬ ry y x)
    (hstop : t.stopsAt p (pixelwise t.fmt.bytes rx ry Y K) Y K)
    (hturn : ∀ x y, x < t.w → y < t.h → StoreTurn p (t.pixel x y) t.fmt.bytes True (body x y) (body₀ x y))
    (hrun : (forEach ys fun y => forEach xs fun x => body₀ x y) w = .ok () u) :
    StopsShort ((forEach ys fun y => forEach xs fun x => body x y) w) w u
      (t.bytesBefore p (pixelwise t.fmt.bytes rx ry Y K)) := by
  have h := pixels_stopShort_at (Q := (K / t.fmt.bytes, Y)) (K := K % t.fmt.bytes) hf ha hxs hys hxs' hys' hrx hry
    ((Nat.div_lt_iff_lt_mul t.fmt.bytes_pos).2 hstop.2.1) (Nat.mod_lt _ t.fmt.bytes_pos)
    (by simpa only [Nat.div_add_mod'] using hstop) hturn hrun
  simpa only [Nat.div_add_mod'] using h

end

end Sys2Proof.Machine
end

section
/-! Each storing command stopped in the middle of its writes (20_memory R84). -/

namespace Sys2Proof.Machine

/-! ### Orders of rows and columns -/

/-- The order of a scan that may go backwards. -/
abbrev scanBefore (reversed : Prop) [Decidable reversed] (x X : Nat) : Prop :=
  if reversed then X < x else x < X

theorem scanBefore_asymm (reversed : Prop) [Decidable reversed] (x y : Nat) (h : scanBefore reversed x y) :
    ¬ scanBefore reversed y x := by
  by_cases hrev : reversed
  · simp only [scanBefore, if_pos hrev] at h ⊢
    omega
  · simp only [scanBefore, if_neg hrev] at h ⊢
    omega

theorem scan_pairwise (reversed : Prop) [Decidable reversed] (n : Nat) :
    (if reversed then (List.range n).reverse else List.range n).Pairwise (scanBefore reversed) := by
  unfold scanBefore
  split
  · exact List.pairwise_reverse.2 List.pairwise_lt_range
  · exact List.pairwise_lt_range

/-- Byte `k` of a row before byte `K`, pixel by pixel from left to right. -/
theorem lt_iff_pixel {b k K : Nat} : k / b < K / b ∨ (k / b = K / b ∧ k < K) ↔ k < K := by
  constructor
  · rintro (h | ⟨-, h⟩)
    · exact Nat.lt_of_div_lt_div h
    · exact h
  · intro h
    rcases Nat.lt_or_ge (k / b) (K / b) with hd | hd
    · exact .inl hd
    · exact .inr ⟨Nat.le_antisymm (Nat.div_le_div_right (Nat.le_of_lt h)) hd, h⟩

theorem rowMajor_eq_pixelwise (b Y K : Nat) : rowMajor Y K = pixelwise b (· < ·) (· < ·) Y K := by
  funext y k
  exact propext (or_congr_right (and_congr_right fun _ => lt_iff_pixel.symm))

theorem CopyJob.storedBefore_raw {j : CopyJob} (h : j.mode = .raw) (Y K : Nat) :
    j.storedBefore Y K = rowwise (scanBefore (j.sy < j.dy)) Y K := by
  funext y k
  apply propext
  unfold CopyJob.storedBefore rowwise
  by_cases hy : y = Y <;> simp [hy, h]

theorem CopyJob.storedBefore_conv {j : CopyJob} (h : j.mode = .conv) (Y K : Nat) :
    j.storedBefore Y K =
      pixelwise j.df.bytes (scanBefore (j.dy = j.sy ∧ j.sx < j.dx)) (scanBefore (j.sy < j.dy)) Y K := by
  funext y k
  apply propext
  unfold CopyJob.storedBefore pixelwise scanBefore
  by_cases hy : y = Y
  · by_cases hrev : j.dy = j.sy ∧ j.sx < j.dx
    · simp [hy, h, hrev]
    · simp [hy, h, hrev, lt_iff_pixel]
  · simp [hy]

/-- A piece that changes nothing leaves the working state it found. -/
theorem Moves.same_of_ok {α : Type} {c : Cmd α} (hc : Moves Same c) {v : α} {w w' : Work} (h : c w = .ok v w') :
    w' = w := by
  have hw := hc w
  rwa [h] at hw

/-! ### Copies -/

/-- What stops a copy in modes RAW and CONV at byte `K` of row `Y` of its rectangle, whose rows are apart and fit: that
byte is the first rejected one to be stored, and no byte of the source or of an RGB8 source's palette is rejected. -/
structure CopyJob.BusStop (p : Params) (j : CopyJob) (Y K : Nat) : Prop where
  notAlpha : j.mode ≠ .alpha
  moves : ¬ (j.mode = .raw ∧ j.coincide = true)
  fits : j.rect.fits p
  rowsApart : j.rect.rowsApart
  stopsAt : j.rect.stopsAt p (j.storedBefore Y K) Y K
  sourceFree : ∀ a, j.sourceBytes p a → rejected p a = false
  paletteFree : j.sf = .rgb8 → ∀ b, j.pal.bytes p b → rejected p b = false

section
variable {p : Params} {j : CopyJob} {Y K : Nat} {w u : Work}

theorem rawCopy_stopsShort (h : j.BusStop p Y K) (hm : j.mode = .raw)
    (hrun : rawCopy (Params.unrejecting p) j w = .ok () u) :
    StopsShort (rawCopy p j w) w u (j.rect.bytesBefore p (j.storedBefore Y K)) := by
  have hstop := h.stopsAt
  rw [CopyJob.storedBefore_raw hm] at hstop ⊢
  have hc : j.coincide = false := Bool.eq_false_iff.2 fun hc => h.moves ⟨hm, hc⟩
  unfold rawCopy at hrun ⊢
  rw [hc, if_neg Bool.false_ne_true] at hrun ⊢
  refine rows_stopShort h.fits h.rowsApart j.rowOrder_perm (scan_pairwise _ _) (scanBefore_asymm _) hstop
    (fun y hy w w' hturn => ?_) hrun
  have hread := memRead_runs (unrejecting_rejects p) (j.srcPixel 0 y) j.rect.rowBytes w
  rw [bind_runs_ok hread, memWrite_unrejecting_runs] at hturn
  cases hturn
  refine ⟨_, bytesAt_length _ _ _ _, rfl, fun _ => bind_runs_ok (Eq.trans ?_ hread)⟩
  refine (memRead_follows fun _ hs => hs).eq_of_free (fun a hs => h.sourceFree a ⟨y, hy, ?_⟩) w
  rw [CopyJob.bytes_of_raw hm]
  exact hs

/-- A piece that reads no memory but the palette of an RGB8 source does what it does where nothing is rejected. -/
theorem CopyJob.BusStop.palette_eq {α : Type} (h : j.BusStop p Y K) {c c₀ : Cmd α}
    (hc : Follows p (fun b => j.sf = .rgb8 ∧ j.pal.bytes p b) c c₀) (w : Work) : c w = c₀ w :=
  hc.eq_of_free (fun b ⟨h8, hb⟩ => h.paletteFree h8 b hb) w

/-- A source pixel reads as where nothing is rejected. -/
theorem CopyJob.BusStop.source_eq (h : j.BusStop p Y K) {x y : Nat} (hx : x < j.w) (hy : y < j.h) (w : Work) :
    loadPx p (j.srcPixel x y) j.sf w = loadPx (Params.unrejecting p) (j.srcPixel x y) j.sf w := by
  refine (loadPx_follows fun _ hs => hs).eq_of_free (fun a hs => h.sourceFree a ⟨y, hy, ?_⟩) w
  obtain ⟨k, hk, rfl⟩ := hs
  exact ⟨x * j.sf.bytes + k, Rect.column_end (t := { j.rect with fmt := j.sf }) hx hk,
    by rw [j.srcPixel_eq x y, Nat.add_assoc]⟩

/-- One turn of a converting copy (42_blit_engine R208). -/
theorem convTurn (h : j.BusStop p Y K) (hd : j.df.packable = true) {x y : Nat} (hx : x < j.w) (hy : y < j.h) :
    StoreTurn p (j.rect.pixel x y) j.df.bytes True
      (do
        let v ← loadPx p (j.srcPixel x y) j.sf
        let c ← convert p v j.sf j.df j.pal
        storePx p (j.rect.pixel x y) j.df c)
      (do
        let v ← loadPx (Params.unrejecting p) (j.srcPixel x y) j.sf
        let c ← convert (Params.unrejecting p) v j.sf j.df j.pal
        storePx (Params.unrejecting p) (j.rect.pixel x y) j.df c) := by
  intro w w' hturn
  obtain ⟨v, w₁, hv, hrest⟩ := bind_ok hturn
  obtain ⟨c, w₂, hc, hstore⟩ := bind_ok hrest
  obtain rfl := (loadPx_same _ _ _).same_of_ok hv
  obtain rfl := (convert_same _ _ _ _ _).same_of_ok hc
  cases (memWrite_unrejecting_runs p (j.rect.pixel x y) (pxBytes j.df c) w₂).symm.trans hstore
  refine ⟨_, pxBytes_length (Fmt.writable_of_packable hd) c, rfl, fun _ => ?_⟩
  rw [bind_runs_ok ((h.source_eq hx hy w₂).trans hv),
    bind_runs_ok ((h.palette_eq (convert_follows fun h8 _ hb => ⟨h8, hb⟩) w₂).trans hc)]
  rfl

theorem convCopy_stopsShort (h : j.BusStop p Y K) (hm : j.mode = .conv)
    (hrun : pixelCopy (Params.unrejecting p) j (fun a v => storePx (Params.unrejecting p) a j.df v) w = .ok () u) :
    StopsShort (pixelCopy p j (fun a v => storePx p a j.df v) w) w u
      (j.rect.bytesBefore p (j.storedBefore Y K)) := by
  have hstop := h.stopsAt
  rw [CopyJob.storedBefore_conv hm] at hstop ⊢
  unfold pixelCopy at hrun ⊢
  obtain ⟨_, w₁, hchecks, hloop⟩ := bind_ok hrun
  obtain ⟨-, hd, -, rfl⟩ := convChecks_ok hchecks
  rw [bind_runs_ok ((h.palette_eq (convChecks_follows fun h8 _ hb => ⟨h8, hb⟩) w₁).trans hchecks)]
  exact pixels_stopShort (t := j.rect) h.fits h.rowsApart j.colOrder_perm j.rowOrder_perm (scan_pairwise _ _)
    (scan_pairwise _ _) (scanBefore_asymm _) (scanBefore_asymm _) hstop (fun x y hx hy => convTurn h hd hx hy) hloop

/-- The overlap-safe path in modes RAW and CONV, stopped at byte `K` of row `Y` (42_blit_engine R203, R206, R208). -/
theorem overlapSafe_stopsShort (h : j.BusStop p Y K) (hrun : overlapSafe (Params.unrejecting p) j w = .ok () u) :
    StopsShort (overlapSafe p j w) w u (j.rect.bytesBefore p (j.storedBefore Y K)) := by
  unfold overlapSafe at hrun ⊢
  cases hm : j.mode with
  | alpha => exact absurd hm h.notAlpha
  | raw =>
    rw [hm] at hrun
    exact rawCopy_stopsShort h hm hrun
  | conv =>
    rw [hm] at hrun
    exact convCopy_stopsShort h hm hrun

/-- Setting BINIT is all the non-overlapping path does before it copies, its checks passed (42_blit_engine R214). -/
theorem nonOverlapping_of_ok (h : nonOverlapping (Params.unrejecting p) j w = .ok () u) :
    overlapSafe (Params.unrejecting p) j (w.withBinit true) = .ok () u ∧
      nonOverlapping p j w = overlapSafe p j (w.withBinit true) := by
  have hset : setBinit w = .ok () (w.withBinit true) := rfl
  unfold nonOverlapping at h ⊢
  rw [bind_runs_ok hset, failIf_bind] at h
  rw [bind_runs_ok hset, failIf_bind]
  split at h
  · cases h
  · next hb =>
    rw [failIf_bind] at h
    split at h
    · cases h
    · next ho =>
      have hb' : (!p.backendCopyPresent) = false := Bool.eq_false_iff.2 hb
      rw [hb', if_neg Bool.false_ne_true, failIf_bind, if_neg ho]
      exact ⟨h, rfl⟩

/-- A copy path that succeeds where nothing is rejected is the overlap-safe path, BINIT set first or not. -/
def SafePath (p : Params) (path : Params → CopyJob → Cmd Unit) : Prop :=
  ∀ j w u, path (Params.unrejecting p) j w = .ok () u → ∃ b,
    overlapSafe (Params.unrejecting p) j (w.withBinit b) = .ok () u ∧ path p j w = overlapSafe p j (w.withBinit b)

theorem overlapSafe_safePath : SafePath p overlapSafe := fun _ w _ h => ⟨w.binit, h, rfl⟩

theorem nonOverlapping_safePath : SafePath p nonOverlapping := fun _ _ _ h => ⟨true, nonOverlapping_of_ok h⟩

theorem dispatchCopy_safePath : SafePath p dispatchCopy := by
  intro j w u h
  unfold dispatchCopy at h ⊢
  split at h
  · rw [if_pos ‹_›]
    exact overlapSafe_safePath j w u h
  · rw [if_neg ‹_›]
    exact nonOverlapping_safePath j w u h

/-- A copy request in modes RAW and CONV, stopped at byte `K` of row `Y`. -/
theorem copyWith_stopsShort {q : CopyReq} {df sf : Fmt} {path : Params → CopyJob → Cmd Unit} (hpath : SafePath p path)
    (hd : q.dfmt = some df) (hs : q.sfmt = some sf) (h : (q.job df sf).BusStop p Y K)
    (hrun : copyWith (Params.unrejecting p) q (path (Params.unrejecting p)) w = .ok () u) :
    StopsShort (copyWith p q (path p) w) (w.withBinit u.binit) u
      ((q.job df sf).rect.bytesBefore p ((q.job df sf).storedBefore Y K)) := by
  obtain ⟨hY, hK, -, -⟩ := h.stopsAt
  have hh : 0 < q.h := Nat.zero_lt_of_lt hY
  have hK : K < q.w * df.bytes := hK
  have hw : 0 < q.w := Nat.pos_of_ne_zero fun h0 => by simp [h0] at hK
  unfold copyWith at hrun ⊢
  rw [show copyChecks (Params.unrejecting p) q = copyChecks p q from rfl] at hrun
  rcases copyChecks_of_area (p := p) hd hs hw hh with hc | hc <;> rw [hc] at hrun ⊢
  · cases hrun
  · obtain ⟨b, hsafe, heq⟩ := hpath _ _ _ hrun
    have hb : u.binit = b := by
      have hstores := overlapSafe_stores (Params.unrejecting p) (q.job df sf) (w.withBinit b)
      rw [hsafe] at hstores
      exact hstores.2.1
    rw [hb]
    show StopsShort (path p _ w) _ _ _
    rw [heq]
    exact overlapSafe_stopsShort h hsafe

end

/-! ### FILL -/

theorem memWrite_append (p : Params) (a : Nat) (bs cs : List Byte) :
    memWrite p a (bs ++ cs) = (do memWrite p a bs; memWrite p (a + bs.length) cs) := by
  induction bs generalizing a with
  | nil => rfl
  | cons b bs ih =>
    rw [List.cons_append, memWrite, ih, memWrite, bind_assoc, List.length_cons,
      show a + 1 + bs.length = a + (bs.length + 1) by omega]

/-- Writing the same bytes one place after another is one write. -/
theorem forEach_memWrite (p : Params) (a s n : Nat) (bs : List Byte) :
    (forEach (List.range' s n) fun x => memWrite p (a + x * bs.length) bs) =
      memWrite p (a + s * bs.length) (List.replicate n bs).flatten := by
  induction n generalizing s with
  | zero => rfl
  | succ n ih =>
    rw [List.range'_succ, forEach_cons, ih, List.replicate_succ, List.flatten_cons, memWrite_append, Nat.add_mul,
      Nat.one_mul, Nat.add_assoc]

/-- The bytes of the first scanline of a fill. -/
def fillBytes (t : Rect) (c : Word) : List Byte :=
  (List.replicate t.w (pxBytes t.fmt c)).flatten

theorem fillBytes_length {t : Rect} {c : Word} (h : t.fmt.writable = true) : (fillBytes t c).length = t.rowBytes := by
  simp [fillBytes, pxBytes_length h, Rect.rowBytes]

/-- What FILL does to a row: the first is written whole, every other one is a copy of it (42_blit_engine R225). -/
def fillRow (p : Params) (t : Rect) (c : Word) (y : Nat) : Cmd Unit :=
  if y = 0 then memWrite p (t.pixel 0 0) (fillBytes t c)
  else do
    let row ← memRead p (t.pixel 0 0) t.rowBytes
    memWrite p (t.pixel 0 y) row

theorem forEach_congr {ns : List Nat} {body body' : Nat → Cmd Unit} (h : ∀ n ∈ ns, body n = body' n) :
    forEach ns body = forEach ns body' := by
  induction ns with
  | nil => rfl
  | cons n ns ih => rw [forEach_cons, forEach_cons, h n (by simp), ih fun k hk => h k (by simp [hk])]

/-- FILL goes row by row. -/
theorem fillRect_rows (p : Params) {t : Rect} (c : Word) (hw : t.fmt.writable = true) (hh : 0 < t.h) :
    fillRect p t c = forEach (List.range t.h) (fillRow p t c) := by
  have hfirst : (forEach (List.range t.w) fun x => storePx p (t.pixel x 0) t.fmt c) = fillRow p t c 0 := by
    have h := forEach_memWrite p (t.pixel 0 0) 0 t.w (pxBytes t.fmt c)
    rw [pxBytes_length hw, ← List.range_eq_range', Nat.zero_mul, Nat.add_zero] at h
    refine Eq.trans (forEach_congr fun x _ => ?_) h
    rw [t.pixel_eq x 0]
    rfl
  have hrest : ∀ y ∈ List.range' 1 (t.h - 1), (do
      let row ← memRead p (t.pixel 0 0) t.rowBytes
      memWrite p (t.pixel 0 y) row) = fillRow p t c y := by
    intro y hy
    rw [fillRow, if_neg (by have := (List.mem_range'_1.1 hy).1; omega)]
  unfold fillRect
  rw [hfirst, forEach_congr hrest, ← forEach_cons]
  congr 1
  obtain ⟨n, hn⟩ := Nat.exists_eq_add_of_lt hh
  rw [hn, List.range_eq_range', Nat.zero_add, List.range'_succ]
  rfl

section
variable {p : Params} {s : State} {Y K : Nat} {w u : Work}

theorem fillRect_stopsShort {t : Rect} {c : Word} (hw : t.fmt.writable = true) (hf : t.fits p) (ha : t.rowsApart)
    (hstop : t.stopsAt p (rowMajor Y K) Y K) (hrun : fillRect (Params.unrejecting p) t c w = .ok () u) :
    StopsShort (fillRect p t c w) w u (t.bytesBefore p (rowMajor Y K)) := by
  have hh : 0 < t.h := Nat.zero_lt_of_lt hstop.1
  rw [fillRect_rows _ c hw hh] at hrun ⊢
  refine rows_stopShort hf ha (List.Perm.refl _) List.pairwise_lt_range (fun _ _ h => Nat.lt_asymm h) hstop
    (fun y hy w w' h => ?_) hrun
  unfold fillRow at h ⊢
  by_cases hy0 : y = 0
  · subst hy0
    cases (memWrite_unrejecting_runs p _ _ w).symm.trans h
    exact ⟨_, fillBytes_length hw, rfl, fun _ => rfl⟩
  · have hread := memRead_runs (unrejecting_rejects p) (t.pixel 0 0) t.rowBytes w
    rw [if_neg hy0, bind_runs_ok hread, memWrite_unrejecting_runs] at h
    cases h
    refine ⟨_, bytesAt_length _ _ _ _, rfl, fun hyY => ?_⟩
    rw [if_neg hy0]
    refine bind_runs_ok (Eq.trans ?_ hread)
    refine (memRead_follows fun _ hs => hs).eq_of_free ?_ w
    rintro _ ⟨k, hk, rfl⟩
    exact hstop.2.2.2 0 hh k hk (.inl (by omega))

/-- A rectangle of the operand registers with a byte has an area. -/
theorem destRect_area {f : Fmt} (hY : Y < (destRect s.regs f).h) (hK : K < (destRect s.regs f).rowBytes) :
    ¬ (s.regs.w = 0 ∨ s.regs.h = 0) := by
  rintro (h | h)
  · exact absurd hK (by simp [Rect.rowBytes, destRect, h])
  · exact absurd hY (by simp [destRect, h])

/-- FILL's checks passed, the rectangle is filled (42_blit_engine R225). -/
theorem fillCmd_fills {f : Fmt} (hf : decodeFmt s.regs.dfmt = some f) (harea : ¬ (s.regs.w = 0 ∨ s.regs.h = 0)) :
    fillCmd s = (do
      failIf (!f.writable) .unsupported
      failIf (s.regs.dst == 0) .invalidArg
      fillRect s.params (destRect s.regs f) s.regs.color0) := by
  simp only [fillCmd, hf, if_neg harea]

theorem failIf_bind_ok {α : Type} {b : Bool} {e : Err} {c : Cmd α} {v : α} (h : (do failIf b e; c) w = .ok v u) :
    b = false ∧ c w = .ok v u := by
  cases b with
  | true => cases h
  | false => exact ⟨rfl, h⟩

theorem fillCmd_stopsShort {f : Fmt} (hf : decodeFmt s.regs.dfmt = some f) (hfits : (destRect s.regs f).fits s.params)
    (ha : (destRect s.regs f).rowsApart) (hstop : (destRect s.regs f).stopsAt s.params (rowMajor Y K) Y K)
    (hrun : fillCmd s.unrejecting w = .ok () u) :
    StopsShort (fillCmd s w) w u ((destRect s.regs f).bytesBefore s.params (rowMajor Y K)) := by
  have harea := destRect_area hstop.1 hstop.2.1
  rw [fillCmd_fills (s := s.unrejecting) hf harea] at hrun
  obtain ⟨hw, hrun⟩ := failIf_bind_ok hrun
  obtain ⟨hd, hrun⟩ := failIf_bind_ok hrun
  rw [unrejecting_regs] at hd
  rw [fillCmd_fills hf harea, hw, hd]
  exact fillRect_stopsShort (t := destRect s.regs f) (show f.writable = true by simpa using hw) hfits ha hstop hrun

/-! ### MONO -/

/-- A bit of a bit-packed input none of whose bytes is rejected reads as where nothing is. -/
theorem readBit_of_free {base width height x y : Nat}
    (hfree : ∀ a, bitBytes p base ((width + 7) / 8) width height a → rejected p a = false) (hx : x < width)
    (hy : y < height) (w : Work) :
    readBit p base (ceilDiv width 8) y x w = .ok (bitIn p w.mem base (ceilDiv width 8) y x) w :=
  ((readBit_follows rfl).eq_of_free (fun _ ha => hfree _ ⟨y, hy, x, hx, ha.symm⟩) w).trans
    (readBit_runs (unrejecting_rejects p) _ _ _ _ _)

theorem monoCmd_stopsShort {f : Fmt} (hf : decodeFmt s.regs.dfmt = some f) (hfits : (destRect s.regs f).fits s.params)
    (ha : (destRect s.regs f).rowsApart) (hstop : (destRect s.regs f).stopsAt s.params (rowMajor Y K) Y K)
    (hfree : ∀ a, bitBytes s.params s.regs.src.toNat ((s.regs.w.toNat + 7) / 8) s.regs.w.toNat s.regs.h.toNat a →
      rejected s.params a = false)
    (hrun : monoCmd s.unrejecting w = .ok () u) :
    StopsShort (monoCmd s w) w u ((destRect s.regs f).bytesBefore s.params (rowMajor Y K)) := by
  unfold monoCmd at hrun ⊢
  simp only [unrejecting_regs, unrejecting_params, hf] at hrun ⊢
  obtain ⟨hw, hrun⟩ := failIf_bind_ok hrun
  obtain ⟨hd, hrun⟩ := failIf_bind_ok hrun
  rw [hw, hd]
  rw [rowMajor_eq_pixelwise f.bytes] at hstop ⊢
  refine pixels_stopShort (t := destRect s.regs f) hfits ha (List.Perm.refl _) (List.Perm.refl _)
    List.pairwise_lt_range List.pairwise_lt_range (fun _ _ h => Nat.lt_asymm h) (fun _ _ h => Nat.lt_asymm h) hstop
    (fun x y hx hy w w' h => ?_) hrun
  rw [bind_runs_ok (readBit_runs (unrejecting_rejects s.params) _ _ _ _ _)] at h
  cases (memWrite_unrejecting_runs s.params _ (pxBytes f _) w).symm.trans h
  exact ⟨_, pxBytes_length (f := f) (by simpa using hw) _, rfl, fun _ => bind_runs_ok (readBit_of_free hfree hx hy w)⟩

/-! ### GLYPH -/

/-- The place of a pixel in a glyph's output of `w` pixels a row. -/
abbrev glyphOffset (width : Nat) (q : Nat × Nat) : Nat :=
  q.2 * width + q.1

theorem glyphOffset_lt {width height : Nat} {q : Nat × Nat} (hx : q.1 < width) (hy : q.2 < height) :
    glyphOffset width q < width * height := by
  have h : (q.2 + 1) * width ≤ height * width := Nat.mul_le_mul_right _ hy
  rw [Nat.add_mul, Nat.mul_comm height] at h
  unfold glyphOffset
  omega

/-- A glyph's pixels are stored in the order of their places. -/
theorem glyphOffset_pairwise (width height : Nat) :
    (pixelOrder (List.range width) (List.range height)).Pairwise
      fun q q' => glyphOffset width q < glyphOffset width q' := by
  refine List.Pairwise.imp_of_mem (fun {q q'} hq _ h => ?_)
    (pixelOrder_pairwise List.pairwise_lt_range List.pairwise_lt_range)
  have hx := List.mem_range.1 (mem_pixelOrder.1 hq).1
  rcases h with h | ⟨h, hlt⟩
  · have h : (q.2 + 1) * width ≤ q'.2 * width := Nat.mul_le_mul_right _ h
    rw [Nat.add_mul] at h
    unfold glyphOffset
    omega
  · rw [glyphOffset, glyphOffset, h]
    omega

theorem glyphCmd_stopsShort (hsize : s.regs.w.toNat * s.regs.h.toNat ≤ 2 ^ s.params.addrW)
    (hK : K < s.regs.w.toNat * s.regs.h.toNat) (hr : rejected s.params (portAddr s.params (s.regs.dst.toNat + K)) = true)
    (hbefore : ∀ k, k < K → rejected s.params (portAddr s.params (s.regs.dst.toNat + k)) = false)
    (hfree : ∀ a, bitBytes s.params s.regs.src.toNat ((s.regs.w.toNat + 7) / 8) s.regs.w.toNat s.regs.h.toNat a →
      rejected s.params a = false)
    (hrun : glyphCmd s.unrejecting w = .ok () u) :
    StopsShort (glyphCmd s w) w u (span s.params s.regs.dst.toNat K) := by
  obtain ⟨hd, hloop⟩ := failIf_bind_ok hrun
  have hd' : (s.regs.dst == 0 || s.regs.src == 0) = false := hd
  unfold glyphCmd
  rw [failIf_bind, hd', if_neg Bool.false_ne_true]
  unfold forPixels at hloop ⊢
  rw [nested_eq] at hloop ⊢
  simp only [unrejecting_regs, unrejecting_params, Nat.add_assoc s.regs.dst.toNat] at hloop ⊢
  have hmem {q : Nat × Nat} : q ∈ pixelOrder (List.range s.regs.w.toNat) (List.range s.regs.h.toNat) ↔
      q.1 < s.regs.w.toNat ∧ q.2 < s.regs.h.toNat := by
    rw [mem_pixelOrder, List.mem_range, List.mem_range]
  have hplace {k : Nat} (hk : k < s.regs.w.toNat * s.regs.h.toNat) : ∃ q : Nat × Nat,
      q ∈ pixelOrder (List.range s.regs.w.toNat) (List.range s.regs.h.toNat) ∧ glyphOffset s.regs.w.toNat q = k := by
    rw [Nat.mul_comm] at hk
    have hw : 0 < s.regs.w.toNat := Nat.pos_of_ne_zero fun h0 => by simp [h0] at hk
    exact ⟨(k % s.regs.w.toNat, k / s.regs.w.toNat),
      hmem.2 ⟨Nat.mod_lt _ hw, (Nat.div_lt_iff_lt_mul hw).2 hk⟩, Nat.div_add_mod' _ _⟩
  obtain ⟨Q, hQ, rfl⟩ := hplace hK
  refine (forList_stopsShort (p := s.params) (i := Q) (k := 0)
    (A := fun q : Nat × Nat => s.regs.dst.toNat + glyphOffset s.regs.w.toNat q) (n := fun _ => 1)
    (glyphOffset_pairwise _ _) (fun _ _ h => Nat.lt_asymm h) hQ (fun _ _ => Nat.one_le_two_pow)
    (fun q hq q' hq' hqq a h h' => ?_) (fun q hq w w' h => ?_) Nat.one_pos hr
    (fun q hq hqQ k hk => ?_) (fun k hk => absurd hk (Nat.not_lt_zero k)) hloop).congr fun a => ?_
  · obtain ⟨k, hk, rfl⟩ := h
    obtain ⟨k', hk', h'⟩ := h'
    obtain rfl : k = 0 := by omega
    obtain rfl : k' = 0 := by omega
    have h1 := glyphOffset_lt (hmem.1 hq).1 (hmem.1 hq).2
    have h2 := glyphOffset_lt (hmem.1 hq').1 (hmem.1 hq').2
    have := portAddr_inj s.params (Nat.lt_of_lt_of_le h1 hsize) (Nat.lt_of_lt_of_le h2 hsize) h'
    omega
  · rw [bind_runs_ok (readBit_runs (unrejecting_rejects s.params) _ _ _ _ _)] at h
    cases (memWrite_unrejecting_runs s.params _ _ w).symm.trans h
    exact ⟨_, rfl, rfl, fun _ => bind_runs_ok (readBit_of_free hfree (hmem.1 hq).1 (hmem.1 hq).2 w)⟩
  · obtain rfl : k = 0 := by omega
    exact hbefore _ hqQ
  · constructor
    · rintro (⟨q, -, hqQ, k, hk, rfl⟩ | ⟨k, hk, -⟩)
      · obtain rfl : k = 0 := by omega
        exact ⟨_, hqQ, rfl⟩
      · omega
    · rintro ⟨k, hk, rfl⟩
      obtain ⟨q, hq, rfl⟩ := hplace (Nat.lt_trans hk hK)
      exact .inl ⟨q, hq, hk, 0, Nat.one_pos, rfl⟩

/-! ### CURSOR -/

/-- The bytes of `B` are zero and nothing else has changed. -/
def Zeroed (B : Nat → Prop) (w w' : Work) : Prop :=
  (∀ a, B a → Memory.read w'.mem a = 0) ∧ (∀ a, ¬ B a → Memory.read w'.mem a = Memory.read w.mem a) ∧
    w'.binit = w.binit

theorem Zeroed.trans {B C : Nat → Prop} {w₁ w₂ w₃ : Work} (h : Zeroed B w₁ w₂) (h' : Zeroed C w₂ w₃) :
    Zeroed (fun a => B a ∨ C a) w₁ w₃ := by
  obtain ⟨hin, hout, hb⟩ := h
  obtain ⟨hin', hout', hb'⟩ := h'
  refine ⟨fun a ha => ?_, fun a ha => ?_, hb'.trans hb⟩
  · by_cases hC : C a
    · exact hin' a hC
    · rw [hout' a hC, hin a (ha.resolve_right hC)]
  · rw [hout' a fun hC => ha (.inr hC), hout a fun hB => ha (.inl hB)]

theorem Zeroed.congr {B C : Nat → Prop} {w w' : Work} (h : Zeroed B w w') (hBC : ∀ a, B a ↔ C a) :
    Zeroed C w w' := by
  rwa [show C = B from funext fun a => propext (hBC a).symm]

/-- Writing zeros, round the address space or not. -/
theorem writeBytes_zeroed (p : Params) (a n : Nat) (w : Work) :
    Zeroed (span p a n) w ⟨writeBytes p w.mem a (List.replicate n 0), w.binit, w.draws⟩ := by
  induction n generalizing a w with
  | zero => exact ⟨fun _ ⟨k, hk, _⟩ => absurd hk (Nat.not_lt_zero k), fun _ _ => rfl, rfl⟩
  | succ n ih =>
    have hhead : Zeroed (· = portAddr p a) w ⟨w.mem.write (portAddr p a) 0, w.binit, w.draws⟩ :=
      ⟨fun b hb => hb ▸ Memory.read_write_same w.mem _ 0, fun b hb => Memory.read_write_ne w.mem 0 hb, rfl⟩
    refine (hhead.trans (ih (a + 1) _)).congr fun b => ⟨?_, span_cons⟩
    rintro (rfl | hb)
    · exact span_head (Nat.succ_pos n)
    · exact span_tail hb

/-- The zero fill of a rectangle, whatever its rows, stopped at byte `K` of row `Y` (43_bitmap_decoders R290). -/
theorem zeroFill_stops {t : Rect} (hstop : t.stopsAt p (rowMajor Y K) Y K) (w : Work) :
    ∃ w', zeroFill p t w = .error .bus w' ∧ Zeroed (t.bytesBefore p (rowMajor Y K)) w w' := by
  obtain ⟨hY, hK, hr, hfree⟩ := hstop
  -- the rows before `Y`
  obtain ⟨w₁, hrun, hz⟩ : ∃ w₁, forEach (List.range Y) (fun y => memWrite p (t.pixel 0 y) (List.replicate t.rowBytes 0)) w =
      .ok () w₁ ∧ Zeroed (fun a => ∃ y ∈ List.range Y, span p (t.pixel 0 y) t.rowBytes a) w w₁ := by
    refine forEach_runs (fun done w₁ => Zeroed (fun a => ∃ y ∈ done, span p (t.pixel 0 y) t.rowBytes a) w w₁)
      (fun done y rest hd w₁ hz => ?_) ⟨by simp, fun _ _ => rfl, rfl⟩
    have hy : y < Y := List.mem_range.1 (by simp [hd])
    refine ⟨_, memWrite_of_free (fun k hk => ?_) w₁, (hz.trans (writeBytes_zeroed p (t.pixel 0 y) t.rowBytes w₁)).congr
      fun a => by simp only [List.mem_append, List.mem_singleton, or_and_right, exists_or, exists_eq_left]⟩
    exact hfree y (Nat.lt_trans hy hY) k (by simpa using hk) (.inl hy)
  -- row `Y`
  have hrow := memWrite_stops (bs := List.replicate t.rowBytes 0) (by simpa using hK)
    (fun k hk => hfree Y hY k (Nat.lt_trans hk hK) (.inr ⟨rfl, hk⟩)) hr w₁
  rw [List.take_replicate, Nat.min_eq_left (Nat.le_of_lt hK)] at hrow
  obtain ⟨n, hn⟩ : ∃ n, t.h = Y + (n + 1) := ⟨t.h - Y - 1, by omega⟩
  have hrange : List.range t.h = List.range Y ++ Y :: List.range' (Y + 1) n := by
    rw [hn, List.range_eq_range', ← List.range'_append_1, Nat.zero_add, List.range'_succ, List.range_eq_range']
  refine ⟨_, ?_, (hz.trans (writeBytes_zeroed p (t.pixel 0 Y) K w₁)).congr fun a => ?_⟩
  · rw [zeroFill, hrange, forEach_eq_forList, forList_append, bind_runs_ok (by rwa [← forEach_eq_forList])]
    exact bind_runs_error hrow
  · constructor
    · rintro (⟨y, hy, k, hk, rfl⟩ | ⟨k, hk, rfl⟩)
      · have hy := List.mem_range.1 hy
        exact ⟨y, Nat.lt_trans hy hY, k, hk, .inl hy, rfl⟩
      · exact ⟨Y, hY, k, Nat.lt_trans hk hK, .inr ⟨rfl, hk⟩, rfl⟩
    · rintro ⟨y, -, k, hk, hy | ⟨rfl, hkK⟩, rfl⟩
      · exact .inl ⟨y, List.mem_range.2 hy, k, hk, rfl⟩
      · exact .inr ⟨k, hkK, rfl⟩

end

end Sys2Proof.Machine
end

section
/-! What a BUS fault leaves of a command (20_memory R84), command by command. -/

namespace Sys2Proof.Machine

/-! ### One access: READCOLOR, WRITECOLOR, FMT_NAME -/

/-- The bytes `store_px` writes, in numbers (20_memory R67). -/
theorem pxBytes_toNat (f : Fmt) (v : Word) : (pxBytes f v).map BitVec.toNat = storeNat f.bpp v.toNat := by
  have hbyte (i : Nat) : (v.extractLsb' (8 * i) 8).toNat = byteOf v.toNat i := by
    rw [BitVec.extractLsb'_toNat, Nat.shiftRight_eq_div_pow, byteOf]
  have hlow : (v.extractLsb' 8 8 &&& 0x7F#8).toNat = byteOf v.toNat 1 % 128 := by
    rw [BitVec.toNat_and, ← hbyte 1]
    exact Nat.and_two_pow_sub_one_eq_mod _ 7
  have h0 := hbyte 0
  have h1 := hbyte 1
  have h2 := hbyte 2
  have h3 := hbyte 3
  simp only [Nat.mul_zero, Nat.mul_one, Nat.reduceMul] at h0 h1 h2 h3
  cases f <;> simp [pxBytes, storeNat, Fmt.bpp, h0, h1, h2, h3, hlow]

/-- The names of the table, in ASCII (40_format_metadata R129). -/
theorem fmtName_toNat {row : FormatRow} (h : row ∈ formatRows) :
    (fmtName (decodeFmt row.ident)).map BitVec.toNat = row.name.toList.map Char.toNat := by
  revert row
  decide +kernel

theorem fmtName_length {row : FormatRow} (h : row ∈ formatRows) :
    (fmtName (decodeFmt row.ident)).length = row.name.length := by
  rw [← String.length_toList, ← List.length_map (f := BitVec.toNat), fmtName_toNat h, List.length_map]

/-- The names of the table are short. -/
theorem formatRow_name_lt {row : FormatRow} (h : row ∈ formatRows) : row.name.length < 64 := by
  revert row
  decide +kernel

/-- Two to the thirty-two bytes are in every address space (00_scope R7). -/
theorem le_space {p : Params} (h : p.wf = true) {n : Nat} (hn : n ≤ 2 ^ 32) : n ≤ 2 ^ p.addrW :=
  Nat.le_trans hn (Nat.pow_le_pow_right (by decide) (of_decide_eq_true h).1)

/-- The state a BUS fault leaves (60_exceptions R330). -/
theorem endCommand_bus (s : State) (w : Work) :
    s.endCommand w (some .bus) = { s with mem := w.mem, draws := w.draws, status := ⟨6, true, w.binit⟩ } := by
  rw [State.endCommand, conclude_bus]

/-- `MemWrite` stopped at byte `k`: the bytes before it are stored and nothing else is changed. -/
theorem memWrite_stopped {p : Params} {a k : Nat} {bs : List Byte} (hn : bs.length ≤ 2 ^ p.addrW) (hk : k < bs.length)
    (hfree : ∀ j, j < k → rejected p (portAddr p (a + j)) = false) (hr : rejected p (portAddr p (a + k)) = true)
    (w : Work) : ∃ m, memWrite p a bs w = .error .bus ⟨m, w.binit, w.draws⟩ ∧
      holds p m a ((bs.map BitVec.toNat).take k) ∧ ∀ x, ¬ span p a k x → Memory.read m x = Memory.read w.mem x := by
  refine ⟨_, memWrite_stops hk hfree hr w, ?_, (writeBytes_take p w.mem a (Nat.le_of_lt hk) hn).2⟩
  rw [← List.map_take]
  exact holds_writeBytes p w.mem a (Nat.le_trans (List.length_take_le' _ _) hn)

theorem readColor_bus {s : State} {f : Fmt} {k : Nat} (hf : decodeFmt s.regs.sfmt = some f) (hs : s.regs.src ≠ 0)
    (hk : k < f.bytes) (hr : rejected s.params (portAddr s.params (s.regs.src.toNat + k)) = true) :
    exec .readColor s = .next { s with res := 0, status := ⟨6, true, s.status.binit⟩ } := by
  have hfollows : FollowsOrFaults s.params (loadPx s.params s.regs.src.toNat f) _ := loadPx_follows fun _ _ => trivial
  obtain ⟨w, hw⟩ := hfollows.bus (loadPx_runs (unrejecting_rejects s.params) _ f s.work)
    (loadPx_clears ⟨k, hk, rfl⟩) hr
  have hsame : w = s.work := by
    have h := loadPx_same s.params s.regs.src.toNat f s.work
    rwa [hw] at h
  rw [hsame, ← readColorCmd_loads hf hs] at hw
  show Host.Outcome.next (s.runRes (readColorCmd s)) = _
  rw [runRes_of_error hw, endCommand_bus]
  rfl

theorem writeColor_bus {s : State} {f : Fmt} {k : Nat} (hf : decodeFmt s.regs.dfmt = some f) (hw : f.writable = true)
    (hd : s.regs.dst ≠ 0) (hp : s.params.wf = true) (hk : k < f.bytes)
    (hr : rejected s.params (portAddr s.params (s.regs.dst.toNat + k)) = true)
    (hfree : ∀ j, j < k → rejected s.params (portAddr s.params (s.regs.dst.toNat + j)) = false) :
    ∃ m, exec .writeColor s = .next { s with mem := m, status := ⟨6, true, s.status.binit⟩ } ∧
      holds s.params m s.regs.dst.toNat ((storeNat f.bpp s.regs.color0.toNat).take k) ∧
      ∀ a, ¬ span s.params s.regs.dst.toNat k a → Memory.read m a = Memory.read s.mem a := by
  have hlen := pxBytes_length hw s.regs.color0
  have h4 := f.bytes_le
  obtain ⟨m, hm, hholds, hout⟩ := memWrite_stopped (le_space hp (by omega)) (hlen.symm ▸ hk) hfree hr s.work
  refine ⟨m, ?_, pxBytes_toNat f _ ▸ hholds, hout⟩
  show Host.Outcome.next (s.runPlain (writeColorWith s storePx)) = _
  rw [writeColorWith_stores hf hw hd, storePx, runPlain_of_error hm, endCommand_bus]
  rfl

theorem fmtName_bus {s : State} {row : FormatRow} {k : Nat} (hrow : row ∈ formatRows) (hf : s.regs.sfmt = row.ident)
    (hd : s.regs.dst ≠ 0) (hp : s.params.wf = true) (hk : k < row.name.length + 1)
    (hr : rejected s.params (portAddr s.params (s.regs.dst.toNat + k)) = true)
    (hfree : ∀ j, j < k → rejected s.params (portAddr s.params (s.regs.dst.toNat + j)) = false) :
    ∃ m, exec .fmtName s = .next { s with mem := m, res := 0, status := ⟨6, true, s.status.binit⟩ } ∧
      holds s.params m s.regs.dst.toNat ((row.name.toList.map Char.toNat).take k) ∧
      ∀ a, ¬ span s.params s.regs.dst.toNat k a → Memory.read m a = Memory.read s.mem a := by
  have hname := formatRow_name_lt hrow
  have hlen : (fmtName (decodeFmt row.ident) ++ [0]).length = row.name.length + 1 := by
    rw [List.length_append, fmtName_length hrow, List.length_singleton]
  obtain ⟨m, hm, hholds, hout⟩ := memWrite_stopped (le_space hp (by omega)) (hlen.symm ▸ hk) hfree hr s.work
  rw [List.map_append, fmtName_toNat hrow, List.take_append_of_le_length (by rw [List.length_map, String.length_toList]; omega)]
    at hholds
  refine ⟨m, ?_, hholds, hout⟩
  have hcmd : fmtNameCmd s s.work = .error .bus ⟨m, s.status.binit, s.draws⟩ := by
    rw [fmtNameCmd, failIf_bind, beq_false_of_ne hd, if_neg Bool.false_ne_true, hf]
    exact bind_runs_error hm
  show Host.Outcome.next (s.runRes (fmtNameCmd s)) = _
  rw [runRes_of_error hcmd, endCommand_bus]

/-! ### Loops -/

/-- A body stopped short of `u` ends its command so (20_memory R84). -/
theorem StopsShort.stopped {s : State} {c : Cmd Unit} {b : Bool} {u : Work} {B : Nat → Prop}
    (h : StopsShort (c s.work) (s.work.withBinit b) u B) : Machine.stopped s (s.runPlain c) b B u.mem := by
  obtain ⟨m, hm, hin, hout⟩ := h
  rw [runPlain_of_error hm, endCommand_bus]
  exact ⟨rfl, hin, hout⟩

/-- A command without a result register whose success where nothing is rejected leaves `u`. -/
theorem runPlain_of_err {s u : State} {c : Cmd Unit} (h : s.unrejecting.runPlain c = u) (he : u.status.err = 0) :
    ∃ w, c s.work = .ok () w ∧ u.mem = w.mem ∧ u.status.binit = w.binit := by
  subst h
  obtain ⟨w, hw⟩ := runPlain_ok_of_err he
  refine ⟨w, hw, ?_⟩
  rw [runPlain_of_ok hw]
  exact ⟨rfl, rfl⟩

/-- The palette at PAL of an RGB8 source whose 1028 bytes are not rejected. -/
theorem paletteAt_free {p : Params} {pal : Slot}
    (h : ∀ k, k < 1028 → rejected p (portAddr p (pal.toNat + k)) = false) {b : Nat}
    (hb : (paletteAt pal).bytes p b) : rejected p b = false := by
  obtain ⟨a, ha, k, hk, rfl⟩ := hb
  rcases paletteAt_cases pal with hp | hp <;> rw [hp] at ha <;> cases ha
  exact h k hk

/-- A copy command in modes RAW and CONV, stopped at byte `K` of row `Y`. -/
theorem copy_bus {s u : State} {df sf : Fmt} {path : Params → CopyJob → Cmd Unit} {Y K : Nat}
    (hpath : SafePath s.params path)
    (hu : s.unrejecting.runPlain
      (copyWith (Params.unrejecting s.params) (copyReq s.regs) (path (Params.unrejecting s.params))) = u)
    (he : u.status.err = 0) (hfmts : s.formats df sf) (hstop : (s.copyJob df sf).BusStop s.params Y K) :
    stopped s (s.runPlain (copyWith s.params (copyReq s.regs) (path s.params))) u.status.binit
      ((destRect s.regs df).bytesBefore s.params ((s.copyJob df sf).storedBefore Y K)) u.mem := by
  obtain ⟨hd, hs⟩ := hfmts
  obtain ⟨w, hw, hmem, hbinit⟩ := runPlain_of_err hu he
  rw [hmem, hbinit]
  exact (copyWith_stopsShort hpath hd hs hstop hw).stopped

theorem cursor_bus {s : State} {f : Fmt} {Y K : Nat} (hf : decodeFmt s.regs.dfmt = some f) (hp : f.packable = true)
    (hd : s.regs.dst ≠ 0) (hstop : (destRect s.regs f).stopsAt s.params (rowMajor Y K) Y K) :
    (s.runPlain (cursorCmd s)).status = ⟨6, true, s.status.binit⟩ ∧
      (∀ a, (destRect s.regs f).bytesBefore s.params (rowMajor Y K) a →
        Memory.read (s.runPlain (cursorCmd s)).mem a = 0) ∧
      ∀ a, ¬ (destRect s.regs f).bytesBefore s.params (rowMajor Y K) a →
        Memory.read (s.runPlain (cursorCmd s)).mem a = Memory.read s.mem a := by
  obtain ⟨w, hw, hzero, hout, hbinit⟩ := zeroFill_stops hstop s.work
  have hcmd : cursorCmd s s.work = .error .bus w := by
    simp only [cursorCmd, hf, failIf_bind, hp, beq_false_of_ne hd, Bool.not_true, Bool.false_eq_true, if_false]
    exact bind_runs_error hw
  rw [runPlain_of_error hcmd, endCommand_bus, hbinit]
  exact ⟨rfl, hzero, hout⟩

/-- Settles O34: one access stopped is `memWrite_stopped`; a loop over a rectangle or over a glyph's pixels is stopped
at the turn of the rejected byte (`rows_stopShort`, `pixels_stopShort`), and the turns left out would store elsewhere;
a zero fill stores nothing but zeros. -/
theorem busFault : Obligations.BusFault := by
  refine ⟨fun s f k hf hs hk hr => readColor_bus hf hs hk hr,
    fun s f k hf hw hd hp hk hr hfree => writeColor_bus hf hw hd hp hk hr hfree,
    fun s row k hrow hf hd hp hk hr hfree => fmtName_bus hrow hf hd hp hk hr hfree,
    fun i s u f Y K hi h he hf hfits ha hstop hbits => ?fillOrMono,
    fun i s u df sf Y K hi h he hfmts hmode hc hfits ha hstop hsrc hpal => ?copies,
    fun s u K h he hsize hK hr hfree hbits => ?glyph,
    fun s f Y K hf hp hd hstop => ⟨_, rfl, cursor_bus hf hp hd hstop⟩⟩
  case fillOrMono =>
    obtain rfl | rfl := hi
    · obtain ⟨w, hw, hmem, -⟩ := runPlain_of_err (Host.Outcome.next.inj h) he
      rw [hmem]
      exact ⟨_, rfl, StopsShort.stopped (fillCmd_stopsShort hf hfits ha hstop hw)⟩
    · obtain ⟨w, hw, hmem, -⟩ := runPlain_of_err (Host.Outcome.next.inj h) he
      rw [hmem]
      exact ⟨_, rfl, StopsShort.stopped (monoCmd_stopsShort hf hfits ha hstop (hbits rfl) hw)⟩
  case copies =>
    have hjob : (s.copyJob df sf).BusStop s.params Y K :=
      ⟨hmode, hc, hfits, ha, hstop, hsrc, fun h8 _ hb => paletteAt_free (hpal h8) hb⟩
    simp only [List.mem_cons, List.not_mem_nil, or_false] at hi
    obtain rfl | rfl | rfl := hi
    · exact ⟨_, rfl, copy_bus dispatchCopy_safePath (Host.Outcome.next.inj h) he hfmts hjob⟩
    · exact ⟨_, rfl, copy_bus overlapSafe_safePath (Host.Outcome.next.inj h) he hfmts hjob⟩
    · exact ⟨_, rfl, copy_bus nonOverlapping_safePath (Host.Outcome.next.inj h) he hfmts hjob⟩
  case glyph =>
    obtain ⟨w, hw, hmem, -⟩ := runPlain_of_err (Host.Outcome.next.inj h) he
    rw [hmem]
    exact ⟨_, rfl, StopsShort.stopped (glyphCmd_stopsShort hsize hK hr hfree hbits hw)⟩

end Sys2Proof.Machine
end

section
/-! Command words and format identifiers (30_encoding): what the decoder and the format table make of a word, both
ways, and what a reserved word does. -/

namespace Sys2Proof.Laws

/-- Every command has the law: it is well formed and its word decodes to it. -/
theorem DecodesBack.all (i : Instr) : DecodesBack.Statement i :=
  match i with
  | .nop => DecodesBack.nop
  | .fmtBpp => DecodesBack.fmtBpp
  | .fmtBytes => DecodesBack.fmtBytes
  | .fmtHasAlpha => DecodesBack.fmtHasAlpha
  | .fmtEqna => DecodesBack.fmtEqna
  | .fmtName => DecodesBack.fmtName
  | .getColor => DecodesBack.getColor
  | .splitColor => DecodesBack.splitColor
  | .readColor => DecodesBack.readColor
  | .writeColor => DecodesBack.writeColor
  | .writeColorIa => DecodesBack.writeColorIa
  | .convertColor => DecodesBack.convertColor
  | .copy => DecodesBack.copy
  | .copyOvl => DecodesBack.copyOvl
  | .copyNovl => DecodesBack.copyNovl
  | .fill => DecodesBack.fill
  | .scale => DecodesBack.scale
  | .glyph => DecodesBack.glyph
  | .mono => DecodesBack.mono
  | .icon => DecodesBack.icon
  | .cursor => DecodesBack.cursor

end Sys2Proof.Laws

namespace Sys2Proof

/-! ### The decoder and the encoder -/

/-- A command's word decodes to it (30_encoding R91). -/
@[simp] theorem decode_encode (i : Instr) : decode (encode i) = .ok i := by
  obtain ⟨-, -, hback⟩ := Laws.DecodesBack.all i
  exact hback

/-- The only word that decodes to a command is the command's own: the match is on all 32 bits (30_encoding R92). -/
theorem encode_of_decode {w : Word} {i : Instr} (h : decode w = .ok i) : w = encode i := by
  unfold decode at h
  split at h <;> cases h <;> exact BitVec.eq_of_toNat_eq ‹_›

/-- The decoder's only complaint is that the word is reserved (30_encoding R95). -/
theorem reserved_of_decode {w : Word} {e : DecodeError} (h : decode w = .error e) : e = .reserved w := by
  unfold decode at h
  split at h <;> cases h
  rfl

/-- A word that encodes no command is reserved (30_encoding R92, R95). -/
theorem decode_of_ne_encode {w : Word} (h : ∀ i, w ≠ encode i) : decode w = .error (.reserved w) := by
  cases hd : decode w with
  | ok i => exact absurd (encode_of_decode hd) (h i)
  | error e => rw [reserved_of_decode hd]

/-- Read as a whole command word, a number below 2^32 is what the decoder makes of its word. -/
theorem decodeTableWord_toNat (w : Word) : decodeTableWord 32 w.toNat = (decode w).toOption := by
  rw [decodeTableWord, Nat.mod_eq_of_lt w.isLt, BitVec.ofNat_toNat, BitVec.setWidth_eq]

/-- Settles O2: `decode_encode` one way, `encode_of_decode` the other, and a word that is no command's can then only
be reserved. -/
theorem decodeEncodeAgree : Obligations.DecodeEncodeAgree := by
  refine ⟨fun i => ⟨?wellFormed, decode_encode i, ?table⟩, fun w i => encode_of_decode, fun w => decode_of_ne_encode⟩
  case wellFormed => exact (Laws.DecodesBack.all i).1
  case table => rw [decodeTableWord_toNat, decode_encode]; rfl

/-- Settles O1: each of the 21 words is its command's (`encode`), which decodes back. -/
theorem decodeWords : Obligations.DecodeWords :=
  ⟨decode_encode .nop, decode_encode .fmtBpp, decode_encode .fmtBytes, decode_encode .fmtHasAlpha,
    decode_encode .fmtEqna, decode_encode .fmtName, decode_encode .getColor, decode_encode .splitColor,
    decode_encode .readColor, decode_encode .writeColor, decode_encode .writeColorIa, decode_encode .convertColor,
    decode_encode .copy, decode_encode .copyOvl, decode_encode .copyNovl, decode_encode .fill, decode_encode .scale,
    decode_encode .glyph, decode_encode .mono, decode_encode .icon, decode_encode .cursor⟩

end Sys2Proof

namespace Sys2Proof.Machine

/-! ### A reserved word -/

/-- A command that fails before it has changed anything leaves its code in ERR and nothing else (60_exceptions
R325). -/
theorem endCommand_work_of_failure (s : State) {e : Err} (h : e.isFault = false) :
    s.endCommand s.work (some e) = s.failed e.code := by
  simp only [State.endCommand, State.failed, State.work, Status.conclude, h, Bool.or_false]

/-- A reserved word leaves ILLEGAL_CMD in ERR and changes nothing else (30_encoding R95). -/
theorem reservedWord_eq (s : State) : reservedWord s = .next (s.failed 5) :=
  congrArg Host.Outcome.next
    ((runPlain_of_error rfl).trans (endCommand_work_of_failure s (e := .illegalCmd) rfl))

/-- A word that encodes no command executes nothing (30_encoding R95). -/
theorem command_of_ne_encode {c : Word} (h : ∀ i, c ≠ encode i) (s : State) : command c s = .next (s.failed 5) := by
  rw [command, decode_of_ne_encode h]
  exact reservedWord_eq s

/-- Settles O4: 0xE0 is CMD's slot, and the low 32 bits written there decode to no command. (The model has the name
`reservedWord` in this namespace.) -/
theorem Encoding.reservedWord : Obligations.ReservedWord := by
  intro s v rest hs hv
  rw [step_of_script_cons hs, hostEvent_write_slot _ 28 v, writeRegister_cmd, command_of_ne_encode hv]

/-! ### The format table -/

/-- A word is a format exactly when it is the format's identifier (30_encoding R101). -/
theorem decodeFmt_eq_some_iff {w : Word} {f : Fmt} : decodeFmt w = some f ↔ w = f.ident :=
  ⟨ident_of_decodeFmt, fun h => h ▸ decodeFmt_ident f⟩

/-- The format of a row has alpha where the row says so (40_format_metadata R125). -/
theorem formatRow_hasAlpha {row : FormatRow} (h : row ∈ formatRows) :
    ∃ f, decodeFmt row.ident = some f ∧ f.hasAlpha.toNat = row.alpha := by
  revert row
  decide

/-- Every format has its row (30_encoding R100). -/
theorem Fmt.exists_formatRow (f : Fmt) : ∃ row ∈ formatRows, row.ident = f.ident := by
  have rows : ∀ f ∈ Fmt.all, ∃ row ∈ formatRows, row.ident = f.ident := by decide
  exact rows f f.mem_all

/-- Settles O21: a row's sizes and alpha are those of the one format its identifier decodes to. -/
theorem formatTable : Obligations.FormatTable := by
  refine ⟨fun row hrow => ?_, fun w f => decodeFmt_eq_some_iff, Fmt.exists_formatRow⟩
  obtain ⟨f, hf, hbpp, hbytes⟩ := formatRow_fmt hrow
  obtain ⟨g, hg, halpha⟩ := formatRow_hasAlpha hrow
  obtain rfl : f = g := Option.some.inj (hf.symm.trans hg)
  exact ⟨f, hf, (decodeFmt_eq_some_iff.1 hf).symm, hbpp, hbytes, halpha⟩

end Sys2Proof.Machine
end

section
/-! The format metadata queries (40_format_metadata): what each of the five commands answers for an enumerated format and
for a word that is none. -/

namespace Sys2Proof.Machine

/-! ### Formats and rows -/

/-- A word that is no row's identifier is `Invalid` (30_encoding R101). -/
theorem decodeFmt_eq_none {w : Word} (h : ∀ row ∈ formatRows, w ≠ row.ident) : decodeFmt w = none := by
  cases hf : decodeFmt w with
  | none => rfl
  | some f =>
    obtain ⟨row, hrow, hid⟩ := Fmt.exists_formatRow f
    exact absurd ((ident_of_decodeFmt hf).trans hid.symm) (h row hrow)

/-! ### A command that produces RES, run to its end -/

/-- A success leaves its value in RES and otherwise only memory, BINIT and ERR (10_state R30, R33). -/
theorem runRes_of_success {s : State} {c : Cmd Word} {v : Word} {m : Memory} {b : Bool}
    (h : c s.work = .ok v ⟨m, b, s.draws⟩) : s.runRes c = { s.succeeded m b with res := v } :=
  runRes_of_ok h

/-- A failure that has changed nothing leaves its code in ERR and 0 in RES (60_exceptions R325). -/
theorem runRes_of_failure {s : State} {c : Cmd Word} {e : Err} (h : c s.work = .error e s.work)
    (he : e.isFault = false) : s.runRes c = { s.failed e.code with res := 0 } := by
  rw [runRes_of_error h, endCommand_work_of_failure s he]

/-! ### FMT_BPP, FMT_BYTES, FMT_HASALPHA -/

/-- A query of an enumerated format answers (40_format_metadata R130). -/
theorem runRes_queryFmt {s : State} {w : Word} {f : Fmt} (hf : decodeFmt w = some f) (answer : Fmt → Nat) :
    s.runRes (queryFmt w answer) =
      { s.succeeded s.mem s.status.binit with res := BitVec.ofNat 32 (answer f) } :=
  runRes_of_success (by rw [queryFmt, hf]; rfl)

/-- A query of a word that is no format is UNSUPPORTED (40_format_metadata R128). -/
theorem runRes_queryFmt_invalid {s : State} {w : Word} (hw : decodeFmt w = none) (answer : Fmt → Nat) :
    s.runRes (queryFmt w answer) = { s.failed 2 with res := 0 } :=
  runRes_of_failure (e := .unsupported) (by rw [queryFmt, hw]; rfl) rfl

theorem exec_fmtBpp (s : State) : exec .fmtBpp s = .next (s.runRes (queryFmt s.regs.sfmt Fmt.bpp)) := rfl

theorem exec_fmtBytes (s : State) : exec .fmtBytes s = .next (s.runRes (queryFmt s.regs.sfmt Fmt.bytes)) := rfl

theorem exec_fmtHasAlpha (s : State) :
    exec .fmtHasAlpha s = .next (s.runRes (queryFmt s.regs.sfmt fun f => f.hasAlpha.toNat)) := rfl

/-- Settles O22: the three commands are one query with three answers, and `formatTable` says what a row's format
answers. -/
theorem formatQueries : Obligations.FormatQueries := by
  intro s
  simp only [exec_fmtBpp, exec_fmtBytes, exec_fmtHasAlpha]
  refine ⟨fun row hrow hid => ?enumerated, fun hw => ?invalid⟩
  case enumerated =>
    obtain ⟨hrows, -, -⟩ := formatTable
    obtain ⟨f, hf, -, hbpp, hbytes, halpha⟩ := hrows row hrow
    rw [← hid] at hf
    rw [← hbpp, ← hbytes, ← halpha]
    simp only [runRes_queryFmt hf, and_self]
  case invalid =>
    simp only [runRes_queryFmt_invalid (decodeFmt_eq_none hw), and_self]

/-! ### FMT_EQNA -/

theorem exec_fmtEqna (s : State) : exec .fmtEqna s = .next (s.runRes (fmtEqnaCmd s)) := rfl

/-- FMT_EQNA of two enumerated formats (40_format_metadata R133), the comparison in numbers (R126). -/
theorem exec_fmtEqna_of_formats {s : State} {df sf : Fmt} (h : s.formats df sf) :
    exec .fmtEqna s = .next { s.succeeded s.mem s.status.binit with
      res := if sf.ident &&& 0xFFFF7FFF#32 = df.ident &&& 0xFFFF7FFF#32 then 1 else 0 } := by
  obtain ⟨hdf, hsf⟩ := h
  have hcmd : fmtEqnaCmd s s.work = .ok (BitVec.ofNat 32 (eqna sf df).toNat) s.work := by
    rw [fmtEqnaCmd, hsf, hdf]
    rfl
  have hans : BitVec.ofNat 32 (eqna sf df).toNat =
      if sf.ident &&& 0xFFFF7FFF#32 = df.ident &&& 0xFFFF7FFF#32 then 1 else 0 := by
    simp only [eq_comm (a := sf.ident &&& _), ← eqna_iff]
    cases eqna sf df <;> rfl
  rw [exec_fmtEqna, runRes_of_success hcmd, hans]

/-- FMT_EQNA of a word that is no format, in either operand (40_format_metadata R133). -/
theorem exec_fmtEqna_of_invalid {s : State} (h : decodeFmt s.regs.sfmt = none ∨ decodeFmt s.regs.dfmt = none) :
    exec .fmtEqna s = .next { s.failed 2 with res := 0 } := by
  have hcmd : fmtEqnaCmd s s.work = .error .unsupported s.work := by
    obtain hsf | hdf := h
    · rw [fmtEqnaCmd, hsf]
      rfl
    · rw [fmtEqnaCmd, hdf]
      cases decodeFmt s.regs.sfmt <;> rfl
  rw [exec_fmtEqna, runRes_of_failure hcmd rfl]
  rfl

/-- Settles O23: rows are formats by `decodeFmt_eq_some_iff`, and `eqna_iff` gives the comparison in numbers. -/
theorem formatEqualIgnoringAlpha : Obligations.FormatEqualIgnoringAlpha := by
  intro s
  refine ⟨fun a ha b hb hsf hdf => ?enumerated, fun h => ?invalid⟩
  case enumerated =>
    obtain ⟨f, hf, -⟩ := formatRow_fmt ha
    obtain ⟨g, hg, -⟩ := formatRow_fmt hb
    rw [exec_fmtEqna_of_formats ⟨hdf ▸ hg, hsf ▸ hf⟩, ← ident_of_decodeFmt hf, ← ident_of_decodeFmt hg]
  case invalid => exact exec_fmtEqna_of_invalid (h.imp decodeFmt_eq_none decodeFmt_eq_none)

/-! ### FMT_NAME -/

/-- `name` is what FMT_NAME writes for the word `w`: a row's name, or UNKNOWN (40_format_metadata R129). -/
def NameOf (w : Word) (name : String) : Prop :=
  (∃ row ∈ formatRows, w = row.ident ∧ name = row.name) ∨
    ((∀ row ∈ formatRows, w ≠ row.ident) ∧ name = "UNKNOWN")

/-- The model's bytes of a name are its characters (40_format_metadata R129). -/
theorem NameOf.fmtName_toNat {w : Word} {name : String} (h : NameOf w name) :
    (fmtName (decodeFmt w)).map BitVec.toNat = name.toList.map Char.toNat := by
  obtain ⟨row, hrow, rfl, rfl⟩ | ⟨hw, rfl⟩ := h
  · exact Machine.fmtName_toNat hrow
  · rw [decodeFmt_eq_none hw]
    decide

theorem NameOf.fmtName_length {w : Word} {name : String} (h : NameOf w name) :
    (fmtName (decodeFmt w)).length = name.length := by
  rw [← String.length_toList, ← List.length_map (f := BitVec.toNat), h.fmtName_toNat, List.length_map]

/-- The names are short. -/
theorem NameOf.length_lt {w : Word} {name : String} (h : NameOf w name) : name.length < 64 := by
  obtain ⟨row, hrow, -, rfl⟩ | ⟨-, rfl⟩ := h
  · exact formatRow_name_lt hrow
  · decide

theorem exec_fmtName (s : State) : exec .fmtName s = .next (s.runRes (fmtNameCmd s)) := rfl

/-- FMT_NAME to the null address (40_format_metadata R134). -/
theorem exec_fmtName_of_null {s : State} (hd : s.regs.dst = 0) :
    exec .fmtName s = .next { s.failed 1 with res := 0 } := by
  have hcmd : fmtNameCmd s s.work = .error .invalidArg s.work := by
    rw [fmtNameCmd, failIf_bind, hd]
    rfl
  rw [exec_fmtName, runRes_of_failure hcmd rfl]
  rfl

/-- FMT_NAME on a platform that rejects nothing: the name and a zero byte are written (40_format_metadata R134). -/
theorem exec_fmtName_runs {s : State} (hd : s.regs.dst ≠ 0) (hrej : s.params.rejects = []) :
    exec .fmtName s = .next { s.succeeded
        (writeBytes s.params s.mem s.regs.dst.toNat (fmtName (decodeFmt s.regs.sfmt) ++ [0])) s.status.binit with
      res := BitVec.ofNat 32 (fmtName (decodeFmt s.regs.sfmt)).length } := by
  rw [exec_fmtName, runRes_of_success]
  rw [fmtNameCmd, failIf_bind, beq_false_of_ne hd, if_neg Bool.false_ne_true, bind_runs_ok (memWrite_runs hrej _ _ _)]
  rfl

/-- Settles O24: the one write holds the name's bytes and the zero byte (`holds_writeBytes`) and leaves the rest
(`read_writeBytes_outside`). -/
theorem formatName : Obligations.FormatName := by
  refine fun s => ⟨exec_fmtName_of_null, fun name hd hwf hrej (hname : NameOf s.regs.sfmt name) => ?_⟩
  have hshort := hname.length_lt
  have hlen : (fmtName (decodeFmt s.regs.sfmt) ++ [0]).length = name.length + 1 := by
    rw [List.length_append, hname.fmtName_length, List.length_singleton]
  refine ⟨_, hname.fmtName_length ▸ exec_fmtName_runs hd hrej, ?contents, fun a ha => ?frame⟩
  case contents =>
    have hspace : (fmtName (decodeFmt s.regs.sfmt) ++ [0]).length ≤ 2 ^ s.params.addrW := le_space hwf (by omega)
    have hholds := holds_writeBytes s.params s.mem s.regs.dst.toNat hspace
    rwa [List.map_append, hname.fmtName_toNat] at hholds
  case frame => exact read_writeBytes_outside _ _ _ _ a (hlen.symm ▸ ha)

end Sys2Proof.Machine
end

section
/-! The color codec in numbers (41_color_codec R150 to R164): the channel-depth scaler, fields placed side by side in a
word and taken out again, what packing and splitting compute, and the round trip of the two. -/

namespace Sys2Proof.Machine

/-! ### The channel-depth scaler -/

/-- `narrow_5` in numbers (41_color_codec R150). -/
theorem narrow5_toNat (c : Byte) : (narrow5 c).toNat = c.toNat / 8 := by
  rw [narrow5, BitVec.extractLsb'_toNat, Nat.shiftRight_eq_div_pow]
  omega

/-- `narrow_6` in numbers (41_color_codec R150). -/
theorem narrow6_toNat (c : Byte) : (narrow6 c).toNat = c.toNat / 4 := by
  rw [narrow6, BitVec.extractLsb'_toNat, Nat.shiftRight_eq_div_pow]
  omega

/-- `narrow_1` in numbers (41_color_codec R154). -/
theorem narrow1_toNat (p : Params) (a : Byte) : (narrow1 p a).toNat = alpha1Nat p a.toNat := by
  unfold narrow1 alpha1Nat
  cases p.alpha1Pack with
  | msb =>
    show (a.extractLsb' 7 1).toNat = a.toNat / 128
    rw [BitVec.extractLsb'_toNat, Nat.shiftRight_eq_div_pow]
    omega
  | nonzero =>
    show (BitVec.ofBool (a != 0)).toNat = if a.toNat = 0 then 0 else 1
    by_cases h : a = 0
    · rw [h]
      rfl
    · have hne : a.toNat ≠ 0 := fun h0 => h (BitVec.eq_of_toNat_eq h0)
      rw [bne_iff_ne.2 h, if_neg hne]
      rfl

/-- `widen_10` in numbers (41_color_codec R155). -/
theorem widen10_toNat (c : Byte) : (widen10 c).toNat = c.toNat * 4 := by
  rw [widen10, BitVec.toNat_shiftLeft, BitVec.toNat_setWidth_of_le (by decide), Nat.shiftLeft_eq]
  omega

/-- A channel of `n` bits shifted to the top of a byte, its own top bits below it. -/
theorem replicate_toNat {n k j : Nat} (c : BitVec n) (hk : n + k = 8) (hj : n ≤ k + j) :
    ((c.setWidth 8 <<< k) ||| (c.setWidth 8 >>> j)).toNat = c.toNat * 2 ^ k + c.toNat / 2 ^ j := by
  have htop : c.toNat * 2 ^ k < 2 ^ 8 := by
    rw [← hk, Nat.pow_add]
    exact Nat.mul_lt_mul_of_pos_right c.isLt (Nat.two_pow_pos k)
  have hlow : c.toNat / 2 ^ j < 2 ^ k := by
    rw [Nat.div_lt_iff_lt_mul (Nat.two_pow_pos j), ← Nat.pow_add]
    exact Nat.lt_of_lt_of_le c.isLt (Nat.pow_le_pow_right (by decide) hj)
  rw [BitVec.toNat_or, BitVec.toNat_shiftLeft, BitVec.toNat_ushiftRight, BitVec.toNat_setWidth_of_le (by omega),
    Nat.shiftLeft_eq, Nat.mod_eq_of_lt htop, Nat.shiftRight_eq_div_pow, Nat.mul_comm]
  exact (Nat.two_pow_add_eq_or_of_lt hlow _).symm

/-- `expand_5` in numbers (41_color_codec R151). -/
theorem expand5_toNat (c : BitVec 5) : (expand5 c).toNat = c.toNat * 8 + c.toNat / 4 :=
  replicate_toNat c rfl (by decide)

theorem narrow5_expand5 (c : BitVec 5) : narrow5 (expand5 c) = c := by
  refine BitVec.eq_of_toNat_eq ?_
  rw [narrow5_toNat, expand5_toNat]
  omega

theorem expand6_toNat_of_replicate {p : Params} (h : p.expand6 = .replicate) (c : BitVec 6) :
    (expand6 p c).toNat = c.toNat * 4 + c.toNat / 16 := by
  rw [expand6, h]
  exact replicate_toNat c rfl (by decide)

theorem expand6_toNat_of_sumClamp {p : Params} (h : p.expand6 = .sumClamp) (c : BitVec 6) :
    (expand6 p c).toNat = min 255 (c.toNat * 4 + c.toNat / 8) := by
  rw [expand6, h]
  exact Nat.mod_eq_of_lt (Nat.lt_of_le_of_lt (Nat.min_le_left _ _) (by decide))

theorem narrow6_expand6 {p : Params} (h : p.expand6 = .replicate) (c : BitVec 6) : narrow6 (expand6 p c) = c := by
  refine BitVec.eq_of_toNat_eq ?_
  rw [narrow6_toNat, expand6_toNat_of_replicate h]
  omega

/-- `expand_1` in numbers (41_color_codec R153). -/
theorem expand1_toNat (b : BitVec 1) : (expand1 b).toNat = b.toNat * 255 := by
  obtain rfl | rfl := BitVec.eq_zero_or_eq_one b <;> rfl

/-- Settles O25, rule by rule. -/
theorem channelScaler : Obligations.ChannelScaler :=
  ⟨fun c => ⟨narrow5_toNat c, narrow6_toNat c, widen10_toNat c⟩, fun c => ⟨expand5_toNat c, narrow5_expand5 c⟩,
    expand1_toNat,
    fun _ c => ⟨fun h => ⟨expand6_toNat_of_replicate h c, narrow6_expand6 h c⟩, fun h => expand6_toNat_of_sumClamp h c⟩,
    fun p a => ⟨fun h => by rw [narrow1_toNat, alpha1Nat, h], fun h => by rw [narrow1_toNat, alpha1Nat, h]⟩⟩

/-! ### Fields side by side in a word -/

theorem place_toNat {n s : Nat} (v : BitVec n) (h : n + s ≤ 32) : (place v s).toNat = v.toNat * 2 ^ s := by
  have hlt : v.toNat * 2 ^ s < 2 ^ 32 :=
    calc v.toNat * 2 ^ s < 2 ^ n * 2 ^ s := Nat.mul_lt_mul_of_pos_right v.isLt (Nat.two_pow_pos s)
      _ = 2 ^ (n + s) := (Nat.pow_add 2 n s).symm
      _ ≤ 2 ^ 32 := Nat.pow_le_pow_right (by decide) h
  rw [place, BitVec.toNat_shiftLeft, BitVec.toNat_setWidth_of_le (by omega), Nat.shiftLeft_eq, Nat.mod_eq_of_lt hlt]

/-- A field placed right below those a word holds. -/
theorem or_place_toNat {x : Word} {X n s : Nat} (hx : x.toNat = X * 2 ^ (n + s)) (v : BitVec n) (h : n + s ≤ 32) :
    (x ||| place v s).toNat = (X * 2 ^ n + v.toNat) * 2 ^ s := by
  have hlt : v.toNat * 2 ^ s < 2 ^ (n + s) := by
    rw [Nat.pow_add]
    exact Nat.mul_lt_mul_of_pos_right v.isLt (Nat.two_pow_pos s)
  rw [BitVec.toNat_or, hx, place_toNat v h, Nat.mul_comm X, ← Nat.two_pow_add_eq_or_of_lt hlt, Nat.pow_add]
  ring

theorem twoFields_toNat {m n : Nat} (a : BitVec m) (b : BitVec n) (h : m + n ≤ 32) :
    (place a n ||| place b 0).toNat = a.toNat * 2 ^ n + b.toNat := by
  rw [or_place_toNat (s := 0) (place_toNat (s := n) a h) b (by omega), Nat.pow_zero, Nat.mul_one]

theorem threeFields_toNat {l m n : Nat} (a : BitVec l) (b : BitVec m) (c : BitVec n) (h : l + (m + n) ≤ 32) :
    (place a (m + n) ||| place b n ||| place c 0).toNat = a.toNat * 2 ^ (m + n) + b.toNat * 2 ^ n + c.toNat := by
  rw [or_place_toNat (or_place_toNat (place_toNat a h) b (by omega)) c (by omega), Nat.pow_add]
  ring

theorem fourFields_toNat {k l m n : Nat} (a : BitVec k) (b : BitVec l) (c : BitVec m) (d : BitVec n)
    (h : k + (l + (m + n)) ≤ 32) :
    (place a (l + (m + n)) ||| place b (m + n) ||| place c n ||| place d 0).toNat =
      a.toNat * 2 ^ (l + (m + n)) + b.toNat * 2 ^ (m + n) + c.toNat * 2 ^ n + d.toNat := by
  rw [or_place_toNat (or_place_toNat (or_place_toNat (place_toNat a h) b (by omega)) c (by omega)) d (by omega),
    Nat.pow_add 2 l, Nat.pow_add]
  ring

theorem twoBytes_toNat (a b : Byte) : (place a 8 ||| place b 0).toNat = a.toNat * 2 ^ 8 + b.toNat :=
  twoFields_toNat a b (by decide)

theorem threeBytes_toNat (a b c : Byte) :
    (place a 16 ||| place b 8 ||| place c 0).toNat = a.toNat * 2 ^ 16 + b.toNat * 2 ^ 8 + c.toNat :=
  threeFields_toNat a b c (by decide)

theorem fourBytes_toNat (a b c d : Byte) :
    (place a 24 ||| place b 16 ||| place c 8 ||| place d 0).toNat =
      a.toNat * 2 ^ 24 + b.toNat * 2 ^ 16 + c.toNat * 2 ^ 8 + d.toNat :=
  fourFields_toNat a b c d (by decide)

theorem fields565_toNat (a : BitVec 5) (b : BitVec 6) (c : BitVec 5) :
    (place a 11 ||| place b 5 ||| place c 0).toNat = a.toNat * 2 ^ 11 + b.toNat * 2 ^ 5 + c.toNat :=
  threeFields_toNat a b c (by decide)

theorem fields555_toNat (a b c : BitVec 5) :
    (place a 10 ||| place b 5 ||| place c 0).toNat = a.toNat * 2 ^ 10 + b.toNat * 2 ^ 5 + c.toNat :=
  threeFields_toNat a b c (by decide)

theorem fields1555_toNat (a : BitVec 1) (b c d : BitVec 5) :
    (place a 15 ||| place b 10 ||| place c 5 ||| place d 0).toNat =
      a.toNat * 2 ^ 15 + b.toNat * 2 ^ 10 + c.toNat * 2 ^ 5 + d.toNat :=
  fourFields_toNat a b c d (by decide)

theorem fields30_toNat (a b c : BitVec 10) :
    (place a 20 ||| place b 10 ||| place c 0).toNat = a.toNat * 2 ^ 20 + b.toNat * 2 ^ 10 + c.toNat :=
  threeFields_toNat a b c (by decide)

/-- A field taken out of a word, in numbers. -/
theorem field_toNat (v : Word) (lo n : Nat) : (v.extractLsb' lo n).toNat = v.toNat / 2 ^ lo % 2 ^ n := by
  rw [BitVec.extractLsb'_toNat, Nat.shiftRight_eq_div_pow]

/-- A field is taken out as it was placed. -/
theorem extract_place_same {n s : Nat} (v : BitVec n) (h : n + s ≤ 32) : (place v s).extractLsb' s n = v := by
  refine BitVec.eq_of_toNat_eq ?_
  rw [field_toNat, place_toNat v h, Nat.mul_div_cancel _ (Nat.two_pow_pos s), Nat.mod_eq_of_lt v.isLt]

/-- A field placed elsewhere leaves the bits taken out zero. -/
theorem extract_place_apart {n s lo k : Nat} (v : BitVec n) (h : n + s ≤ lo ∨ lo + k ≤ s) :
    (place v s).extractLsb' lo k = 0#k := by
  ext i hi
  obtain h | h := h
  · simp [place, show ¬ lo + i < s by omega, BitVec.getLsbD_of_ge v (lo + i - s) (by omega)]
  · simp [place, show lo + i < s by omega]

/-! ### Channels in numbers -/

/-- The tuple r, g, b, a of channels, as the rules' tables in numbers have it. -/
def channelNats (c : Channels) : Nat × Nat × Nat × Nat :=
  (c.r.toNat, c.g.toNat, c.b.toNat, c.a.toNat)

/-- The channels of CHAN are its bytes (10_state R23). -/
theorem channelNats_unpackChan (v : Word) :
    channelNats (unpackChan v) = (byteOf v.toNat 0, byteOf v.toNat 1, byteOf v.toNat 2, byteOf v.toNat 3) := by
  simp only [channelNats, unpackChan, field_toNat, byteOf, Nat.mul_zero, Nat.mul_one, Nat.reduceMul, Nat.reducePow]

/-- RCHAN's layout of channels in numbers (10_state R30). -/
theorem packChan_toNat (c : Channels) :
    (packChan c).toNat = c.r.toNat + c.g.toNat * 2 ^ 8 + c.b.toNat * 2 ^ 16 + c.a.toNat * 2 ^ 24 := by
  rw [packChan, fourBytes_toNat]
  omega

/-! ### Pack -/

/-- The depth-30 value in numbers (41_color_codec R156). -/
theorem packDepth30_toNat (c : Channels) : (packDepth30 c).toNat = depth30Nat c.r.toNat c.g.toNat c.b.toNat := by
  have ht := fields30_toNat (widen10 c.r) (widen10 c.g) (widen10 c.b)
  simp only [widen10_toNat] at ht
  simp only [packDepth30, fourBytes_toNat, field_toNat, ht, depth30Nat]
  omega

/-- Packing in numbers (41_color_codec R156, R158, R159), format by format: the fields lie side by side. -/
theorem packedNat_channelNats (p : Params) (f : Fmt) (c : Channels) :
    packedNat p f (channelNats c) = (pack p f c).toOption.map BitVec.toNat := by
  cases f <;>
    simp only [packedNat, packNat, channelNats, pack, Except.toOption, Option.map_some, Option.map_none,
      fourBytes_toNat, threeBytes_toNat, fields565_toNat, fields555_toNat, fields1555_toNat, packDepth30_toNat,
      narrow5_toNat, narrow6_toNat, narrow1_toNat]

/-- Where the tables pack a value, the model packs it. -/
theorem pack_of_packedNat_some {p : Params} {f : Fmt} {c : Channels} {v : Nat}
    (h : packedNat p f (channelNats c) = some v) : pack p f c = .ok (BitVec.ofNat 32 v) ∧ v < 2 ^ 32 := by
  rw [packedNat_channelNats] at h
  cases hp : pack p f c with
  | error e =>
    rw [hp] at h
    cases h
  | ok w =>
    rw [hp] at h
    obtain rfl : w.toNat = v := Option.some.inj h
    exact ⟨by rw [BitVec.ofNat_toNat, BitVec.setWidth_eq], w.isLt⟩

/-- Where the tables pack nothing, the model answers UNSUPPORTED. -/
theorem pack_of_packedNat_none {p : Params} {f : Fmt} {c : Channels} (h : packedNat p f (channelNats c) = none) :
    pack p f c = .error .unsupported := by
  rw [packedNat_channelNats] at h
  cases hp : pack p f c with
  | error e => rw [(pack_error hp).1]
  | ok w =>
    rw [hp] at h
    cases h

/-! ### Split without a palette -/

theorem field8_toNat (v : Word) (lo : Nat) : (field8 v lo).toNat = v.toNat / 2 ^ lo % 256 :=
  field_toNat v lo 8

theorem field5_toNat (v : Word) (lo : Nat) : (field5 v lo).toNat = five v.toNat lo := by
  rw [field5, expand5_toNat, field_toNat]
  rfl

theorem green6_toNat (p : Params) (v : Word) : (green6 p v).toNat = greenNat p v.toNat := by
  unfold green6 greenNat
  cases h : p.expand6 with
  | replicate =>
    rw [expand6_toNat_of_replicate h, field_toNat]
    rfl
  | sumClamp =>
    rw [expand6_toNat_of_sumClamp h, field_toNat]
    rfl

theorem alpha1_toNat (v : Word) : (alpha1 v).toNat = v.toNat / 2 ^ 15 % 2 * 255 := by
  rw [alpha1, expand1_toNat, field_toNat, Nat.pow_one]

/-- Splitting without a palette in numbers (41_color_codec R161, R163, R164), format by format. -/
theorem splitNat_toNat (p : Params) (f : Fmt) (v : Word) :
    splitNat p f v.toNat = (splitBare p f v).toOption.map channelNats := by
  have hmax : (255 : Byte).toNat = 255 := rfl
  cases f
  case mono =>
    by_cases h : v = 0
    · rw [h]
      rfl
    · have hne : v.toNat ≠ 0 := fun h0 => h (BitVec.eq_of_toNat_eq h0)
      rw [splitNat, splitBare, if_neg hne, if_neg h]
      rfl
  all_goals
    simp only [splitNat, splitBare, channelNats, Except.toOption, Option.map_some, Option.map_none, byteOf,
      Nat.reduceMul, field8_toNat, field5_toNat, green6_toNat, alpha1_toNat, hmax]

/-! ### The round trip -/

/-- The channels that splitting gives back after packing (41_color_codec R182): as they were for the formats of 8-bit
channels, narrowed and widened again for the others, 255 for the alpha of a format without one. -/
def readBack (p : Params) (f : Fmt) (c : Channels) : Channels where
  r := if f.bytes ≤ 2 then expand5 (narrow5 c.r) else c.r
  g := if f = .rgb16 ∨ f = .bgr16 then expand6 p (narrow6 c.g) else if f.bytes ≤ 2 then expand5 (narrow5 c.g) else c.g
  b := if f.bytes ≤ 2 then expand5 (narrow5 c.b) else c.b
  a := if f.hasAlpha then if f.bytes ≤ 2 then expand1 (narrow1 p c.a) else c.a else 255

theorem splitBare_pack {p : Params} {f : Fmt} {c c' : Channels} {v : Word} (hv : pack p f c = .ok v)
    (hc : splitBare p f v = .ok c') : c' = readBack p f c := by
  cases f <;> cases hv <;> cases hc <;>
    simp (disch := omega) [readBack, Fmt.bytes, Fmt.bpp, ceilDiv, Fmt.hasAlpha, field8, field5, green6, alpha1,
      BitVec.extractLsb'_or, extract_place_same, extract_place_apart]

theorem expand5_narrow5_near (c : Byte) :
    c.toNat ≤ (expand5 (narrow5 c)).toNat + 7 ∧ (expand5 (narrow5 c)).toNat ≤ c.toNat + 7 := by
  rw [expand5_toNat, narrow5_toNat]
  omega

theorem expand6_narrow6_near {p : Params} (h : p.expand6 = .replicate) (c : Byte) :
    c.toNat ≤ (expand6 p (narrow6 c)).toNat + 3 ∧ (expand6 p (narrow6 c)).toNat ≤ c.toNat + 3 := by
  rw [expand6_toNat_of_replicate h, narrow6_toNat]
  omega

/-- Settles O29, from the channels that `readBack` names. -/
theorem roundTrip : Obligations.RoundTrip := by
  intro p f c c' v hv hc
  obtain rfl := splitBare_pack hv hc
  refine ⟨fun h2 => ?redBlue, fun h3 => ?exact8, fun h2 => ?alpha, fun h2 h16 hb16 => ?green5, fun hg => ?green6⟩
  case redBlue =>
    simp only [readBack, if_pos h2, true_and]
    exact ⟨(expand5_narrow5_near c.r).1, (expand5_narrow5_near c.r).2, expand5_narrow5_near c.b⟩
  case exact8 =>
    have h2 : ¬ f.bytes ≤ 2 := by omega
    have hg : ¬ (f = .rgb16 ∨ f = .bgr16) := by
      rintro (rfl | rfl) <;> exact h2 (by decide)
    simp only [readBack, if_neg h2, if_neg hg, and_self]
  case alpha => simp only [readBack, if_pos h2]
  case green5 => simp only [readBack, if_pos h2, h16, hb16, or_self, if_false]
  case green6 =>
    simp only [readBack, if_pos hg, true_and]
    exact fun h => expand6_narrow6_near h c.g

end Sys2Proof.Machine
end

section
/-! The color codec's commands (41_color_codec R160 to R180): what GETCOLOR, SPLITCOLOR, CONVERTCOLOR, READCOLOR,
WRITECOLOR and WRITECOLOR_IA leave, in the tables' numbers. -/

namespace Sys2Proof.Machine

/-! ### How a command of the codec ends -/

theorem exec_getColor (s : State) : exec .getColor s = .next (s.runRes (getColorCmd s)) := rfl

theorem exec_splitColor (s : State) : exec .splitColor s = .next (s.runRchan (splitColorCmd s)) := rfl

theorem exec_convertColor (s : State) : exec .convertColor s = .next (s.runRes (convertColorCmd s)) := rfl

theorem exec_readColor (s : State) : exec .readColor s = .next (s.runRes (readColorCmd s)) := rfl

theorem exec_writeColor (s : State) : exec .writeColor s = .next (s.runPlain (writeColorWith s storePx)) := rfl

theorem exec_writeColorIa (s : State) : exec .writeColorIa s = .next (s.runPlain (writeColorWith s storePxIa)) := rfl

/-- A success leaves its value in RCHAN and otherwise only ERR (10_state R30, R33). -/
theorem runRchan_of_success {s : State} {c : Cmd Word} {v : Word} (h : c s.work = .ok v s.work) :
    s.runRchan c = { s.succeeded s.mem s.status.binit with rchan := v } :=
  runRchan_of_ok h

/-- A failure that has changed nothing leaves its code in ERR and 0 in RCHAN (41_color_codec R164). -/
theorem runRchan_of_failure {s : State} {c : Cmd Word} {e : Err} (h : c s.work = .error e s.work)
    (he : e.isFault = false) : s.runRchan c = { s.failed e.code with rchan := 0 } := by
  rw [runRchan_of_error h, endCommand_work_of_failure s he]

/-- A failure that has changed nothing leaves its code in ERR (60_exceptions R325). -/
theorem runPlain_of_failure {s : State} {c : Cmd Unit} {e : Err} (h : c s.work = .error e s.work)
    (he : e.isFault = false) : s.runPlain c = s.failed e.code := by
  rw [runPlain_of_error h, endCommand_work_of_failure s he]

/-- A word that is no format's identifier is `Invalid` (30_encoding R101). -/
theorem decodeFmt_eq_none_of_ident {w : Word} (h : ∀ f : Fmt, w ≠ f.ident) : decodeFmt w = none :=
  Option.eq_none_iff_forall_ne_some.2 fun f hf => h f (ident_of_decodeFmt hf)

/-! ### GETCOLOR -/

theorem pack_of_not_packable {p : Params} {f : Fmt} {c : Channels} (h : f.packable = false) :
    pack p f c = .error .unsupported := by
  cases f <;> first | rfl | cases h

/-- GETCOLOR of an enumerated format answers what packing CHAN answers: its check is packing's own. -/
theorem getColorCmd_runs {s : State} {f : Fmt} (hf : decodeFmt s.regs.dfmt = some f) (w : Work) :
    getColorCmd s w = answers (pack s.params f (unpackChan s.regs.chan)) w := by
  simp only [getColorCmd, hf, failIf_bind]
  cases hp : f.packable with
  | true => exact ofExcept_runs _ w
  | false =>
    rw [pack_of_not_packable hp]
    rfl

/-- Settles O26, by packing in numbers (`pack_of_packedNat_some`) of CHAN's bytes. -/
theorem getColor : Obligations.GetColor := by
  refine fun s => ⟨fun f v hf hv => ?packed, fun h => ?unsupported⟩
  case packed =>
    rw [← decodeFmt_eq_some_iff] at hf
    obtain ⟨hpack, hlt⟩ := pack_of_packedNat_some (c := unpackChan s.regs.chan) (by rwa [channelNats_unpackChan])
    refine ⟨?_, hlt⟩
    rw [exec_getColor, runRes_of_success]
    rw [getColorCmd_runs hf, hpack]
    rfl
  case unsupported =>
    have hcmd : getColorCmd s s.work = .error .unsupported s.work := by
      cases hf : decodeFmt s.regs.dfmt with
      | none => rw [getColorCmd, hf]; rfl
      | some f =>
        rw [getColorCmd_runs hf]
        obtain rfl | rfl | rfl := h f (ident_of_decodeFmt hf) <;> rfl
    rw [exec_getColor, runRes_of_failure hcmd rfl]
    rfl

/-! ### Splitting with a palette, in numbers -/

/-- The outcome of a split in numbers: the channels, or the code of the failure. -/
def splitOutcome (x : Except Err Channels) : Except (BitVec 4) (Nat × Nat × Nat × Nat) :=
  match x with
  | .ok c => .ok (channelNats c)
  | .error e => .error e.code

/-- Without a palette a split fails with MISSING_CONTEXT for RGB8 and else with UNSUPPORTED (41_color_codec R162,
R164). -/
theorem splitOutcome_splitBare (p : Params) (f : Fmt) (v : Word) :
    splitOutcome (splitBare p f v) = (splitNat p f v.toNat).elim (.error (if f = .rgb8 then 3 else 2)) .ok := by
  rw [splitNat_toNat]
  cases h : splitBare p f v with
  | ok c => rfl
  | error e =>
    obtain ⟨rfl, rfl⟩ | ⟨rfl, hu⟩ := splitBare_error h
    · rfl
    · have h8 : f ≠ .rgb8 := by
        rintro rfl
        cases hu
      rw [if_neg h8]
      rfl

/-- A format other than RGB8 is unpacked without the palette. -/
theorem unpackNat_of_ne_rgb8 (p : Params) (m : Memory) (pal : Nat) {f : Fmt} (h8 : f ≠ .rgb8) (v : Nat) :
    unpackNat p m pal f v = (splitNat p f v).elim (.error 2) .ok := by
  unfold unpackNat
  split
  · exact absurd rfl h8
  · cases splitNat p f v <;> rfl

/-- An RGB8 index is unpacked as the palette's entry in the palette's format (41_color_codec R162). -/
theorem unpackNat_rgb8 (p : Params) (m : Memory) {pal v : Nat} (hpal : pal ≠ 0) (hv : ¬ 255 < v) :
    unpackNat p m pal .rgb8 v = (decodeFmt (wordLeAt p m pal)).elim (.error 2) fun g =>
      (splitNat p g (wordLeAt p m (pal + 4 + 4 * v)).toNat).elim (.error (if g = .rgb8 then 3 else 2)) .ok := by
  simp only [unpackNat, if_neg hpal, if_neg hv]
  cases decodeFmt (wordLeAt p m pal) with
  | none => rfl
  | some g =>
    cases g
    case rgb8 => rfl
    all_goals
      simp only [Option.elim_some]
      cases splitNat p _ _ <;> rfl

/-- The channels of an RGB8 index are those of the palette's entry (41_color_codec R162). -/
theorem channelsIn_rgb8 (p : Params) (m : Memory) (pal : Nat) {v : Word} (hv : ¬ 255 < v.toNat) :
    channelsIn p m (.inMemory pal) .rgb8 v = (decodeFmt (wordLeAt p m pal)).elim (.error .unsupported) fun g =>
      splitBare p g (wordLeAt p m (pal + 4 + 4 * v.toNat)) := by
  simp only [channelsIn, paletteIn, if_true, reduceCtorEq, if_false, if_neg hv]
  cases decodeFmt (wordLeAt p m pal) <;> rfl

/-- Unpacking in numbers (41_color_codec R161 to R165) is splitting with the palette at PAL. -/
theorem unpackNat_toNat (p : Params) (m : Memory) (pal : Slot) (f : Fmt) (v : Word) :
    unpackNat p m pal.toNat f v.toNat = splitOutcome (channelsIn p m (paletteAt pal) f v) := by
  by_cases h8 : f = .rgb8
  · subst h8
    by_cases hpal : pal = 0
    · rw [hpal]
      rfl
    · have hpal' : pal.toNat ≠ 0 := fun h0 => hpal (BitVec.eq_of_toNat_eq h0)
      rw [paletteAt, if_neg hpal]
      by_cases hv : 255 < v.toNat
      · simp only [unpackNat, channelsIn, if_neg hpal', if_pos hv, if_true, reduceCtorEq, if_false]
        rfl
      · rw [unpackNat_rgb8 p m hpal' hv, channelsIn_rgb8 p m _ hv]
        cases decodeFmt (wordLeAt p m pal.toNat) with
        | none => rfl
        | some g => exact (splitOutcome_splitBare p g _).symm
  · rw [unpackNat_of_ne_rgb8 p m _ h8, channelsIn, if_neg h8, splitOutcome_splitBare, if_neg h8]

/-- A split never faults. -/
theorem channelsIn_error {p : Params} {m : Memory} {pal : Palette} {f : Fmt} {v : Word} {e : Err}
    (h : channelsIn p m pal f v = .error e) : e.isFault = false := by
  have hbare {g : Fmt} {x : Word} (h : splitBare p g x = .error e) : e.isFault = false := by
    obtain ⟨rfl, -⟩ | ⟨rfl, -⟩ := splitBare_error h <;> rfl
  unfold channelsIn at h
  split at h
  · split at h
    · cases h
      rfl
    · split at h
      · cases h
        rfl
      · split at h
        · cases h
          rfl
        · exact hbare h
  · exact hbare h

/-- Where the tables give channels, they are those of the split. -/
theorem channelsIn_of_unpackNat_ok {p : Params} {m : Memory} {pal : Slot} {f : Fmt} {v : Word}
    {t : Nat × Nat × Nat × Nat} (h : unpackNat p m pal.toNat f v.toNat = .ok t) :
    ∃ c, channelsIn p m (paletteAt pal) f v = .ok c ∧ channelNats c = t := by
  rw [unpackNat_toNat] at h
  cases hc : channelsIn p m (paletteAt pal) f v with
  | error e =>
    rw [hc] at h
    cases h
  | ok c =>
    rw [hc] at h
    exact ⟨c, rfl, Except.ok.inj h⟩

/-- Where the tables give a code, it is that of the split's failure. -/
theorem channelsIn_of_unpackNat_error {p : Params} {m : Memory} {pal : Slot} {f : Fmt} {v : Word} {code : BitVec 4}
    (h : unpackNat p m pal.toNat f v.toNat = .error code) :
    ∃ e, channelsIn p m (paletteAt pal) f v = .error e ∧ e.isFault = false ∧ e.code = code := by
  rw [unpackNat_toNat] at h
  cases hc : channelsIn p m (paletteAt pal) f v with
  | error e =>
    rw [hc] at h
    exact ⟨e, rfl, channelsIn_error hc, Except.error.inj h⟩
  | ok c =>
    rw [hc] at h
    cases h

/-! ### SPLITCOLOR -/

/-- SPLITCOLOR of an enumerated format (41_color_codec R165). -/
theorem splitColorCmd_runs {s : State} {f : Fmt} (hrej : s.params.rejects = [])
    (hf : decodeFmt s.regs.sfmt = some f) :
    splitColorCmd s s.work =
      answers ((channelsIn s.params s.mem (paletteAt s.regs.pal) f s.regs.color0).map packChan) s.work := by
  have hs := split_runs hrej s.regs.color0 f (paletteAt s.regs.pal) s.work
  rw [work_mem] at hs
  rw [splitColorCmd, hf]
  generalize channelsIn s.params s.mem (paletteAt s.regs.pal) f s.regs.color0 = x at hs ⊢
  cases x with
  | ok c => exact bind_runs_ok hs
  | error e => exact bind_runs_error hs

/-- Settles O27, by `unpackNat_toNat` for what the split answers and `packChan_toNat` for the layout. -/
theorem splitColor : Obligations.SplitColor := by
  refine fun s hrej => ⟨fun f r g b a hf h => ?channels, fun f code hf h => ?failure, fun h => ?invalid⟩
  case channels =>
    obtain ⟨c, hc, ht⟩ := channelsIn_of_unpackNat_ok h
    obtain ⟨rfl, rfl, rfl, rfl⟩ : c.r.toNat = r ∧ c.g.toNat = g ∧ c.b.toNat = b ∧ c.a.toNat = a := by
      simpa only [channelNats, Prod.mk.injEq] using ht
    have hrun := splitColorCmd_runs hrej (decodeFmt_eq_some_iff.2 hf)
    rw [hc] at hrun
    rw [exec_splitColor, runRchan_of_success hrun, ← packChan_toNat, BitVec.ofNat_toNat, BitVec.setWidth_eq]
  case failure =>
    obtain ⟨e, he, hfault, rfl⟩ := channelsIn_of_unpackNat_error h
    have hrun := splitColorCmd_runs hrej (decodeFmt_eq_some_iff.2 hf)
    rw [he] at hrun
    rw [exec_splitColor, runRchan_of_failure hrun hfault]
  case invalid =>
    rw [exec_splitColor, runRchan_of_failure (e := .unsupported) _ rfl]
    · rfl
    · rw [splitColorCmd, decodeFmt_eq_none_of_ident h]
      rfl

/-! ### CONVERTCOLOR -/

/-- CONVERTCOLOR of two enumerated formats (41_color_codec R180). -/
theorem convertColorCmd_runs {s : State} {sf df : Fmt} (hrej : s.params.rejects = [])
    (hsf : decodeFmt s.regs.sfmt = some sf) (hdf : decodeFmt s.regs.dfmt = some df) :
    convertColorCmd s s.work =
      answers (convertIn s.params s.mem (paletteAt s.regs.pal) sf df s.regs.color0) s.work := by
  rw [convertColorCmd, hsf, hdf]
  exact convert_runs hrej _ _ _ _ _

/-- Settles O28: the split's outcome in numbers (`unpackNat_toNat`), then the pack's (`packedNat_channelNats`). -/
theorem convertColor : Obligations.ConvertColor := by
  refine fun s hrej => ⟨fun sf df hsf hdf => ?enumerated, fun h => ?invalid⟩
  case enumerated =>
    rw [← decodeFmt_eq_some_iff] at hsf hdf
    have hrun := convertColorCmd_runs hrej hsf hdf
    rw [exec_convertColor]
    refine ⟨fun t v h hv => ?converted, fun t h hv => ?unsupported, fun code h => ?failure⟩
    case converted =>
      obtain ⟨c, hc, rfl⟩ := channelsIn_of_unpackNat_ok h
      simp only [convertIn, hc, (pack_of_packedNat_some hv).1] at hrun
      rw [runRes_of_success hrun]
    case unsupported =>
      obtain ⟨c, hc, rfl⟩ := channelsIn_of_unpackNat_ok h
      simp only [convertIn, hc, pack_of_packedNat_none hv] at hrun
      rw [runRes_of_failure hrun rfl]
      rfl
    case failure =>
      obtain ⟨e, he, hfault, rfl⟩ := channelsIn_of_unpackNat_error h
      simp only [convertIn, he] at hrun
      rw [runRes_of_failure hrun hfault]
  case invalid =>
    rw [exec_convertColor, runRes_of_failure (e := .unsupported) _ rfl]
    · rfl
    · obtain h | h := h
      · rw [convertColorCmd, decodeFmt_eq_none_of_ident h]
        rfl
      · rw [convertColorCmd, decodeFmt_eq_none_of_ident h]
        cases decodeFmt s.regs.sfmt <;> rfl

/-! ### READCOLOR -/

/-- The sizes of a pixel, bits and bytes (40_format_metadata R123, R124). -/
theorem Fmt.bpp_bytes (f : Fmt) :
    (f.bpp = 32 ∧ f.bytes = 4) ∨ (f.bpp = 24 ∧ f.bytes = 3) ∨ (f.bpp = 16 ∧ f.bytes = 2) ∨
      (f.bpp = 15 ∧ f.bytes = 2) ∨ ((f.bpp = 8 ∨ f.bpp = 4 ∨ f.bpp = 1) ∧ f.bytes = 1) := by
  cases f <;> decide

/-- The byte of a pixel in memory, as a number. -/
theorem byteAt_toNat {p : Params} {m : Memory} {a n k : Nat} (h : k < n) :
    (byteAt (bytesAt p m a n) k).toNat = byteNat p m (a + k) := by
  rw [byteAt_bytesAt p m a n k h]
  rfl

/-- Loading a pixel in numbers (20_memory R66): its bytes lie side by side, a 15-bit value without its top bit. -/
theorem pixelAt_toNat (p : Params) (m : Memory) (a : Nat) (f : Fmt) :
    (pixelAt p m a f).toNat = loadNat p m a f.bpp := by
  unfold pixelAt pixelValue loadNat
  obtain ⟨h, hn⟩ | ⟨h, hn⟩ | ⟨h, hn⟩ | ⟨h, hn⟩ | ⟨h, hn⟩ := Fmt.bpp_bytes f
  · simp [h, hn, fourBytes_toNat, byteAt_toNat, -BitVec.toNat_or]
  · simp [h, hn, threeBytes_toNat, byteAt_toNat, -BitVec.toNat_or]
  · simp [h, hn, twoBytes_toNat, byteAt_toNat, -BitVec.toNat_or]
  · have hlow (x : Word) : (x &&& 0x7FFF#32).toNat = x.toNat % 2 ^ 15 := by
      rw [BitVec.toNat_and]
      exact Nat.and_two_pow_sub_one_eq_mod _ 15
    simp [h, hn, hlow, twoBytes_toNat, byteAt_toNat, -BitVec.toNat_or]
  · have hbyte := place_toNat (s := 0) (byteAt (bytesAt p m a 1) 0) (by decide)
    rw [byteAt_toNat (by decide), Nat.pow_zero, Nat.mul_one] at hbyte
    obtain h | h | h := h <;> simpa [h, hn] using hbyte

/-- READCOLOR from the null address (41_color_codec R170). -/
theorem readColorCmd_of_null {s : State} {f : Fmt} (hf : decodeFmt s.regs.sfmt = some f) (hs : s.regs.src = 0)
    (w : Work) : readColorCmd s w = .error .invalidArg w := by
  simp only [readColorCmd, hf, hs]
  rfl

/-- Settles O30, by `exec_readColor_runs` and the pixel in numbers. -/
theorem readColor : Obligations.ReadColor := by
  refine fun s => ⟨fun row hrow hid hs hrej => ?loaded, fun row hrow hid hs => ?null, fun h => ?invalid⟩
  case loaded =>
    obtain ⟨f, hf, hbpp, -⟩ := formatRow_fmt hrow
    rw [← hid] at hf
    rw [exec_readColor_runs hf hs hrej, ← hbpp, ← pixelAt_toNat, BitVec.ofNat_toNat, BitVec.setWidth_eq]
    rfl
  case null =>
    obtain ⟨f, hf, -⟩ := formatRow_fmt hrow
    rw [← hid] at hf
    rw [exec_readColor, runRes_of_failure (readColorCmd_of_null hf hs _) rfl]
    rfl
  case invalid =>
    have hcmd : readColorCmd s s.work = .error .unsupported s.work := by
      rw [readColorCmd, decodeFmt_eq_none h]
      rfl
    rw [exec_readColor, runRes_of_failure hcmd rfl]
    rfl

/-! ### WRITECOLOR and WRITECOLOR_IA -/

section
variable {s : State} (store : Params → Nat → Fmt → Word → Cmd Unit)

/-- A write to the null address (41_color_codec R174). -/
theorem runPlain_write_of_null {f : Fmt} (hf : decodeFmt s.regs.dfmt = some f) (hw : f.writable = true)
    (hd : s.regs.dst = 0) : s.runPlain (writeColorWith s store) = s.failed 1 :=
  runPlain_of_failure (e := .invalidArg) (by simp only [writeColorWith, hf, hw, hd]; rfl) rfl

/-- A write in a format that cannot be written, or in none (41_color_codec R174). -/
theorem runPlain_write_of_unwritable (h : ∀ f, decodeFmt s.regs.dfmt = some f → f.writable = false) :
    s.runPlain (writeColorWith s store) = s.failed 2 := by
  have hcmd : writeColorWith s store s.work = .error .unsupported s.work := by
    cases hf : decodeFmt s.regs.dfmt with
    | none => simp only [writeColorWith, hf]; rfl
    | some f => simp only [writeColorWith, hf, h f hf]; rfl
  exact runPlain_of_failure hcmd rfl

/-- A write whose checks pass and whose store succeeds leaves the stored bytes at DST (41_color_codec R174). -/
theorem runPlain_write_of_store {f : Fmt} {bs : List Byte} (hf : decodeFmt s.regs.dfmt = some f)
    (hw : f.writable = true) (hd : s.regs.dst ≠ 0)
    (hstore : store s.params s.regs.dst.toNat f s.regs.color0 s.work =
      .ok () ⟨writeBytes s.params s.mem s.regs.dst.toNat bs, s.status.binit, s.draws⟩) :
    s.runPlain (writeColorWith s store) =
      s.succeeded (writeBytes s.params s.mem s.regs.dst.toNat bs) s.status.binit := by
  rw [writeColorWith_stores hf hw hd, runPlain_of_ok hstore]
  rfl

end

/-- The rows whose format can be written are those of at least 8 bits (40_format_metadata R127). -/
theorem formatRow_writable {row : FormatRow} (h : row ∈ formatRows) (h8 : 8 ≤ row.bpp) :
    ∃ f, decodeFmt row.ident = some f ∧ f.writable = true ∧ f.bpp = row.bpp ∧ f.bytes = row.bytes := by
  obtain ⟨f, hf, hbpp, hbytes⟩ := formatRow_fmt h
  exact ⟨f, hf, (Fmt.writable_iff f).2 (hbpp ▸ h8), hbpp, hbytes⟩

/-- A word all of whose rows have less than 8 bits names no format that can be written. -/
theorem writable_eq_false_of_rows {w : Word} (h : ∀ row ∈ formatRows, w = row.ident → row.bpp < 8) {f : Fmt}
    (hf : decodeFmt w = some f) : f.writable = false := by
  obtain ⟨row, hrow, hid⟩ := Fmt.exists_formatRow f
  obtain ⟨g, hg, hbpp, -⟩ := formatRow_fmt hrow
  obtain rfl : g = f := by
    rw [hid, decodeFmt_ident] at hg
    exact (Option.some.inj hg).symm
  have h8 := h row hrow ((ident_of_decodeFmt hf).trans hid.symm)
  rw [Bool.eq_false_iff, ne_eq, Fmt.writable_iff]
  omega

/-- Settles O31: the bytes are `px_bytes`' in numbers (`pxBytes_toNat`), held where they were written. -/
theorem writeColor : Obligations.WriteColor := by
  intro s
  simp only [exec_writeColor, Host.Outcome.next.injEq]
  refine ⟨fun row hrow hid h8 hd hwf hrej => ?stored, fun row hrow hid h8 hd => ?null, fun h => ?unsupported⟩
  case stored =>
    obtain ⟨f, hf, hw, hbpp, hbytes⟩ := formatRow_writable hrow h8
    rw [← hid] at hf
    have hlen : (pxBytes f s.regs.color0).length = row.bytes := (pxBytes_length hw _).trans hbytes
    have hspace : (pxBytes f s.regs.color0).length ≤ 2 ^ s.params.addrW :=
      le_space hwf (Nat.le_trans (pxBytes_length_le f _) (Nat.le_trans f.bytes_le (by decide)))
    refine ⟨_, runPlain_write_of_store storePx hf hw hd (storePx_runs hrej _ _ _ _), ?contents, fun a ha => ?frame⟩
    case contents =>
      rw [← hbpp, ← pxBytes_toNat]
      exact holds_writeBytes _ _ _ hspace
    case frame => exact read_writeBytes_outside _ _ _ _ a (hlen.symm ▸ ha)
  case null =>
    obtain ⟨f, hf, hw, -⟩ := formatRow_writable hrow h8
    exact runPlain_write_of_null storePx (hid ▸ hf) hw hd
  case unsupported => exact runPlain_write_of_unwritable storePx fun f hf => writable_eq_false_of_rows h hf

/-! #### The alpha or pad byte -/

/-- The identifiers of the formats whose alpha or pad byte is byte 0 (41_color_codec R175). -/
theorem Fmt.alphaFirst_iff (f : Fmt) :
    f.alphaFirst = true ↔ f.ident ∈ [0x20018888#32, 0x20010888#32, 0x20028888#32, 0x20020888#32] := by
  cases f <;> decide

/-- The identifiers of the formats whose alpha or pad byte is byte 3 (41_color_codec R175). -/
theorem Fmt.alphaLast_iff (f : Fmt) :
    f.alphaLast = true ↔ f.ident ∈ [0x20038888#32, 0x20030888#32, 0x20048888#32, 0x20040888#32] := by
  cases f <;> decide

theorem Fmt.bytes_of_alphaLast {f : Fmt} (h : f.alphaLast = true) : f.bytes = 4 := by
  revert h
  cases f <;> decide

theorem Fmt.bytes_of_alphaFirst {f : Fmt} (h : f.alphaFirst = true) : f.bytes = 4 ∧ f.alphaLast = false := by
  revert h
  cases f <;> decide

/-- The merged bytes of a pixel, place by place (41_color_codec R175). -/
theorem byteAt_mergedBytes {f : Fmt} {old new : List Byte} {k : Nat} (hold : old.length = f.bytes)
    (hnew : new.length = f.bytes) (hk : k < f.bytes) :
    byteAt (mergedBytes f old new) k =
      if (k = 0 ∧ f.alphaFirst = true) ∨ (k = 3 ∧ f.alphaLast = true) then byteAt old k else byteAt new k := by
  unfold byteAt mergedBytes
  simp only [List.getD_eq_getElem?_getD]
  by_cases hfirst : f.alphaFirst = true
  · obtain ⟨h4, hlast⟩ := Fmt.bytes_of_alphaFirst hfirst
    obtain rfl | hpos := Nat.eq_zero_or_pos k
    · simp [hfirst, hold, h4]
    · have hk0 : k ≠ 0 := by omega
      simp [hfirst, hlast, List.getElem?_append, hold, h4, hk0, Nat.sub_add_cancel hpos]
  · by_cases hlast : f.alphaLast = true
    · have h4 := Fmt.bytes_of_alphaLast hlast
      obtain rfl | hlt : k = 3 ∨ k < 3 := by omega
      · simp [hfirst, hlast, List.getElem?_append, hnew, h4]
      · have hk3 : k ≠ 3 := by omega
        have hlen : k < new.length := by omega
        simp [hfirst, hlast, List.getElem?_append, hlt, hk3, hlen]
    · simp [hfirst, hlast]

theorem mergedBytes_length {f : Fmt} {old new : List Byte} (hold : old.length = f.bytes) (hnew : new.length = f.bytes) :
    (mergedBytes f old new).length = f.bytes := by
  unfold mergedBytes
  split
  · next h =>
    obtain ⟨h4, -⟩ := Fmt.bytes_of_alphaFirst h
    simp [hold, hnew, h4]
  · split
    · next h =>
      have h4 := Fmt.bytes_of_alphaLast h
      simp [hold, hnew, h4]
    · exact hnew

/-- A byte just written, as a number. -/
theorem byteNat_writeBytes {p : Params} {m : Memory} {a k : Nat} {bs : List Byte} (hn : bs.length ≤ 2 ^ p.addrW)
    (hk : k < bs.length) : byteNat p (writeBytes p m a bs) (a + k) = (byteAt bs k).toNat := by
  rw [byteNat, read_writeBytes_inside p m a bs hn hk, byteAt, List.getD_eq_getElem _ _ hk]

/-- The bytes `store_px` writes, one by one and in numbers (20_memory R67). -/
theorem byteAt_pxBytes (f : Fmt) (v : Word) (k : Nat) :
    (byteAt (pxBytes f v) k).toNat = (storeNat f.bpp v.toNat).getD k 0 := by
  rw [← pxBytes_toNat, byteAt]
  exact (List.getD_map _ 0 BitVec.toNat).symm

/-- Settles O32: the bytes written are `mergedBytes` (`storePxIa_runs`), which `byteAt_mergedBytes` reads place by
place. -/
theorem writeColorIgnoringAlpha : Obligations.WriteColorIgnoringAlpha := by
  intro s
  simp only [exec_writeColorIa, Host.Outcome.next.injEq]
  refine ⟨fun row hrow hid h8 hd hwf hrej => ?stored, fun row hrow hid h8 hd => ?null, fun h => ?unsupported⟩
  case stored =>
    obtain ⟨f, hf, hw, hbpp, hbytes⟩ := formatRow_writable hrow h8
    have hident : row.ident = f.ident := ident_of_decodeFmt hf
    rw [← hid] at hf
    have hold := bytesAt_length s.params s.mem s.regs.dst.toNat f.bytes
    have hnew := pxBytes_length hw s.regs.color0
    have hlen := mergedBytes_length hold hnew
    have hspace := le_space hwf (Nat.le_trans (hlen ▸ f.bytes_le) (by decide : 4 ≤ 2 ^ 32))
    have hstore := storePxIa_runs hrej s.regs.dst.toNat f s.regs.color0 s.work
    rw [work_mem] at hstore
    refine ⟨_, runPlain_write_of_store storePxIa hf hw hd hstore, fun k hk => ?contents, fun a ha => ?frame⟩
    case contents =>
      rw [← hbytes] at hk
      rw [byteNat_writeBytes hspace (hlen.symm ▸ hk), byteAt_mergedBytes hold hnew hk, apply_ite BitVec.toNat,
        byteAt_toNat hk, byteAt_pxBytes, hbpp, hident]
      simp only [Fmt.alphaFirst_iff, Fmt.alphaLast_iff]
    case frame => exact read_writeBytes_outside _ _ _ _ a (by rwa [hlen, hbytes])
  case null =>
    obtain ⟨f, hf, hw, -⟩ := formatRow_writable hrow h8
    exact runPlain_write_of_null storePxIa (hid ▸ hf) hw hd
  case unsupported => exact runPlain_write_of_unwritable storePxIa fun f hf => writable_eq_false_of_rows h hf

end Sys2Proof.Machine
end

section
/-! The copy commands' checks and the two paths (42_blit_engine R200 to R215): what a request comes to once its formats
are enumerated, and what the non-overlapping path adds to the overlap-safe one. -/

namespace Sys2Proof.Machine

/-! ### The checks every copy makes -/

theorem exec_copy (s : State) :
    exec .copy s = .next (s.runPlain (copyWith s.params (copyReq s.regs) (dispatchCopy s.params))) := rfl

theorem exec_copyOvl (s : State) :
    exec .copyOvl s = .next (s.runPlain (copyWith s.params (copyReq s.regs) (overlapSafe s.params))) := rfl

theorem exec_copyNovl (s : State) :
    exec .copyNovl s = .next (s.runPlain (copyWith s.params (copyReq s.regs) (nonOverlapping s.params))) := rfl

/-- The three copy commands differ only in the path they take after `copy_checks`. -/
theorem exec_copies {i : Instr} (hi : i ∈ [Instr.copy, .copyOvl, .copyNovl]) :
    ∃ path : Params → CopyJob → Cmd Unit,
      ∀ s, exec i s = .next (s.runPlain (copyWith s.params (copyReq s.regs) (path s.params))) := by
  simp only [List.mem_cons, List.not_mem_nil, or_false] at hi
  obtain rfl | rfl | rfl := hi
  · exact ⟨_, exec_copy⟩
  · exact ⟨_, exec_copyOvl⟩
  · exact ⟨_, exec_copyNovl⟩

/-- A request with a format that is not enumerated (42_blit_engine R202 step 1). -/
theorem copyWith_of_invalid {p : Params} {q : CopyReq} (h : q.dfmt = none ∨ q.sfmt = none) (path : CopyJob → Cmd Unit) :
    copyWith p q path = throw .unsupported := by
  unfold copyWith copyChecks
  obtain h | h := h
  · rw [h]
  · rw [h]
    cases q.dfmt <;> rfl

/-- The request of two enumerated formats: steps 2 to 4 of `copy_checks` (42_blit_engine R202), then the path. -/
theorem copyWith_of_formats {s : State} {df sf : Fmt} (h : s.formats df sf) (path : CopyJob → Cmd Unit) :
    copyWith s.params (copyReq s.regs) path =
      if s.params.maxDim < s.regs.w.toNat ∨ s.params.maxDim < s.regs.h.toNat then throw .invalidArg
      else if s.regs.dst = 0 ∨ s.regs.src = 0 then throw .invalidArg
      else if s.regs.w = 0 ∨ s.regs.h = 0 then pure ()
      else path (s.copyJob df sf) := by
  have hzero {n : Nat} (v : BitVec n) : v.toNat = 0 ↔ v = 0 := by simp [← BitVec.toNat_inj]
  obtain ⟨hd, hs⟩ := h
  simp only [copyWith, copyChecks, copyReq, hd, hs, hzero]
  split_ifs <;> rfl

/-- A request that has work to do takes its path (42_blit_engine R202). -/
theorem copyWith_of_copyable {s : State} {df sf : Fmt} (h : s.formats df sf) (hc : s.copyable)
    (path : CopyJob → Cmd Unit) : copyWith s.params (copyReq s.regs) path = path (s.copyJob df sf) := by
  obtain ⟨hw, hh, hdst, hsrc, hw0, hh0⟩ := hc
  rw [copyWith_of_formats h, if_neg (by omega), if_neg (by tauto), if_neg (by tauto)]

/-- A command that only fails. -/
theorem runPlain_throw (s : State) {e : Err} (he : e.isFault = false) : s.runPlain (throw e) = s.failed e.code :=
  runPlain_of_failure (throw_runs e _) he

/-- Settles O36, by the request's equation: each clause is one of its branches. (The model has the name `copyChecks` in
this namespace.) -/
theorem Copies.copyChecks : Obligations.CopyChecks := by
  intro i s hi
  obtain ⟨path, hexec⟩ := exec_copies hi
  rw [hexec]
  refine ⟨fun h => ?invalid, fun df sf hf => ⟨fun hbig => ?oversized,
    fun hw hh => ⟨fun hnull => ?null, fun hd hs h0 => ?empty⟩⟩⟩
  case invalid =>
    rw [copyWith_of_invalid h, runPlain_throw s (e := .unsupported) rfl]
    rfl
  case oversized =>
    rw [copyWith_of_formats hf, if_pos hbig, runPlain_throw s (e := .invalidArg) rfl]
    rfl
  case null =>
    rw [copyWith_of_formats hf, if_neg (by omega), if_pos hnull, runPlain_throw s (e := .invalidArg) rfl]
    rfl
  case empty =>
    rw [copyWith_of_formats hf, if_neg (by omega), if_neg (by tauto), if_pos h0, runPlain_of_ok (pure_runs () _)]
    rfl

/-! ### COPY's choice of a path -/

/-- The overlap predicate in terms of the operands (42_blit_engine R201). -/
theorem copyJob_overlap_iff (s : State) (df sf : Fmt) :
    (s.copyJob df sf).overlap = true ↔
      let j := s.copyJob df sf
      s.regs.dst.toNat + j.ds * s.regs.dy.toNat ≤
          s.regs.src.toNat + j.ss * s.regs.sy.toNat + j.ss * s.regs.h.toNat ∧
        s.regs.src.toNat + j.ss * s.regs.sy.toNat ≤
          s.regs.dst.toNat + j.ds * s.regs.dy.toNat + j.ds * s.regs.h.toNat := by
  simp only [CopyJob.overlap, Bool.and_eq_true, decide_eq_true_eq]
  rfl

/-- COPY of two enumerated formats is one of the other two copies (42_blit_engine R200). -/
theorem exec_copy_of_formats {s : State} {df sf : Fmt} (h : s.formats df sf) :
    exec .copy s = if (s.copyJob df sf).overlap = true then exec .copyOvl s else exec .copyNovl s := by
  by_cases ho : (s.copyJob df sf).overlap = true
  · simp only [exec_copy, exec_copyOvl, copyWith_of_formats h, dispatchCopy, ho, if_true]
  · simp only [exec_copy, exec_copyNovl, copyWith_of_formats h, dispatchCopy, ho, Bool.false_eq_true, if_false]

/-- Settles O37, by COPY's choice of a path and the overlap predicate in terms of the operands. -/
theorem copyDispatch : Obligations.CopyDispatch := by
  intro s df sf h
  rw [exec_copy_of_formats h]
  simp only [copyJob_overlap_iff]
  simp only [State.copyJob, CopyReq.job, copyReq, effStride_eq]

/-! ### The non-overlapping path -/

/-- The non-overlapping path, step by step (42_blit_engine R214). -/
theorem nonOverlapping_runs (p : Params) (j : CopyJob) (w : Work) :
    nonOverlapping p j w =
      if p.backendCopyPresent = false then .error .backend (w.withBinit true)
      else if j.overlap = true then .error .assertion (w.withBinit true)
      else overlapSafe p j (w.withBinit true) := by
  have hset : setBinit w = .ok () (w.withBinit true) := rfl
  rw [nonOverlapping, bind_runs_ok hset, failIf_bind, failIf_bind]
  simp only [Bool.not_eq_true']

/-- A body that does what another one does with the backend handle's bit at `b` ends as that one, BINIT at `b`. -/
theorem runPlain_withBinit {s : State} {c d : Cmd Unit} {b : Bool} (hc : Blind c)
    (hd : d s.work = c (s.work.withBinit b)) :
    s.runPlain d =
      { s.runPlain c with status := ⟨(s.runPlain c).status.err, (s.runPlain c).status.fault, b⟩ } := by
  rw [hc s.work b] at hd
  cases hr : c s.work with
  | ok u w =>
    rw [hr] at hd
    rw [runPlain_of_ok hr, runPlain_of_ok hd]
    rfl
  | error e w =>
    rw [hr] at hd
    rw [runPlain_of_error hr, runPlain_of_error hd]
    rfl

section
variable {s : State} {df sf : Fmt} (hf : s.formats df sf) (hc : s.copyable)
include hf hc

/-- A body that ends early with BINIT set as its only change. -/
theorem exec_copyNovl_of_error {e : Err}
    (h : nonOverlapping s.params (s.copyJob df sf) s.work = .error e (s.work.withBinit true)) :
    exec .copyNovl s = .next { s with status := s.status.conclude true (some e) } := by
  rw [exec_copyNovl, copyWith_of_copyable hf hc, runPlain_of_error h]
  rfl

/-- On ranges that do not meet, the backend's copy is the overlap-safe one (42_blit_engine R215). -/
theorem exec_copyNovl_of_apart (hb : s.params.backendCopyPresent = true) (ho : (s.copyJob df sf).overlap = false)
    {t : State} (ht : exec .copyOvl s = .next t) :
    exec .copyNovl s = .next { t with status := ⟨t.status.err, t.status.fault, true⟩ } := by
  rw [exec_copyOvl, copyWith_of_copyable hf hc] at ht
  obtain rfl := Host.Outcome.next.inj ht
  rw [exec_copyNovl, copyWith_of_copyable hf hc, runPlain_withBinit (overlapSafe_blind _ _)]
  simp [nonOverlapping_runs, hb, ho]

end

/-- Settles O38, by the path's equation; what follows its checks does not read BINIT (`overlapSafe_blind`). -/
theorem nonOverlappingPath : Obligations.NonOverlappingPath := by
  refine fun s df sf hf hc => ⟨fun hb => ?backend, fun hb ho => ?assertion, fun hb ho t ht => ?copied⟩
  case backend =>
    rw [exec_copyNovl_of_error hf hc (e := .backend) (by rw [nonOverlapping_runs, if_pos hb])]
    simp [Status.conclude, Err.code, Err.isFault]
  case assertion =>
    rw [exec_copyNovl_of_error hf hc (e := .assertion) (by rw [nonOverlapping_runs, if_neg (by simp [hb]), if_pos ho])]
    simp [Status.conclude, Err.code, Err.isFault]
  case copied => exact exec_copyNovl_of_apart hf hc hb ho ht

/-! ### Copies that succeed -/

section
variable {s : State} {df sf : Fmt} {m : Memory} (hf : s.formats df sf) (hc : s.copyable)
include hf hc

/-- An overlap-safe copy that runs through. -/
theorem exec_copyOvl_of_runs
    (h : overlapSafe s.params (s.copyJob df sf) s.work = .ok () ⟨m, s.status.binit, s.draws⟩) :
    exec .copyOvl s = .next (s.succeeded m s.status.binit) := by
  rw [exec_copyOvl, copyWith_of_copyable hf hc, runPlain_of_ok h]
  rfl

/-- COPY_NOVL and COPY succeed as COPY_OVL does where the ranges do not meet, with BINIT set (42_blit_engine R214). -/
theorem exec_copyNovl_of_succeeded (hb : s.params.backendCopyPresent = true)
    (ho : (s.copyJob df sf).overlap = false) (h : exec .copyOvl s = .next (s.succeeded m s.status.binit)) :
    exec .copyNovl s = .next (s.succeeded m true) :=
  exec_copyNovl_of_apart hf hc hb ho h

/-- COPY succeeds as COPY_OVL does. -/
theorem exec_copy_of_succeeded {i : Instr} (hi : i ∈ [Instr.copy, .copyOvl])
    (hb : s.params.backendCopyPresent = true) (h : exec .copyOvl s = .next (s.succeeded m s.status.binit)) :
    ∃ b, exec i s = .next (s.succeeded m b) := by
  simp only [List.mem_cons, List.not_mem_nil, or_false] at hi
  obtain rfl | rfl := hi
  · rw [exec_copy_of_formats hf]
    split
    · exact ⟨_, h⟩
    · next ho => exact ⟨true, exec_copyNovl_of_succeeded hf hc hb (Bool.eq_false_iff.2 ho) h⟩
  · exact ⟨_, h⟩

/-- A copy that is ready completes within its rectangle (42_blit_engine R205, R207). -/
theorem exec_copyOvl_of_ready (hrej : s.params.rejects = []) (hr : (s.copyJob df sf).ready s.params s.mem) :
    ∃ m, exec .copyOvl s = .next (s.succeeded m s.status.binit) ∧
      ∀ a, ¬ (destRect s.regs df).footprint s.params a → Memory.read m a = Memory.read s.mem a := by
  obtain ⟨w, hw, hkeep, hbinit, hdraws⟩ := overlapSafe_runs (w := s.work) hrej hr
  refine ⟨w.mem, exec_copyOvl_of_runs hf hc ?_, hkeep⟩
  rw [hw, ← work_binit, ← work_draws, ← hbinit, ← hdraws]

end

/-- Settles O39, by what COPY_OVL leaves and COPY's choice of a path. -/
theorem copiesComplete : Obligations.CopiesComplete := by
  intro s df sf hf hc hrej hr
  obtain ⟨m, hovl, hkeep⟩ := exec_copyOvl_of_ready hf hc hrej hr
  refine ⟨⟨m, hovl, hkeep⟩, fun ho => ⟨m, ?meet, hkeep⟩, fun ho hb => ⟨m, ?apart, ?novl, hkeep⟩⟩
  case meet => rw [exec_copy_of_formats hf, if_pos ho, hovl]
  case novl => exact exec_copyNovl_of_succeeded hf hc hb ho hovl
  case apart =>
    rw [exec_copy_of_formats hf, if_neg (by simp [ho])]
    exact exec_copyNovl_of_succeeded hf hc hb ho hovl

/-! ### `conv_checks` -/

/-- The store of a converting mode (42_blit_engine R208, R209). -/
def CopyJob.store (p : Params) (j : CopyJob) (a : Nat) (v : Word) : Cmd Unit :=
  match j.mode with
  | .alpha => storePxIa p a j.df v
  | .conv | .raw => storePx p a j.df v

/-- The two converting modes are one per-pixel loop (42_blit_engine R208, R209). -/
theorem overlapSafe_of_converting (p : Params) {j : CopyJob} (hm : j.mode ≠ .raw) :
    overlapSafe p j = pixelCopy p j (j.store p) := by
  unfold overlapSafe CopyJob.store
  cases h : j.mode with
  | raw => exact absurd h hm
  | conv | alpha => rfl

theorem overlapSafe_of_raw (p : Params) {j : CopyJob} (hm : j.mode = .raw) : overlapSafe p j = rawCopy p j := by
  rw [overlapSafe, hm]

/-- The lines of `conv_checks` for an RGB8 source, by what the palette's tag says (42_blit_engine R207). -/
theorem paletteChecks_runs {p : Params} (hrej : p.rejects = []) {pal : Palette} (hpal : pal ≠ .absent) (w : Work) :
    paletteChecks p pal w =
      match (paletteIn p w.mem pal 0).1 with
      | none => .error .unsupported w
      | some g =>
        if g = .rgb8 then .error .missingContext w
        else if g.unpackable = true then .ok () w
        else .error .unsupported w := by
  rw [paletteChecks, failIf_bind, beq_false_of_ne hpal, if_neg Bool.false_ne_true,
    bind_runs_ok (paletteFmt_runs hrej pal w)]
  cases (paletteIn p w.mem pal 0).1 with
  | none => rfl
  | some g => cases g <;> rfl

theorem paletteAt_ne_absent {pal : Slot} (h : pal ≠ 0) : paletteAt pal ≠ .absent := by
  rw [paletteAt, if_neg h]
  nofun

/-- The tag of the palette at PAL. -/
theorem paletteAt_tag (p : Params) (m : Memory) {pal : Slot} (h : pal ≠ 0) :
    (paletteIn p m (paletteAt pal) 0).1 = decodeFmt (wordLeAt p m pal.toNat) := by
  rw [paletteAt, if_neg h]
  rfl

/-- The first line of `conv_checks` (42_blit_engine R207). -/
theorem convChecks_of_not_unpackable (p : Params) {sf : Fmt} (df : Fmt) (pal : Palette) (w : Work)
    (hs : sf.unpackable = false) : convChecks p sf df pal w = .error .unsupported w := by
  rw [convChecks, failIf_bind, hs]
  rfl

/-- The lines of `conv_checks` for a source that is unpacked without a palette (42_blit_engine R207). -/
theorem convChecks_of_direct (p : Params) {sf : Fmt} (df : Fmt) (pal : Palette) (w : Work) (hs : sf.unpackable = true)
    (h8 : sf ≠ .rgb8) : convChecks p sf df pal w = failIf (!df.packable) .unsupported w := by
  rw [convChecks, failIf_bind, hs, beq_false_of_ne h8]
  rfl

/-- The lines of `conv_checks` for an RGB8 source (42_blit_engine R207). -/
theorem convChecks_rgb8 (p : Params) (df : Fmt) (pal : Palette) :
    convChecks p .rgb8 df pal = (do paletteChecks p pal; failIf (!df.packable) .unsupported) := rfl

/-- The formats that do not pack (40_format_metadata R127). -/
theorem Fmt.packable_eq_false {f : Fmt} (h : f = .rgb8 ∨ f = .a4 ∨ f = .mono) : f.packable = false := by
  obtain rfl | rfl | rfl := h <;> rfl

/-- The formats that do not unpack (40_format_metadata R127). -/
theorem Fmt.unpackable_eq_false {f : Fmt} (h : f = .a4 ∨ f = .bgrx32Depth30 ∨ f = .rgbx32Depth30) :
    f.unpackable = false := by
  obtain rfl | rfl | rfl := h <;> rfl

/-- Where `conv_checks` fails a copy in a converting mode fails with its code. -/
theorem exec_copyOvl_of_checks {s : State} {df sf : Fmt} (hf : s.formats df sf) (hc : s.copyable)
    (hm : (s.copyJob df sf).mode ≠ .raw) {e : Err} (he : e.isFault = false)
    (h : convChecks s.params sf df (paletteAt s.regs.pal) s.work = .error e s.work) :
    exec .copyOvl s = .next (s.failed e.code) := by
  rw [exec_copyOvl, copyWith_of_copyable hf hc, overlapSafe_of_converting _ hm]
  exact congrArg Host.Outcome.next (runPlain_of_failure (bind_runs_error h) he)

/-- Settles O40: `exec_copyOvl_of_checks` with the line of `conv_checks` that fails. -/
theorem conversionChecks : Obligations.ConversionChecks := by
  intro s df sf hf hc hm
  have fails {e : Err} (he : e.isFault = false) (h : convChecks s.params sf df (paletteAt s.regs.pal) s.work =
      .error e s.work) : exec .copyOvl s = .next (s.failed e.code) := exec_copyOvl_of_checks hf hc hm he h
  refine ⟨fun hs => ?source, fun h8 hpal => ?noPalette, fun h8 hpal hrej => ?palette, fun hs h8 hd => ?destination⟩
  case source =>
    exact fails (e := .unsupported) rfl (convChecks_of_not_unpackable _ _ _ _ (Fmt.unpackable_eq_false hs))
  case noPalette =>
    subst h8
    refine fails (e := .missingContext) rfl ?_
    rw [convChecks_rgb8, paletteAt, if_pos hpal]
    rfl
  case palette =>
    subst h8
    have hchecks := paletteChecks_runs (pal := paletteAt s.regs.pal) hrej (paletteAt_ne_absent hpal) s.work
    rw [paletteAt_tag _ _ hpal, work_mem] at hchecks
    refine ⟨fun htag => ?tagged8, fun htag => ?tagUnusable, fun g htag hg8 hgu hd => ?tagServes⟩
    case tagged8 =>
      simp only [htag, if_true] at hchecks
      refine fails (e := .missingContext) rfl ?_
      rw [convChecks_rgb8, bind_runs_error hchecks]
    case tagUnusable =>
      refine fails (e := .unsupported) rfl ?_
      rw [convChecks_rgb8]
      refine bind_runs_error (hchecks.trans ?_)
      cases ht : decodeFmt (wordLeAt s.params s.mem s.regs.pal.toNat) with
      | none => rfl
      | some g =>
        have hu := htag g ht
        have hg8 : g ≠ .rgb8 := by
          rintro rfl
          cases hu
        simp only [if_neg hg8, hu, Bool.false_eq_true, if_false]
    case tagServes =>
      simp only [htag, if_neg hg8, hgu, if_true] at hchecks
      refine fails (e := .unsupported) rfl ?_
      rw [convChecks_rgb8, bind_runs_ok hchecks, Fmt.packable_eq_false hd]
      rfl
  case destination =>
    refine fails (e := .unsupported) rfl ?_
    rw [convChecks_of_direct _ _ _ _ hs h8, Fmt.packable_eq_false hd]
    rfl

end Sys2Proof.Machine
end

section
/-! What a copy leaves in its destination rectangle (42_blit_engine R206, R208, R209, R212): first where the source lies
apart from it, then within one buffer, where the order of rows and columns (R203) keeps a source from being overwritten
before it is read. -/

namespace Sys2Proof.Machine

/-! ### Copies that run through -/

/-- A copy whose overlap-safe path runs through succeeds by COPY as by COPY_OVL. -/
theorem exec_copy_of_runs {i : Instr} {s : State} {df sf : Fmt} {m : Memory} (hi : i ∈ [Instr.copy, .copyOvl])
    (hf : s.formats df sf) (hc : s.copyable) (hb : s.params.backendCopyPresent = true)
    (h : overlapSafe s.params (s.copyJob df sf) s.work = .ok () ⟨m, s.status.binit, s.draws⟩) :
    ∃ b, exec i s = .next (s.succeeded m b) :=
  exec_copy_of_succeeded hf hc hi hb (exec_copyOvl_of_runs hf hc h)

/-- A copy with work to do has an area. -/
theorem copyJob_area {s : State} (df sf : Fmt) (hc : s.copyable) :
    0 < (s.copyJob df sf).w ∧ 0 < (s.copyJob df sf).h := by
  obtain ⟨-, -, -, -, hw, hh⟩ := hc
  exact ⟨Nat.pos_of_ne_zero fun h => hw (BitVec.eq_of_toNat_eq h),
    Nat.pos_of_ne_zero fun h => hh (BitVec.eq_of_toNat_eq h)⟩

/-! ### RAW mode, the source apart -/

section
variable {p : Params} {j : CopyJob}

/-- Where the rectangles coincide a source pixel is a pixel of the destination, its row flipped or not
(42_blit_engine R203, R206). -/
theorem CopyJob.srcPixel_of_coincide (hb : j.sf.bytes = j.df.bytes) (hc : j.coincide = true) (x y : Nat) :
    j.srcPixel x y = j.rect.pixel x (if j.flip then j.h - 1 - y else y) := by
  simp only [CopyJob.coincide, decide_eq_true_eq] at hc
  obtain ⟨hdy, hdx, hdst, hds⟩ := hc
  simp only [CopyJob.srcPixel, CopyJob.srow, CopyJob.rect, Rect.pixel, pxAddr, hb, hdy, hdx, hdst, hds]

/-- A source of some area that lies apart from the destination does not coincide with it. -/
theorem CopyJob.coincide_of_apart (hb : j.sf.bytes = j.df.bytes) (hw : 0 < j.w) (hh : 0 < j.h)
    (hapart : j.sourceApart p) : j.coincide = false := by
  refine Bool.eq_false_iff.2 fun hc => hapart 0 hh 0 (Nat.mul_pos hw j.sf.bytes_pos) ?_
  rw [CopyJob.srcPixel_of_coincide hb hc]
  refine ⟨_, ?_, 0, Nat.mul_pos hw j.df.bytes_pos, rfl⟩
  show (if j.flip then j.h - 1 - 0 else 0) < j.h
  split <;> omega

end

/-- Settles O41, by `rawCopy_store`: no row of the source is in the rectangle, which therefore does not coincide with
it. -/
theorem rawCopyContents : Obligations.RawCopyContents := by
  intro i s df sf hi hf hc hrej hback hm hfits hrows hapart
  have hb : sf.bytes = df.bytes := CopyJob.bytes_of_raw hm
  obtain ⟨hw, hh⟩ := copyJob_area df sf hc
  obtain ⟨m, hrun, hcontents, -⟩ := rawCopy_store (j := s.copyJob df sf) (w₀ := s.work) hrej hfits hrows
    (CopyJob.coincide_of_apart hb hw hh hapart) (by
      rintro done y rest hd y' hy' _ ⟨k, hk, rfl⟩ hmeet
      have mem {n : Nat} (h : n ∈ done ++ y :: rest) : n < (s.copyJob df sf).h := CopyJob.mem_rowOrder (hd ▸ h)
      exact hapart y (mem (by simp)) k (hb ▸ hk) ⟨y', mem (by simp [hy']), hmeet⟩)
  rw [← overlapSafe_of_raw _ hm] at hrun
  obtain ⟨b, hexec⟩ := exec_copy_of_runs hi hf hc hback hrun
  exact ⟨m, b, hexec, hcontents⟩

/-! ### The converting modes -/

theorem storedBytes_length {mode : CopyMode} {f : Fmt} (hf : f.packable = true) {old : List Byte} (v : Word)
    (hold : old.length = f.bytes) : (storedBytes mode f old v).length = f.bytes := by
  have hnew := pxBytes_length (Fmt.writable_of_packable hf) v
  cases mode with
  | alpha => exact mergedBytes_length hold hnew
  | conv | raw => exact hnew

/-- The store of a copy's mode writes `storedBytes` (42_blit_engine R208, R209). -/
theorem CopyJob.store_runs {p : Params} (hrej : p.rejects = []) (j : CopyJob) (a : Nat) (v : Word) (w : Work) :
    j.store p a v w =
      .ok () ⟨writeBytes p w.mem a (storedBytes j.mode j.df (bytesAt p w.mem a j.df.bytes) v), w.binit, w.draws⟩ := by
  unfold CopyJob.store storedBytes
  cases j.mode with
  | alpha => exact storePxIa_runs hrej a j.df v w
  | conv | raw => exact storePx_runs hrej a j.df v w

/-- The conversion of a packed value by a copy, memory as `m`; 0 where it fails. -/
def CopyJob.converted (p : Params) (m : Memory) (j : CopyJob) (v : Word) : Word :=
  match convertIn p m j.pal j.sf j.df v with
  | .ok c => c
  | .error _ => 0

section
variable {p : Params} {j : CopyJob}

/-- No source pixel's conversion fails once the mode's checks have passed (42_blit_engine R207). -/
theorem convertIn_converted {m : Memory} (hm : j.mode ≠ .raw) (hr : j.ready p m) (a : Nat) :
    convertIn p m j.pal j.sf j.df (pixelAt p m a j.sf) = .ok (j.converted p m (pixelAt p m a j.sf)) := by
  obtain ⟨hs, hd, hpal⟩ := hr.resolve_left hm
  have hv : j.sf = .rgb8 → (pixelAt p m a j.sf).toNat ≤ 255 := fun h8 => by
    rw [h8]
    exact pixelAt_rgb8_le p m a
  obtain ⟨c, hc⟩ := convertIn_ok (p := p) hs hd fun h8 => ⟨hv h8, (CopyJob.ready_tag (hpal h8)).1⟩
  rw [CopyJob.converted, hc]

/-- The palette's answers rest on bytes outside the rectangle. -/
theorem convertIn_congr {m m' : Memory} (hpal : j.paletteApart p)
    (hmem : ∀ a, ¬ j.rect.footprint p a → Memory.read m a = Memory.read m' a) {v : Word}
    (hv : j.sf = .rgb8 → v.toNat ≤ 255) :
    convertIn p m j.pal j.sf j.df v = convertIn p m' j.pal j.sf j.df v := by
  have hchan : channelsIn p m j.pal j.sf v = channelsIn p m' j.pal j.sf v := by
    by_cases h8 : j.sf = .rgb8
    · cases hp : j.pal with
      | absent | built es => rfl
      | inMemory a =>
        have htag : wordLeAt p m a = wordLeAt p m' a :=
          wordLeAt_congr fun k hk => hmem _ (hpal h8 a hp k (by omega))
        have hentry : wordLeAt p m (a + 4 + 4 * v.toNat) = wordLeAt p m' (a + 4 + 4 * v.toNat) := by
          have := hv h8
          refine wordLeAt_congr fun k hk => hmem _ ?_
          rw [show a + 4 + 4 * v.toNat + k = a + (4 + 4 * v.toNat + k) by omega]
          exact hpal h8 a hp _ (by omega)
        simp only [channelsIn, paletteIn, htag, hentry]
    · simp only [channelsIn, if_neg h8]
  simp only [convertIn, hchan]

theorem CopyJob.mem_pixels {q : Nat × Nat} (h : q ∈ pixelOrder j.colOrder j.rowOrder) : q.1 < j.w ∧ q.2 < j.h :=
  ⟨CopyJob.mem_colOrder (mem_pixelOrder.1 h).1, CopyJob.mem_rowOrder (mem_pixelOrder.1 h).2⟩

/-- No byte of a source pixel is in the rectangle. -/
theorem CopyJob.source_apart (hapart : j.sourceApart p) {x y a : Nat} (hx : x < j.w) (hy : y < j.h)
    (h : span p (j.srcPixel x y) j.sf.bytes a) : ¬ j.rect.footprint p a := by
  obtain ⟨k, hk, rfl⟩ := h
  rw [j.srcPixel_eq x y, Nat.add_assoc]
  exact hapart y hy _ (Rect.column_end (t := { j.rect with fmt := j.sf }) hx hk)

/-- A converting copy that is ready, where no pixel is overwritten before it is read as a source: every pixel of the
rectangle holds its source's conversion, stored as the mode stores it, and everything else stays. -/
theorem overlapSafe_converts (hrej : p.rejects = []) {w : Work} (hm : j.mode ≠ .raw) (hr : j.ready p w.mem)
    (hfits : j.rect.fits p) (hrows : j.rect.rowsApart) (hpal : j.paletteApart p)
    (hread : ∀ done x y rest, pixelOrder j.colOrder j.rowOrder = done ++ (x, y) :: rest → ∀ q ∈ done, ∀ a,
      span p (j.srcPixel x y) j.sf.bytes a → ¬ span p (j.rect.pixel q.1 q.2) j.df.bytes a) :
    ∃ m, overlapSafe p j w = .ok () ⟨m, w.binit, w.draws⟩ ∧
      (∀ x y, x < j.w → y < j.h → bytesAt p m (j.rect.pixel x y) j.df.bytes =
        storedBytes j.mode j.df (bytesAt p w.mem (j.rect.pixel x y) j.df.bytes)
          (j.converted p w.mem (pixelAt p w.mem (j.srcPixel x y) j.sf))) ∧
      ∀ a, ¬ j.rect.footprint p a → Memory.read m a = Memory.read w.mem a := by
  obtain ⟨hs, hd, hgood⟩ := hr.resolve_left hm
  rw [overlapSafe_of_converting p hm]
  refine pixelCopy_store hrej (put := storedBytes j.mode j.df) hfits hrows hs hd
    (fun h8 => (CopyJob.ready_tag (hgood h8)).1) (fun old v hold => storedBytes_length hd v hold)
    (j.store_runs hrej) (fun x y _ _ m hmem => ?_) hread
  rw [convertIn_congr hpal hmem, convertIn_converted hm hr]
  intro h8
  rw [h8]
  exact pixelAt_rgb8_le p _ _

end

/-- A conversion that succeeds, in numbers (41_color_codec R179): the tables' channels and their packed value. -/
theorem unpackNat_of_convertIn {p : Params} {m : Memory} {pal : Slot} {sf df : Fmt} {v c : Word}
    (h : convertIn p m (paletteAt pal) sf df v = .ok c) :
    ∃ t n, unpackNat p m pal.toNat sf v.toNat = .ok t ∧ packedNat p df t = some n ∧ BitVec.ofNat 32 n = c := by
  rw [unpackNat_toNat]
  unfold convertIn at h
  cases hx : channelsIn p m (paletteAt pal) sf v with
  | error e =>
    rw [hx] at h
    cases h
  | ok x =>
    rw [hx] at h
    refine ⟨channelNats x, c.toNat, rfl, ?_, by rw [BitVec.ofNat_toNat, BitVec.setWidth_eq]⟩
    rw [packedNat_channelNats, show pack p df x = .ok c from h]
    rfl

/-- Settles O42, by `overlapSafe_converts` with the source apart, each conversion in numbers. -/
theorem convertingCopyContents : Obligations.ConvertingCopyContents := by
  intro i s df sf hi hf hc hrej hback hm hr hfits hrows hapart hpal
  obtain ⟨m, hrun, hcontents, -⟩ := overlapSafe_converts (j := s.copyJob df sf) (w := s.work) hrej hm hr hfits hrows
    hpal (by
      intro done x y rest hd q hq a hsrc hmeet
      obtain ⟨hx, hy⟩ := CopyJob.mem_pixels (j := s.copyJob df sf) (q := (x, y)) (by simp [hd])
      obtain ⟨hqx, hqy⟩ := CopyJob.mem_pixels (j := s.copyJob df sf) (q := q) (by simp [hd, hq])
      exact CopyJob.source_apart hapart hx hy hsrc
        (Rect.pixel_footprint (t := (s.copyJob df sf).rect) hqx hqy hmeet))
  obtain ⟨b, hexec⟩ := exec_copy_of_runs hi hf hc hback hrun
  refine ⟨m, b, hexec, fun x y hx hy => ?_⟩
  obtain ⟨t, n, ht, hn, hv⟩ := unpackNat_of_convertIn
    (convertIn_converted (j := s.copyJob df sf) hm hr ((s.copyJob df sf).srcPixel x y))
  rw [← pixelAt_toNat]
  exact ⟨t, n, ht, hn, hv ▸ hcontents x y hx hy⟩

/-! ### Within one buffer -/

/-- The part of the buffer from its start on that holds both rectangles of a copy within one buffer. -/
def CopyJob.canvas (j : CopyJob) : Rect where
  base := j.dst
  stride := j.ds
  fmt := j.df
  x := 0
  y := 0
  w := max j.dx j.sx + j.w
  h := max j.dy j.sy + j.h

/-- The bytes from a pixel on that stay in its row are bytes of that row. -/
theorem Rect.span_row {p : Params} {t : Rect} {x y n a : Nat} (hn : x * t.fmt.bytes + n ≤ t.rowBytes)
    (h : span p (t.pixel x y) n a) : span p (t.pixel 0 y) t.rowBytes a := by
  obtain ⟨k, hk, rfl⟩ := h
  exact ⟨x * t.fmt.bytes + k, by omega, by rw [t.pixel_add]⟩

/-- In a sorted list the turns before a turn are smaller. -/
theorem pairwise_of_split {ι : Type} {r : ι → ι → Prop} {l done rest : List ι} {i k : ι} (h : l.Pairwise r)
    (hl : l = done ++ i :: rest) (hk : k ∈ done) : r k i := by
  rw [hl] at h
  exact (List.pairwise_append.1 h).2.2 k hk i (by simp)

section
variable {p : Params} {j : CopyJob}

/-- The order of rows reads each row before any write reaches it (42_blit_engine R203). -/
theorem CopyJob.row_read_first {y y' : Nat} (h : scanBefore (j.sy < j.dy) y' y) : j.sy + y ≠ j.dy + y' := by
  unfold scanBefore at h
  split at h <;> omega

/-- The order of rows and columns reads each pixel before any write reaches it (42_blit_engine R203). -/
theorem CopyJob.pixel_read_first {q q' : Nat × Nat}
    (h : pixelBefore (scanBefore (j.dy = j.sy ∧ j.sx < j.dx)) (scanBefore (j.sy < j.dy)) q' q) :
    (j.sx + q.1, j.sy + q.2) ≠ (j.dx + q'.1, j.dy + q'.2) := by
  simp only [ne_eq, Prod.mk.injEq]
  rintro ⟨hx, hy⟩
  obtain h | ⟨he, h⟩ := h
  · exact CopyJob.row_read_first h hy
  · unfold scanBefore at h
    split at h <;> omega

theorem CopyJob.rect_pixel (j : CopyJob) (x y : Nat) :
    j.rect.pixel x y = j.canvas.pixel (j.dx + x) (j.dy + y) := by
  simp only [Rect.pixel, CopyJob.canvas, CopyJob.rect, Nat.zero_add]

/-- A row of either rectangle lies in its row of the canvas. -/
theorem CopyJob.canvas_columns (j : CopyJob) {c : Nat} (hc : c ≤ max j.dx j.sx) :
    c * j.canvas.fmt.bytes + j.rect.rowBytes ≤ j.canvas.rowBytes := by
  show c * j.df.bytes + j.w * j.df.bytes ≤ (max j.dx j.sx + j.w) * j.df.bytes
  rw [← Nat.add_mul]
  exact Nat.mul_le_mul_right _ (Nat.add_le_add_right hc _)

section
variable (h : j.sameBuffer p)
include h

theorem CopyJob.srcPixel_canvas (x y : Nat) : j.srcPixel x y = j.canvas.pixel (j.sx + x) (j.sy + y) := by
  obtain ⟨hdst, hds, hb, hflip, -, -⟩ := h
  simp only [CopyJob.srcPixel, CopyJob.srow, hflip, Rect.pixel, CopyJob.canvas, Nat.zero_add, hdst, hds, hb,
    pxAddr, Bool.false_eq_true, if_false]

theorem CopyJob.canvas_rowsApart : j.canvas.rowsApart := by
  obtain ⟨-, -, -, -, hrow, -⟩ := h
  exact .inl (by simpa only [CopyJob.canvas, Nat.zero_add] using hrow)

theorem CopyJob.canvas_fits (hh : 0 < j.h) : j.canvas.fits p := by
  obtain ⟨-, -, -, -, hrow, hend⟩ := h
  obtain ⟨n, hn⟩ : ∃ n, max j.dy j.sy + j.h = n + 1 := ⟨max j.dy j.sy + j.h - 1, by omega⟩
  rw [hn, Nat.add_mul, Nat.one_mul] at hend
  simp only [Rect.fits, Rect.pixel, Rect.rowBytes, pxAddr, CopyJob.canvas, hn, Nat.add_sub_cancel, Nat.zero_add,
    Nat.add_zero, Nat.zero_mul]
  omega

theorem CopyJob.rect_rowsApart : j.rect.rowsApart := by
  obtain ⟨-, -, -, -, hrow, -⟩ := h
  exact .inl (Nat.le_trans (Nat.mul_le_mul_right _ (Nat.add_le_add_right (Nat.le_max_left _ _) _)) hrow)

theorem CopyJob.rect_fits (hh : 0 < j.h) : j.rect.fits p := by
  have hcanvas := CopyJob.canvas_fits h hh
  have hcols := j.canvas_columns (Nat.le_max_left j.dx j.sx)
  have hlast : (j.dy + (j.h - 1)) * j.canvas.stride ≤ (j.canvas.h - 1) * j.canvas.stride :=
    Nat.mul_le_mul_right _ (by simp only [CopyJob.canvas]; omega)
  unfold Rect.fits at hcanvas ⊢
  rw [Rect.row_eq] at hcanvas
  rw [CopyJob.rect_pixel, Rect.pixel_eq, Rect.row_eq, Nat.add_zero]
  show _ + (j.dy + (j.h - 1)) * j.canvas.stride + _ + _ ≤ _
  omega

/-- A row of the source meets a row of the rectangle only in the same row of the canvas. -/
theorem CopyJob.rows_meet {y y' a : Nat} (hy : y < j.h) (hy' : y' < j.h) (hne : j.sy + y ≠ j.dy + y')
    (hs : span p (j.srcPixel 0 y) j.rect.rowBytes a) : ¬ span p (j.rect.pixel 0 y') j.rect.rowBytes a := by
  rw [CopyJob.srcPixel_canvas h] at hs
  rw [CopyJob.rect_pixel]
  intro hd
  have hin {r d : Nat} (hr : r < j.h) (hd : d ≤ max j.dy j.sy) : d + r < j.canvas.h := by
    simp only [CopyJob.canvas]
    omega
  exact Rect.rows_apart (CopyJob.canvas_fits h (by omega)) (CopyJob.canvas_rowsApart h)
    (hin hy (Nat.le_max_right _ _)) (hin hy' (Nat.le_max_left _ _)) hne
    (Rect.span_row (j.canvas_columns (Nat.le_max_right _ _)) hs)
    (Rect.span_row (j.canvas_columns (Nat.le_max_left _ _)) hd)

/-- A pixel of the source meets a pixel of the rectangle only in the same pixel of the canvas. -/
theorem CopyJob.pixels_meet {q q' : Nat × Nat} {a : Nat} (hq : q.1 < j.w ∧ q.2 < j.h) (hq' : q'.1 < j.w ∧ q'.2 < j.h)
    (hne : (j.sx + q.1, j.sy + q.2) ≠ (j.dx + q'.1, j.dy + q'.2))
    (hs : span p (j.srcPixel q.1 q.2) j.sf.bytes a) : ¬ span p (j.rect.pixel q'.1 q'.2) j.df.bytes a := by
  rw [CopyJob.srcPixel_canvas h] at hs
  obtain ⟨-, -, hb, -⟩ := id h
  rw [← hb] at hs
  rw [CopyJob.rect_pixel]
  refine Rect.pixels_apart (t := j.canvas) (CopyJob.canvas_fits h (by omega)) (CopyJob.canvas_rowsApart h) ?_ ?_ hne hs
  · simp only [CopyJob.canvas]
    omega
  · simp only [CopyJob.canvas]
    omega

/-- RAW mode within one buffer, whatever the offsets (42_blit_engine R212). -/
theorem rawCopy_staged (hrej : p.rejects = []) (hh : 0 < j.h) (w : Work) :
    ∃ m, rawCopy p j w = .ok () ⟨m, w.binit, w.draws⟩ ∧
      (∀ y, y < j.h → bytesAt p m (j.rect.pixel 0 y) j.rect.rowBytes =
        bytesAt p w.mem (j.srcPixel 0 y) j.rect.rowBytes) ∧
      ∀ a, ¬ j.rect.footprint p a → Memory.read m a = Memory.read w.mem a := by
  cases hc : j.coincide with
  | true =>
    refine ⟨w.mem, by rw [rawCopy_coincide hc]; rfl, fun y _ => ?_, fun _ _ => rfl⟩
    obtain ⟨-, -, hb, hflip, -, -⟩ := h
    rw [CopyJob.srcPixel_of_coincide hb.symm hc, hflip]
    rfl
  | false =>
    refine rawCopy_store hrej (CopyJob.rect_fits h hh) (CopyJob.rect_rowsApart h) hc fun done y rest hd y' hy' a => ?_
    have hin {n : Nat} (hn : n ∈ done ++ y :: rest) : n < j.h := CopyJob.mem_rowOrder (hd ▸ hn)
    exact CopyJob.rows_meet h (hin (by simp)) (hin (by simp [hy']))
      (CopyJob.row_read_first (pairwise_of_split (scan_pairwise _ _) hd hy'))

end

end

/-- Settles O43, by `rawCopy_staged`. -/
theorem rawCopyStaging : Obligations.RawCopyStaging := by
  intro i s df sf hi hf hc hrej hback hm hsame
  obtain ⟨m, hrun, hcontents, hkeep⟩ := rawCopy_staged hsame hrej (copyJob_area df sf hc).2 s.work
  rw [← overlapSafe_of_raw _ hm] at hrun
  obtain ⟨b, hexec⟩ := exec_copy_of_runs hi hf hc hback hrun
  exact ⟨m, b, hexec, hcontents, hkeep⟩

/-- Settles O44, by `overlapSafe_converts`: within one buffer the order of rows and columns reads each pixel before it
is overwritten. -/
theorem convertingCopyStaging : Obligations.ConvertingCopyStaging := by
  intro i s df sf hi hf hc hrej hback hm hr hsame hpal
  have hh := (copyJob_area df sf hc).2
  obtain ⟨m, hrun, hcontents, hkeep⟩ := overlapSafe_converts (j := s.copyJob df sf) (w := s.work) hrej hm hr
    (CopyJob.rect_fits hsame hh) (CopyJob.rect_rowsApart hsame) hpal (by
      intro done x y rest hd q hq a
      have hin {r : Nat × Nat} (hr : r ∈ done ++ (x, y) :: rest) :
          r.1 < (s.copyJob df sf).w ∧ r.2 < (s.copyJob df sf).h := CopyJob.mem_pixels (hd ▸ hr)
      exact CopyJob.pixels_meet hsame (q := (x, y)) (hin (by simp)) (hin (by simp [hq]))
        (CopyJob.pixel_read_first
          (pairwise_of_split (pixelOrder_pairwise (scan_pairwise _ _) (scan_pairwise _ _)) hd hq)))
  obtain ⟨b, hexec⟩ := exec_copy_of_runs hi hf hc hback hrun
  exact ⟨m, b, hexec, fun x y hx hy => ⟨_, convertIn_converted hm hr _, hcontents x y hx hy⟩, hkeep⟩

end Sys2Proof.Machine
end

section
/-! KEEP_DST_ALPHA (42_blit_engine R209), whatever a copy's outcome; FILL (R225, R226); SCALE (R230, R232). -/

namespace Sys2Proof.Machine

/-! ### The alpha byte of a destination pixel -/

/-- Byte `o` of a format's pixels is the alpha or pad byte (41_color_codec R175). -/
abbrev Fmt.alphaByte (f : Fmt) (o : Nat) : Prop :=
  (o = 0 ∧ f.alphaFirst = true) ∨ (o = 3 ∧ f.alphaLast = true)

theorem Fmt.lt_of_alphaByte {f : Fmt} {o : Nat} (h : Fmt.alphaByte f o) : o < f.bytes ∧ f.writable = true := by
  obtain ⟨rfl, h⟩ | ⟨rfl, h⟩ := h <;> revert h <;> cases f <;> decide

/-- A byte just written. -/
theorem read_writeBytes_byteAt {p : Params} {a k : Nat} {bs : List Byte} (m : Memory) (hn : bs.length ≤ 2 ^ p.addrW)
    (hk : k < bs.length) : Memory.read (writeBytes p m a bs) (portAddr p (a + k)) = byteAt bs k := by
  rw [read_writeBytes_inside p m a bs hn hk, byteAt, List.getD_eq_getElem _ _ hk]

/-- The alpha-ignoring store into a rectangle whose rows are apart and fit leaves the alpha byte of each of its
pixels, the stored one's and the others'. -/
theorem storePxIa_keepsAlpha {p : Params} (hrej : p.rejects = []) {t : Rect} (hf : t.fits p) (ha : t.rowsApart)
    {o : Nat} (ho : Fmt.alphaByte t.fmt o) {q r : Nat × Nat} (hq : q.1 < t.w ∧ q.2 < t.h) (hr : r.1 < t.w ∧ r.2 < t.h)
    (v : Word) :
    Moves (KeepsOutside (· ≠ portAddr p (t.pixel q.1 q.2 + o))) (storePxIa p (t.pixel r.1 r.2) t.fmt v) := by
  intro w b hb
  obtain rfl := not_ne_iff.1 hb
  obtain ⟨hlt, hw⟩ := Fmt.lt_of_alphaByte ho
  have hold := bytesAt_length p w.mem (t.pixel r.1 r.2) t.fmt.bytes
  have hnew := pxBytes_length hw v
  have hlen := mergedBytes_length hold hnew
  rw [storePxIa_runs hrej]
  by_cases hqr : q = r
  · subst hqr
    have hspace : t.fmt.bytes ≤ 2 ^ p.addrW :=
      Nat.le_trans (Nat.le_mul_of_pos_left _ (Nat.zero_lt_of_lt hq.1)) (Rect.rowBytes_le_of_fits hf)
    rw [endWork_ok, read_writeBytes_byteAt _ (hlen.symm ▸ hspace) (hlen.symm ▸ hlt), byteAt_mergedBytes hold hnew hlt,
      if_pos ho, byteAt_bytesAt _ _ _ _ _ hlt]
  · refine read_writeBytes_outside p w.mem _ _ _ ?_
    rw [hlen]
    exact Rect.pixels_apart hf ha hq hr hqr ⟨o, hlt, rfl⟩

/-- What the overlap-safe path does, its request's checks passed or not, a copy command does. -/
theorem exec_copies_moves {i : Instr} {s t : State} {R : Work → Work → Prop} (hR : Step R) (hb : Moves R setBinit)
    (hi : i ∈ [Instr.copy, .copyOvl, .copyNovl])
    (h : ∀ df sf, s.formats df sf → Moves R (overlapSafe s.params (s.copyJob df sf))) (ht : exec i s = .next t) :
    R s.work t.work := by
  simp only [List.mem_cons, List.not_mem_nil, or_false] at hi
  obtain rfl | rfl | rfl := hi <;> obtain rfl := Host.Outcome.next.inj ht
  · exact runPlain_moves (copyWith_moves hR fun df sf hd hs => dispatchCopy_moves hR hb (h df sf ⟨hd, hs⟩))
  · exact runPlain_moves (copyWith_moves hR fun df sf hd hs => h df sf ⟨hd, hs⟩)
  · exact runPlain_moves (copyWith_moves hR fun df sf hd hs => nonOverlapping_moves hR hb (h df sf ⟨hd, hs⟩))

/-- A copy that keeps the destination's alpha leaves the alpha byte of each pixel of its rectangle (42_blit_engine
R209). -/
theorem exec_copies_keepAlpha {i : Instr} {s t : State} {df : Fmt} {o x y : Nat}
    (hi : i ∈ [Instr.copy, .copyOvl, .copyNovl]) (hd : decodeFmt s.regs.dfmt = some df)
    (hkeep : s.regs.flags.getLsbD 2 = true) (hrej : s.params.rejects = []) (hf : (destRect s.regs df).fits s.params)
    (ha : (destRect s.regs df).rowsApart) (ht : exec i s = .next t) (hx : x < s.regs.w.toNat) (hy : y < s.regs.h.toNat)
    (halpha : df.hasAlpha = true) (ho : Fmt.alphaByte df o) :
    byteNat s.params t.mem ((destRect s.regs df).pixel x y + o) =
      byteNat s.params s.mem ((destRect s.regs df).pixel x y + o) := by
  have hR := keepsOutside_step (· ≠ portAddr s.params ((destRect s.regs df).pixel x y + o))
  refine congrArg BitVec.toNat (exec_copies_moves hR (setBinit_keeps _) hi (fun df' sf hfmts => ?_) ht _ (by simp))
  obtain rfl : df = df' := Option.some.inj (hd.symm.trans hfmts.1)
  have hmode : (s.copyJob df sf).mode = .alpha := by
    rw [CopyJob.mode_eq, if_pos ⟨hkeep, halpha⟩]
  rw [overlapSafe, hmode]
  exact pixelCopy_moves hR fun x' y' hx' hy' v =>
    storePxIa_keepsAlpha (t := destRect s.regs df) (q := (x, y)) (r := (x', y')) hrej hf ha ho ⟨hx, hy⟩ ⟨hx', hy'⟩ v

/-- Settles O45, by `exec_copies_keepAlpha` for the format's alpha byte. -/
theorem copyKeepsAlpha : Obligations.CopyKeepsAlpha := by
  intro i s t df hi hd hkeep hrej hf ha ht x y hx hy
  have keeps (o : Nat) (halpha : df.hasAlpha = true) (ho : Fmt.alphaByte df o) :=
    exec_copies_keepAlpha hi hd hkeep hrej hf ha ht hx hy halpha ho
  refine ⟨fun h => keeps 0 ?_ (.inl ⟨rfl, ?_⟩), fun h => keeps 3 ?_ (.inr ⟨rfl, ?_⟩)⟩ <;>
    obtain rfl | rfl := h <;> rfl

/-! ### FILL -/

theorem exec_fill (s : State) : exec .fill s = .next (s.runPlain (fillCmd s)) := rfl

section
variable {p : Params} (hrej : p.rejects = []) {t : Rect} {c : Word} (hw : t.fmt.writable = true) (hf : t.fits p)
  (ha : t.rowsApart) (hh : 0 < t.h)
include hrej hw hf ha hh

/-- The rows below the first one are copies of it (42_blit_engine R225 step 5), which none of them meets. -/
theorem fillRows_below {w : Work} (htop : bytesAt p w.mem (t.pixel 0 0) t.rowBytes = fillBytes t c) :
    ∃ m, forEach (List.range' 1 (t.h - 1)) (fillRow p t c) w = .ok () ⟨m, w.binit, w.draws⟩ ∧
      (∀ y, y < t.h → bytesAt p m (t.pixel 0 y) t.rowBytes = fillBytes t c) ∧
      ∀ a, ¬ t.footprint p a → Memory.read m a = Memory.read w.mem a := by
  have hmem {y : Nat} : y ∈ List.range' 1 (t.h - 1) ↔ 0 < y ∧ y < t.h := by
    rw [List.mem_range'_1]
    omega
  have hapart {y a : Nat} (hy : y ∈ List.range' 1 (t.h - 1)) (hs : span p (t.pixel 0 0) t.rowBytes a) :
      ¬ span p (t.pixel 0 y) t.rowBytes a :=
    Rect.rows_apart hf ha hh (hmem.1 hy).2 (Nat.ne_of_lt (hmem.1 hy).1) hs
  obtain ⟨m, hrun, hrows, hkeep⟩ := rows_store (p := p) (t := t) (body := fillRow p t c) (out := fun _ => fillBytes t c)
    (w₀ := w) hf ha List.nodup_range' (fun y hy => (hmem.1 hy).2) (fun _ => fillBytes_length hw) (by
      intro done y rest hd hy m hm
      have hin {y' : Nat} (h : y' ∈ done ++ y :: rest) : y' ∈ List.range' 1 (t.h - 1) := hd ▸ h
      have hrow : bytesAt p m (t.pixel 0 0) t.rowBytes = fillBytes t c :=
        (bytesAt_congr fun a hs => hm a fun y' hy' => hapart (hin (by simp [hy'])) hs).trans htop
      rw [fillRow, if_neg (Nat.ne_of_gt (hmem.1 (hin (by simp))).1), bind_runs_ok (memRead_runs hrej _ _ _), hrow,
        memWrite_runs hrej])
  refine ⟨m, hrun, fun y hy => ?_, fun a hna => hkeep a fun y hy hs => hna ⟨y, (hmem.1 hy).2, hs⟩⟩
  obtain rfl | hpos := Nat.eq_zero_or_pos y
  · exact (bytesAt_congr fun a hs => hkeep a fun y' hy' => hapart hy' hs).trans htop
  · exact hrows y (hmem.2 ⟨hpos, hy⟩)

/-- FILL of a rectangle whose rows are apart and fit: every row holds the first scanline's bytes (42_blit_engine
R225). -/
theorem fillRect_fills (w : Work) :
    ∃ m, fillRect p t c w = .ok () ⟨m, w.binit, w.draws⟩ ∧
      (∀ y, y < t.h → bytesAt p m (t.pixel 0 y) t.rowBytes = fillBytes t c) ∧
      ∀ a, ¬ t.footprint p a → Memory.read m a = Memory.read w.mem a := by
  have hlen : (fillBytes t c).length = t.rowBytes := fillBytes_length hw
  have hrange : List.range t.h = 0 :: List.range' 1 (t.h - 1) := by
    obtain ⟨n, hn⟩ := Nat.exists_eq_add_of_lt hh
    rw [hn, Nat.zero_add, List.range_eq_range', List.range'_succ, Nat.add_sub_cancel]
  have hfirst : fillRow p t c 0 w =
      .ok () ⟨writeBytes p w.mem (t.pixel 0 0) (fillBytes t c), w.binit, w.draws⟩ := memWrite_runs hrej _ _ w
  obtain ⟨m, hrun, hrows, hkeep⟩ := fillRows_below hrej hw hf ha hh (c := c)
    (w := ⟨writeBytes p w.mem (t.pixel 0 0) (fillBytes t c), w.binit, w.draws⟩) (by
      rw [← hlen]
      exact bytesAt_eq fun k hk => read_writeBytes_inside p _ _ _ (hlen ▸ Rect.rowBytes_le_of_fits hf) hk)
  refine ⟨m, ?_, hrows, fun a hna => (hkeep a hna).trans ?_⟩
  · rw [fillRect_rows p c hw hh, hrange, forEach_cons, bind_runs_ok hfirst, hrun]
  · exact read_writeBytes_outside p _ _ _ a fun hs => hna ⟨0, hh, hlen ▸ hs⟩

end

/-- Each pixel of a filled row holds the color's bytes. -/
theorem fillBytes_pixel {t : Rect} {c : Word} (hw : t.fmt.writable = true) {x : Nat} (hx : x < t.w) :
    ((fillBytes t c).drop (x * t.fmt.bytes)).take t.fmt.bytes = pxBytes t.fmt c := by
  obtain ⟨n, hn⟩ := Nat.exists_eq_add_of_lt hx
  have hlen := pxBytes_length hw c
  rw [fillBytes, hn, Nat.add_assoc, List.replicate_add, List.flatten_append,
    List.drop_left' (by simp [hlen]), List.replicate_succ, List.flatten_cons, List.take_left' hlen]

/-- FILL in a format that can be written (42_blit_engine R225 steps 2 to 5). -/
theorem fillCmd_of_writable {s : State} {f : Fmt} (hf : decodeFmt s.regs.dfmt = some f) (hw : f.writable = true) :
    fillCmd s =
      if s.regs.w = 0 ∨ s.regs.h = 0 then pure ()
      else if s.regs.dst = 0 then throw .invalidArg
      else fillRect s.params (destRect s.regs f) s.regs.color0 := by
  simp only [fillCmd, hf, hw]
  split
  · rfl
  · split
    · next hd => rw [hd]; rfl
    · next hd => rw [beq_false_of_ne hd]; rfl

/-- FILL in a format that cannot be written, or in none (42_blit_engine R225). -/
theorem fillCmd_of_unwritable {s : State} (h : ∀ f, decodeFmt s.regs.dfmt = some f → f.writable = false) :
    fillCmd s s.work = .error .unsupported s.work := by
  unfold fillCmd
  cases hf : decodeFmt s.regs.dfmt with
  | none => rfl
  | some f =>
    simp only [h f hf]
    rfl

/-- A4 and MONO are the formats that cannot be written (40_format_metadata R127). -/
theorem Fmt.writable_eq_false_iff (f : Fmt) : f.writable = false ↔ f = .a4 ∨ f = .mono := by
  cases f <;> decide

/-- Settles O46: the branches of FILL's equation, and `fillRect_fills` for the contents. -/
theorem fillsRectangle : Obligations.FillsRectangle := by
  intro s
  refine ⟨fun h => ?unwritable, fun f hf h4 h1 => ?writable⟩
  case unwritable =>
    rw [exec_fill, runPlain_of_failure (fillCmd_of_unwritable fun f hf => (Fmt.writable_eq_false_iff f).2 (h f hf)) rfl]
    rfl
  case writable =>
    have hw : f.writable = true := by
      rw [← Bool.not_eq_false, Fmt.writable_eq_false_iff]
      exact not_or.2 ⟨h4, h1⟩
    rw [exec_fill, fillCmd_of_writable hf hw]
    refine ⟨fun h0 => ?empty, fun hw0 hh0 hd => ?null, fun hw0 hh0 hd hrej hfits hrows => ?filled⟩
    case empty =>
      rw [if_pos h0, runPlain_of_ok (pure_runs () _)]
      rfl
    case null =>
      rw [if_neg (not_or.2 ⟨hw0, hh0⟩), if_pos hd, runPlain_throw s (e := .invalidArg) rfl]
      rfl
    case filled =>
      have hh : 0 < (destRect s.regs f).h := Nat.pos_of_ne_zero fun h => hh0 (BitVec.eq_of_toNat_eq h)
      obtain ⟨m, hrun, hcontents, hkeep⟩ := fillRect_fills (t := destRect s.regs f) (c := s.regs.color0) hrej hw hfits
        hrows hh s.work
      refine ⟨m, ?_, fun x y hx hy => ?_, hkeep⟩
      · rw [if_neg (not_or.2 ⟨hw0, hh0⟩), if_neg hd, runPlain_of_ok hrun]
        rfl
      · have hpixel := pixel_of_row s.params (destRect s.regs f) m (x := x) (y := y) hx
        rw [hcontents y hy, fillBytes_pixel (t := destRect s.regs f) hw hx] at hpixel
        rw [holds, ← pxBytes_toNat, List.length_map, pxBytes_length hw]
        exact congrArg (List.map BitVec.toNat) hpixel

/-! ### SCALE -/

theorem exec_scale (s : State) : exec .scale s = .next (s.runPlain (scaleCmd s)) := rfl

/-- The operand registers with the palette absent and FLAGS at 0 (42_blit_engine R230 step 2). -/
def OperandRegs.plain (r : OperandRegs) : OperandRegs :=
  { r with pal := 0, flags := 0 }

theorem copyReq_plain (r : OperandRegs) : copyReq r.plain = scaleReq r := by
  simp [copyReq, scaleReq, OperandRegs.plain, paletteAt, flipVertical, keepDstAlpha]

theorem copyJob_plain (s : State) (df sf : Fmt) :
    (s.withRegs s.regs.plain).copyJob df sf = (scaleReq s.regs).job df sf :=
  congrArg (CopyReq.job · df sf) (copyReq_plain s.regs)

/-- SCALE without two enumerated formats (42_blit_engine R230). -/
theorem scaleCmd_of_invalid {s : State} (h : decodeFmt s.regs.dfmt = none ∨ decodeFmt s.regs.sfmt = none) :
    scaleCmd s = throw .unsupported := by
  unfold scaleCmd
  obtain h | h := h
  · rw [h]
  · rw [h]
    cases decodeFmt s.regs.dfmt <;> rfl

section
variable {s : State} {df sf : Fmt} (hf : s.formats df sf)
include hf

/-- SCALE of two enumerated formats (42_blit_engine R230): by size a copy, or the resampler. -/
theorem scaleCmd_of_formats :
    scaleCmd s =
      if s.regs.w = s.regs.sw ∧ s.regs.h = s.regs.sh then
        copyWith s.params (scaleReq s.regs) (nonOverlapping s.params)
      else if s.params.resamplerPresent = false then throw .backend
      else resample s df sf := by
  obtain ⟨hd, hs⟩ := hf
  simp only [scaleCmd, hd, hs]
  split
  · rfl
  · cases s.params.resamplerPresent <;> rfl

/-- With equal sizes SCALE ends as COPY_NOVL of the plain registers does (42_blit_engine R230 step 2). -/
theorem exec_scale_of_equal (hw : s.regs.w = s.regs.sw) (hh : s.regs.h = s.regs.sh) {t : State}
    (ht : exec .copyNovl (s.withRegs s.regs.plain) = .next t) : exec .scale s = .next (t.withRegs s.regs) := by
  obtain rfl := Host.Outcome.next.inj ht
  rw [exec_scale, scaleCmd_of_formats hf, if_pos ⟨hw, hh⟩, ← copyReq_plain, ← runPlain_withRegs]
  rfl

end

/-- Settles O47, by SCALE's equation. -/
theorem scaleDispatch : Obligations.ScaleDispatch := by
  refine fun s => ⟨fun h => ?invalid, fun df sf hf => ⟨fun hw hh t ht => exec_scale_of_equal hf hw hh ht,
    fun hne hr => ?noResampler⟩⟩
  case invalid =>
    rw [exec_scale, scaleCmd_of_invalid h, runPlain_throw s (e := .unsupported) rfl]
    rfl
  case noResampler =>
    rw [exec_scale, scaleCmd_of_formats hf, if_neg hne, if_pos hr, runPlain_throw s (e := .backend) rfl]
    rfl

/-- The formats the resampler takes (42_blit_engine R232). -/
theorem Fmt.resamples_iff (f : Fmt) :
    (f.alphaFirst || f.alphaLast) = true ↔
      f ∈ [Fmt.argb32, .xrgb32, .abgr32, .xbgr32, .rgba32, .rgbx32, .bgra32, .bgrx32] := by
  cases f <;> decide

/-- The resampling path (42_blit_engine R232): its two checks, a draw, and the rows. -/
theorem resample_runs (s : State) (df sf : Fmt) (w : Work) :
    resample s df sf w =
      if ¬ ((df.alphaFirst || df.alphaLast) = true ∧ (sf.alphaFirst || sf.alphaLast) = true) then .error .unsupported w
      else if s.regs.dst = 0 ∨ s.regs.src = 0 then .error .invalidArg w
      else (forEach (List.range (destRect s.regs df).h) fun y =>
        memWrite s.params ((destRect s.regs df).pixel 0 y)
          (resampledRow w.draws (destRect s.regs df).rowBytes y)) ⟨w.mem, w.binit, w.draws + 1⟩ := by
  have hdraw : takeDraw w = .ok w.draws ⟨w.mem, w.binit, w.draws + 1⟩ := rfl
  rw [resample, failIf_bind, failIf_bind, bind_runs_ok hdraw]
  simp only [Bool.or_eq_true, Bool.not_eq_true', ← Bool.not_eq_true, beq_iff_eq, not_and_or]

/-- Writing the resampled rows runs through and touches only the rectangle. -/
theorem resampledRows_run {p : Params} (hrej : p.rejects = []) (t : Rect) (draw : Nat) (w : Work) :
    ∃ w', (forEach (List.range t.h) fun y => memWrite p (t.pixel 0 y) (resampledRow draw t.rowBytes y)) w = .ok () w' ∧
      Stores (t.footprint p) w w' := by
  have hR := stores_step (t.footprint p)
  refine forEach_runs (fun _ u => Stores (t.footprint p) w u) (fun done y rest hys u hu => ?_) (hR.refl w)
  have hy : y < t.h := List.mem_range.1 (by simp [hys])
  obtain ⟨u', hrun, hstores⟩ := memWrite_completes hrej (t.pixel 0 y) (resampledRow draw t.rowBytes y) u
  refine ⟨u', hrun, hR.trans hu (hstores.mono fun a hs => Rect.row_footprint hy ?_)⟩
  simpa [resampledRow] using hs

/-- Settles O48: with equal sizes as the COPY_NOVL it is, else by the branches of the resampling path. -/
theorem scaleCompletes : Obligations.ScaleCompletes := by
  refine fun s df sf hf hrej => ⟨fun hw hh hc hb ho hr => ?equal, fun hne hres => ?resampled⟩
  case equal =>
    rw [← copyJob_plain] at ho hr
    obtain ⟨m, hovl, hkeep⟩ := exec_copyOvl_of_ready (s := s.withRegs s.regs.plain) hf hc hrej hr
    have hnovl := exec_copyNovl_of_succeeded (s := s.withRegs s.regs.plain) hf hc hb ho hovl
    exact ⟨m, exec_scale_of_equal hf hw hh hnovl, hkeep⟩
  case resampled =>
    have hrun := resample_runs s df sf s.work
    rw [exec_scale, scaleCmd_of_formats hf, if_neg hne, if_neg (by simp [hres])]
    simp only [Fmt.resamples_iff] at hrun
    refine ⟨fun hfmt => ?formats, fun hd hs => ⟨fun hnull => ?null, fun hdst hsrc => ?rows⟩⟩
    case formats =>
      rw [if_pos (not_and_or.2 hfmt)] at hrun
      rw [runPlain_of_failure hrun rfl]
      rfl
    case null =>
      rw [if_neg (not_not.2 ⟨hd, hs⟩), if_pos hnull] at hrun
      rw [runPlain_of_failure hrun rfl]
      rfl
    case rows =>
      rw [if_neg (not_not.2 ⟨hd, hs⟩), if_neg (not_or.2 ⟨hdst, hsrc⟩)] at hrun
      obtain ⟨w, hloop, hkeep, hbinit, hdraws⟩ := resampledRows_run hrej (destRect s.regs df) s.work.draws
        ⟨s.mem, s.status.binit, s.draws + 1⟩
      refine ⟨w.mem, ?_, hkeep⟩
      rw [runPlain_of_ok (hrun.trans hloop), State.endCommand, hbinit, hdraws]
      rfl

end Sys2Proof.Machine
end

section
/-! The loops of the bit-packed decoders (43_bitmap_decoders R260): where their input lies outside the bytes they store,
a pixel is computed from memory as it was before the loop. GLYPH (R262) and MONO (R270), which store what a bit
selects. -/

namespace Sys2Proof.Machine

/-! ### Reading what a loop leaves alone -/

/-- A bit reads alike in memories that agree on its byte. -/
theorem bitIn_congr {p : Params} {m m' : Memory} {base stride row x : Nat}
    (h : Memory.read m (portAddr p (base + stride * row + x / 8)) =
      Memory.read m' (portAddr p (base + stride * row + x / 8))) :
    bitIn p m base stride row x = bitIn p m' base stride row x := by
  rw [bitIn, bitIn, h]

/-- While a loop over a rectangle's pixels runs, memory is as before it outside the rectangle and in the pixel whose turn
it is. -/
abbrev Rect.keepsFor (p : Params) (t : Rect) (x y : Nat) (m m' : Memory) : Prop :=
  ∀ a, (t.footprint p a → span p (t.pixel x y) t.fmt.bytes a) → Memory.read m' a = Memory.read m a

section
variable {p : Params} {t : Rect} {body : Nat → Nat → Cmd Unit} {w : Work} (hrej : p.rejects = []) (hf : t.fits p)
  (ha : t.rowsApart)
include hrej hf ha

/-- A loop that stores one value to every pixel of a rectangle, each computed from bytes no other turn stores to. -/
theorem forPixels_stores {v : Nat → Nat → Word} (hw : t.fmt.writable = true)
    (hbody : ∀ x y, x < t.w → y < t.h → ∀ u : Work, t.keepsFor p x y w.mem u.mem →
      body x y u = storePx p (t.pixel x y) t.fmt (v x y) u) :
    ∃ m, forPixels t.w t.h body w = .ok () ⟨m, w.binit, w.draws⟩ ∧
      (∀ x y, x < t.w → y < t.h → holds p m (t.pixel x y) (storeNat t.fmt.bpp (v x y).toNat)) ∧
      ∀ a, ¬ t.footprint p a → Memory.read m a = Memory.read w.mem a := by
  have hnodup := pixelOrder_nodup (List.nodup_range (n := t.w)) (List.nodup_range (n := t.h))
  have hlen (x y : Nat) : (pxBytes t.fmt (v x y)).length = t.fmt.bytes := pxBytes_length hw _
  obtain ⟨m, hrun, hpixels, hkeep⟩ := pixels_store (out := fun x y => pxBytes t.fmt (v x y)) (w₀ := w) hf ha
    (List.Perm.refl _) (List.Perm.refl _) hlen (fun done x y rest hd hx hy m hm => by
      refine (hbody x y hx hy ⟨m, w.binit, w.draws⟩ fun a hown => hm a fun q hq hs => ?_).trans
        (storePx_runs hrej _ _ _ _)
      have hin : q ∈ pixelOrder (List.range t.w) (List.range t.h) := by simp [hd, hq]
      obtain ⟨hqx, hqy⟩ : q.1 < t.w ∧ q.2 < t.h := by simpa using mem_pixelOrder.1 hin
      have hne : q ≠ (x, y) := by
        rintro rfl
        rw [hd] at hnodup
        exact (List.nodup_append.1 hnodup).2.2 _ hq _ (by simp) rfl
      exact Rect.pixels_apart hf ha ⟨hqx, hqy⟩ ⟨hx, hy⟩ hne hs (hown (Rect.pixel_footprint hqx hqy hs)))
  refine ⟨m, hrun, fun x y hx hy => ?_, hkeep⟩
  rw [← pxBytes_toNat, holds, List.length_map, hlen, hpixels x y hx hy]

/-- A loop that packs one color into every pixel of a rectangle. -/
theorem forPixels_packs {c : Nat → Nat → Channels} (hp : t.fmt.packable = true)
    (hbody : ∀ x y, x < t.w → y < t.h → ∀ v, pack p t.fmt (c x y) = .ok v → ∀ u : Work,
      t.keepsFor p x y w.mem u.mem → body x y u = storePx p (t.pixel x y) t.fmt v u) :
    ∃ m, forPixels t.w t.h body w = .ok () ⟨m, w.binit, w.draws⟩ ∧
      (∀ x y, x < t.w → y < t.h → ∃ v, packedNat p t.fmt (channelNats (c x y)) = some v ∧
        holds p m (t.pixel x y) (storeNat t.fmt.bpp v)) ∧
      ∀ a, ¬ t.footprint p a → Memory.read m a = Memory.read w.mem a := by
  choose v hv using fun x y => pack_ok (p := p) hp (c x y)
  obtain ⟨m, hrun, hpixels, hkeep⟩ := forPixels_stores hrej hf ha (v := v) (Fmt.writable_of_packable hp)
    fun x y hx hy => hbody x y hx hy (v x y) (hv x y)
  refine ⟨m, hrun, fun x y hx hy => ⟨(v x y).toNat, ?_, hpixels x y hx hy⟩, hkeep⟩
  rw [packedNat_channelNats, hv]
  rfl

end

/-! ### GLYPH -/

theorem exec_glyph (s : State) : exec .glyph s = .next (s.runPlain (glyphCmd s)) := rfl

/-- GLYPH's check (43_bitmap_decoders R262). -/
theorem glyphCmd_of_null {s : State} (h : s.regs.dst = 0 ∨ s.regs.src = 0) (w : Work) :
    glyphCmd s w = .error .invalidArg w := by
  rw [glyphCmd, failIf_bind, if_pos (by simpa using h)]

/-- The loop of GLYPH: each byte of the output is that of its bit, which the output does not hold. -/
theorem glyphCmd_runs {s : State} (hd : s.regs.dst ≠ 0) (hs : s.regs.src ≠ 0) (hrej : s.params.rejects = [])
    (hsize : s.regs.w.toNat * s.regs.h.toNat ≤ 2 ^ s.params.addrW)
    (hbits : bitsApart s.params s.regs.src.toNat ((s.regs.w.toNat + 7) / 8) s.regs.w.toNat s.regs.h.toNat
      (span s.params s.regs.dst.toNat (s.regs.w.toNat * s.regs.h.toNat))) :
    ∃ m, glyphCmd s s.work = .ok () ⟨m, s.status.binit, s.draws⟩ ∧
      ∀ x y, x < s.regs.w.toNat → y < s.regs.h.toNat →
        Memory.read m (portAddr s.params (s.regs.dst.toNat + glyphOffset s.regs.w.toNat (x, y))) =
          if bitIn s.params s.mem s.regs.src.toNat ((s.regs.w.toNat + 7) / 8) y x then 0xFF else 0x00 := by
  have hmem {q : Nat × Nat} : q ∈ pixelOrder (List.range s.regs.w.toNat) (List.range s.regs.h.toNat) ↔
      q.1 < s.regs.w.toNat ∧ q.2 < s.regs.h.toNat := by
    rw [mem_pixelOrder, List.mem_range, List.mem_range]
  have hlt {q : Nat × Nat} (hq : q ∈ pixelOrder (List.range s.regs.w.toNat) (List.range s.regs.h.toNat)) :=
    glyphOffset_lt (hmem.1 hq).1 (hmem.1 hq).2
  rw [glyphCmd, failIf_bind, if_neg (by simpa using ⟨hd, hs⟩)]
  simp only [forPixels, nested_eq, Nat.add_assoc s.regs.dst.toNat]
  obtain ⟨m, hrun, hbytes, -⟩ := forList_stores (p := s.params) (w₀ := s.work)
    (A := fun q => s.regs.dst.toNat + glyphOffset s.regs.w.toNat q)
    (body := fun q => do
      let b ← readBit s.params s.regs.src.toNat (ceilDiv s.regs.w.toNat 8) q.2 q.1
      memWrite s.params (s.regs.dst.toNat + glyphOffset s.regs.w.toNat q) [if b then 0xFF else 0x00])
    (out := fun q => [if bitIn s.params s.mem s.regs.src.toNat ((s.regs.w.toNat + 7) / 8) q.2 q.1 then 0xFF else 0x00])
    (pixelOrder_nodup List.nodup_range List.nodup_range) (fun _ _ => Nat.one_le_two_pow)
    (fun q hq q' hq' hne a hs hs' => by
      obtain ⟨k, hk, rfl⟩ := hs
      obtain ⟨k', hk', he⟩ := hs'
      obtain rfl : k = 0 := Nat.lt_one_iff.1 hk
      obtain rfl : k' = 0 := Nat.lt_one_iff.1 hk'
      have hsame := portAddr_inj s.params (Nat.lt_of_lt_of_le (hlt hq) hsize) (Nat.lt_of_lt_of_le (hlt hq') hsize) he
      have hinj := (glyphOffset_pairwise s.regs.w.toNat s.regs.h.toNat).imp Nat.ne_of_lt
      exact hne (List.inj_on_of_nodup_map (List.pairwise_map.2 hinj) hq hq' hsame))
    (fun done q rest hdone m hm => by
      have hq : q ∈ pixelOrder (List.range s.regs.w.toNat) (List.range s.regs.h.toNat) := by simp [hdone]
      have hbit : bitIn s.params m s.regs.src.toNat ((s.regs.w.toNat + 7) / 8) q.2 q.1 =
          bitIn s.params s.mem s.regs.src.toNat ((s.regs.w.toNat + 7) / 8) q.2 q.1 := by
        refine bitIn_congr (hm _ fun j hj hspan => hbits q.2 (hmem.1 hq).2 q.1 (hmem.1 hq).1 ?_)
        obtain ⟨k, hk, he⟩ := hspan
        obtain rfl : k = 0 := Nat.lt_one_iff.1 hk
        exact ⟨_, hlt (by simp [hdone, hj]), he⟩
      rw [bind_runs_ok (readBit_runs hrej _ _ _ _ _), memWrite_runs hrej, ← hbit]
      rfl)
  exact ⟨m, hrun, fun x y hx hy => hbytes (x, y) (hmem.2 ⟨hx, hy⟩) 0 Nat.one_pos⟩

/-- Settles O49: the loop's contents by `glyphCmd_runs`, its frame by `glyphCmd_keeps`. -/
theorem glyphWritesBytes : Obligations.GlyphWritesBytes := by
  intro s
  rw [exec_glyph]
  refine ⟨fun h => ?null, fun hd hs hrej hsize hbits => ?decoded⟩
  case null =>
    rw [runPlain_of_failure (glyphCmd_of_null h _) rfl]
    rfl
  case decoded =>
    obtain ⟨m, hrun, hbytes⟩ := glyphCmd_runs hd hs hrej hsize hbits
    have hkeep := glyphCmd_keeps s s.work
    rw [hrun] at hkeep
    refine ⟨m, by rw [runPlain_of_ok hrun]; rfl, fun x y hx hy => ?_, hkeep⟩
    rw [byteNat, Nat.add_assoc, hbytes x y hx hy, apply_ite BitVec.toNat]
    rfl

/-! ### MONO -/

theorem exec_mono (s : State) : exec .mono s = .next (s.runPlain (monoCmd s)) := rfl

/-- MONO in a format that cannot be written, or in none (43_bitmap_decoders R270). -/
theorem monoCmd_of_unwritable {s : State} (h : ∀ f, decodeFmt s.regs.dfmt = some f → f.writable = false) (w : Work) :
    monoCmd s w = .error .unsupported w := by
  unfold monoCmd
  cases hf : decodeFmt s.regs.dfmt with
  | none => rfl
  | some f =>
    simp only [h f hf]
    rfl

/-- A loop that stores to every pixel the value its bit selects, the bits apart from the rectangle. -/
theorem forPixels_selects {p : Params} {t : Rect} {base stride : Nat} {v₁ v₀ : Word} {w : Work} (hrej : p.rejects = [])
    (hf : t.fits p) (ha : t.rowsApart) (hw : t.fmt.writable = true)
    (hbits : bitsApart p base stride t.w t.h (t.footprint p)) :
    ∃ m, forPixels t.w t.h (fun x y => do
        let b ← readBit p base stride y x
        storePx p (t.pixel x y) t.fmt (if b then v₁ else v₀)) w = .ok () ⟨m, w.binit, w.draws⟩ ∧
      (∀ x y, x < t.w → y < t.h → holds p m (t.pixel x y)
        (storeNat t.fmt.bpp (if bitIn p w.mem base stride y x then v₁ else v₀).toNat)) ∧
      ∀ a, ¬ t.footprint p a → Memory.read m a = Memory.read w.mem a := by
  refine forPixels_stores hrej hf ha hw fun x y hx hy u hu => ?_
  rw [bind_runs_ok (readBit_runs hrej _ _ _ _ u), bitIn_congr (hu _ fun hin => absurd hin (hbits y hy x hx))]

/-- MONO in a format that can be written: the null check, then the loop (43_bitmap_decoders R270). -/
theorem monoCmd_of_writable {s : State} {f : Fmt} (hf : decodeFmt s.regs.dfmt = some f) (hw : f.writable = true)
    (w : Work) :
    monoCmd s w =
      if s.regs.dst = 0 ∨ s.regs.src = 0 then .error .invalidArg w
      else forPixels (destRect s.regs f).w (destRect s.regs f).h (fun x y => do
        let b ← readBit s.params s.regs.src.toNat (ceilDiv (destRect s.regs f).w 8) y x
        storePx s.params ((destRect s.regs f).pixel x y) f (if b then s.regs.color0 else s.regs.color1)) w := by
  simp only [monoCmd, hf, hw, failIf_bind, Bool.not_true, Bool.false_eq_true, if_false, Bool.or_eq_true, beq_iff_eq]

/-- Settles O50, the null check by `monoCmd_of_writable`, the contents by `forPixels_selects`. -/
theorem monoSelectsColors : Obligations.MonoSelectsColors := by
  intro s
  rw [exec_mono]
  refine ⟨fun h => ?unwritable, fun f hf h4 h1 => ?writable⟩
  case unwritable =>
    rw [runPlain_of_failure (monoCmd_of_unwritable (fun f hf => (Fmt.writable_eq_false_iff f).2 (h f hf)) _) rfl]
    rfl
  case writable =>
    have hw : f.writable = true := by
      rw [← Bool.not_eq_false, Fmt.writable_eq_false_iff]
      exact not_or.2 ⟨h4, h1⟩
    have hcmd := monoCmd_of_writable hf hw s.work
    refine ⟨fun hnull => ?null, fun hd hs hrej hfits hrows hbits => ?decoded⟩
    case null =>
      rw [if_pos hnull] at hcmd
      rw [runPlain_of_failure hcmd rfl]
      rfl
    case decoded =>
      rw [if_neg (not_or.2 ⟨hd, hs⟩)] at hcmd
      obtain ⟨m, hrun, hpixels, hkeep⟩ := forPixels_selects (t := destRect s.regs f) (v₁ := s.regs.color0)
        (v₀ := s.regs.color1) (w := s.work) hrej hfits hrows hw hbits
      refine ⟨m, by rw [runPlain_of_ok (hcmd.trans hrun)]; rfl, fun x y hx hy => ?_, hkeep⟩
      rw [← apply_ite BitVec.toNat]
      exact hpixels x y hx hy

end Sys2Proof.Machine
end

section
/-! ICON (43_bitmap_decoders R280): its checks in their order, the icon palette (R282) as a value, and the copy step with
its outcomes, which rest on the palette only where RGB8 pixels are converted. -/

namespace Sys2Proof.Machine

/-! ### The icon palette -/

/-- The entries of a color table in memory (43_bitmap_decoders R282). -/
def tableAt (p : Params) (m : Memory) (tbl n : Nat) : List Word :=
  (List.range n).map fun k => pixelAt p m (tbl + 4 * k) .bgrx32

/-- The entries of the icon palette: none where the table's length is malformed (43_bitmap_decoders R282). -/
def iconEntries (p : Params) (m : Memory) (tbl len : Nat) : List Word :=
  if len % 4 = 0 ∧ len ≤ 1024 then tableAt p m tbl (len / 4) else []

theorem tableAt_succ (p : Params) (m : Memory) (tbl n : Nat) :
    tableAt p m tbl (n + 1) = pixelAt p m tbl .bgrx32 :: tableAt p m (tbl + 4) n := by
  have hnext (k : Nat) : tbl + 4 * (k + 1) = tbl + 4 + 4 * k := by omega
  simp only [tableAt, List.range_succ_eq_map, List.map_cons, List.map_map, Function.comp_def, Nat.succ_eq_add_one, hnext]
  rfl

theorem loadPx_of_free {p : Params} {a : Nat} {f : Fmt} (hfree : ∀ b, span p a f.bytes b → rejected p b = false)
    (w : Work) : loadPx p a f w = .ok (pixelAt p w.mem a f) w :=
  ((loadPx_follows fun _ h => h).eq_of_free hfree w).trans (loadPx_runs (unrejecting_rejects p) a f w)

theorem readTable_runs {p : Params} {tbl n : Nat} (hfree : ∀ b, span p tbl (4 * n) b → rejected p b = false)
    (w : Work) : readTable p tbl n w = .ok (tableAt p w.mem tbl n) w := by
  induction n generalizing tbl with
  | zero => rfl
  | succ n ih =>
    have hhead : ∀ b, span p tbl Fmt.bgrx32.bytes b → rejected p b = false := by
      rintro b ⟨k, hk, rfl⟩
      exact hfree _ ⟨k, Nat.lt_of_lt_of_le hk (show 4 ≤ 4 * (n + 1) by omega), rfl⟩
    have htail : ∀ b, span p (tbl + 4) (4 * n) b → rejected p b = false := by
      rintro b ⟨k, hk, rfl⟩
      exact hfree _ ⟨4 + k, by omega, by rw [Nat.add_assoc]⟩
    rw [readTable, bind_runs_ok (loadPx_of_free hhead w), bind_runs_ok (ih htail)]
    rw [tableAt_succ]
    rfl

/-- The palette of an icon whose color table the platform does not reject. -/
theorem iconPalette_runs {p : Params} {tbl len : Nat} (hfree : ∀ b, span p tbl len b → rejected p b = false)
    (w : Work) : iconPalette p tbl len w = .ok (.built (iconEntries p w.mem tbl len)) w := by
  unfold iconPalette iconEntries
  by_cases h : len % 4 = 0 ∧ len ≤ 1024
  · rw [if_pos h]
    by_cases h0 : len = 0
    · rw [if_neg (by omega), h0]
      rfl
    · rw [if_pos (by omega), bind_runs_ok (readTable_runs (fun b hb => hfree b ?_) w)]
      · rfl
      · rwa [Nat.mul_div_cancel' (Nat.dvd_of_mod_eq_zero h.1)] at hb
  · rw [if_neg h, if_neg (by omega)]
    rfl

/-! ### The checks -/

theorem exec_icon (s : State) : exec .icon s = .next (s.runPlain (iconCmd s)) := rfl

/-- The bytes of an icon's AND mask (43_bitmap_decoders R261). -/
theorem iconMaskStride_eq (w : Nat) : iconMaskStride w = ((w + 7) / 8 + 3) / 4 * 4 := rfl

theorem iconUsesMask_iff (r : OperandRegs) (f : Fmt) :
    iconUsesMask r f = true ↔ f.hasAlpha = true ∧ r.msk ≠ 0 ∧ r.msklen ≠ 0 := by
  simp only [iconUsesMask, Bool.and_eq_true, bne_iff_ne, and_assoc]

/-- Only the listed depths have a format (43_bitmap_decoders R281). -/
theorem iconFmt_of_not_mem {bpp : Word} (h : bpp.toNat ∉ [8, 16, 24, 32]) : iconFmt bpp = none := by
  have hne {n : Word} (hn : n.toNat ∈ [8, 16, 24, 32]) : bpp ≠ n := fun e => h (e ▸ hn)
  rw [iconFmt, if_neg (hne (by decide)), if_neg (hne (by decide)), if_neg (hne (by decide)), if_neg (hne (by decide))]

/-- The format of a listed depth, and the bytes of its pixels (43_bitmap_decoders R281). -/
theorem exists_iconFmt {bpp : Word} (h : bpp.toNat ∈ [8, 16, 24, 32]) :
    ∃ sf, iconFmt bpp = some sf ∧ sf.bytes = bpp.toNat / 8 := by
  simp only [List.mem_cons, List.not_mem_nil, or_false] at h
  obtain h | h | h | h := h
  · exact ⟨.rgb8, iconFmt_of_mem (by simp [h]), by rw [h]; rfl⟩
  · exact ⟨.rgb15, iconFmt_of_mem (by simp [h]), by rw [h]; rfl⟩
  · exact ⟨.rgb24, iconFmt_of_mem (by simp [h]), by rw [h]; rfl⟩
  · exact ⟨.bgra32, iconFmt_of_mem (by simp [h]), by rw [h]; rfl⟩

/-- ICON from its color table on (43_bitmap_decoders R280 steps 6 to 9). -/
def iconFromTable (s : State) (f sf : Fmt) : Cmd Unit := do
  let pal ← iconPalette s.params s.regs.tbl.toNat s.regs.tbllen.toNat
  failIf (iconUsesMask s.regs f && !f.packable) .unsupported
  failIf (iconUsesMask s.regs f && decide (s.regs.msklen.toNat < iconMaskStride s.regs.w.toNat * s.regs.h.toNat))
    .invalidArg
  copyWith s.params (iconReq s.regs sf pal) (dispatchCopy s.params)
  onlyIf (iconUsesMask s.regs f) (iconMaskPass s.params (destRect s.regs f) s.regs.msk.toNat)

theorem iconCmd_of_invalid {s : State} (h : decodeFmt s.regs.dfmt = none) : iconCmd s = throw .unsupported := by
  rw [iconCmd, h]

section
variable {s : State} {f sf : Fmt} (hf : decodeFmt s.regs.dfmt = some f)
include hf

theorem iconCmd_of_null (h : s.regs.dst = 0 ∨ s.regs.src = 0) (w : Work) : iconCmd s w = .error .invalidArg w := by
  simp only [iconCmd, hf, failIf_bind, Bool.or_eq_true, beq_iff_eq, if_pos h]

theorem iconCmd_of_depth (hd : s.regs.dst ≠ 0) (hs : s.regs.src ≠ 0) (h : iconFmt s.regs.bpp = none) (w : Work) :
    iconCmd s w = .error .unsupported w := by
  simp only [iconCmd, hf, failIf_bind, Bool.or_eq_true, beq_iff_eq, if_neg (not_or.2 ⟨hd, hs⟩), h, throw_runs]

/-- ICON of a listed depth: steps 4 and 5, then the rest (43_bitmap_decoders R280). -/
theorem iconCmd_of_formats (hd : s.regs.dst ≠ 0) (hs : s.regs.src ≠ 0) (hsf : iconFmt s.regs.bpp = some sf) (w : Work) :
    iconCmd s w =
      if s.regs.srclen.toNat < s.regs.w.toNat * s.regs.h.toNat * sf.bytes then .error .invalidArg w
      else if s.regs.tbl = 0 ∧ s.regs.tbllen ≠ 0 then .error .invalidArg w
      else iconFromTable s f sf w := by
  simp only [iconCmd, hf, hsf, failIf_bind, Bool.or_eq_true, beq_iff_eq, if_neg (not_or.2 ⟨hd, hs⟩), decide_eq_true_eq,
    Bool.and_eq_true, bne_iff_ne]
  rfl

end

/-- Steps 6 to 9, the table not rejected: the mask's two checks, the copy, the mask pass (43_bitmap_decoders R280). -/
theorem iconFromTable_runs {s : State} (f sf : Fmt) {w : Work}
    (hfree : ∀ b, span s.params s.regs.tbl.toNat s.regs.tbllen.toNat b → rejected s.params b = false) :
    iconFromTable s f sf w =
      if iconUsesMask s.regs f = true ∧ f.packable = false then .error .unsupported w
      else if iconUsesMask s.regs f = true ∧
        s.regs.msklen.toNat < iconMaskStride s.regs.w.toNat * s.regs.h.toNat then .error .invalidArg w
      else (do
        copyWith s.params (iconReq s.regs sf
          (.built (iconEntries s.params w.mem s.regs.tbl.toNat s.regs.tbllen.toNat))) (dispatchCopy s.params)
        onlyIf (iconUsesMask s.regs f) (iconMaskPass s.params (destRect s.regs f) s.regs.msk.toNat)) w := by
  simp only [iconFromTable, bind_runs_ok (iconPalette_runs hfree w), failIf_bind, Bool.and_eq_true, Bool.not_eq_true',
    decide_eq_true_eq]

theorem span_free {p : Params} (hrej : p.rejects = []) {a n b : Nat} (_ : span p a n b) : rejected p b = false :=
  rejected_nil hrej b

/-- Settles O51, by ICON's equations up to the copy. -/
theorem iconChecks : Obligations.IconChecks := by
  intro s
  rw [exec_icon]
  have fails {e : Err} (he : e.isFault = false) (h : iconCmd s s.work = .error e s.work) :
      Host.Outcome.next (s.runPlain (iconCmd s)) = (.next (s.failed e.code) : Host.Outcome State Fault Refusal) :=
    congrArg _ (runPlain_of_failure h he)
  refine ⟨fun h => ?invalid, fun f hf => ⟨fun hnull => ?null, fun hd hs => ⟨fun hbpp => ?depth, fun hbpp => ?listed⟩⟩⟩
  case invalid => exact fails (e := .unsupported) rfl (by rw [iconCmd_of_invalid h, throw_runs])
  case null => exact fails (e := .invalidArg) rfl (iconCmd_of_null hf hnull _)
  case depth => exact fails (e := .unsupported) rfl (iconCmd_of_depth hf hd hs (iconFmt_of_not_mem hbpp) _)
  case listed =>
    obtain ⟨sf, hsf, hbytes⟩ := exists_iconFmt hbpp
    have hcmd := iconCmd_of_formats hf hd hs hsf s.work
    rw [hbytes] at hcmd
    refine ⟨fun hshort => ?bitmap, fun hlen => ⟨fun htbl hn => ?noTable, fun htbl hrej ha hm hml =>
      ⟨fun hfmt => ?unpackable, fun hp hshort => ?mask⟩⟩⟩
    case bitmap => exact fails (e := .invalidArg) rfl (by rw [hcmd, if_pos hshort])
    case noTable => exact fails (e := .invalidArg) rfl (by rw [hcmd, if_neg (by omega), if_pos ⟨htbl, hn⟩])
    all_goals
      have huse : iconUsesMask s.regs f = true := (iconUsesMask_iff _ _).2 ⟨ha, hm, hml⟩
      rw [if_neg (by omega), if_neg (by tauto), iconFromTable_runs _ _ fun _ => span_free hrej] at hcmd
    case unpackable =>
      exact fails (e := .unsupported) rfl (by rw [hcmd, if_pos ⟨huse, Fmt.packable_eq_false hfmt⟩])
    case mask =>
      exact fails (e := .invalidArg) rfl (by rw [hcmd, if_neg (by simp [hp]), if_pos ⟨huse, hshort⟩])

/-! ### The copy step -/

/-- Palettes make no difference to a copy that looks nothing up in them. -/
theorem overlapSafe_palette (p : Params) {j : CopyJob} (h : j.sf ≠ .rgb8 ∨ j.mode = .raw) (pal : Palette) :
    overlapSafe p { j with pal := pal } = overlapSafe p j := by
  have hmode : { j with pal := pal }.mode = j.mode := rfl
  by_cases hm : j.mode = .raw
  · rw [overlapSafe_of_raw p hm, overlapSafe_of_raw p (hmode.trans hm)]
    rfl
  · have h8 := h.resolve_right hm
    rw [overlapSafe_of_converting p hm, overlapSafe_of_converting p (hmode.trans_ne hm)]
    simp only [pixelCopy, convChecks, convert, split, if_neg h8, beq_false_of_ne h8, onlyIf_false]
    rfl

/-- COPY after its checks (42_blit_engine R200, R214). -/
theorem dispatchCopy_runs (p : Params) (j : CopyJob) (w : Work) :
    dispatchCopy p j w =
      if p.backendCopyPresent = false ∧ j.overlap = false then .error .backend (w.withBinit true)
      else overlapSafe p j (w.withBinit (w.binit || !j.overlap)) := by
  cases ho : j.overlap with
  | true => simp [dispatchCopy, ho, Work.withBinit]
  | false => simp [dispatchCopy, ho, nonOverlapping_runs]

theorem dispatchCopy_palette (p : Params) {j : CopyJob} (h : j.sf ≠ .rgb8 ∨ j.mode = .raw) (pal : Palette) :
    dispatchCopy p { j with pal := pal } = dispatchCopy p j := by
  funext w
  rw [dispatchCopy_runs, dispatchCopy_runs, overlapSafe_palette p h]
  rfl

/-- The operand registers of the COPY an icon's copy step is (43_bitmap_decoders R280 step 8). -/
def OperandRegs.iconCopy (r : OperandRegs) (ident : Word) : OperandRegs :=
  { r with sfmt := ident, sstride := 0, sx := 0, sy := 0, flags := 1 }

theorem copyReq_iconCopy (r : OperandRegs) (sf : Fmt) :
    copyReq (r.iconCopy sf.ident) = iconReq r sf (paletteAt r.pal) := by
  simp only [copyReq, iconReq, OperandRegs.iconCopy, decodeFmt_ident]
  rfl

/-- The copy step of ICON (43_bitmap_decoders R280 step 8) as the COPY it is, with another palette. -/
theorem iconReq_job (r : OperandRegs) (f sf : Fmt) (pal pal' : Palette) :
    (iconReq r sf pal).job f sf = { (iconReq r sf pal').job f sf with pal := pal } := rfl

theorem iconReq_mode (r : OperandRegs) (f sf : Fmt) (pal : Palette) :
    ((iconReq r sf pal).job f sf).mode = if eqna sf f then .raw else .conv := rfl

/-- `copy_checks` for an icon whose destination is enumerated and whose addresses are not null (42_blit_engine R202). -/
theorem copyWith_icon {s : State} {f : Fmt} (hf : decodeFmt s.regs.dfmt = some f) (hd : s.regs.dst ≠ 0)
    (hs : s.regs.src ≠ 0) (sf : Fmt) (pal : Palette) (path : CopyJob → Cmd Unit) :
    copyWith s.params (iconReq s.regs sf pal) path =
      if s.params.maxDim < s.regs.w.toNat ∨ s.params.maxDim < s.regs.h.toNat then throw .invalidArg
      else if s.regs.w = 0 ∨ s.regs.h = 0 then pure ()
      else path ((iconReq s.regs sf pal).job f sf) := by
  have hzero {n : Nat} (v : BitVec n) : v.toNat = 0 ↔ v = 0 := by simp [← BitVec.toNat_inj]
  have hnull : ¬ (s.regs.dst = 0 ∨ s.regs.src = 0) := not_or.2 ⟨hd, hs⟩
  simp only [copyWith, copyChecks, iconReq, copyReq, hf, hzero, if_neg hnull]
  split_ifs <;> rfl

/-- ICON once its own checks have passed: its copy, then the mask pass (43_bitmap_decoders R280 steps 8 and 9). -/
theorem iconCmd_of_checks {s : State} {f sf : Fmt} (hf : decodeFmt s.regs.dfmt = some f) (hd : s.regs.dst ≠ 0)
    (hs : s.regs.src ≠ 0) (hsf : iconFmt s.regs.bpp = some sf)
    (hlen : s.regs.w.toNat * s.regs.h.toNat * sf.bytes ≤ s.regs.srclen.toNat)
    (htbl : s.regs.tbl ≠ 0 ∨ s.regs.tbllen = 0)
    (hmask : iconUsesMask s.regs f = true → f.packable = true ∧
      iconMaskStride s.regs.w.toNat * s.regs.h.toNat ≤ s.regs.msklen.toNat)
    (hfree : ∀ b, span s.params s.regs.tbl.toNat s.regs.tbllen.toNat b → rejected s.params b = false) (w : Work) :
    iconCmd s w = (do
      copyWith s.params (iconReq s.regs sf
        (.built (iconEntries s.params w.mem s.regs.tbl.toNat s.regs.tbllen.toNat))) (dispatchCopy s.params)
      onlyIf (iconUsesMask s.regs f) (iconMaskPass s.params (destRect s.regs f) s.regs.msk.toNat)) w := by
  rw [iconCmd_of_formats hf hd hs hsf, if_neg (by omega), if_neg (by tauto), iconFromTable_runs f sf hfree, if_neg, if_neg]
  · rintro ⟨huse, hshort⟩
    exact absurd (hmask huse).2 (by omega)
  · rintro ⟨huse, hp⟩
    exact absurd ((hmask huse).1.symm.trans hp) (by decide)

/-- Without a mask ICON is its copy (43_bitmap_decoders R280 steps 4 to 8). -/
theorem iconCmd_unmasked {s : State} {f sf : Fmt} (hf : decodeFmt s.regs.dfmt = some f) (hd : s.regs.dst ≠ 0)
    (hs : s.regs.src ≠ 0) (hsf : iconFmt s.regs.bpp = some sf)
    (hlen : s.regs.w.toNat * s.regs.h.toNat * sf.bytes ≤ s.regs.srclen.toNat)
    (htbl : s.regs.tbl ≠ 0 ∨ s.regs.tbllen = 0) (hmask : iconUsesMask s.regs f = false)
    (hfree : ∀ b, span s.params s.regs.tbl.toNat s.regs.tbllen.toNat b → rejected s.params b = false) (w : Work) :
    iconCmd s w = copyWith s.params (iconReq s.regs sf
      (.built (iconEntries s.params w.mem s.regs.tbl.toNat s.regs.tbllen.toNat))) (dispatchCopy s.params) w := by
  rw [iconCmd_of_checks hf hd hs hsf hlen htbl (by simp [hmask]) hfree, hmask, onlyIf_false, bind_pure_unit]

/-- The mask is unused where the destination has no alpha or there is no mask (43_bitmap_decoders R280 step 7). -/
theorem iconUsesMask_eq_false {r : OperandRegs} {f : Fmt} (h : f.hasAlpha = false ∨ r.msk = 0 ∨ r.msklen = 0) :
    iconUsesMask r f = false := by
  rw [← Bool.not_eq_true, iconUsesMask_iff]
  simp only [← Bool.not_eq_true] at h
  tauto

/-- The formats of an icon's bitmap by their identifiers (43_bitmap_decoders R281). -/
theorem iconFmt_of_ident {bpp ident : Word} {f : Fmt}
    (h : (bpp.toNat, ident) ∈ [(16, 0x0F010555#32), (24, 0x18010888#32), (32, 0x20048888#32)] ∨
      (bpp = 8 ∧ f = .rgb8 ∧ ident = 0x08008000#32)) :
    ∃ sf, iconFmt bpp = some sf ∧ ident = sf.ident ∧ sf.bytes = bpp.toNat / 8 ∧ (sf = .rgb8 → f = .rgb8) := by
  simp only [List.mem_cons, Prod.mk.injEq, List.not_mem_nil, or_false] at h
  obtain (⟨h, rfl⟩ | ⟨h, rfl⟩ | ⟨h, rfl⟩) | ⟨rfl, rfl, rfl⟩ := h
  · exact ⟨.rgb15, iconFmt_of_mem (by simp [h]), rfl, by rw [h]; rfl, nofun⟩
  · exact ⟨.rgb24, iconFmt_of_mem (by simp [h]), rfl, by rw [h]; rfl, nofun⟩
  · exact ⟨.bgra32, iconFmt_of_mem (by simp [h]), rfl, by rw [h]; rfl, nofun⟩
  · exact ⟨.rgb8, rfl, rfl, rfl, fun _ => rfl⟩

/-- How a command ends rests on its run from the state's own working state. -/
theorem runPlain_congr {s : State} {c d : Cmd Unit} (h : c s.work = d s.work) : s.runPlain c = s.runPlain d := by
  rw [State.runPlain, h]
  rfl

/-- Without a mask ICON ends as a COPY does (43_bitmap_decoders R280 step 8), whose palette no pixel is looked up in. -/
theorem exec_icon_of_copy {s t : State} {f sf : Fmt} (hf : decodeFmt s.regs.dfmt = some f) (hd : s.regs.dst ≠ 0)
    (hs : s.regs.src ≠ 0) (h8 : sf = .rgb8 → f = .rgb8) {pal : Palette}
    (hicon : iconCmd s s.work = copyWith s.params (iconReq s.regs sf pal) (dispatchCopy s.params) s.work)
    (ht : exec .copy (s.withRegs (s.regs.iconCopy sf.ident)) = .next t) :
    exec .icon s = .next (t.withRegs s.regs) := by
  have hpal : copyWith s.params (iconReq s.regs sf pal) (dispatchCopy s.params) =
      copyWith s.params (iconReq s.regs sf (paletteAt s.regs.pal)) (dispatchCopy s.params) := by
    rw [copyWith_icon hf hd hs, copyWith_icon hf hd hs, iconReq_job s.regs f sf pal (paletteAt s.regs.pal),
      dispatchCopy_palette]
    by_cases h : sf = .rgb8
    · rw [h8 h, h]
      exact .inr rfl
    · exact .inl h
  obtain rfl := Host.Outcome.next.inj ht
  rw [exec_icon, runPlain_congr (hicon.trans (congrFun hpal _)), ← copyReq_iconCopy, ← runPlain_withRegs]
  rfl

/-- Settles O53: without a mask ICON is its copy. -/
theorem iconIsFlippedCopy : Obligations.IconIsFlippedCopy := by
  intro s t f ident hf hd hs hbpp hlen htbl hmask hfree ht
  obtain ⟨sf, hsf, rfl, hbytes, h8⟩ := iconFmt_of_ident hbpp
  exact exec_icon_of_copy hf hd hs h8 (iconCmd_unmasked hf hd hs hsf (hbytes ▸ hlen) htbl (iconUsesMask_eq_false hmask)
    (fun b hb => hfree b hb) s.work) ht

end Sys2Proof.Machine
end

section
/-! What ICON leaves (43_bitmap_decoders R280): its outcomes once its own checks have passed, an 8-bit icon's pixels through
the color table (R282), and the mask pass. -/

namespace Sys2Proof.Machine

/-! ### Running through -/

/-- A loop over pixels whose every turn completes within `S` completes within `S`. -/
theorem forPixels_completes {S : Nat → Prop} {width height : Nat} {body : Nat → Nat → Cmd Unit}
    (h : ∀ x y, x < width → y < height → ∀ u, ∃ u', body x y u = .ok () u' ∧ Stores S u u') (w : Work) :
    ∃ w', forPixels width height body w = .ok () w' ∧ Stores S w w' := by
  have hR := stores_step S
  refine forEach_runs (fun _ u => Stores S w u) (fun done y rest hys u hu => ?_) (hR.refl w)
  refine forEach_runs (fun _ u => Stores S w u) (fun done x rest hxs u hu => ?_) hu
  have hx : x < width := List.mem_range.1 (by simp [hxs])
  have hy : y < height := List.mem_range.1 (by simp [hys])
  obtain ⟨u', hrun, hst⟩ := h x y hx hy u
  exact ⟨u', hrun, hR.trans hu hst⟩

/-- A command that succeeds within `S`, BINIT at `b`. -/
theorem runPlain_of_stores {s : State} {c : Cmd Unit} {w : Work} {b : Bool} {S : Nat → Prop}
    (h : c s.work = .ok () w) (hst : Stores S (s.work.withBinit b) w) : s.runPlain c = s.succeeded w.mem b := by
  obtain ⟨-, hbinit, hdraws⟩ := hst
  rw [runPlain_of_ok h, State.endCommand, hbinit, hdraws]
  rfl

/-! ### The mask pass -/

/-- The channels of a pixel after the mask pass (43_bitmap_decoders R280 step 9). -/
def withMaskAlpha (c : Channels) (bit : Bool) : Channels :=
  ⟨c.r, c.g, c.b, if bit then 0 else 255⟩

/-- One turn of the mask pass. -/
def iconMaskTurn (p : Params) (t : Rect) (msk x y : Nat) : Cmd Unit := do
  let m ← readBit p msk (iconMaskStride t.w) (t.h - 1 - y) x
  let v ← loadPx p (t.pixel x y) t.fmt
  let c ← split p v t.fmt .absent
  let v' ← ofExcept (pack p t.fmt (withMaskAlpha c m))
  storePx p (t.pixel x y) t.fmt v'

theorem iconMaskPass_eq (p : Params) (t : Rect) (msk : Nat) :
    iconMaskPass p t msk = forPixels t.w t.h (iconMaskTurn p t msk) := rfl

/-- A format with alpha that packs also splits, without a palette (40_format_metadata R125, R127). -/
theorem Fmt.unpackable_of_alpha {f : Fmt} (hp : f.packable = true) (ha : f.hasAlpha = true) :
    f.unpackable = true ∧ f ≠ .rgb8 := by
  revert hp ha
  cases f <;> decide

section
variable {p : Params} {t : Rect} (hrej : p.rejects = []) (hp : t.fmt.packable = true) (ha : t.fmt.hasAlpha = true)
include hrej hp ha

/-- A turn stores the pixel with its alpha replaced. -/
theorem iconMaskTurn_runs (msk : Nat) {x y : Nat} {u : Work} {c : Channels} {v : Word}
    (hc : splitBare p t.fmt (pixelAt p u.mem (t.pixel x y) t.fmt) = .ok c)
    (hv : pack p t.fmt (withMaskAlpha c (bitIn p u.mem msk (iconMaskStride t.w) (t.h - 1 - y) x)) = .ok v) :
    iconMaskTurn p t msk x y u = storePx p (t.pixel x y) t.fmt v u := by
  have h8 := (Fmt.unpackable_of_alpha hp ha).2
  rw [iconMaskTurn, bind_runs_ok (readBit_runs hrej _ _ _ _ u), bind_runs_ok (loadPx_runs hrej _ _ u), split, if_neg h8,
    hc, ofExcept_ok, pure_bind, hv, ofExcept_ok, pure_bind]

/-- The mask pass runs through and touches only the rectangle. -/
theorem iconMaskPass_completes (msk : Nat) (w : Work) :
    ∃ w', iconMaskPass p t msk w = .ok () w' ∧ Stores (t.footprint p) w w' := by
  obtain ⟨hu, h8⟩ := Fmt.unpackable_of_alpha hp ha
  refine forPixels_completes (fun x y hx hy u => ?_) w
  obtain ⟨c, hc⟩ := splitBare_ok (p := p) hu h8 (pixelAt p u.mem (t.pixel x y) t.fmt)
  obtain ⟨v, hv⟩ := pack_ok (p := p) hp (withMaskAlpha c (bitIn p u.mem msk (iconMaskStride t.w) (t.h - 1 - y) x))
  obtain ⟨u', hrun, hst⟩ := storePx_completes hrej (t.pixel x y) t.fmt v u
  exact ⟨u', (iconMaskTurn_runs hrej hp ha msk hc hv).trans hrun, hst.mono fun a hs => Rect.pixel_footprint hx hy hs⟩

/-- What the mask pass leaves where the rows are apart and the mask lies outside the rectangle: every pixel keeps its
color and gets the mask's alpha. -/
theorem iconMaskPass_masks {msk : Nat} (hf : t.fits p) (hrows : t.rowsApart)
    (hbits : bitsApart p msk (iconMaskStride t.w) t.w t.h (t.footprint p)) (w : Work) :
    ∃ m, iconMaskPass p t msk w = .ok () ⟨m, w.binit, w.draws⟩ ∧
      (∀ x y, x < t.w → y < t.h → ∃ c v, splitBare p t.fmt (pixelAt p w.mem (t.pixel x y) t.fmt) = .ok c ∧
        packedNat p t.fmt (channelNats (withMaskAlpha c (bitIn p w.mem msk (iconMaskStride t.w) (t.h - 1 - y) x))) = some v ∧
        holds p m (t.pixel x y) (storeNat t.fmt.bpp v)) ∧
      ∀ a, ¬ t.footprint p a → Memory.read m a = Memory.read w.mem a := by
  obtain ⟨hu, h8⟩ := Fmt.unpackable_of_alpha hp ha
  choose c hc using fun x y => splitBare_ok (p := p) hu h8 (pixelAt p w.mem (t.pixel x y) t.fmt)
  obtain ⟨m, hrun, hpixels, hkeep⟩ := forPixels_packs hrej hf hrows hp (body := iconMaskTurn p t msk) (w := w)
    (c := fun x y => withMaskAlpha (c x y) (bitIn p w.mem msk (iconMaskStride t.w) (t.h - 1 - y) x))
    fun x y hx hy v hv u hkeeps => by
      have hpixel : pixelAt p u.mem (t.pixel x y) t.fmt = pixelAt p w.mem (t.pixel x y) t.fmt :=
        pixelAt_congr fun a hs => hkeeps a fun _ => hs
      have hbit : bitIn p u.mem msk (iconMaskStride t.w) (t.h - 1 - y) x =
          bitIn p w.mem msk (iconMaskStride t.w) (t.h - 1 - y) x :=
        bitIn_congr (hkeeps _ fun hin => absurd hin (hbits _ (by omega) x hx))
      exact iconMaskTurn_runs hrej hp ha msk (by rw [hpixel, hc]) (by rw [hbit, hv])
  refine ⟨m, hrun, fun x y hx hy => ?_, hkeep⟩
  obtain ⟨v, hv, hholds⟩ := hpixels x y hx hy
  exact ⟨c x y, v, hc x y, hv, hholds⟩

end

/-! ### The copy step's outcomes -/

/-- A format that does not pack has no twin (40_format_metadata R126). -/
theorem eqna_of_not_packable {sf f : Fmt} (hp : f.packable = false) (hne : f ≠ sf) : eqna sf f = false := by
  revert hp hne
  cases f <;> cases sf <;> decide

theorem paletteChecks_built (p : Params) (es : List Word) (w : Work) : paletteChecks p (.built es) w = .ok () w := rfl

/-- An icon's copy into a format that neither packs nor is the bitmap's own fails (42_blit_engine R207). -/
theorem overlapSafe_icon_unsupported {r : OperandRegs} {f sf : Fmt} {p : Params}
    (hs : sf.unpackable = true) (hp : f.packable = false) (hne : f ≠ sf) (es : List Word) (w : Work) :
    overlapSafe p ((iconReq r sf (.built es)).job f sf) w = .error .unsupported w := by
  have hm : ((iconReq r sf (.built es)).job f sf).mode ≠ .raw := by
    rw [iconReq_mode, eqna_of_not_packable hp hne]
    nofun
  rw [overlapSafe_of_converting p hm]
  refine bind_runs_error (show convChecks p sf f (.built es) w = _ from ?_)
  by_cases h8 : sf = .rgb8
  · subst h8
    rw [convChecks_rgb8, bind_runs_ok (paletteChecks_built p es w), hp]
    rfl
  · rw [convChecks_of_direct _ _ _ _ hs h8, hp]
    rfl

/-- An icon's copy that its checks let through is ready: the palette built for it serves (42_blit_engine R207). -/
theorem iconReq_ready {r : OperandRegs} {f sf : Fmt} {p : Params} {m : Memory} (hs : sf.unpackable = true)
    (h : f.packable = true ∨ f = sf) (es : List Word) : ((iconReq r sf (.built es)).job f sf).ready p m := by
  obtain hp | rfl := h
  · exact .inr ⟨hs, hp, fun _ => trivial⟩
  · exact .inl (by simp [iconReq_mode, eqna])

theorem iconFmt_unpackable {bpp : Nat} {sf : Fmt}
    (h : (bpp, sf) ∈ [(8, Fmt.rgb8), (16, .rgb15), (24, .rgb24), (32, .bgra32)]) :
    sf.unpackable = true ∧ sf.bytes = bpp / 8 := by
  simp only [List.mem_cons, Prod.mk.injEq, List.not_mem_nil, or_false] at h
  obtain ⟨rfl, rfl⟩ | ⟨rfl, rfl⟩ | ⟨rfl, rfl⟩ | ⟨rfl, rfl⟩ := h <;> decide

theorem forPixels_of_empty {width height : Nat} (h : width = 0 ∨ height = 0) (body : Nat → Nat → Cmd Unit) :
    forPixels width height body = pure () := by
  have hnil : pixelOrder (List.range width) (List.range height) = [] := by
    obtain rfl | rfl := h <;> simp [pixelOrder]
  rw [forPixels, nested_eq, hnil, forList]

/-- Where its checks pass the mask pass, used or not, runs through (43_bitmap_decoders R280 step 9). -/
theorem iconMask_completes {s : State} {f : Fmt} (hrej : s.params.rejects = [])
    (hp : iconUsesMask s.regs f = true → f.packable = true) (w : Work) :
    ∃ w', onlyIf (iconUsesMask s.regs f) (iconMaskPass s.params (destRect s.regs f) s.regs.msk.toNat) w = .ok () w' ∧
      Stores ((destRect s.regs f).footprint s.params) w w' := by
  cases huse : iconUsesMask s.regs f with
  | false => exact ⟨w, rfl, (stores_step _).refl w⟩
  | true =>
    have ha := ((iconUsesMask_iff _ _).1 huse).1
    exact iconMaskPass_completes (t := destRect s.regs f) hrej (hp huse) ha _ w

/-- Settles O52, by the branches of `copy_checks` and of COPY's dispatch; the mask pass completes after a copy. -/
theorem iconCompletes : Obligations.IconCompletes := by
  intro s f sf hf hrej hd hs hbpp hlen htbl hmask
  obtain ⟨hsu, hbytes⟩ := iconFmt_unpackable hbpp
  have hmask' : iconUsesMask s.regs f = true →
      f.packable = true ∧ iconMaskStride s.regs.w.toNat * s.regs.h.toNat ≤ s.regs.msklen.toNat := by
    rw [iconUsesMask_iff, iconMaskStride_eq]
    rintro ⟨ha, hm, hml⟩
    simpa only [ha, hm, hml, Bool.true_eq_false, false_or] using hmask
  have hcmd := iconCmd_of_checks hf hd hs (iconFmt_of_mem hbpp) (hbytes ▸ hlen) htbl hmask'
    (fun _ => span_free hrej) s.work
  generalize iconEntries s.params s.work.mem s.regs.tbl.toNat s.regs.tbllen.toNat = es at hcmd
  rw [copyWith_icon hf hd hs] at hcmd
  rw [exec_icon]
  refine ⟨fun hbig => ?oversized, fun hw hh => ⟨fun h0 => ?empty, fun hw0 hh0 =>
    ⟨fun hb ho => ?backend, fun hbo => ⟨fun hp hne => ?unsupported, fun hok => ?copied⟩⟩⟩⟩
  case oversized =>
    rw [if_pos hbig] at hcmd
    rw [runPlain_of_failure (hcmd.trans (bind_runs_error (throw_runs _ _))) rfl]
    rfl
  case empty =>
    have harea : (destRect s.regs f).w = 0 ∨ (destRect s.regs f).h = 0 :=
      h0.imp (congrArg BitVec.toNat) (congrArg BitVec.toNat)
    rw [if_neg (by omega), if_pos h0, pure_bind, iconMaskPass_eq, forPixels_of_empty harea] at hcmd
    rw [runPlain_of_ok (hcmd.trans (by cases iconUsesMask s.regs f <;> rfl))]
    rfl
  all_goals
    rw [if_neg (by omega), if_neg (not_or.2 ⟨hw0, hh0⟩)] at hcmd
    have hcopy := dispatchCopy_runs s.params ((iconReq s.regs sf (.built es)).job f sf) s.work
  case backend =>
    rw [if_pos ⟨hb, ho⟩] at hcopy
    rw [runPlain_of_error (hcmd.trans (bind_runs_error hcopy))]
    simp [State.endCommand, Status.conclude, Err.code, Err.isFault, Work.withBinit]
  all_goals
    have hpath : ¬ (s.params.backendCopyPresent = false ∧
        ((iconReq s.regs sf (.built es)).job f sf).overlap = false) := by
      rintro ⟨hb, ho⟩
      exact hbo.elim (fun h => Bool.false_ne_true (hb.symm.trans h)) (fun h => Bool.false_ne_true (ho.symm.trans h))
    rw [if_neg hpath] at hcopy
  case unsupported =>
    rw [overlapSafe_icon_unsupported hsu hp hne] at hcopy
    rw [runPlain_of_error (hcmd.trans (bind_runs_error hcopy))]
    simp [State.endCommand, Status.conclude, Err.code, Err.isFault, Work.withBinit]
    rfl
  case copied =>
    obtain ⟨w₁, hrun₁, hst₁⟩ := overlapSafe_runs hrej (iconReq_ready (r := s.regs) (p := s.params) hsu hok es)
    rw [hrun₁] at hcopy
    rw [bind_runs_ok hcopy] at hcmd
    obtain ⟨w₂, hrun₂, hst₂⟩ := iconMask_completes (f := f) hrej (fun huse => (hmask' huse).1) w₁
    rw [hrun₂] at hcmd
    have hst := (stores_step _).trans hst₁ hst₂
    exact ⟨w₂.mem, by rw [runPlain_of_stores hcmd hst]; rfl, hst.1⟩

end Sys2Proof.Machine
end

section
/-! The pixels of an icon (43_bitmap_decoders R280): of an 8-bit one through its color table (R282), and of a masked one
after the mask pass. -/

namespace Sys2Proof.Machine

/-! ### Through the color table -/

/-- The bytes of a 32-bit pixel, lowest address first, are its value's from the top (20_memory R66). -/
theorem byteOf_loadNat (p : Params) (m : Memory) (a : Nat) :
    byteOf (loadNat p m a 32) 3 = byteNat p m a ∧ byteOf (loadNat p m a 32) 2 = byteNat p m (a + 1) ∧
      byteOf (loadNat p m a 32) 1 = byteNat p m (a + 2) := by
  have hlt (k : Nat) : byteNat p m (a + k) < 256 := BitVec.isLt _
  have h0 := hlt 0
  have h1 := hlt 1
  have h2 := hlt 2
  have h3 := hlt 3
  rw [Nat.add_zero] at h0
  simp only [byteOf, loadNat, if_true]
  omega

/-- Entry `i` of the icon palette, in numbers (43_bitmap_decoders R282). -/
theorem iconEntries_toNat (p : Params) (m : Memory) (tbl n i : Nat) :
    ((iconEntries p m tbl n).getD i 0).toNat =
      if n % 4 = 0 ∧ n ≤ 1024 ∧ 4 * i < n then loadNat p m (tbl + 4 * i) 32 else 0 := by
  unfold iconEntries
  by_cases h : n % 4 = 0 ∧ n ≤ 1024
  · by_cases hi : 4 * i < n
    · have hlt : i < n / 4 := by omega
      rw [if_pos h, if_pos ⟨h.1, h.2, hi⟩, tableAt, List.getD_eq_getElem _ _ (by simpa using hlt)]
      rw [List.getElem_map, List.getElem_range, pixelAt_toNat]
      rfl
    · rw [if_pos h, if_neg (by tauto), tableAt, List.getD_eq_default _ _ (by simp; omega)]
      rfl
  · rw [if_neg h, if_neg (by tauto)]
    rfl

/-- Converting an index through the icon palette: the entry's bytes blue, green and red, made opaque (43_bitmap_decoders
R282). -/
theorem convertIn_icon {p : Params} {m : Memory} {tbl n : Nat} {f : Fmt} {v c : Word} (hv : v.toNat ≤ 255)
    (h : convertIn p m (.built (iconEntries p m tbl n)) .rgb8 f v = .ok c) :
    let e := fun k => if n % 4 = 0 ∧ n ≤ 1024 ∧ 4 * v.toNat < n then byteNat p m (tbl + 4 * v.toNat + k) else 0
    packNat p f (e 2) (e 1) (e 0) 255 = some c.toNat := by
  intro e
  obtain ⟨ch, hch⟩ := splitBare_ok (p := p) (f := .bgrx32) rfl nofun ((iconEntries p m tbl n).getD v.toNat 0)
  have hpack : pack p f ch = .ok c := by
    simp only [convertIn, channelsIn, paletteIn, if_true, reduceCtorEq, if_false, if_neg (by omega : ¬ 0xFF < v.toNat),
      hch] at h
    exact h
  have hsplit := splitNat_toNat p .bgrx32 ((iconEntries p m tbl n).getD v.toNat 0)
  rw [hch, iconEntries_toNat] at hsplit
  have hpacked := packedNat_channelNats p f ch
  rw [hpack] at hpacked
  have hnats : channelNats ch = (e 2, e 1, e 0, 255) := by
    refine (Option.some.inj hsplit).symm.trans ?_
    obtain ⟨h0, h1, h2⟩ := byteOf_loadNat p m (tbl + 4 * v.toNat)
    simp only [e]
    split
    · rw [h0, h1, h2]
      rfl
    · rfl
  rw [hnats] at hpacked
  exact hpacked

/-- The source pixels of an icon: rows bottom to top of a tight bitmap (43_bitmap_decoders R280 step 8). -/
theorem iconReq_srcPixel (r : OperandRegs) (f sf : Fmt) (pal : Palette) (x y : Nat) :
    ((iconReq r sf pal).job f sf).srcPixel x y =
      r.src.toNat + (r.h.toNat - 1 - y) * (r.w.toNat * sf.bytes) + x * sf.bytes := by
  simp [CopyJob.srcPixel, CopyJob.srow, CopyReq.job, iconReq, copyReq, pxAddr, effStride]

/-- The rows of a tight bitmap are its bytes in one run. -/
theorem iconReq_sourceApart {r : OperandRegs} {p : Params} {f sf : Fmt} (pal : Palette)
    (h : ∀ k, k < r.w.toNat * r.h.toNat * sf.bytes → ¬ (destRect r f).footprint p (portAddr p (r.src.toNat + k))) :
    ((iconReq r sf pal).job f sf).sourceApart p := by
  intro y hy k hk
  replace hy : y < r.h.toNat := hy
  replace hk : k < r.w.toNat * sf.bytes := hk
  rw [iconReq_srcPixel, Nat.zero_mul, Nat.add_zero, Nat.add_assoc]
  refine h _ ?_
  have hrow : (r.h.toNat - 1 - y + 1) * (r.w.toNat * sf.bytes) ≤ r.h.toNat * (r.w.toNat * sf.bytes) :=
    Nat.mul_le_mul_right _ (by omega)
  rw [Nat.add_mul] at hrow
  rw [Nat.mul_right_comm, Nat.mul_comm _ r.h.toNat]
  omega

/-- Where the source lies apart no pixel is overwritten before it is read. -/
theorem CopyJob.read_first_of_apart {p : Params} {j : CopyJob} (hapart : j.sourceApart p) (done : List (Nat × Nat))
    (x y : Nat) (rest : List (Nat × Nat)) (hd : pixelOrder j.colOrder j.rowOrder = done ++ (x, y) :: rest) (q : Nat × Nat)
    (hq : q ∈ done) (a : Nat) (hsrc : span p (j.srcPixel x y) j.sf.bytes a) :
    ¬ span p (j.rect.pixel q.1 q.2) j.df.bytes a := by
  obtain ⟨hx, hy⟩ := CopyJob.mem_pixels (j := j) (q := (x, y)) (by simp [hd])
  obtain ⟨hqx, hqy⟩ := CopyJob.mem_pixels (j := j) (q := q) (by simp [hd, hq])
  exact fun hmeet => CopyJob.source_apart hapart hx hy hsrc (Rect.pixel_footprint (t := j.rect) hqx hqy hmeet)

/-- The copy of an 8-bit icon (43_bitmap_decoders R280 step 8): every pixel is the conversion of its index, rows bottom to
top. -/
theorem iconCopy_converts {p : Params} {r : OperandRegs} {f : Fmt} {w : Work} (hrej : p.rejects = [])
    (hp : f.packable = true) (hfits : (destRect r f).fits p) (hrows : (destRect r f).rowsApart)
    (hsrc : ∀ k, k < r.w.toNat * r.h.toNat → ¬ (destRect r f).footprint p (portAddr p (r.src.toNat + k)))
    (es : List Word) :
    ∃ m, overlapSafe p ((iconReq r .rgb8 (.built es)).job f .rgb8) w = .ok () ⟨m, w.binit, w.draws⟩ ∧
      ∀ x y, x < r.w.toNat → y < r.h.toNat → ∃ c,
        convertIn p w.mem (.built es) .rgb8 f
          (pixelAt p w.mem (r.src.toNat + (r.h.toNat - 1 - y) * r.w.toNat + x) .rgb8) = .ok c ∧
        holds p m ((destRect r f).pixel x y) (storeNat f.bpp c.toNat) := by
  have hbytes : Fmt.rgb8.bytes = 1 := rfl
  have hconv : ((iconReq r .rgb8 (.built es)).job f .rgb8).mode = .conv := by
    rw [iconReq_mode, if_neg]
    revert hp
    cases f <;> decide
  have hm : ((iconReq r .rgb8 (.built es)).job f .rgb8).mode ≠ .raw := by
    rw [hconv]
    nofun
  have hready := iconReq_ready (r := r) (p := p) (m := w.mem) (sf := .rgb8) rfl (.inl hp) es
  have hapart : ((iconReq r .rgb8 (.built es)).job f .rgb8).sourceApart p :=
    iconReq_sourceApart _ (by rwa [hbytes, Nat.mul_one])
  obtain ⟨m, hrun, hpixels, -⟩ := overlapSafe_converts hrej hm hready hfits hrows (fun _ _ ha => by cases ha)
    (CopyJob.read_first_of_apart hapart)
  refine ⟨m, hrun, fun x y hx hy => ?_⟩
  have hpixel : ((iconReq r .rgb8 (.built es)).job f .rgb8).srcPixel x y =
      r.src.toNat + (r.h.toNat - 1 - y) * r.w.toNat + x := by
    rw [iconReq_srcPixel, hbytes, Nat.mul_one, Nat.mul_one]
  rw [← hpixel]
  refine ⟨_, convertIn_converted hm hready _, ?_⟩
  have hstored := hpixels x y hx hy
  rw [hconv] at hstored
  rw [holds, ← pxBytes_toNat, List.length_map, pxBytes_length (Fmt.writable_of_packable hp)]
  exact congrArg (List.map BitVec.toNat) hstored

/-- Settles O54: without a mask ICON is its copy, whose conversions `convertIn_icon` gives in numbers. -/
theorem iconPaletted : Obligations.IconPaletted := by
  intro s f hf hp hrej hback hc h8 hlen htbl hmask hfits hrows hsrc
  obtain ⟨hw, hh, hd, hs, hw0, hh0⟩ := hc
  have hcmd := iconCmd_unmasked (sf := .rgb8) hf hd hs (by rw [h8]; rfl) (by rwa [show Fmt.rgb8.bytes = 1 from rfl,
    Nat.mul_one]) htbl (iconUsesMask_eq_false hmask) (fun _ => span_free hrej) s.work
  rw [copyWith_icon hf hd hs, if_neg (by omega), if_neg (by tauto), dispatchCopy_runs, if_neg (by simp [hback])] at hcmd
  obtain ⟨m, hrun, hpixels⟩ := iconCopy_converts hrej hp hfits hrows hsrc _
  refine ⟨m, _, by rw [exec_icon, runPlain_of_ok (hcmd.trans hrun)]; rfl, fun x y hx hy => ?_⟩
  obtain ⟨c, hconv, hholds⟩ := hpixels x y hx hy
  have hpacked := convertIn_icon (pixelAt_rgb8_le s.params s.mem _) hconv
  rw [pixelAt_toNat] at hpacked
  exact ⟨_, hpacked, hholds⟩

/-! ### Through the mask -/

/-- The operand registers with no AND mask. -/
def OperandRegs.unmasked (r : OperandRegs) : OperandRegs :=
  { r with msklen := 0 }

/-- An icon with a mask does what it does without, then the mask pass (43_bitmap_decoders R280 step 9). -/
theorem iconCmd_masked {s : State} {f : Fmt} {w w' : Work} (hf : decodeFmt s.regs.dfmt = some f) (hp : f.packable = true)
    (ha : f.hasAlpha = true) (hm : s.regs.msk ≠ 0) (hml : s.regs.msklen ≠ 0)
    (hlen : iconMaskStride s.regs.w.toNat * s.regs.h.toNat ≤ s.regs.msklen.toNat)
    (hrun : iconCmd (s.withRegs s.regs.unmasked) w = .ok () w') :
    iconCmd s w = iconMaskPass s.params (destRect s.regs f) s.regs.msk.toNat w' := by
  have huse : iconUsesMask s.regs f = true := (iconUsesMask_iff _ _).2 ⟨ha, hm, hml⟩
  have hunused : iconUsesMask s.regs.unmasked f = false := iconUsesMask_eq_false (.inr (.inr rfl))
  have hf' : decodeFmt (s.withRegs s.regs.unmasked).regs.dfmt = some f := hf
  by_cases hnull : s.regs.dst = 0 ∨ s.regs.src = 0
  · rw [iconCmd_of_null hf' hnull] at hrun
    cases hrun
  obtain ⟨hd, hs⟩ := not_or.1 hnull
  cases hsf : iconFmt s.regs.bpp with
  | none =>
    rw [iconCmd_of_depth hf' hd hs hsf] at hrun
    cases hrun
  | some sf =>
    have htail : iconFromTable s f sf = (do
        iconFromTable (s.withRegs s.regs.unmasked) f sf
        iconMaskPass s.params (destRect s.regs f) s.regs.msk.toNat) := by
      have hshort : decide (s.regs.msklen.toNat < iconMaskStride s.regs.w.toNat * s.regs.h.toNat) = false :=
        decide_eq_false (by omega)
      simp only [iconFromTable, State.withRegs, huse, hunused, hp, hshort, bind_assoc]
      rfl
    rw [iconCmd_of_formats hf' hd hs hsf] at hrun
    rw [iconCmd_of_formats hf hd hs hsf]
    change (if s.regs.srclen.toNat < s.regs.w.toNat * s.regs.h.toNat * sf.bytes then _ else
      if s.regs.tbl = 0 ∧ s.regs.tbllen ≠ 0 then _ else _) = _ at hrun
    split_ifs at hrun ⊢
    rw [htail, bind_runs_ok hrun]

theorem channelNats_withMaskAlpha (c : Channels) (bit : Bool) :
    channelNats (withMaskAlpha c bit) = (c.r.toNat, c.g.toNat, c.b.toNat, if bit then 0 else 255) := by
  cases bit <;> rfl

/-- Settles O55, by `iconMaskPass_masks` from what the icon without its mask leaves, which is the mask as it was. -/
theorem iconMask : Obligations.IconMask := by
  intro s t f hf hp ha hrej hm hml hlen hfits hrows hbits ht herr
  replace ht : t = (s.withRegs s.regs.unmasked).runPlain (iconCmd (s.withRegs s.regs.unmasked)) :=
    (Host.Outcome.next.inj ht).symm
  rw [ht] at herr
  obtain ⟨w, hw⟩ := runPlain_ok_of_err herr
  rw [runPlain_of_ok hw] at ht
  subst ht
  rw [withRegs_work] at hw
  have hkeeps : KeepsOutside ((destRect s.regs f).footprint s.params) s.work w := by
    have h := iconCmd_keeps (s := s.withRegs s.regs.unmasked) hf s.work
    rwa [hw] at h
  obtain ⟨m, hrun, hpixels, hkeep⟩ := iconMaskPass_masks (t := destRect s.regs f) hrej hp ha hfits hrows hbits w
  refine ⟨m, ?_, fun x y hx hy => ?_, hkeep⟩
  · rw [exec_icon, runPlain_of_ok (s := s) ((iconCmd_masked hf hp ha hm hml hlen hw).trans hrun)]
    rfl
  · obtain ⟨c, v, hc, hv, hholds⟩ := hpixels x y hx hy
    have hbit : bitIn s.params w.mem s.regs.msk.toNat (((s.regs.w.toNat + 7) / 8 + 3) / 4 * 4) (s.regs.h.toNat - 1 - y) x =
        bitIn s.params s.mem s.regs.msk.toNat (((s.regs.w.toNat + 7) / 8 + 3) / 4 * 4) (s.regs.h.toNat - 1 - y) x :=
      bitIn_congr (hkeeps _ (hbits _ (by omega) x hx))
    have hsplit := (splitNat_toNat s.params f _).trans (congrArg (fun e => e.toOption.map channelNats) hc)
    rw [pixelAt_toNat] at hsplit
    rw [← hbit]
    exact ⟨_, _, _, _, v, hsplit, by rwa [channelNats_withMaskAlpha] at hv, hholds⟩

end Sys2Proof.Machine
end

section
/-! CURSOR (43_bitmap_decoders R290 to R296): its checks, and what its two variants leave after the zero fill, which the
inputs do not meet. -/

namespace Sys2Proof.Machine

/-! ### Before the variants -/

theorem exec_cursor (s : State) : exec .cursor s = .next (s.runPlain (cursorCmd s)) := rfl

/-- A cursor in a format that does not pack, or in none (43_bitmap_decoders R290 step 1). -/
theorem cursorCmd_of_unpackable {s : State} (h : ∀ f, decodeFmt s.regs.dfmt = some f → f.packable = false) (w : Work) :
    cursorCmd s w = .error .unsupported w := by
  unfold cursorCmd
  cases hf : decodeFmt s.regs.dfmt with
  | none => rfl
  | some f =>
    simp only [h f hf]
    rfl

section
variable {s : State} {f : Fmt} (hf : decodeFmt s.regs.dfmt = some f) (hp : f.packable = true)
include hf hp

theorem cursorCmd_of_null (hd : s.regs.dst = 0) (w : Work) : cursorCmd s w = .error .invalidArg w := by
  simp only [cursorCmd, hf, hp, hd]
  rfl

/-- After its checks a cursor fills its rectangle with zeros before it looks at the depth (43_bitmap_decoders R290
step 3). -/
theorem cursorCmd_after_fill {w w₁ : Work} (hd : s.regs.dst ≠ 0)
    (hfill : zeroFill s.params (destRect s.regs f) w = .ok () w₁) :
    cursorCmd s w =
      if s.regs.bpp = 1 then cursorMonoCmd s (destRect s.regs f) w₁
      else (cursorFmt s.regs.bpp).elim (.error .unsupported w₁) fun xf =>
        cursorColorCmd s (destRect s.regs f) xf w₁ := by
  simp only [cursorCmd, hf, failIf_bind, hp, Bool.not_true, Bool.false_eq_true, if_false, beq_false_of_ne hd,
    bind_runs_ok hfill]
  split
  · rfl
  · cases cursorFmt s.regs.bpp <;> rfl

end

/-- Settles O56, by the two checks' equations. -/
theorem cursorChecks : Obligations.CursorChecks := by
  intro s
  rw [exec_cursor]
  refine ⟨fun h => ?unpackable, fun f hf hp hd => ?null⟩
  case unpackable =>
    rw [runPlain_of_failure (cursorCmd_of_unpackable (fun f hf => Fmt.packable_eq_false (h f hf)) _) rfl]
    rfl
  case null =>
    rw [runPlain_of_failure (cursorCmd_of_null hf hp hd _) rfl]
    rfl

/-- The zero fill runs through and touches only the rectangle. -/
theorem zeroFill_completes {p : Params} (hrej : p.rejects = []) (t : Rect) (w : Work) :
    ∃ m, zeroFill p t w = .ok () ⟨m, w.binit, w.draws⟩ ∧
      ∀ a, ¬ t.footprint p a → Memory.read m a = Memory.read w.mem a := by
  have hR := stores_step (t.footprint p)
  obtain ⟨w', hrun, hkeep, hbinit, hdraws⟩ : ∃ w', zeroFill p t w = .ok () w' ∧ Stores (t.footprint p) w w' := by
    refine forEach_runs (fun _ u => Stores (t.footprint p) w u) (fun done y rest hys u hu => ?_) (hR.refl w)
    have hy : y < t.h := List.mem_range.1 (by simp [hys])
    obtain ⟨u', hrun, hst⟩ := memWrite_completes hrej (t.pixel 0 y) (List.replicate t.rowBytes 0) u
    exact ⟨u', hrun, hR.trans hu (hst.mono fun a hs => Rect.row_footprint hy (by simpa using hs))⟩
  exact ⟨w'.mem, by rw [hrun, ← hbinit, ← hdraws], hkeep⟩

/-! ### The 1-bit variant -/

/-- The inverted color (43_bitmap_decoders R292). -/
def invertedChannels (x y : Nat) : Channels :=
  if (x + y) % 2 = 1 then ⟨0, 0, 0, 255⟩ else ⟨255, 255, 255, 255⟩

theorem invertedColor_eq (p : Params) (f : Fmt) (x y : Nat) :
    invertedColor p f x y = pack p f (invertedChannels x y) := by
  unfold invertedColor invertedChannels
  split <;> rfl

theorem channelNats_inverted (x y : Nat) : channelNats (invertedChannels x y) = invertedNat x y := by
  unfold invertedChannels invertedNat
  split <;> rfl

/-- The colors of the combination table (43_bitmap_decoders R294). -/
def combinedChannels (andBit xorBit : Bool) (x y : Nat) : Channels :=
  match andBit, xorBit with
  | false, false => ⟨0, 0, 0, 255⟩
  | false, true => ⟨255, 255, 255, 255⟩
  | true, false => ⟨0, 0, 0, 0⟩
  | true, true => invertedChannels x y

theorem combine_eq (p : Params) (f : Fmt) (andBit xorBit : Bool) (x y : Nat) :
    combine p f andBit xorBit x y = pack p f (combinedChannels andBit xorBit x y) := by
  cases andBit <;> cases xorBit
  case true.true => exact invertedColor_eq p f x y
  all_goals rfl

theorem channelNats_combined (andBit xorBit : Bool) (x y : Nat) :
    channelNats (combinedChannels andBit xorBit x y) = combinedNat andBit xorBit x y := by
  cases andBit <;> cases xorBit
  case true.true => exact channelNats_inverted x y
  all_goals rfl

/-- One turn of the 1-bit variant. -/
def cursorMonoTurn (s : State) (t : Rect) (x y : Nat) : Cmd Unit := do
  let xb ← readBit s.params s.regs.src.toNat (cursorMaskStride t.w) y x
  let ab ← readBit s.params s.regs.msk.toNat (cursorMaskStride t.w) y x
  let c ← ofExcept (combine s.params t.fmt ab xb x y)
  storePx s.params (t.pixel x y) t.fmt c

/-- The 1-bit variant with masks that are long enough (43_bitmap_decoders R293). -/
theorem cursorMonoCmd_runs {s : State} {t : Rect} (hs : s.regs.src ≠ 0) (hsl : s.regs.srclen ≠ 0) (hm : s.regs.msk ≠ 0)
    (hml : s.regs.msklen ≠ 0) (hsrc : cursorMaskStride t.w * t.h ≤ s.regs.srclen.toNat)
    (hmsk : cursorMaskStride t.w * t.h ≤ s.regs.msklen.toNat) (w : Work) :
    cursorMonoCmd s t w = forPixels t.w t.h (cursorMonoTurn s t) w := by
  simp only [cursorMonoCmd, failIf_bind, beq_false_of_ne hs, beq_false_of_ne hsl, beq_false_of_ne hm,
    beq_false_of_ne hml, Bool.or_self, Bool.false_eq_true, if_false, decide_eq_false (Nat.not_lt.2 hsrc),
    decide_eq_false (Nat.not_lt.2 hmsk)]
  rfl

/-- A turn stores the color of its two bits. -/
theorem cursorMonoTurn_runs {s : State} {t : Rect} (hrej : s.params.rejects = []) {x y : Nat} {u : Work} {v : Word}
    (hv : pack s.params t.fmt (combinedChannels (bitIn s.params u.mem s.regs.msk.toNat (cursorMaskStride t.w) y x)
      (bitIn s.params u.mem s.regs.src.toNat (cursorMaskStride t.w) y x) x y) = .ok v) :
    cursorMonoTurn s t x y u = storePx s.params (t.pixel x y) t.fmt v u := by
  rw [cursorMonoTurn, bind_runs_ok (readBit_runs hrej _ _ _ _ u), bind_runs_ok (readBit_runs hrej _ _ _ _ u), combine_eq,
    hv, ofExcept_ok, pure_bind]

/-- Settles O58, by `forPixels_packs` after the zero fill. -/
theorem cursorOneBit : Obligations.CursorOneBit := by
  intro s f hf hp hrej hd hbpp hs hsl hm hml hsrc hmsk hfits hrows hsbits hmbits
  obtain ⟨m₁, hfill, hkeep₁⟩ := zeroFill_completes hrej (destRect s.regs f) s.work
  have hcmd := cursorCmd_after_fill hf hp hd hfill
  rw [if_pos hbpp, cursorMonoCmd_runs (t := destRect s.regs f) hs hsl hm hml hsrc hmsk] at hcmd
  obtain ⟨m, hrun, hpixels, hkeep⟩ := forPixels_packs (t := destRect s.regs f) (w := ⟨m₁, s.status.binit, s.draws⟩)
    (body := cursorMonoTurn s (destRect s.regs f)) hrej hfits hrows hp
    (c := fun x y => combinedChannels
      (bitIn s.params s.mem s.regs.msk.toNat (((s.regs.w.toNat + 7) / 8 + 1) / 2 * 2) y x)
      (bitIn s.params s.mem s.regs.src.toNat (((s.regs.w.toNat + 7) / 8 + 1) / 2 * 2) y x) x y)
    fun x y hx hy v hv u hu => by
      have hbits {base : Nat} (h : bitsApart s.params base (((s.regs.w.toNat + 7) / 8 + 1) / 2 * 2) s.regs.w.toNat
          s.regs.h.toNat ((destRect s.regs f).footprint s.params)) :
          bitIn s.params u.mem base (cursorMaskStride (destRect s.regs f).w) y x =
            bitIn s.params s.mem base (((s.regs.w.toNat + 7) / 8 + 1) / 2 * 2) y x :=
        bitIn_congr ((hu _ fun hin => absurd hin (h y hy x hx)).trans (hkeep₁ _ (h y hy x hx)))
      exact cursorMonoTurn_runs hrej (by rw [hbits hsbits, hbits hmbits, hv])
  refine ⟨m, by rw [exec_cursor, runPlain_of_ok (hcmd.trans hrun)]; rfl, fun x y hx hy => ?_,
    fun a hna => (hkeep a hna).trans (hkeep₁ a hna)⟩
  rw [← channelNats_combined]
  exact hpixels x y hx hy

/-! ### The color variant -/

/-- What the AND bit makes of a color (43_bitmap_decoders R295). -/
def maskedChannels (andBit : Bool) (c : Channels) (x y : Nat) : Channels :=
  if andBit = true ∧ c = ⟨0, 0, 0, 255⟩ then ⟨0, 0, 0, 0⟩
  else if andBit = true ∧ c = ⟨255, 255, 255, 255⟩ then invertedChannels x y
  else c

theorem channelNats_inj {c c' : Channels} (h : channelNats c = channelNats c') : c = c' := by
  obtain ⟨r, g, b, a⟩ := c
  obtain ⟨r', g', b', a'⟩ := c'
  simpa only [channelNats, Prod.mk.injEq, BitVec.toNat_inj, Channels.mk.injEq] using h

theorem channelNats_masked (andBit : Bool) (c : Channels) (x y : Nat) :
    channelNats (maskedChannels andBit c x y) = maskedNat andBit (channelNats c) x y := by
  have hblack : channelNats c = (0, 0, 0, 255) ↔ c = ⟨0, 0, 0, 255⟩ :=
    ⟨fun h => channelNats_inj (h.trans rfl), fun h => by rw [h]; rfl⟩
  have hwhite : channelNats c = (255, 255, 255, 255) ↔ c = ⟨255, 255, 255, 255⟩ :=
    ⟨fun h => channelNats_inj (h.trans rfl), fun h => by rw [h]; rfl⟩
  simp only [maskedChannels, maskedNat, hblack, hwhite]
  split_ifs
  · rfl
  · exact channelNats_inverted x y
  · rfl

/-- A canonical pixel is its channels (43_bitmap_decoders R291). -/
theorem splitBare_argb32 {p : Params} {c : Channels} {v : Word} (h : pack p .argb32 c = .ok v) :
    splitBare p .argb32 v = .ok c := by
  obtain ⟨c', hc'⟩ := splitBare_ok (p := p) (f := .argb32) rfl nofun v
  rw [hc', splitBare_pack h hc']
  rfl

theorem pack_argb32_inj {p : Params} {c c' : Channels} {v : Word} (h : pack p .argb32 c = .ok v)
    (h' : pack p .argb32 c' = .ok v) : c = c' :=
  Except.ok.inj ((splitBare_argb32 h).symm.trans (splitBare_argb32 h'))

/-- The AND bit on whole canonical values is the AND bit on channels (43_bitmap_decoders R295). -/
theorem applyAndBit_eq {p : Params} {c : Channels} {v : Word} (h : pack p .argb32 c = .ok v) (andBit : Bool) (x y : Nat) :
    (if andBit then applyAndBit p v x y else .ok v) = pack p .argb32 (maskedChannels andBit c x y) := by
  have hval {c' : Channels} {v' : Word} (h' : pack p .argb32 c' = .ok v') : v = v' ↔ c = c' :=
    ⟨fun e => pack_argb32_inj h (e ▸ h'), fun e => Except.ok.inj (h.symm.trans (e ▸ h'))⟩
  have hblack := hval (c' := ⟨0, 0, 0, 255⟩) (v' := 0xFF000000#32) rfl
  have hwhite := hval (c' := ⟨255, 255, 255, 255⟩) (v' := 0xFFFFFFFF#32) rfl
  unfold maskedChannels applyAndBit
  cases andBit with
  | false => simp [h]
  | true =>
    simp only [if_true, true_and, hblack, hwhite, invertedColor_eq]
    split_ifs
    · rfl
    · rfl
    · exact h.symm

/-- The AND bit of a pixel; none is set without an AND mask (43_bitmap_decoders R295). -/
theorem cursorAndBit_runs {s : State} (hrej : s.params.rejects = []) (t : Rect) (row x : Nat) (w : Work) :
    cursorAndBit s t row x w =
      .ok (s.regs.msk != 0 && bitIn s.params w.mem s.regs.msk.toNat (cursorMaskStride t.w) row x) w := by
  unfold cursorAndBit
  split
  · next h => simp [h]
  · next h =>
    rw [readBit_runs hrej, bne_iff_ne.2 h, Bool.true_and]

/-- The address of the color pixel of pixel (`x`, `y`): rows bottom to top (43_bitmap_decoders R295). -/
def cursorPixel (s : State) (t : Rect) (x y : Nat) : Nat :=
  s.regs.src.toNat + cursorXorStride t.w (s.regs.bpp.toNat / 8) * (t.h - 1 - y) + x * (s.regs.bpp.toNat / 8)

/-- One turn of the color variant. -/
def cursorColorTurn (s : State) (t : Rect) (xf : Fmt) (x y : Nat) : Cmd Unit := do
  let v ← loadPx s.params (cursorPixel s t x y) xf
  let c ← convert s.params v xf .argb32 (paletteAt s.regs.pal)
  let ab ← cursorAndBit s t (t.h - 1 - y) x
  let c' ← ofExcept (if ab then applyAndBit s.params c x y else .ok c)
  let out ← convert s.params c' .argb32 t.fmt .absent
  storePx s.params (t.pixel x y) t.fmt out

/-- The color variant once its checks have passed (43_bitmap_decoders R295). -/
theorem cursorColorCmd_runs {s : State} {t : Rect} {xf : Fmt} {w : Work} (hs : s.regs.src ≠ 0) (hsl : s.regs.srclen ≠ 0)
    (hchecks : convChecks s.params xf .argb32 (paletteAt s.regs.pal) w = .ok () w)
    (hsrc : cursorXorStride t.w (s.regs.bpp.toNat / 8) * t.h ≤ s.regs.srclen.toNat)
    (hmsk : s.regs.msk = 0 ∨ cursorMaskStride t.w * t.h ≤ s.regs.msklen.toNat) :
    cursorColorCmd s t xf w = forPixels t.w t.h (cursorColorTurn s t xf) w := by
  have hmsk' : (s.regs.msk != 0 && decide (s.regs.msklen.toNat < cursorMaskStride t.w * t.h)) = false := by
    rw [← Nat.not_lt] at hmsk
    obtain h | h := hmsk <;> simp [h]
  simp only [cursorColorCmd, failIf_bind, beq_false_of_ne hs, beq_false_of_ne hsl, Bool.or_self, Bool.false_eq_true,
    if_false, bind_runs_ok hchecks, decide_eq_false (Nat.not_lt.2 hsrc), hmsk']
  rfl

/-- A turn stores the pixel's color, the AND bit applied. -/
theorem cursorColorTurn_runs {s : State} {t : Rect} {xf : Fmt} (hrej : s.params.rejects = []) {x y : Nat} {u : Work}
    {c : Channels} {v : Word}
    (hc : channelsIn s.params u.mem (paletteAt s.regs.pal) xf (pixelAt s.params u.mem (cursorPixel s t x y) xf) = .ok c)
    (hv : pack s.params t.fmt (maskedChannels (s.regs.msk != 0 &&
      bitIn s.params u.mem s.regs.msk.toNat (cursorMaskStride t.w) (t.h - 1 - y) x) c x y) = .ok v) :
    cursorColorTurn s t xf x y u = storePx s.params (t.pixel x y) t.fmt v u := by
  obtain ⟨v₁, hv₁⟩ := pack_ok (p := s.params) (f := .argb32) rfl c
  have hin := convert_runs hrej (pixelAt s.params u.mem (cursorPixel s t x y) xf) xf .argb32 (paletteAt s.regs.pal) u
  rw [convertIn, hc] at hin
  simp only [hv₁, answers_ok] at hin
  rw [cursorColorTurn, bind_runs_ok (loadPx_runs hrej _ _ u), bind_runs_ok hin,
    bind_runs_ok (cursorAndBit_runs hrej t (t.h - 1 - y) x u), applyAndBit_eq hv₁]
  revert hv
  generalize maskedChannels _ c x y = c₂
  intro hv
  obtain ⟨v₂, hv₂⟩ := pack_ok (p := s.params) (f := .argb32) rfl c₂
  have hout := convert_runs hrej v₂ .argb32 t.fmt .absent u
  rw [convertIn, channelsIn, if_neg nofun, splitBare_argb32 hv₂] at hout
  simp only [hv, answers_ok] at hout
  rw [hv₂, ofExcept_ok, pure_bind, bind_runs_ok hout]

/-- A split rests, of memory, on its palette only. -/
theorem channelsIn_congr {p : Params} {m m' : Memory} {pal : Palette} {f : Fmt} {v : Word}
    (h : f = .rgb8 → v.toNat ≤ 255 ∧ ∀ a, pal = .inMemory a → ∀ k, k < 1028 →
      Memory.read m (portAddr p (a + k)) = Memory.read m' (portAddr p (a + k))) :
    channelsIn p m pal f v = channelsIn p m' pal f v := by
  by_cases h8 : f = .rgb8
  · obtain ⟨hv, hmem⟩ := h h8
    cases pal with
    | absent | built es => rfl
    | inMemory a =>
      have htag : wordLeAt p m a = wordLeAt p m' a := wordLeAt_congr fun k hk => hmem a rfl k (by omega)
      have hentry : wordLeAt p m (a + 4 + 4 * v.toNat) = wordLeAt p m' (a + 4 + 4 * v.toNat) :=
        wordLeAt_congr fun k hk => by
          rw [show a + 4 + 4 * v.toNat + k = a + (4 + 4 * v.toNat + k) by omega]
          exact hmem a rfl _ (by omega)
      simp only [channelsIn, paletteIn, htag, hentry]
  · simp only [channelsIn, if_neg h8]

/-- A conversion that succeeds is a split and a pack that do. -/
theorem channelsIn_of_convertIn {p : Params} {m : Memory} {pal : Palette} {sf df : Fmt} {v w : Word}
    (h : convertIn p m pal sf df v = .ok w) : ∃ c, channelsIn p m pal sf v = .ok c := by
  unfold convertIn at h
  cases hc : channelsIn p m pal sf v with
  | ok c => exact ⟨c, rfl⟩
  | error e =>
    rw [hc] at h
    cases h

/-- The depths of a cursor's color pixels and their formats (43_bitmap_decoders R296). -/
theorem cursorFmt_of_mem {bpp : Word} {xf : Fmt}
    (h : (bpp.toNat, xf) ∈ [(8, Fmt.rgb8), (16, .rgb15), (24, .bgr24), (32, .bgra32)]) :
    cursorFmt bpp = some xf ∧ bpp ≠ 1 ∧ xf.unpackable = true := by
  simp only [List.mem_cons, Prod.mk.injEq, List.not_mem_nil, or_false] at h
  obtain ⟨h, rfl⟩ | ⟨h, rfl⟩ | ⟨h, rfl⟩ | ⟨h, rfl⟩ := h <;>
    simp [cursorFmt, ← BitVec.toNat_inj, h, Fmt.unpackable]

/-- The color of a pixel rests on its row's bytes and, for an indexed one, on its palette. -/
theorem cursorChannels_congr {s : State} {t : Rect} {xf : Fmt} {m : Memory} {x y : Nat}
    (hxf : cursorFmt s.regs.bpp = some xf) (hx : x < t.w)
    (hrow : ∀ k, k < t.w * (s.regs.bpp.toNat / 8) →
      let a := portAddr s.params (s.regs.src.toNat + cursorXorStride t.w (s.regs.bpp.toNat / 8) * (t.h - 1 - y) + k)
      Memory.read m a = Memory.read s.mem a)
    (hpal : xf = .rgb8 → ∀ k, k < 1028 →
      let a := portAddr s.params (s.regs.pal.toNat + k)
      Memory.read m a = Memory.read s.mem a) :
    channelsIn s.params m (paletteAt s.regs.pal) xf (pixelAt s.params m (cursorPixel s t x y) xf) =
      channelsIn s.params s.mem (paletteAt s.regs.pal) xf (pixelAt s.params s.mem (cursorPixel s t x y) xf) := by
  have hpixel : pixelAt s.params m (cursorPixel s t x y) xf = pixelAt s.params s.mem (cursorPixel s t x y) xf := by
    refine pixelAt_congr fun b hb => ?_
    obtain ⟨k, hk, rfl⟩ := hb
    rw [(bytes_of_cursorFmt hxf).1] at hk
    have hend : (x + 1) * (s.regs.bpp.toNat / 8) ≤ t.w * (s.regs.bpp.toNat / 8) := Nat.mul_le_mul_right _ hx
    rw [Nat.succ_mul] at hend
    rw [cursorPixel, Nat.add_assoc]
    exact hrow _ (by omega)
  rw [hpixel]
  refine channelsIn_congr fun h8 => ⟨?_, fun a ha k hk => ?_⟩
  · subst h8
    exact pixelAt_rgb8_le _ _ _
  · obtain hp | hp := paletteAt_cases s.regs.pal <;> rw [hp] at ha <;> cases ha
    exact hpal h8 k hk

/-- Every color pixel has a color, an indexed one if its palette's tag serves. -/
theorem cursorChannels_ok {s : State} {xf : Fmt} (hxu : xf.unpackable = true)
    (hpal : xf = .rgb8 → tagServes s.params s.mem (paletteAt s.regs.pal)) (t : Rect) (x y : Nat) :
    ∃ c, channelsIn s.params s.mem (paletteAt s.regs.pal) xf
      (pixelAt s.params s.mem (cursorPixel s t x y) xf) = .ok c := by
  obtain ⟨v, hv⟩ := convertIn_ok (p := s.params) (m := s.mem) (pal := paletteAt s.regs.pal) (df := .argb32)
    (v := pixelAt s.params s.mem (cursorPixel s t x y) xf) hxu rfl fun h8 =>
      ⟨by subst h8; exact pixelAt_rgb8_le _ _ _, hpal h8⟩
  exact channelsIn_of_convertIn hv

/-- The AND bit of a pixel rests on one byte of the AND mask, if there is one. -/
theorem maskBit_congr {p : Params} {m m' : Memory} {msk : Slot} {stride row x : Nat}
    (h : msk ≠ 0 → Memory.read m (portAddr p (msk.toNat + stride * row + x / 8)) =
      Memory.read m' (portAddr p (msk.toNat + stride * row + x / 8))) :
    (msk != 0 && bitIn p m msk.toNat stride row x) = (msk != 0 && bitIn p m' msk.toNat stride row x) := by
  by_cases hm : msk = 0
  · rw [bne_eq_false_iff_eq.2 hm, Bool.false_and, Bool.false_and]
  · rw [bitIn_congr (h hm)]

/-- Settles O59, by `forPixels_packs` after the zero fill. -/
theorem cursorColor : Obligations.CursorColor := by
  intro s f xf hf hp hrej hd hbpp hs hsl hsrc hmsk hfits hrows hpal hsrcApart hmskApart
  obtain ⟨hxf, hbpp1, hxu⟩ := cursorFmt_of_mem hbpp
  obtain ⟨m₁, hfill, hkeep₁⟩ := zeroFill_completes hrej (destRect s.regs f) s.work
  have htag : xf = .rgb8 → tagServes s.params s.mem (paletteAt s.regs.pal) := fun h8 => by
    obtain ⟨hpal0, htag, -⟩ := hpal h8
    exact ⟨paletteAt_ne_absent hpal0, by rwa [paletteAt_tag _ _ hpal0]⟩
  have htag₁ : xf = .rgb8 → tagServes s.params m₁ (paletteAt s.regs.pal) := fun h8 => by
    obtain ⟨hpal0, htag, hapart⟩ := hpal h8
    refine ⟨paletteAt_ne_absent hpal0, ?_⟩
    rwa [paletteAt_tag _ _ hpal0, wordLeAt_congr fun k hk => hkeep₁ _ (hapart k (by omega))]
  have hcmd := cursorCmd_after_fill hf hp hd hfill
  rw [if_neg hbpp1, hxf, Option.elim_some, cursorColorCmd_runs (t := destRect s.regs f) hs hsl
    (convChecks_runs (w := ⟨m₁, s.work.binit, s.work.draws⟩) hrej hxu rfl htag₁) hsrc hmsk] at hcmd
  choose c hc using cursorChannels_ok hxu htag (destRect s.regs f)
  obtain ⟨m, hrun, hpixels, hkeep⟩ := forPixels_packs (t := destRect s.regs f) (w := ⟨m₁, s.status.binit, s.draws⟩)
    (body := cursorColorTurn s (destRect s.regs f) xf) hrej hfits hrows hp
    (c := fun x y => maskedChannels (s.regs.msk != 0 && bitIn s.params s.mem s.regs.msk.toNat
      (((s.regs.w.toNat + 7) / 8 + 1) / 2 * 2) (s.regs.h.toNat - 1 - y) x) (c x y) x y)
    fun x y hx (hy : y < s.regs.h.toNat) v hv u hu => by
      have hkept (a : Nat) (ha : ¬ (destRect s.regs f).footprint s.params a) :
          Memory.read u.mem a = Memory.read s.mem a :=
        (hu a fun hin => absurd hin ha).trans (hkeep₁ a ha)
      have hrow : s.regs.h.toNat - 1 - y < s.regs.h.toNat := by omega
      have hbit := maskBit_congr (p := s.params) (m := u.mem) (m' := s.mem) (msk := s.regs.msk)
        fun hm => hkept _ (hmskApart hm _ hrow x hx)
      have hcolor := cursorChannels_congr (t := destRect s.regs f) (m := u.mem) (y := y) hxf hx
        (fun k hk => hkept _ (hsrcApart _ hrow k hk)) fun h8 k hk => hkept _ ((hpal h8).2.2 k hk)
      exact cursorColorTurn_runs hrej (hcolor.trans (hc x y)) (hbit ▸ hv)
  refine ⟨m, by rw [exec_cursor, runPlain_of_ok (hcmd.trans hrun)]; rfl, fun x y hx hy => ?_,
    fun a hna => (hkeep a hna).trans (hkeep₁ a hna)⟩
  obtain ⟨v, hv, hholds⟩ := hpixels x y hx hy
  rw [channelNats_masked] at hv
  refine ⟨channelNats (c x y), v, ?_, hv, hholds⟩
  rw [← pixelAt_toNat, unpackNat_toNat]
  exact congrArg splitOutcome (hc x y)

end Sys2Proof.Machine
end

section
/-! How a command's end shows in STATUS (10_state R32, R33, 60_exceptions R320, R330): the one operation that ends a
command settles ERR, FAULT and BINIT together, and no event of the host but the reset touches STATUS otherwise. -/

namespace Sys2Proof.Machine

/-- Settles O20: the empty body succeeds with the working state it starts with. -/
theorem nopClearsErr : Obligations.NopClearsErr := fun s =>
  congrArg Host.Outcome.next (runPlain_of_ok (pure_runs () s.work))

/-! ### FAULT -/

/-- The faults are the outcomes with code 6 or 7 (60_exceptions R321). -/
theorem Err.isFault_eq (e : Err) : e.isFault = (e.code == 6 || e.code == 7) := by
  cases e <;> decide

/-- Ending a command sets FAULT exactly with a fault's code (60_exceptions R330). -/
theorem conclude_fault_eq (st : Status) (b : Bool) (o : Option Err) :
    (st.conclude b o).fault = (st.fault || (st.conclude b o).err == 6 || (st.conclude b o).err == 7) := by
  cases o with
  | none => simp
  | some e => rw [conclude_fault_some, conclude_err_some, Err.isFault_eq, Bool.or_assoc]

/-- Settles O15: every command ends by `Status.conclude`. -/
theorem faultFlag : Obligations.FaultFlag := by
  intro i s t h
  obtain ⟨w, o, ht⟩ := exec_ends h
  rw [ht]
  exact conclude_fault_eq s.status w.binit o

/-! ### Flags that stay -/

/-- FAULT and BINIT are not cleared from `s` to `t`. -/
def FlagsStay (s t : State) : Prop :=
  (s.status.fault = true → t.status.fault = true) ∧ (s.status.binit = true → t.status.binit = true)

theorem exec_flagsStay {i : Instr} {s t : State} (h : exec i s = .next t) : FlagsStay s t := by
  obtain ⟨-, -, hbinit, -⟩ := exec_keepsForm h
  exact ⟨fun hs => by rw [faultFlag i s t h, hs]; rfl, hbinit⟩

/-- A command word, reserved or not, clears neither flag. -/
theorem command_flagsStay {c : Word} {s t : State} (h : command c s = .next t) : FlagsStay s t := by
  unfold command at h
  split at h
  · exact exec_flagsStay h
  · rw [reservedWord_eq] at h
    cases h
    exact ⟨id, id⟩

/-- What an event other than the reset does to STATUS, it does by running a command word (10_state R32). -/
theorem hostEvent_status {e : HostEvent} {s t : State} (he : e ≠ .reset) (h : hostEvent e s = .next t) :
    t.status = s.status ∨ ∃ c, command c s = .next t := by
  cases e with
  | write o v =>
    simp only [hostEvent, writeRegister] at h
    split at h
    · split at h
      · cases h
        exact .inl rfl
      · split at h
        · exact .inr ⟨_, h⟩
        · cases h
          exact .inl rfl
    · cases h
  | read o =>
    simp only [hostEvent] at h
    split at h <;> cases h
    exact .inl rfl
  | memWrite a b =>
    simp only [hostEvent] at h
    split at h <;> cases h
    exact .inl rfl
  | memRead a =>
    simp only [hostEvent] at h
    split at h <;> cases h
    exact .inl rfl
  | reset => exact absurd rfl he

/-- Settles O11: a step waits, leaves STATUS, or runs a command word, which clears neither flag. -/
theorem faultAndBinitSticky : Obligations.FaultAndBinitSticky := by
  intro s t hreset h
  cases hs : s.script with
  | nil =>
    rw [step_of_script_nil hs] at h
    cases h
    exact ⟨id, id⟩
  | cons e rest =>
    rw [step_of_script_cons hs] at h
    have he : e ≠ .reset := by
      rintro rfl
      exact hreset (by rw [hs]; rfl)
    obtain hst | ⟨c, hc⟩ := hostEvent_status he h
    · exact ⟨fun hf => by rw [hst]; exact hf, fun hb => by rw [hst]; exact hb⟩
    · exact command_flagsStay (s := { s with script := rest }) hc

end Sys2Proof.Machine
end

section
/-! The ways a piece of a command can end early (60_exceptions R321 to R325), said once for its code and for memory: a
failure with one of the listed codes, before memory has changed wherever the premise `K` holds, or BUS, only on a
platform that rejects an address (20_memory R84). -/

namespace Sys2Proof.Machine

/-! ### Raising, with BUS only where an address is rejected -/

section
variable {α β : Type} {E : Err → Prop} {p : Params}

/-- `Raises.bind` where what follows rests on the value delivered. -/
theorem Raises.bind_of {c : Cmd α} {f : α → Cmd β} (hc : Raises E c)
    (hf : ∀ w a w', c w = .ok a w' → Raises E (f a)) : Raises E (c >>= f) := by
  intro w e w' h
  obtain h | ⟨a, w₁, ha, h⟩ := bind_error h
  · exact hc w e w' h
  · exact hf w a w₁ ha w₁ e w' h

/-- A piece that ends early only with BUS, and not where nothing is rejected. -/
theorem Raises.of_access {c : Cmd α} (hbus : p.rejects ≠ [] → E .bus) (hc : Raises (· = .bus) c)
    (hruns : p.rejects = [] → ∀ w, ∃ a w', c w = .ok a w') : Raises E c := by
  intro w e w' h
  obtain rfl : e = .bus := hc w e w' h
  refine hbus fun hrej => ?_
  obtain ⟨a, u, hok⟩ := hruns hrej w
  cases h.symm.trans hok

theorem Raises.forPixels {width height : Nat} {body : Nat → Nat → Cmd Unit}
    (h : ∀ x y, x < width → y < height → Raises E (body x y)) : Raises E (Machine.forPixels width height body) :=
  nested_raises fun x hx y hy => h x y (List.mem_range.1 hx) (List.mem_range.1 hy)

section
variable (hbus : p.rejects ≠ [] → E .bus)
include hbus

theorem memRead_raises_of (a n : Nat) : Raises E (memRead p a n) :=
  .of_access hbus (memRead_raises p a n) fun hrej w => ⟨_, w, memRead_runs hrej a n w⟩

theorem memWrite_raises_of (a : Nat) (bs : List Byte) : Raises E (memWrite p a bs) :=
  .of_access hbus (memWrite_raises p a bs) fun hrej w => ⟨_, _, memWrite_runs hrej a bs w⟩

theorem readBit_raises_of (base stride row x : Nat) : Raises E (readBit p base stride row x) :=
  .of_access hbus (readBit_raises p base stride row x) fun hrej w => ⟨_, w, readBit_runs hrej base stride row x w⟩

theorem loadPx_raises_of (a : Nat) (f : Fmt) : Raises E (loadPx p a f) :=
  .of_access hbus (loadPx_raises p a f) fun hrej w => ⟨_, w, loadPx_runs hrej a f w⟩

theorem storePx_raises_of (a : Nat) (f : Fmt) (v : Word) : Raises E (storePx p a f v) :=
  memWrite_raises_of hbus a _

theorem storePxIa_raises_of (a : Nat) (f : Fmt) (v : Word) : Raises E (storePxIa p a f v) :=
  .of_access hbus (storePxIa_raises p a f v) fun hrej w => ⟨_, _, storePxIa_runs hrej a f v w⟩

theorem paletteFmt_raises_of (pal : Palette) : Raises E (paletteFmt p pal) :=
  .of_access hbus (paletteFmt_raises p pal) fun hrej w => ⟨_, w, paletteFmt_runs hrej pal w⟩

theorem paletteEntry_raises_of (pal : Palette) (i : Nat) : Raises E (paletteEntry p pal i) :=
  .of_access hbus (paletteEntry_raises p pal i) fun hrej w => ⟨_, w, paletteEntry_runs hrej pal i w⟩

theorem rawCopy_raises_of (j : CopyJob) : Raises E (rawCopy p j) :=
  .ite (fun _ => .pure ()) fun _ => .forEach fun _ _ =>
    .bind (memRead_raises_of hbus _ _) fun _ => memWrite_raises_of hbus _ _

theorem fillRect_raises_of (t : Rect) (c : Word) : Raises E (fillRect p t c) :=
  .bind (.forEach fun _ _ => storePx_raises_of hbus _ _ _) fun _ => .forEach fun _ _ =>
    .bind (memRead_raises_of hbus _ _) fun _ => memWrite_raises_of hbus _ _

theorem zeroFill_raises_of (t : Rect) : Raises E (zeroFill p t) :=
  .forEach fun _ _ => memWrite_raises_of hbus _ _

theorem readTable_raises_of (a n : Nat) : Raises E (readTable p a n) := by
  induction n generalizing a with
  | zero => exact .pure _
  | succ n ih => exact .bind (loadPx_raises_of hbus _ _) fun _ => .bind (ih _) fun _ => .pure _

theorem iconPalette_raises_of (a n : Nat) : Raises E (iconPalette p a n) :=
  .ite (fun _ => .bind (readTable_raises_of hbus _ _) fun _ => .pure _) fun _ => .pure _

/-- The mask pass cannot fail on the formats it is used for (43_bitmap_decoders R280 step 9). -/
theorem iconMaskPass_raises_of {t : Rect} (hp : t.fmt.packable = true) (ha : t.fmt.hasAlpha = true) (msk : Nat) :
    Raises E (iconMaskPass p t msk) := by
  obtain ⟨hu, h8⟩ := Fmt.unpackable_of_alpha hp ha
  refine .forPixels fun x y _ _ => .bind (readBit_raises_of hbus _ _ _ _) fun m =>
    .bind (loadPx_raises_of hbus _ _) fun v => .bind ?_ fun c => .bind ?_ fun _ => storePx_raises_of hbus _ _ _
  · obtain ⟨c, hc⟩ := splitBare_ok (p := p) hu h8 v
    rw [split, if_neg h8, hc]
    exact .pure c
  · obtain ⟨v', hv⟩ := pack_ok (p := p) hp ⟨c.r, c.g, c.b, if m then 0 else 255⟩
    rw [hv]
    exact .pure v'

end

/-! ### Conversions -/

/-- `E` allows the ways a conversion from `sf` through `pal` can end early (41_color_codec R162, R164): BUS only for a
palette lookup, MISSING_CONTEXT never for the palette that ICON builds. -/
structure AllowsConversion (E : Err → Prop) (p : Params) (sf : Fmt) (pal : Palette) : Prop where
  bus : sf = .rgb8 → p.rejects ≠ [] → E .bus
  invalidArg : E .invalidArg
  unsupported : E .unsupported
  missingContext : (∀ es, pal ≠ .built es) → E .missingContext

section
variable {sf : Fmt} {pal : Palette} (h : AllowsConversion E p sf pal)
include h

/-- A palette whose tag is RGB8 is not ICON's. -/
theorem AllowsConversion.tagged_rgb8 {m : Memory} (htag : some .rgb8 = (paletteIn p m pal 0).1) : E .missingContext :=
  h.missingContext fun es he => by
    subst he
    cases htag

theorem AllowsConversion.absent (ha : pal = .absent) : E .missingContext :=
  h.missingContext fun es he => by cases ha.symm.trans he

theorem split_raises_of (v : Word) : Raises E (split p v sf pal) := by
  unfold split
  refine .ite (fun h8 => ?indexed) fun h8 => .ofExcept fun e he => ?bare
  case bare =>
    obtain ⟨-, h8'⟩ | ⟨rfl, -⟩ := splitBare_error he
    · exact absurd h8' h8
    · exact h.unsupported
  case indexed =>
    refine .bind (.failIf fun ha => h.absent (eq_of_beq ha)) fun _ => .bind (.failIf fun _ => h.invalidArg) fun _ =>
      .bind (paletteEntry_raises_of (h.bus h8) _ _) fun x =>
      .bind_of (paletteFmt_raises_of (h.bus h8) _) fun w pf w' hpf => ?_
    obtain ⟨htag, -⟩ := paletteFmt_ok hpf
    cases pf with
    | none => exact .throw h.unsupported
    | some g =>
      refine .ofExcept fun e he => ?_
      obtain ⟨rfl, rfl⟩ | ⟨rfl, -⟩ := splitBare_error he
      · exact h.tagged_rgb8 htag
      · exact h.unsupported

theorem convert_raises_of (v : Word) (df : Fmt) : Raises E (convert p v sf df pal) :=
  .bind (split_raises_of h v) fun _ => .ofExcept fun _ he => (pack_error he).1 ▸ h.unsupported

theorem paletteChecks_raises_of (h8 : sf = .rgb8) : Raises E (paletteChecks p pal) := by
  refine .bind (.failIf fun ha => h.absent (eq_of_beq ha)) fun _ =>
    .bind_of (paletteFmt_raises_of (h.bus h8) _) fun w pf w' hpf => ?_
  obtain ⟨htag, -⟩ := paletteFmt_ok hpf
  cases pf with
  | none => exact .throw h.unsupported
  | some g =>
    refine .bind (.failIf fun hg => ?_) fun _ => .failIf fun _ => h.unsupported
    obtain rfl := eq_of_beq hg
    exact h.tagged_rgb8 htag

theorem convChecks_raises_of (df : Fmt) : Raises E (convChecks p sf df pal) :=
  .bind (.failIf fun _ => h.unsupported) fun _ =>
    .bind (.onlyIf fun h8 => paletteChecks_raises_of h (eq_of_beq h8)) fun _ => .failIf fun _ => h.unsupported

end

/-- The ways the overlap-safe path can end early are those of its accesses and conversions (42_blit_engine R205). -/
theorem overlapSafe_raises_of {j : CopyJob} (hbus : p.rejects ≠ [] → E .bus) (h : AllowsConversion E p j.sf j.pal) :
    Raises E (overlapSafe p j) := by
  have loop {store : Nat → Word → Cmd Unit} (hstore : ∀ a v, Raises E (store a v)) : Raises E (pixelCopy p j store) :=
    .bind (convChecks_raises_of h _) fun _ => nested_raises fun _ _ _ _ =>
      .bind (loadPx_raises_of hbus _ _) fun v => .bind (convert_raises_of h v _) fun _ => hstore _ _
  unfold overlapSafe
  cases j.mode with
  | raw => exact rawCopy_raises_of hbus j
  | conv => exact loop fun a v => storePx_raises_of hbus a _ v
  | alpha => exact loop fun a v => storePxIa_raises_of hbus a _ v

end

/-! ### Ending early, and what memory is then -/

/-- A failure with one of the codes `L`, or BUS where `B`. -/
def Allowed (L : List (BitVec 4)) (B : Prop) (e : Err) : Prop :=
  e.code ∈ L ∨ (e = .bus ∧ B)

/-- The piece ends early with one of the codes `L`, memory as it was where `K`, or with BUS where `B`. -/
def EndsEarly {α : Type} (L : List (BitVec 4)) (B K : Prop) (c : Cmd α) : Prop :=
  ∀ w e w', c w = .error e w' → (e.code ∈ L ∧ (K → w'.mem = w.mem)) ∨ (e = .bus ∧ B)

/-- Memory is as it was. -/
def SameMem (w w' : Work) : Prop :=
  w'.mem = w.mem

theorem sameMem_step : Step SameMem where
  refl _ := rfl
  trans h1 h2 := Eq.trans h2 h1

section
variable {α β : Type} {L : List (BitVec 4)} {B K : Prop}

theorem allowed_bus (h : B) : Allowed L B .bus :=
  .inr ⟨rfl, h⟩

theorem bus_of_allowed_nil {e : Err} (h : Allowed [] B e) : e = .bus ∧ B :=
  h.resolve_left List.not_mem_nil

theorem EndsEarly.pure (a : α) : EndsEarly L B K (Pure.pure a : Cmd α) := by
  intro w e w' h
  cases h

theorem EndsEarly.throw {e : Err} (he : e.code ∈ L) : EndsEarly L B K (MonadExcept.throw e : Cmd α) := by
  intro w e' w' h
  cases h
  exact .inl ⟨he, fun _ => rfl⟩

theorem EndsEarly.failIf_bind {b : Bool} {e : Err} {c : Cmd α} (he : b = true → e.code ∈ L)
    (hc : b = false → EndsEarly L B K c) : EndsEarly L B K (do failIf b e; c) := by
  cases b with
  | true => exact .throw (he rfl)
  | false => exact hc rfl

theorem EndsEarly.ite {P : Prop} [Decidable P] {c d : Cmd α} (hc : P → EndsEarly L B K c)
    (hd : ¬ P → EndsEarly L B K d) : EndsEarly L B K (if P then c else d) := by
  split
  · exact hc ‹_›
  · exact hd ‹_›

theorem EndsEarly.of_raises {c : Cmd α} (hc : Raises (Allowed L B) c)
    (hmem : K → ∀ w e w', c w = .error e w' → e.code ∈ L → w'.mem = w.mem) : EndsEarly L B K c := by
  intro w e w' h
  obtain hL | hbus := hc w e w' h
  · exact .inl ⟨hL, fun hK => hmem hK w e w' h hL⟩
  · exact .inr hbus

/-- A piece that leaves memory alone. -/
theorem EndsEarly.of_sameMem {c : Cmd α} (hs : Moves SameMem c) (hc : Raises (Allowed L B) c) : EndsEarly L B K c :=
  .of_raises hc fun _ w e w' h _ => by
    have := hs w
    rwa [h] at this

/-- A piece that cannot fail may have changed memory. -/
theorem EndsEarly.of_bus {c : Cmd α} (hc : Raises (Allowed [] B) c) : EndsEarly L B K c :=
  fun w e w' h => .inr (bus_of_allowed_nil (hc w e w' h))

/-- What comes before the first store may be followed by anything. -/
theorem EndsEarly.bind {c : Cmd α} {f : α → Cmd β} (hs : Moves SameMem c) (hc : Raises (Allowed L B) c)
    (hf : ∀ w a w', c w = .ok a w' → EndsEarly L B K (f a)) : EndsEarly L B K (c >>= f) := by
  intro w e w' h
  obtain h | ⟨a, w₁, ha, h⟩ := bind_error h
  · exact EndsEarly.of_sameMem hs hc w e w' h
  · have hmem : w₁.mem = w.mem := by
      have := hs w
      rwa [ha] at this
    rw [← hmem]
    exact hf w a w₁ ha w₁ e w' h

/-- What comes after the first store must not fail. -/
theorem EndsEarly.bind_bus {c : Cmd α} {f : α → Cmd β} (hc : EndsEarly L B K c)
    (hf : ∀ a, Raises (Allowed [] B) (f a)) : EndsEarly L B K (c >>= f) := by
  intro w e w' h
  obtain h | ⟨a, w₁, -, h⟩ := bind_error h
  · exact hc w e w' h
  · exact .inr (bus_of_allowed_nil (hf a w₁ e w' h))

end

/-! ### The bodies of the commands -/

theorem queryFmt_endsEarly {L : List (BitVec 4)} {B K : Prop} (h2 : 2 ∈ L) (w : Word) (answer : Fmt → Nat) :
    EndsEarly L B K (queryFmt w answer) := by
  unfold queryFmt
  cases decodeFmt w with
  | none => exact .throw h2
  | some f => exact .pure _

section
variable {s : State} {K : Prop}

theorem fmtEqnaCmd_endsEarly {B : Prop} : EndsEarly (mayEnd .fmtEqna) B K (fmtEqnaCmd s) := by
  unfold fmtEqnaCmd
  split
  · exact .pure _
  · exact .throw (by decide)

theorem fmtNameCmd_endsEarly : EndsEarly (mayEnd .fmtName) (s.params.rejects ≠ []) K (fmtNameCmd s) :=
  .failIf_bind (fun _ => by decide) fun _ =>
    .of_bus (.bind (memWrite_raises_of allowed_bus _ _) fun _ => .pure _)

theorem getColorCmd_endsEarly {B : Prop} : EndsEarly (mayEnd .getColor) B K (getColorCmd s) := by
  unfold getColorCmd
  cases decodeFmt s.regs.dfmt with
  | none => exact .throw (by decide)
  | some f =>
    exact .failIf_bind (fun _ => by decide) fun _ => .of_sameMem (Moves.ofExcept sameMem_step _)
      (.ofExcept fun e he => .inl ((pack_error he).1 ▸ by decide))

/-- A lookup in a palette is for RGB8 only, whose identifier SFMT then holds (60_exceptions R323). -/
theorem allowsConversion_codec {i : Instr} {sf : Fmt} (hi : i = .splitColor ∨ i = .convertColor)
    (hsf : decodeFmt s.regs.sfmt = some sf) (pal : Palette) :
    AllowsConversion (Allowed (mayEnd i) (s.params.rejects ≠ [] ∧ s.regs.sfmt = 0x08008000#32)) s.params sf pal := by
  have hcodes : mayEnd i = [1, 2, 3] := by obtain rfl | rfl := hi <;> rfl
  rw [hcodes]
  refine ⟨fun h8 hrej => allowed_bus ⟨hrej, ?_⟩, .inl (by decide), .inl (by decide), fun _ => .inl (by decide)⟩
  rw [ident_of_decodeFmt hsf, h8]
  rfl

theorem splitColorCmd_endsEarly :
    EndsEarly (mayEnd .splitColor) (s.params.rejects ≠ [] ∧ s.regs.sfmt = 0x08008000#32) K (splitColorCmd s) := by
  refine .of_sameMem (moves_of_same sameMem_step (splitColorCmd_same s)) ?_
  unfold splitColorCmd
  cases hsf : decodeFmt s.regs.sfmt with
  | none => exact .throw (.inl (by decide))
  | some f => exact .bind (split_raises_of (allowsConversion_codec (.inl rfl) hsf _) _) fun _ => .pure _

theorem convertColorCmd_endsEarly :
    EndsEarly (mayEnd .convertColor) (s.params.rejects ≠ [] ∧ s.regs.sfmt = 0x08008000#32) K (convertColorCmd s) := by
  refine .of_sameMem (moves_of_same sameMem_step (convertColorCmd_same s)) ?_
  unfold convertColorCmd
  split
  · next hsf _ => exact convert_raises_of (allowsConversion_codec (.inr rfl) hsf _) _ _
  · exact .throw (.inl (by decide))

theorem readColorCmd_endsEarly : EndsEarly (mayEnd .readColor) (s.params.rejects ≠ []) K (readColorCmd s) := by
  unfold readColorCmd
  cases decodeFmt s.regs.sfmt with
  | none => exact .throw (by decide)
  | some f => exact .failIf_bind (fun _ => by decide) fun _ => .of_bus (loadPx_raises_of allowed_bus _ _)

theorem writeColorWith_endsEarly {store : Params → Nat → Fmt → Word → Cmd Unit}
    (h : ∀ a f v, Raises (Allowed [] (s.params.rejects ≠ [])) (store s.params a f v)) :
    EndsEarly (mayEnd .writeColor) (s.params.rejects ≠ []) K (writeColorWith s store) := by
  unfold writeColorWith
  cases decodeFmt s.regs.dfmt with
  | none => exact .throw (by decide)
  | some f =>
    exact .failIf_bind (fun _ => by decide) fun _ => .failIf_bind (fun _ => by decide) fun _ => .of_bus (h _ _ _)

theorem fillCmd_endsEarly : EndsEarly (mayEnd .fill) (s.params.rejects ≠ []) K (fillCmd s) := by
  unfold fillCmd
  cases decodeFmt s.regs.dfmt with
  | none => exact .throw (by decide)
  | some f =>
    exact .failIf_bind (fun _ => by decide) fun _ => .ite (fun _ => .pure ()) fun _ =>
      .failIf_bind (fun _ => by decide) fun _ => .of_bus (fillRect_raises_of allowed_bus _ _)

theorem glyphCmd_endsEarly : EndsEarly (mayEnd .glyph) (s.params.rejects ≠ []) K (glyphCmd s) :=
  .failIf_bind (fun _ => by decide) fun _ => .of_bus <| .forPixels fun _ _ _ _ =>
    .bind (readBit_raises_of allowed_bus _ _ _ _) fun _ => memWrite_raises_of allowed_bus _ _

theorem monoCmd_endsEarly : EndsEarly (mayEnd .mono) (s.params.rejects ≠ []) K (monoCmd s) := by
  unfold monoCmd
  cases decodeFmt s.regs.dfmt with
  | none => exact .throw (by decide)
  | some f =>
    exact .failIf_bind (fun _ => by decide) fun _ => .failIf_bind (fun _ => by decide) fun _ =>
      .of_bus <| .forPixels fun _ _ _ _ =>
        .bind (readBit_raises_of allowed_bus _ _ _ _) fun _ => storePx_raises_of allowed_bus _ _ _

/-! #### Copies -/

section
variable {L : List (BitVec 4)} {p : Params} {j : CopyJob}

/-- The overlap-safe path fails before it has changed memory, unless it overwrites its palette's tag (70 R372). -/
theorem overlapSafe_endsEarly (h6 : 6 ∉ L) (h : AllowsConversion (Allowed L (p.rejects ≠ [])) p j.sf j.pal)
    (htag : K → j.sf = .rgb8 → tagOutside p j.pal (j.rect.footprint p)) :
    EndsEarly L (p.rejects ≠ []) K (overlapSafe p j) := by
  refine .of_raises (overlapSafe_raises_of allowed_bus h) fun hK w e w' he hL => ?_
  have hbus : e ≠ .bus := by
    rintro rfl
    exact h6 hL
  rw [overlapSafe_failure (htag hK) he hbus]

theorem nonOverlapping_endsEarly (h4 : 4 ∈ L) (h7 : j.overlap = true → 7 ∈ L)
    (h : EndsEarly L (p.rejects ≠ []) K (overlapSafe p j)) : EndsEarly L (p.rejects ≠ []) K (nonOverlapping p j) :=
  .bind (fun _ => rfl) (fun _ _ _ he => by cases he) fun _ _ _ _ =>
    .failIf_bind (fun _ => h4) fun _ => .failIf_bind h7 fun _ => h

/-- COPY takes the non-overlapping path only where the ranges do not meet, so it cannot end with ASSERT
(42_blit_engine R200). -/
theorem dispatchCopy_endsEarly (h4 : 4 ∈ L) (h : EndsEarly L (p.rejects ≠ []) K (overlapSafe p j)) :
    EndsEarly L (p.rejects ≠ []) K (dispatchCopy p j) :=
  .ite (fun _ => h) fun ho => nonOverlapping_endsEarly h4 (fun h' => absurd h' ho) h

/-- `copy_checks` fails with INVALID_ARG or UNSUPPORTED, or lets the path of the request's own copy run
(42_blit_engine R202). -/
theorem copyWith_endsEarly {q : CopyReq} {path : CopyJob → Cmd Unit} (h1 : 1 ∈ L) (h2 : 2 ∈ L)
    (h : ∀ df sf, q.dfmt = some df → q.sfmt = some sf → EndsEarly L (p.rejects ≠ []) K (path (q.job df sf))) :
    EndsEarly L (p.rejects ≠ []) K (copyWith p q path) := by
  unfold copyWith copyChecks
  cases hd : q.dfmt with
  | none => exact .throw h2
  | some df =>
    cases hs : q.sfmt with
    | none => exact .throw h2
    | some sf =>
      dsimp only
      split_ifs
      · exact .throw h1
      · exact .throw h1
      · exact .pure ()
      · exact h df sf hd hs

end

/-- Where the palette at PAL lies apart, its tag is outside the destination rectangle. -/
theorem tagOutside_of_paletteApart {f : Fmt} (hf : decodeFmt s.regs.dfmt = some f) (h : paletteApart s) :
    tagOutside s.params (paletteAt s.regs.pal) ((destRect s.regs f).footprint s.params) := by
  intro a ha
  unfold paletteAt at ha
  split at ha
  · cases ha
  · next hpal =>
    cases ha
    exact h f f.mem_all hf hpal

/-- What the three copy commands share: their conversions, and the palette's tag where it lies apart. -/
theorem copyCmd_endsEarly {L : List (BitVec 4)} {path : CopyJob → Cmd Unit} (hL : [1, 2, 3] ⊆ L) (h6 : 6 ∉ L)
    (hK : K → s.regs.sfmt = 0x08008000#32 → paletteApart s)
    (hpath : ∀ j, EndsEarly L (s.params.rejects ≠ []) K (overlapSafe s.params j) →
      EndsEarly L (s.params.rejects ≠ []) K (path j)) :
    EndsEarly L (s.params.rejects ≠ []) K (copyWith s.params (copyReq s.regs) path) := by
  have h1 : 1 ∈ L := hL (by decide)
  have h2 : 2 ∈ L := hL (by decide)
  have h3 : 3 ∈ L := hL (by decide)
  refine copyWith_endsEarly h1 h2 fun df sf hd hs => hpath _ (overlapSafe_endsEarly h6
    ⟨fun _ => allowed_bus, .inl h1, .inl h2, fun _ => .inl h3⟩ fun k h8 => ?_)
  refine tagOutside_of_paletteApart hd (hK k ?_)
  rw [ident_of_decodeFmt hs, show sf = .rgb8 from h8]
  rfl

/-! #### SCALE -/

theorem resample_endsEarly (df sf : Fmt) : EndsEarly (mayEnd .scale) (s.params.rejects ≠ []) K (resample s df sf) :=
  .failIf_bind (fun _ => by decide) fun _ => .failIf_bind (fun _ => by decide) fun _ =>
    .bind (fun _ => rfl) (fun _ _ _ he => by cases he) fun _ _ _ _ =>
      .of_bus (.forEach fun _ _ => memWrite_raises_of allowed_bus _ _)

theorem scaleCmd_endsEarly : EndsEarly (mayEnd .scale) (s.params.rejects ≠ []) K (scaleCmd s) := by
  unfold scaleCmd
  split
  · refine .ite (fun _ => ?equal) fun _ => .failIf_bind (fun _ => by decide) fun _ => resample_endsEarly _ _
    refine copyWith_endsEarly (by decide) (by decide) fun df sf _ _ =>
      nonOverlapping_endsEarly (by decide) (fun _ => by decide) (overlapSafe_endsEarly (by decide)
        ⟨fun _ => allowed_bus, .inl (by decide), .inl (by decide), fun _ => .inl (by decide)⟩ fun _ _ a ha => ?_)
    -- an equal-size SCALE has no palette
    cases ha
  · exact .throw (by decide)

/-! #### ICON -/

/-- ICON's copy has a palette of its own, which cannot be missing and lies outside memory (43_bitmap_decoders R282). -/
theorem iconCopy_endsEarly (sf : Fmt) (es : List Word) :
    EndsEarly (mayEnd .icon) (s.params.rejects ≠ []) K
      (copyWith s.params (iconReq s.regs sf (.built es)) (dispatchCopy s.params)) :=
  copyWith_endsEarly (by decide) (by decide) fun _ _ _ _ =>
    dispatchCopy_endsEarly (by decide) (overlapSafe_endsEarly (by decide)
      ⟨fun _ => allowed_bus, .inl (by decide), .inl (by decide), fun h => absurd rfl (h es)⟩
      fun _ _ a ha => by cases ha)

theorem iconCmd_endsEarly : EndsEarly (mayEnd .icon) (s.params.rejects ≠ []) K (iconCmd s) := by
  unfold iconCmd
  cases decodeFmt s.regs.dfmt with
  | none => exact .throw (by decide)
  | some f =>
    refine .failIf_bind (fun _ => by decide) fun _ => ?_
    cases iconFmt s.regs.bpp with
    | none => exact .throw (by decide)
    | some sf =>
      refine .failIf_bind (fun _ => by decide) fun _ => .failIf_bind (fun _ => by decide) fun _ =>
        .bind (moves_of_same sameMem_step (iconPalette_same _ _ _)) (iconPalette_raises_of allowed_bus _ _)
        fun w pal w' hpal => ?_
      obtain ⟨es, rfl⟩ := iconPalette_built hpal
      refine .failIf_bind (fun _ => by decide) fun hp => .failIf_bind (fun _ => by decide) fun _ =>
        .bind_bus (iconCopy_endsEarly sf es) fun _ => .onlyIf fun huse => ?_
      rw [huse, Bool.true_and, Bool.not_eq_false'] at hp
      exact iconMaskPass_raises_of (t := destRect s.regs f) allowed_bus hp ((iconUsesMask_iff _ _).1 huse).1 _

/-! #### CURSOR -/

theorem cursorMonoCmd_raises {E : Err → Prop} (hbus : s.params.rejects ≠ [] → E .bus) (h1 : E .invalidArg)
    (h2 : E .unsupported) (t : Rect) : Raises E (cursorMonoCmd s t) :=
  .bind (.failIf fun _ => h1) fun _ => .bind (.failIf fun _ => h1) fun _ => .forPixels fun _ _ _ _ =>
    .bind (readBit_raises_of hbus _ _ _ _) fun _ => .bind (readBit_raises_of hbus _ _ _ _) fun _ =>
    .bind (.ofExcept fun _ he => (pack_error ((combine_eq ..).symm.trans he)).1 ▸ h2) fun _ =>
    storePx_raises_of hbus _ _ _

/-- A canonical pixel has an inverted color (43_bitmap_decoders R292). -/
theorem applyAndBit_ok (p : Params) (v : Word) (x y : Nat) : ∃ v', applyAndBit p v x y = .ok v' := by
  unfold applyAndBit
  split_ifs
  · exact ⟨_, rfl⟩
  · rw [invertedColor_eq]
    exact pack_ok rfl _
  · exact ⟨_, rfl⟩

theorem cursorColorCmd_raises {E : Err → Prop} (hbus : s.params.rejects ≠ [] → E .bus) (h1 : E .invalidArg)
    (h2 : E .unsupported) (h3 : E .missingContext) (t : Rect) (xf : Fmt) : Raises E (cursorColorCmd s t xf) := by
  have hconv (f : Fmt) (pal : Palette) : AllowsConversion E s.params f pal := ⟨fun _ => hbus, h1, h2, fun _ => h3⟩
  refine .bind (.failIf fun _ => h1) fun _ => .bind (convChecks_raises_of (hconv _ _) _) fun _ =>
    .bind (.failIf fun _ => h1) fun _ => .bind (.failIf fun _ => h1) fun _ => .forPixels fun x y _ _ =>
    .bind (loadPx_raises_of hbus _ _) fun v => .bind (convert_raises_of (hconv _ _) _ _) fun c =>
    .bind (.ite (fun _ => .pure _) fun _ => readBit_raises_of hbus _ _ _ _) fun ab =>
    .bind (.ofExcept fun e he => ?_) fun c' => .bind (convert_raises_of (hconv _ _) _ _) fun _ =>
    storePx_raises_of hbus _ _ _
  obtain ⟨v', hv⟩ := applyAndBit_ok s.params c x y
  cases ab
  · cases he
  · cases hv.symm.trans he

theorem cursorCmd_raises : Raises (Allowed (mayEnd .cursor) (s.params.rejects ≠ [])) (cursorCmd s) := by
  have h1 : Allowed (mayEnd .cursor) (s.params.rejects ≠ []) .invalidArg := .inl (by decide)
  have h2 : Allowed (mayEnd .cursor) (s.params.rejects ≠ []) .unsupported := .inl (by decide)
  unfold cursorCmd
  cases decodeFmt s.regs.dfmt with
  | none => exact .throw h2
  | some f =>
    refine .bind (.failIf fun _ => h2) fun _ => .bind (.failIf fun _ => h1) fun _ =>
      .bind (zeroFill_raises_of allowed_bus _) fun _ => .ite (fun _ => cursorMonoCmd_raises allowed_bus h1 h2 _)
      fun _ => ?_
    cases cursorFmt s.regs.bpp with
    | none => exact .throw h2
    | some xf => exact cursorColorCmd_raises allowed_bus h1 h2 (.inl (by decide)) _ xf

end

/-! ### How each command ends -/

/-- When a command may end with BUS (60_exceptions R323, 20_memory R84). -/
def MayFault (i : Instr) (s : State) : Prop :=
  s.params.rejects ≠ [] ∧ touchesNoMemory i = false ∧
    (i = .splitColor ∨ i = .convertColor → s.regs.sfmt = 0x08008000#32)

/-- When a failure of the command leaves memory as it was (60_exceptions R325, 70 R372). -/
def FailsCleanly (i : Instr) (s : State) : Prop :=
  i ≠ .cursor ∧ (i = .copy ∨ i = .copyOvl ∨ i = .copyNovl → s.regs.sfmt = 0x08008000#32 → paletteApart s)

/-- The three ways a command from `s` ends in `t`: success, a failure with one of its codes, BUS. -/
def EndsIn (i : Instr) (s t : State) : Prop :=
  t.status.err = 0 ∨ (t.status.err ∈ mayEnd i ∧ (FailsCleanly i s → t.mem = s.mem)) ∨
    (t.status.err = 6 ∧ MayFault i s)

section
variable {i : Instr} {s : State} {B : Prop}

/-- A body's early endings are the command's, if its outcome is what `t` shows. -/
theorem EndsEarly.endsIn {α : Type} {c : Cmd α} {t : State} (h : EndsEarly (mayEnd i) B (FailsCleanly i s) c)
    (hB : B → MayFault i s) (hok : ∀ a w, c s.work = .ok a w → t.status.err = 0)
    (herr : ∀ e w, c s.work = .error e w → t.status.err = e.code ∧ t.mem = w.mem) : EndsIn i s t := by
  cases hc : c s.work with
  | ok a w => exact .inl (hok a w hc)
  | error e w =>
    obtain ⟨hcode, hmem⟩ := herr e w hc
    rw [EndsIn, hcode, hmem]
    obtain hfails | ⟨rfl, hb⟩ := h _ _ _ hc
    · exact .inr (.inl hfails)
    · exact .inr (.inr ⟨rfl, hB hb⟩)

theorem runPlain_endsIn {c : Cmd Unit} (h : EndsEarly (mayEnd i) B (FailsCleanly i s) c) (hB : B → MayFault i s) :
    EndsIn i s (s.runPlain c) :=
  h.endsIn hB (fun _ _ hc => by rw [runPlain_of_ok hc]; rfl) fun _ _ hc => by rw [runPlain_of_error hc]; exact ⟨rfl, rfl⟩

theorem runRes_endsIn {c : Cmd Word} (h : EndsEarly (mayEnd i) B (FailsCleanly i s) c) (hB : B → MayFault i s) :
    EndsIn i s (s.runRes c) :=
  h.endsIn hB (fun _ _ hc => by rw [runRes_of_ok hc]; rfl) fun _ _ hc => by rw [runRes_of_error hc]; exact ⟨rfl, rfl⟩

theorem runRchan_endsIn {c : Cmd Word} (h : EndsEarly (mayEnd i) B (FailsCleanly i s) c) (hB : B → MayFault i s) :
    EndsIn i s (s.runRchan c) :=
  h.endsIn hB (fun _ _ hc => by rw [runRchan_of_ok hc]; rfl)
    fun _ _ hc => by rw [runRchan_of_error hc]; exact ⟨rfl, rfl⟩

theorem mayFault_of_touches (hm : touchesNoMemory i = false) (hs : i ≠ .splitColor) (hc : i ≠ .convertColor)
    (hrej : s.params.rejects ≠ []) : MayFault i s :=
  ⟨hrej, hm, fun h => (h.elim hs hc).elim⟩

end

/-- How every command ends (60_exceptions R323, R325), by the early endings of its body. -/
theorem exec_endsIn {i : Instr} {s t : State} (h : exec i s = .next t) : EndsIn i s t := by
  have touches {i : Instr} (h : touchesNoMemory i = false ∧ i ≠ .splitColor ∧ i ≠ .convertColor) :
      s.params.rejects ≠ [] → MayFault i s := mayFault_of_touches h.1 h.2.1 h.2.2
  cases i <;> cases h
  case nop => exact runPlain_endsIn (B := False) (.pure ()) False.elim
  case fmtBpp | fmtBytes | fmtHasAlpha =>
    exact runRes_endsIn (B := False) (queryFmt_endsEarly (by decide) _ _) False.elim
  case fmtEqna => exact runRes_endsIn (B := False) fmtEqnaCmd_endsEarly False.elim
  case fmtName => exact runRes_endsIn fmtNameCmd_endsEarly (touches (by decide))
  case getColor => exact runRes_endsIn (B := False) getColorCmd_endsEarly False.elim
  case splitColor => exact runRchan_endsIn splitColorCmd_endsEarly fun ⟨hrej, h8⟩ => ⟨hrej, rfl, fun _ => h8⟩
  case convertColor => exact runRes_endsIn convertColorCmd_endsEarly fun ⟨hrej, h8⟩ => ⟨hrej, rfl, fun _ => h8⟩
  case readColor => exact runRes_endsIn readColorCmd_endsEarly (touches (by decide))
  case writeColor =>
    exact runPlain_endsIn (writeColorWith_endsEarly fun _ _ _ => storePx_raises_of allowed_bus _ _ _)
      (touches (by decide))
  case writeColorIa =>
    exact runPlain_endsIn (i := .writeColorIa)
      (writeColorWith_endsEarly fun _ _ _ => storePxIa_raises_of allowed_bus _ _ _) (touches (by decide))
  case copy =>
    exact runPlain_endsIn (copyCmd_endsEarly (by decide) (by decide) (fun hK => hK.2 (by simp))
      fun _ => dispatchCopy_endsEarly (by decide)) (touches (by decide))
  case copyOvl =>
    exact runPlain_endsIn (copyCmd_endsEarly (by decide) (by decide) (fun hK => hK.2 (by simp)) fun _ => id)
      (touches (by decide))
  case copyNovl =>
    exact runPlain_endsIn (copyCmd_endsEarly (by decide) (by decide) (fun hK => hK.2 (by simp))
      fun _ => nonOverlapping_endsEarly (by decide) fun _ => by decide) (touches (by decide))
  case fill => exact runPlain_endsIn fillCmd_endsEarly (touches (by decide))
  case scale => exact runPlain_endsIn scaleCmd_endsEarly (touches (by decide))
  case glyph => exact runPlain_endsIn glyphCmd_endsEarly (touches (by decide))
  case mono => exact runPlain_endsIn monoCmd_endsEarly (touches (by decide))
  case icon => exact runPlain_endsIn iconCmd_endsEarly (touches (by decide))
  case cursor =>
    exact runPlain_endsIn (.of_raises cursorCmd_raises fun hK => absurd rfl hK.1) (touches (by decide))

/-- Settles O14: `exec_endsIn` without what it says of memory. -/
theorem allowedCodes : Obligations.AllowedCodes := by
  intro i s t h
  obtain h0 | ⟨hcode, -⟩ | hbus := exec_endsIn h
  · exact .inl h0
  · exact .inr (.inl hcode)
  · exact .inr (.inr hbus)

/-- Settles O18: of the ways a command ends, only its failures have a code from 1 to 5. -/
theorem failureLeavesMemory : Obligations.FailureLeavesMemory := by
  intro i s t hi h h1 h5 hpal
  obtain h0 | ⟨-, hmem⟩ | ⟨h6, -⟩ := exec_endsIn h
  · rw [h0] at h1
    cases h1
  · exact hmem ⟨hi, hpal⟩
  · rw [h6] at h5
    exact absurd h5 (by decide)

end Sys2Proof.Machine
end

section
/-! A CURSOR that fails after its zero fill (43_bitmap_decoders R290, R293, R295, R296): both variants make their checks
before their first store, and the loop that follows them cannot fail, so what is left is the zero fill. -/

namespace Sys2Proof.Machine

/-! ### The zero fill -/

/-- The zero fill zeroes its rectangle, whatever its rows (43_bitmap_decoders R290 step 3). -/
theorem zeroFill_zeroes {p : Params} (hrej : p.rejects = []) (t : Rect) (w : Work) :
    ∃ w', zeroFill p t w = .ok () w' ∧ Zeroed (t.footprint p) w w' := by
  obtain ⟨w', hrun, hz⟩ : ∃ w', zeroFill p t w = .ok () w' ∧
      Zeroed (fun a => ∃ y ∈ List.range t.h, span p (t.pixel 0 y) t.rowBytes a) w w' := by
    refine forEach_runs (fun done u => Zeroed (fun a => ∃ y ∈ done, span p (t.pixel 0 y) t.rowBytes a) w u)
      (fun done y rest _ u hu => ?_) ⟨by simp, fun _ _ => rfl, rfl⟩
    refine ⟨_, memWrite_runs hrej _ _ u, (hu.trans (writeBytes_zeroed p (t.pixel 0 y) t.rowBytes u)).congr fun a => ?_⟩
    simp only [List.mem_append, List.mem_singleton, or_and_right, exists_or, exists_eq_left]
  exact ⟨w', hrun, hz.congr fun a => by simp only [List.mem_range, Rect.footprint]⟩

/-! ### Loops that cannot fail -/

/-- A loop over pixels whose turns complete within `S` from whatever turns within `S` have left completes within `S`. -/
theorem forPixels_completes_from {S : Nat → Prop} {width height : Nat} {body : Nat → Nat → Cmd Unit} {w : Work}
    (h : ∀ x y, x < width → y < height → ∀ u, Stores S w u → ∃ u', body x y u = .ok () u' ∧ Stores S u u') :
    ∃ w', forPixels width height body w = .ok () w' ∧ Stores S w w' := by
  have hR := stores_step S
  refine forEach_runs (fun _ u => Stores S w u) (fun done y rest hys u hu => ?_) (hR.refl w)
  refine forEach_runs (fun _ u => Stores S w u) (fun done x rest hxs u hu => ?_) hu
  obtain ⟨u', hrun, hst⟩ := h x y (List.mem_range.1 (by simp [hxs])) (List.mem_range.1 (by simp [hys])) u hu
  exact ⟨u', hrun, hR.trans hu hst⟩

section
variable {s : State} {t : Rect} (hrej : s.params.rejects = []) (hp : t.fmt.packable = true)
include hrej hp

/-- The loop of the 1-bit variant runs through. -/
theorem cursorMonoLoop_completes (w : Work) :
    ∃ w', forPixels t.w t.h (cursorMonoTurn s t) w = .ok () w' ∧ Stores (t.footprint s.params) w w' := by
  refine forPixels_completes (fun x y hx hy u => ?_) w
  obtain ⟨v, hv⟩ := pack_ok (p := s.params) hp (combinedChannels
    (bitIn s.params u.mem s.regs.msk.toNat (cursorMaskStride t.w) y x)
    (bitIn s.params u.mem s.regs.src.toNat (cursorMaskStride t.w) y x) x y)
  obtain ⟨u', hrun, hst⟩ := storePx_completes hrej (t.pixel x y) t.fmt v u
  exact ⟨u', (cursorMonoTurn_runs hrej hv).trans hrun, hst.mono fun a ha => Rect.pixel_footprint hx hy ha⟩

/-- The loop of the color variant runs through, if the palette's tag serves and is not overwritten. -/
theorem cursorColorLoop_completes {xf : Fmt} {w : Work} (hxu : xf.unpackable = true)
    (hserves : xf = .rgb8 → tagServes s.params w.mem (paletteAt s.regs.pal))
    (htag : xf = .rgb8 → tagOutside s.params (paletteAt s.regs.pal) (t.footprint s.params)) :
    ∃ w', forPixels t.w t.h (cursorColorTurn s t xf) w = .ok () w' ∧ Stores (t.footprint s.params) w w' := by
  refine forPixels_completes_from fun x y hx hy u hu => ?_
  obtain ⟨c₁, hc₁⟩ := convertIn_ok (p := s.params) (m := u.mem) (pal := paletteAt s.regs.pal) (df := .argb32)
    (v := pixelAt s.params u.mem (cursorPixel s t x y) xf) hxu rfl fun h8 =>
      ⟨by subst h8; exact pixelAt_rgb8_le _ _ _, tagServes_congr (htag h8) hu.1 (hserves h8)⟩
  obtain ⟨c, hc⟩ := channelsIn_of_convertIn hc₁
  obtain ⟨v, hv⟩ := pack_ok (p := s.params) hp (maskedChannels (s.regs.msk != 0 &&
    bitIn s.params u.mem s.regs.msk.toNat (cursorMaskStride t.w) (t.h - 1 - y) x) c x y)
  obtain ⟨u', hrun, hst⟩ := storePx_completes hrej (t.pixel x y) t.fmt v u
  exact ⟨u', (cursorColorTurn_runs hrej hc hv).trans hrun, hst.mono fun a ha => Rect.pixel_footprint hx hy ha⟩

end

/-! ### The variants, their checks first -/

/-- The 1-bit variant (43_bitmap_decoders R293). -/
theorem cursorMonoCmd_eq (s : State) (t : Rect) (w : Work) :
    cursorMonoCmd s t w =
      if s.regs.src = 0 ∨ s.regs.srclen = 0 ∨ s.regs.msk = 0 ∨ s.regs.msklen = 0 ∨
          s.regs.srclen.toNat < cursorMaskStride t.w * t.h ∨ s.regs.msklen.toNat < cursorMaskStride t.w * t.h then
        .error .invalidArg w
      else forPixels t.w t.h (cursorMonoTurn s t) w := by
  split
  · next hfails =>
    simp only [cursorMonoCmd, failIf_bind, Bool.or_eq_true, beq_iff_eq, decide_eq_true_eq]
    split_ifs
    · rfl
    · rfl
    · tauto
  · next hpasses =>
    simp only [not_or, Nat.not_lt] at hpasses
    obtain ⟨hs, hsl, hm, hml, hsrc, hmsk⟩ := hpasses
    exact cursorMonoCmd_runs hs hsl hm hml hsrc hmsk w

/-- The color variant with no XOR mask (43_bitmap_decoders R295). -/
theorem cursorColorCmd_of_null {s : State} (h : s.regs.src = 0 ∨ s.regs.srclen = 0) (t : Rect) (xf : Fmt) (w : Work) :
    cursorColorCmd s t xf w = .error .invalidArg w := by
  simp only [cursorColorCmd, failIf_bind, Bool.or_eq_true, beq_iff_eq, if_pos h]

section
variable {s : State} (hs : s.regs.src ≠ 0) (hsl : s.regs.srclen ≠ 0)
include hs hsl

/-- The color variant whose formats or palette `conv_checks` turns down (43_bitmap_decoders R295, 42_blit_engine R207). -/
theorem cursorColorCmd_of_checks {t : Rect} {xf : Fmt} {w w' : Work} {e : Err}
    (h : convChecks s.params xf .argb32 (paletteAt s.regs.pal) w = .error e w') :
    cursorColorCmd s t xf w = .error e w' := by
  simp only [cursorColorCmd, failIf_bind, beq_false_of_ne hs, beq_false_of_ne hsl, Bool.or_self, Bool.false_eq_true,
    if_false, bind_runs_error h]

/-- The color variant after `conv_checks`: the two lengths, then the loop (43_bitmap_decoders R295). -/
theorem cursorColorCmd_eq {t : Rect} {xf : Fmt} {w : Work}
    (h : convChecks s.params xf .argb32 (paletteAt s.regs.pal) w = .ok () w) :
    cursorColorCmd s t xf w =
      if s.regs.srclen.toNat < cursorXorStride t.w (s.regs.bpp.toNat / 8) * t.h ∨
          (s.regs.msk ≠ 0 ∧ s.regs.msklen.toNat < cursorMaskStride t.w * t.h) then .error .invalidArg w
      else forPixels t.w t.h (cursorColorTurn s t xf) w := by
  split
  · next hshort =>
    simp only [cursorColorCmd, failIf_bind, beq_false_of_ne hs, beq_false_of_ne hsl, Bool.or_self, Bool.false_eq_true,
      if_false, bind_runs_ok h, decide_eq_true_eq, Bool.and_eq_true, bne_iff_ne]
    split_ifs
    · rfl
    · rfl
    · tauto
  · next hlong =>
    simp only [not_or, not_and, Nat.not_lt] at hlong
    exact cursorColorCmd_runs hs hsl h hlong.1 (or_iff_not_imp_left.2 hlong.2)

end

section
variable {s : State} {t : Rect} {w w' : Work} {e : Err} (hrej : s.params.rejects = []) (hp : t.fmt.packable = true)
include hrej hp

/-- The 1-bit variant fails only before its first store. -/
theorem cursorMonoCmd_error (h : cursorMonoCmd s t w = .error e w') : w' = w := by
  rw [cursorMonoCmd_eq] at h
  split at h
  · cases h
    rfl
  · obtain ⟨u, hrun, -⟩ := cursorMonoLoop_completes hrej hp w
    cases h.symm.trans hrun

/-- The color variant fails only before its first store. -/
theorem cursorColorCmd_error {xf : Fmt}
    (htag : xf = .rgb8 → tagOutside s.params (paletteAt s.regs.pal) (t.footprint s.params))
    (h : cursorColorCmd s t xf w = .error e w') : w' = w := by
  by_cases hnull : s.regs.src = 0 ∨ s.regs.srclen = 0
  · rw [cursorColorCmd_of_null hnull] at h
    cases h
    rfl
  obtain ⟨hs, hsl⟩ := not_or.1 hnull
  cases hc : convChecks s.params xf .argb32 (paletteAt s.regs.pal) w with
  | error e' u =>
    have hsame := convChecks_same s.params xf .argb32 (paletteAt s.regs.pal) w
    rw [cursorColorCmd_of_checks hs hsl hc] at h
    rw [hc] at hsame
    cases h
    exact hsame
  | ok v u =>
    obtain ⟨hxu, -, hserves, rfl⟩ := convChecks_ok hc
    rw [cursorColorCmd_eq hs hsl hc] at h
    split at h
    · cases h
      rfl
    · obtain ⟨u', hrun, -⟩ := cursorColorLoop_completes hrej hp hxu hserves htag
      cases h.symm.trans hrun

end

/-! ### The depths -/

/-- A depth that is not listed has neither variant (43_bitmap_decoders R296). -/
theorem cursorFmt_of_not_mem {bpp : Word} (h : bpp.toNat ∉ [1, 8, 16, 24, 32]) : bpp ≠ 1 ∧ cursorFmt bpp = none := by
  have hne {n : Word} (hn : n.toNat ∈ [1, 8, 16, 24, 32]) : bpp ≠ n := fun e => h (e ▸ hn)
  refine ⟨hne (by decide), ?_⟩
  rw [cursorFmt, if_neg (hne (by decide)), if_neg (hne (by decide)), if_neg (hne (by decide)), if_neg (hne (by decide))]

/-- A listed color depth has a format, which unpacks (43_bitmap_decoders R296). -/
theorem exists_cursorFmt {bpp : Word} (h : bpp.toNat ∈ [8, 16, 24, 32]) :
    ∃ xf, cursorFmt bpp = some xf ∧ bpp ≠ 1 ∧ xf.unpackable = true := by
  obtain ⟨xf, hxf⟩ : ∃ xf, (bpp.toNat, xf) ∈ [(8, Fmt.rgb8), (16, .rgb15), (24, .bgr24), (32, .bgra32)] := by
    simp only [List.mem_cons, List.not_mem_nil, or_false] at h
    obtain h | h | h | h := h <;> rw [h]
    exacts [⟨.rgb8, by simp⟩, ⟨.rgb15, by simp⟩, ⟨.bgr24, by simp⟩, ⟨.bgra32, by simp⟩]
  exact ⟨xf, cursorFmt_of_mem hxf⟩

/-- Only depth 8 is looked up in a palette (43_bitmap_decoders R296). -/
theorem bpp_of_cursorFmt_rgb8 {bpp : Word} (h : cursorFmt bpp = some .rgb8) : bpp = 8 := by
  unfold cursorFmt at h
  split at h
  · assumption
  · split_ifs at h <;> cases h

/-! ### The command -/

section
variable {s : State} {f : Fmt} (hf : decodeFmt s.regs.dfmt = some f) (hp : f.packable = true) (hd : s.regs.dst ≠ 0)
  (hrej : s.params.rejects = [])
include hf hp hd hrej

/-- A cursor that fails after its zero fill leaves what the fill has left (60_exceptions R325). -/
theorem cursorCmd_error_after_fill {w w₁ w' : Work} {e : Err} (hfill : zeroFill s.params (destRect s.regs f) w = .ok () w₁)
    (hpal : s.regs.bpp ≠ 8 ∨ paletteApart s) (h : cursorCmd s w = .error e w') : w' = w₁ := by
  rw [cursorCmd_after_fill hf hp hd hfill] at h
  split at h
  · exact cursorMonoCmd_error (t := destRect s.regs f) hrej hp h
  · cases hxf : cursorFmt s.regs.bpp with
    | none =>
      rw [hxf] at h
      cases h
      rfl
    | some xf =>
      rw [hxf] at h
      refine cursorColorCmd_error (t := destRect s.regs f) hrej hp (fun h8 => ?_) h
      subst h8
      exact tagOutside_of_paletteApart hf (hpal.resolve_left (not_not.2 (bpp_of_cursorFmt_rgb8 hxf)))

/-- What a failed cursor leaves: its rectangle zeroed, the rest as it was, no fault (43_bitmap_decoders R290). -/
theorem exec_cursor_of_err {t : State} (h : exec .cursor s = .next t) (herr : t.status.err ≠ 0)
    (hpal : s.regs.bpp ≠ 8 ∨ paletteApart s) :
    (∀ a, (destRect s.regs f).footprint s.params a → Memory.read t.mem a = 0) ∧
      (∀ a, ¬ (destRect s.regs f).footprint s.params a → Memory.read t.mem a = Memory.read s.mem a) ∧
      t.status.fault = s.status.fault ∧ t.status.binit = s.status.binit := by
  obtain ⟨w₁, hfill, hin, hout, hbinit⟩ := zeroFill_zeroes hrej (destRect s.regs f) s.work
  have hfault : t.status.fault = s.status.fault := by
    obtain h0 | ⟨hcode, -⟩ | ⟨-, hrejects, -⟩ := exec_endsIn h
    · exact absurd h0 herr
    · have hnot : (t.status.err == 6) = false ∧ (t.status.err == 7) = false := by
        revert hcode
        generalize t.status.err = code
        revert code
        decide
      rw [faultFlag .cursor s t h, hnot.1, hnot.2, Bool.or_false, Bool.or_false]
    · exact absurd hrej hrejects
  rw [exec_cursor] at h
  obtain rfl := Host.Outcome.next.inj h
  cases hc : cursorCmd s s.work with
  | ok u w => exact absurd (by rw [runPlain_of_ok hc]; rfl) herr
  | error e w =>
    obtain rfl := cursorCmd_error_after_fill hf hp hd hrej hfill hpal hc
    refine ⟨?_, ?_, hfault, ?_⟩ <;> rw [runPlain_of_error hc]
    · exact hin
    · exact hout
    · exact (conclude_binit _ _ _).trans hbinit

end

/-- Settles O57: after the zero fill each clause is the check of the variant that fails. -/
theorem cursorFailure : Obligations.CursorFailure := by
  intro s f hf hp hd hrej ends maskBytes tag
  obtain ⟨w₁, hfill, -, hout, -⟩ := zeroFill_zeroes hrej (destRect s.regs f) s.work
  have hcmd := cursorCmd_after_fill hf hp hd hfill
  have fails {e : Err} (h : cursorCmd s s.work = .error e w₁) : ends e.code :=
    ⟨_, exec_cursor s, by rw [runPlain_of_error h]; rfl⟩
  refine ⟨fun hbpp => ?depth, fun hbpp hmasks => ?oneBit, fun hbpp hnull => ?noMask,
    fun hbpp hs hsl => ?color, fun t => exec_cursor_of_err hf hp hd hrej⟩
  case depth =>
    obtain ⟨h1, hnone⟩ := cursorFmt_of_not_mem hbpp
    exact fails (e := .unsupported) (by rw [hcmd, if_neg h1, hnone]; rfl)
  case oneBit =>
    refine fails (e := .invalidArg) ?_
    rw [hcmd, if_pos hbpp, cursorMonoCmd_eq]
    exact if_pos hmasks
  all_goals obtain ⟨xf, hxf, h1, hxu⟩ := exists_cursorFmt hbpp
  all_goals rw [if_neg h1, hxf, Option.elim_some] at hcmd
  case noMask => exact fails (e := .invalidArg) (hcmd.trans (cursorColorCmd_of_null hnull _ _ _))
  case color =>
    have checked {e : Err} (h : convChecks s.params xf .argb32 (paletteAt s.regs.pal) w₁ = .error e w₁) : ends e.code :=
      fails (hcmd.trans (cursorColorCmd_of_checks hs hsl h))
    -- the palette's tag is as it was before the zero fill
    have htag (hpal : s.regs.pal ≠ 0) (hapart : paletteApart s) :
        (paletteIn s.params w₁.mem (paletteAt s.regs.pal) 0).1 = tag := by
      rw [tag_congr (w := s.work) (tagOutside_of_paletteApart hf hapart) hout, paletteAt_tag _ _ hpal]
      rfl
    have hxf8 (h8 : s.regs.bpp = 8) : xf = .rgb8 := (bytes_of_cursorFmt hxf).2 h8
    refine ⟨fun h8 hpal => ?noPalette, fun h8 hpal hapart => ?badPalette, fun hgood hshort => ?lengths⟩
    case noPalette =>
      obtain rfl := hxf8 h8
      refine checked (e := .missingContext) ?_
      rw [convChecks_rgb8, paletteAt, if_pos hpal]
      rfl
    case badPalette =>
      obtain rfl := hxf8 h8
      have hchecks := paletteChecks_runs hrej (paletteAt_ne_absent hpal) w₁
      rw [htag hpal hapart] at hchecks
      have unservable {e : Err} (h : paletteChecks s.params (paletteAt s.regs.pal) w₁ = .error e w₁) : ends e.code :=
        checked (by rw [convChecks_rgb8, bind_runs_error h])
      refine ⟨fun htagged => ?tagged8, fun hunusable => ?tagUnusable⟩
      case tagged8 =>
        refine unservable (e := .missingContext) (hchecks.trans ?_)
        simp only [htagged, if_true]
      case tagUnusable =>
        refine unservable (e := .unsupported) (hchecks.trans ?_)
        cases ht : tag with
        | none => rfl
        | some g =>
          have hu := hunusable g ht
          have hg8 : g ≠ .rgb8 := by
            rintro rfl
            cases hu
          simp only [if_neg hg8, hu, Bool.false_eq_true, if_false]
    case lengths =>
      refine fails (e := .invalidArg) ?_
      rw [hcmd, cursorColorCmd_eq hs hsl]
      · exact if_pos hshort
      · refine convChecks_runs hrej hxu rfl fun h8 => ?_
        subst h8
        obtain ⟨hpal, hapart, hserves⟩ := hgood (bpp_of_cursorFmt_rgb8 hxf)
        exact ⟨paletteAt_ne_absent hpal, by rwa [htag hpal hapart]⟩

end Sys2Proof.Machine
end

section
/-! The bytes a command may touch (70_reset_and_hazards R364), whatever its outcome and on any platform: a command that
stores nothing leaves the working state as it was, and a command with a destination keeps all that lies outside it. -/

namespace Sys2Proof.Machine

/-- The longest name is PIXEL_FORMAT_BGRX32_DEPTH30 (40_format_metadata R129). -/
theorem fmtName_length_le (f : Option Fmt) : (fmtName f).length ≤ 27 := by
  cases f with
  | none => decide
  | some f => cases f <;> decide

theorem overlapSafe_keeps (p : Params) (j : CopyJob) : Moves (KeepsOutside (j.rect.footprint p)) (overlapSafe p j) :=
  keeps_of_stores (overlapSafe_stores p j)

theorem writeColorWith_keeps {s : State} {f : Fmt} (hf : decodeFmt s.regs.dfmt = some f)
    {store : Params → Nat → Fmt → Word → Cmd Unit}
    (h : ∀ p a g v, Moves (KeepsOutside (span p a g.bytes)) (store p a g v)) :
    Moves (KeepsOutside (span s.params s.regs.dst.toNat f.bytes)) (writeColorWith s store) := by
  refine writeColorWith_moves (keepsOutside_step _) fun g hg => ?_
  obtain rfl : f = g := Option.some.inj (hf.symm.trans hg)
  exact h _ _ _ _

section
variable {i : Instr} {s t : State}

/-- What the commands without a destination leave: NOP does nothing, the others only compute or read. -/
theorem exec_same_of_no_destination (hi : i ∈ [Instr.nop, .fmtBpp, .fmtBytes, .fmtHasAlpha, .fmtEqna, .getColor,
    .splitColor, .readColor, .convertColor]) (h : exec i s = .next t) : Same s.work t.work := by
  cases i <;> cases h
  case nop => exact runPlain_moves (Moves.pure same_step _)
  case fmtBpp | fmtBytes | fmtHasAlpha => exact runRes_moves (queryFmt_same _ _)
  case fmtEqna => exact runRes_moves (fmtEqnaCmd_same s)
  case getColor => exact runRes_moves (getColorCmd_same s)
  case splitColor => exact runRchan_moves (splitColorCmd_same s)
  case readColor => exact runRes_moves (readColorCmd_same s)
  case convertColor => exact runRes_moves (convertColorCmd_same s)
  all_goals exact absurd hi (by decide)

/-- A destination format that is not enumerated stops a command before it stores anything (30_encoding R101). -/
theorem exec_same_of_decodeFmt_none (hi : i ∈ [Instr.writeColor, .writeColorIa, .copy, .copyOvl, .copyNovl, .fill,
    .scale, .mono, .icon, .cursor]) (hf : decodeFmt s.regs.dfmt = none) (h : exec i s = .next t) :
    Same s.work t.work := by
  have invalid {f : Fmt} (hd : decodeFmt s.regs.dfmt = some f) : False := nomatch hf.symm.trans hd
  cases i <;> cases h
  case writeColor | writeColorIa => exact runPlain_moves (writeColorWith_moves same_step fun _ hd => (invalid hd).elim)
  case copy | copyOvl | copyNovl =>
    exact runPlain_moves (copyWith_moves same_step fun _ _ hd _ => (invalid hd).elim)
  case fill => exact runPlain_moves (fillCmd_moves same_step fun _ hd _ => (invalid hd).elim)
  case scale =>
    exact runPlain_moves (scaleCmd_moves same_step (fun _ _ hd => (invalid hd).elim) fun _ _ hd => (invalid hd).elim)
  case mono => exact runPlain_moves (monoCmd_moves same_step fun _ _ _ _ hd _ _ => (invalid hd).elim)
  case icon =>
    exact runPlain_moves (iconCmd_moves same_step (fun _ _ _ hd => (invalid hd).elim) fun _ hd => (invalid hd).elim)
  case cursor =>
    exact runPlain_moves (cursorCmd_moves same_step (fun _ hd => (invalid hd).elim)
      fun _ _ _ _ hd _ _ => (invalid hd).elim)
  all_goals exact absurd hi (by decide)

/-- The commands with a destination rectangle keep all that lies outside it (70_reset_and_hazards R364). -/
theorem exec_keeps_destRect (hi : i ∈ [Instr.copy, .copyOvl, .copyNovl, .fill, .scale, .mono, .icon, .cursor])
    {f : Fmt} (hf : decodeFmt s.regs.dfmt = some f) (h : exec i s = .next t) :
    KeepsOutside ((destRect s.regs f).footprint s.params) s.work t.work := by
  cases i <;> cases h
  case copy => exact runPlain_moves (copyWith_keeps hf (dispatchCopy_keeps s.params))
  case copyOvl => exact runPlain_moves (copyWith_keeps hf (overlapSafe_keeps s.params))
  case copyNovl => exact runPlain_moves (copyWith_keeps hf (nonOverlapping_keeps s.params))
  case fill => exact runPlain_moves (fillCmd_keeps hf)
  case scale => exact runPlain_moves (scaleCmd_keeps hf)
  case mono => exact runPlain_moves (monoCmd_keeps hf)
  case icon => exact runPlain_moves (iconCmd_keeps hf)
  case cursor => exact runPlain_moves (cursorCmd_keeps hf)
  all_goals exact absurd hi (by decide)

/-- WRITECOLOR and WRITECOLOR_IA keep all but the pixel at DST (41_color_codec R174, R176). -/
theorem exec_keeps_pixel (hi : i = .writeColor ∨ i = .writeColorIa) {f : Fmt} (hf : decodeFmt s.regs.dfmt = some f)
    (h : exec i s = .next t) : KeepsOutside (span s.params s.regs.dst.toNat f.bytes) s.work t.work := by
  obtain rfl | rfl := hi <;> cases h
  · exact runPlain_moves (writeColorWith_keeps hf storePx_keeps)
  · exact runPlain_moves (writeColorWith_keeps hf storePxIa_keeps)

/-- FMT_NAME keeps all but the 28 bytes the longest name and its zero byte take (40_format_metadata R134). -/
theorem exec_fmtName_keeps (h : exec .fmtName s = .next t) :
    KeepsOutside (span s.params s.regs.dst.toNat 28) s.work t.work := by
  cases h
  refine (runRes_moves (fmtNameCmd_keeps s)).mono fun a ⟨k, hk, ha⟩ => ⟨k, ?_, ha⟩
  have := fmtName_length_le (decodeFmt s.regs.sfmt)
  omega

/-- GLYPH keeps all but the `W * H` mask bytes at DST (43_bitmap_decoders R262). -/
theorem exec_glyph_keeps (h : exec .glyph s = .next t) :
    KeepsOutside (span s.params s.regs.dst.toNat (s.regs.w.toNat * s.regs.h.toNat)) s.work t.work := by
  cases h
  exact runPlain_moves (glyphCmd_keeps s)

end

/-- Settles O19: what each command's body keeps, the finished command keeps (`runPlain_moves`, `runRes_moves`). -/
theorem footprints : Obligations.Footprints := by
  refine fun i s t h => ⟨fun hi => ?nothing, ?name, ?glyph, fun hi => ⟨fun hf => ?invalid, fun f hf =>
    ⟨fun hw => exec_keeps_pixel hw hf h, fun h1 h2 => ?rect⟩⟩⟩
  case nothing => exact congrArg Work.mem (exec_same_of_no_destination hi h)
  case name =>
    rintro rfl
    exact exec_fmtName_keeps h
  case glyph =>
    rintro rfl
    exact exec_glyph_keeps h
  case invalid => exact congrArg Work.mem (exec_same_of_decodeFmt_none hi hf h)
  case rect => exact exec_keeps_destRect (by simpa [h1, h2] using hi) hf h

end Sys2Proof.Machine
end
